-- ==== Sys2Proof/Word.lean ====
section
/-! DEFINITION. The word types of RFAL-TSM: the widths of `00_scope.md` R4 and `10_state.md` R16. -/

namespace Sys2Proof

/-- A word of the register block (R29: "32-bit words"), and a BUF address (R50). -/
abbrev Word := BitVec 32

/-- One byte of BUF, of the FIFO or of the scratch buffer. -/
abbrev Byte := BitVec 8

/-- A bit length or a byte counter: `LEN_W` = 16 bits (R4, R18). -/
abbrev Len := BitVec 16

/-- A GT, FDT or FWT value: `TIME_W` = 32 bits (R4, R20). -/
abbrev Time := BitVec 32

end Sys2Proof
end

