-- ==== Sys2Proof/Syntax.lean ====
section
/-! DEFINITION. The host operations of RFAL-TSM (`30_encoding.md` R71), each with the operands of its format
(R72) as typed values, and the enumerations those operands and the outcomes are made of. -/

namespace Sys2Proof

/-- `mode`, the technology (R74). -/
inductive Mode where
  | modeNone
  | pollNfcA
  | pollNfcB
  | pollNfcF
  | pollNfcV
  | pollActiveP2P
  | listenNfcA
  | listenNfcB
  | listenNfcF
  | listenActiveP2P
deriving DecidableEq, Repr, Inhabited

/-- The technology of a mode, as an analog configuration identifier names it (R93). -/
inductive Tech where
  | noTech
  | nfcA
  | nfcB
  | nfcF
  | nfcV
  | activeP2P
deriving DecidableEq, Repr, Inhabited

/-- A bit rate (R75); `keep` is `BR_KEEP`, also the "none detected yet" value of `lm.bitRate`. -/
inductive BitRate where
  | br106
  | br212
  | br424
  | br848
  | keep
deriving DecidableEq, Repr, Inhabited

/-- The error-handling policy (R23, R180). -/
inductive Policy where
  | policyNone
  | policyEMVCo
deriving DecidableEq, Repr, Inhabited

/-- The error taxonomy of R220 with `None` and `Busy`: the values of `status` and `RESULT` (R221). -/
inductive Status where
  | none
  | noMem
  | busy
  | io
  | timeout
  | param
  | system
  | framing
  | notImplemented
  | crc
  | notSupported
  | parity
  | rfCollision
  | wrongState
  | linkLoss
  | incompleteByte
deriving DecidableEq, Repr, Inhabited

/-- One Wake-Up channel record (R27), the meaning of a channel word of format W (R72). -/
structure Channel where
  enabled : Bool
  refAuto : Bool
  autoAvg : Bool
  delta : Byte
  reference : Byte
deriving DecidableEq, Repr, Inhabited

/-- The host operations, one constructor per row of the opcode map R71, with the operands of R72. -/
inductive Instr where
  | initialise
  | setMode (mode : Mode) (txBR rxBR : BitRate)
  | setBitrate (txBR rxBR : BitRate)
  | setFdtPoll (value : Time)
  | setFdtListen (value : Time)
  | setGt (value : Time)
  | setErrorHandling (policy : Policy)
  | fieldOnAndStartGt
  | fieldOff
  | startTransceive (txBuf : Word) (txBufLen : Len) (rxBuf : Word) (rxBufLen : Len) (flags : BitVec 5) (fwt : Time)
  | worker
  | getStatus
  | shortFrameTransceive (txCmd : BitVec 7) (rxBuf : Word) (rxBufLen : Len) (fwt : Time)
  | anticollisionTransceive (buf : Word) (bytesToSend : Byte) (bitsToSend : BitVec 3) (fwt : Time)
  | listenStart (lmMask : BitVec 4) (rxBuf : Word) (rxBufLen : Len)
  | listenStop
  | wakeupStart (amp pha cap : Channel)
  | wakeupStop
deriving DecidableEq, Repr

/-- The six operand registers `ARG[0..5]` (R16). -/
structure Args where
  a0 : Word
  a1 : Word
  a2 : Word
  a3 : Word
  a4 : Word
  a5 : Word
deriving DecidableEq, Repr, Inhabited

/-- The words an operation is issued with: the word written to `CMD` and the operand registers at that
moment (R70). -/
structure OpWords where
  cmd : Word
  arg : Args
deriving DecidableEq, Repr, Inhabited

end Sys2Proof
end

