-- ==== Sys2Proof/Config.lean ====
section
/-! DEFINITION. What an implementation of RFAL-TSM fixes (`00_scope.md` R4) and the values the spec leaves open.

The numbers of R4 that are OPEN (D26: "the model takes it as an argument") are the fields of `Params`; a `State` carries
one `Params`, which no step changes. The OPEN functions are constants without a body. The three `source` values and the
widths are the numbers R4 gives. -/

namespace Sys2Proof

/-- The OPEN numbers of R4. -/
structure Params where
  /-- `FIFO_DEPTH`: bytes the front-end FIFO holds, at least 1. -/
  fifoDepth : Nat
  /-- `FIFO_TX_REFILL`: bytes written per TX refill, 1 to `FIFO_DEPTH`; `LEN_W` bits, since R134 puts it into
  `fifo.expectedWaterLevel` (DEDUCED: log entry 13). -/
  fifoTxRefill : Len
  /-- `FIFO_RX_WL`: RX watermark level, 1 to `FIFO_DEPTH`; `LEN_W` bits for the same reason (R153). -/
  fifoRxWl : Len
  /-- `NRT_MAX`: the "maximum representable timer value" of the no-response timer. -/
  nrtMax : Time
  /-- `GT_MAX`. -/
  gtMax : Time
  /-- `FDT_LISTEN_MAX`. -/
  fdtListenMax : Time
  /-- `FDT_POLL_MAX`. -/
  fdtPollMax : Time
  /-- `NFCV_SCRATCH_SIZE`: scratch buffer bytes. -/
  nfcvScratchSize : Nat
  /-- `BUF_SIZE`: bytes of buffer memory, at least 2, all of them reached by 32-bit addresses (R50). -/
  bufSize : Nat
deriving DecidableEq, Repr

/-- The bounds R4 puts on its OPEN numbers. -/
def Params.wf (p : Params) : Prop :=
  1 ≤ p.fifoDepth ∧ 1 ≤ p.fifoTxRefill.toNat ∧ p.fifoTxRefill.toNat ≤ p.fifoDepth ∧
  1 ≤ p.fifoRxWl.toNat ∧ p.fifoRxWl.toNat ≤ p.fifoDepth ∧ 2 ≤ p.bufSize ∧ p.bufSize ≤ 2 ^ 32

/-- What `NFCV_DECODE` returns (R164): a status of the taxonomy, the payload bytes and their bit count. -/
structure NfcvDecoded where
  status : Status
  bytes : List Byte
  bits : Nat
deriving DecidableEq, Repr, Inhabited

namespace Config

/-- `CRC_LEN` (R4: source §8 "a 2-byte CRC"). -/
def crcLen : Nat := 2

/-- `EMD_THRESHOLD` (R4: source §4.2 "a small threshold (4 bytes)"). -/
def emdThreshold : Nat := 4

/-- `RXE_GUARD_TOUT` (R4: source §4.1 "fixed ~10 time units"). -/
def rxeGuardTout : Nat := 10

/-- An OPEN number of R4, by its place in `Params`; no value is known of it. -/
opaque openNumber : Nat → Nat

/-- The numbers of one block, about which only the bounds of R4 are known: every choice within the bounds is the value
of this definition for some `openNumber`. -/
def params : Params where
  fifoDepth := openNumber 0 + 1
  fifoTxRefill := BitVec.ofNat 16 (openNumber 1 % min (openNumber 0 + 1) 0xFFFF + 1)
  fifoRxWl := BitVec.ofNat 16 (openNumber 2 % min (openNumber 0 + 1) 0xFFFF + 1)
  nrtMax := BitVec.ofNat 32 (openNumber 3)
  gtMax := BitVec.ofNat 32 (openNumber 4)
  fdtListenMax := BitVec.ofNat 32 (openNumber 5)
  fdtPollMax := BitVec.ofNat 32 (openNumber 6)
  nfcvScratchSize := openNumber 7
  bufSize := openNumber 8 % (2 ^ 32 - 1) + 2

/-- The offsets of `FWT_ADJ(mode, rxBR)` (R4), used only where R4 leaves them OPEN. -/
opaque fwtOffset : Mode → BitRate → Nat

/-- `MRT_FROM_FDT(mode, fdtListen)` (R4): the "FDT-Listen-adjusted mask timer value". -/
opaque mrtFromFdt : Mode → Time → Time

/-- `SW_TICKS(v)` (R4): chip-clock units to software-timer units, monotone. -/
opaque swTicks : Nat →o Nat

/-- `NFCV_ENCODE` (R4, R134): the sub-bit-coded stream of a payload, its bit length and the exchange's flags. -/
opaque nfcvEncode : List Byte → Nat → BitVec 5 → List Byte

/-- `NFCV_DECODE` (R4, R164) before its guarantee is applied: raw response, CRC kept, capacity in bytes. -/
opaque nfcvDecodeAny : List Byte → Bool → Nat → NfcvDecoded

/-- A field that R31 leaves unspecified after INITIALIZE: the value of the field numbered by the second argument after
the INITIALIZE numbered by the first. -/
opaque unspecified : Nat → Nat → Word

/-- A byte of `nfcvScratch`, which R31 leaves unspecified after INITIALIZE. -/
opaque unspecifiedScratch : Nat → Nat → Byte

end Config
end Sys2Proof
end

