-- ==== Sys2Proof/Machine/State.lean ====
section
/-! DEFINITION. The state of RFAL-TSM as plain data (`10_state.md`), what can stop a step, and the state after reset.

Three agents act on the state (R58). The block's own state and BUF are the fields of `State`; what the front end, its RF
peer and the platform's software timers hold is in `env`; what the host and the environment will do next is in `agenda`
(between operations) and in `env.script` (inside an operation), so that a statement about every state is a statement
about every behaviour of the host and of the front end. -/

namespace Sys2Proof.Machine

/-- `topState`, the top-level state tag (R11, R77). -/
inductive TopState where
  | notInit
  | init
  | modeSet
  | txRx
  | listen
  | wakeUp
deriving DecidableEq, Repr

/-- `txrxState`, the Transceive State (R12, R78). -/
inductive TxrxState where
  | idle
  | txIdle
  | txWaitGt
  | txWaitFdt
  | txTransmit
  | txWaitWl
  | txReloadFifo
  | txWaitTxe
  | txDone
  | txFail
  | rxIdle
  | rxWaitEon
  | rxWaitRxs
  | rxWaitRxe
  | rxReadFifo
  | rxErrCheck
  | rxReadData
  | rxWaitEof
  | rxDone
  | rxFail
deriving DecidableEq, Repr

/-- `lmState`, the Listen-Mode state (R13, R79, R190). -/
inductive LmState where
  | notInit
  | powerOff
  | idle
  | readyA
  | readyB
  | readyF
  | activeP2P
deriving DecidableEq, Repr

/-- `wuState`, the Wake-Up state (R13, R79, R205). -/
inductive WuState where
  | notInit
  | enabled
  | enabledWoke
deriving DecidableEq, Repr

/-- `ctx`, the engine's copy of the TransceiveContext (R17). The last two fields are the two ways in which R122 and R123
depart from an exchange of START_TRANSCEIVE. -/
structure Ctx where
  txBuf : Word
  txBufLen : Len
  rxBuf : Word
  rxBufLen : Len
  /-- The five option bits of R76. -/
  flags : BitVec 5
  fwt : Time
  /-- `sfByte` (R122): the internal one-byte tx source, where the exchange transmits it instead of bytes of BUF. -/
  sfByte : Option Byte
  /-- R123: the first received byte is OR-ed into BUF instead of overwriting it. -/
  splitByte : Bool
deriving DecidableEq, Repr

/-- FIFO bookkeeping (R18), each `LEN_W` bits. -/
structure FifoBook where
  bytesTotal : Len
  bytesWritten : Len
  expectedWaterLevel : Len
deriving DecidableEq, Repr

/-- The FIFO status cache (R19). `numBytes` is a count ("8 bits or wider, must hold `FIFO_DEPTH`"). -/
structure Cache where
  valid : Bool
  numBytes : Nat
  incompleteBits : BitVec 3
  missingParity : Bool
deriving DecidableEq, Repr

/-- Timing settings and computed timer values (R20, R21); `none` of a setting is 0 (R73). -/
structure Timing where
  gt : Time
  fdtListen : Time
  fdtPoll : Time
  nrtValue : Time
  nrtDisabled : Bool
  mrtValue : Time
deriving DecidableEq, Repr

/-- Listen-Mode Context (R26). -/
structure ListenCtx where
  rxBuf : Word
  rxBufLen : Len
  rxLen : Len
  bitRate : BitRate
  dataFlag : Bool
deriving DecidableEq, Repr

/-- Wake-Up Context (R27). -/
structure WakeCtx where
  amp : Channel
  pha : Channel
  cap : Channel
deriving DecidableEq, Repr

/-- The three software timers (R24): Guard Time, missing-end-of-frame guard, active-mode FWT. -/
inductive SwTimer where
  | gt
  | rxeGuard
  | apFwt
deriving DecidableEq, Repr

/-- The `armed` bits of the software timers (R24), which the block owns. -/
structure SwArmed where
  gt : Bool
  rxeGuard : Bool
  apFwt : Bool
deriving DecidableEq, Repr

/-- What the platform keeps of one software timer (R232): the duration of the last arming and whether it now answers
"expired". -/
structure SwClock where
  duration : Nat
  expired : Bool
deriving DecidableEq, Repr

/-- The three hardware timers of the front end (R233). -/
inductive HwTimer where
  | nrt
  | mrt
  | gpt
deriving DecidableEq, Repr

/-- `Stopped | Armed | Running | Expired` (R28). -/
inductive HwTimerState where
  | stopped
  | armed
  | running
  | expired
deriving DecidableEq, Repr

/-- One hardware timer: its state, and the value it was last started with. -/
structure HwClock where
  state : HwTimerState
  value : Time
deriving DecidableEq, Repr

/-- Front-end commands (R237). -/
inductive FeCommand where
  | setDefault
  | clearFifo
  | txWithCrc
  | txWithoutCrc
  | unmaskRx
  | fieldOnCa
  | resetCa
deriving DecidableEq, Repr

/-- One `FeConfig(item, value)` (R237). -/
inductive FeSetting where
  | mode (m : Mode)
  | bitrate (tx rx : BitRate)
  | nfcvStream (tx rx : BitRate)
  | flags (f : BitVec 5)
  | txLengthBits (n : Nat)
  | nrtEmvMode (on : Bool)
  | txrxEnable (on : Bool)
  | antcl (on : Bool)
  | shortFrame (on : Bool)
  | listenAp2p (on : Bool)
  /-- `FeConfig(WAKEUP, (amp, pha))`, or `off` where there is no pair (R206, R207). -/
  | wakeup (channels : Option (Channel × Channel))
deriving DecidableEq, Repr

/-- The direction of an analog configuration identifier (R93). -/
inductive Direction where
  | tx
  | rx
  | common
deriving DecidableEq, Repr

/-- An analog configuration identifier (R93): listen or poll, technology, bit rate or `COMMON` (no bit rate), direction. -/
structure AnalogId where
  listen : Bool
  tech : Tech
  bitRate : Option BitRate
  direction : Direction
deriving DecidableEq, Repr

/-- The inductive channels `FeMeasure` can measure (R206, R236). -/
inductive MeasureChannel where
  | amp
  | pha
deriving DecidableEq, Repr

/-- The configuration the block wrote with `FeConfig` (R28), item by item: the last value written, or nothing written
since the front end took its defaults (`FeCmd(SET_DEFAULT)`, R90). -/
structure FeConfiguration where
  mode : Option Mode
  bitrate : Option (BitRate × BitRate)
  nfcvStream : Option (BitRate × BitRate)
  flags : Option (BitVec 5)
  txLengthBits : Option Nat
  nrtEmvMode : Option Bool
  txrxEnable : Option Bool
  antcl : Option Bool
  shortFrame : Option Bool
  listenAp2p : Option Bool
  wakeup : Option (Option (Channel × Channel))
deriving DecidableEq, Repr

/-- The front-end state the block observes through Chip-Driver calls (R28), with the values the register reads of R236
would return now. -/
structure FrontEnd where
  irqPending : Word
  irqEnable : Word
  fifo : List Byte
  incompleteBits : BitVec 3
  missingParity : Bool
  nrt : HwClock
  mrt : HwClock
  gpt : HwClock
  config : FeConfiguration
  /-- What `FeCollisionPos()` would return: valid bytes and valid bits (R123). -/
  collisionBytes : Byte
  collisionBits : BitVec 3
  /-- What `FeDetectedBitRate()` would return (R196). -/
  detectedBitRate : BitRate
  /-- What `FeMeasure(amp)` and `FeMeasure(pha)` would return (R206). -/
  measuredAmp : Byte
  measuredPha : Byte
deriving DecidableEq, Repr

/-- One step of the front end, its RF peer or the platform timer (R58, R232, R233). -/
inductive EnvEvent where
  /-- The front end raises flags; only enabled ones are latched. -/
  | raise (flags : Word)
  /-- Received bytes enter the FIFO. -/
  | receive (bytes : List Byte)
  /-- Transmitted bytes leave the FIFO. -/
  | drain (n : Nat)
  | setIncompleteBits (ib : BitVec 3)
  | setMissingParity (mp : Bool)
  /-- An `Armed` hardware timer starts to run. -/
  | timerRun (t : HwTimer)
  /-- A `Running` hardware timer expires. -/
  | timerExpire (t : HwTimer)
  /-- The platform timer answers "expired" for a software timer from now on. -/
  | swExpire (t : SwTimer)
  | setCollisionPos (bytes : Byte) (bits : BitVec 3)
  | setDetectedBitRate (br : BitRate)
  | setMeasured (ch : MeasureChannel) (v : Byte)
deriving DecidableEq, Repr

/-- One event of the trace: a Chip-Driver call with its answer, or a hook (R7, R119, R236). -/
inductive Event where
  | feGetIrq (mask answer : Word)
  | feIrqEnable (mask : Word)
  | feIrqDisable (mask : Word)
  | feCmd (c : FeCommand)
  | feConfig (c : FeSetting)
  | feFifoWrite (bytes : List Byte)
  | feFifoRead (bytes : List Byte)
  | feFifoStatus (numBytes : Nat) (incompleteBits : BitVec 3) (missingParity : Bool)
  | feTimerStart (t : HwTimer) (v : Time)
  | feTimerStop (t : HwTimer)
  | feTimerCheck (t : HwTimer) (answer : HwTimerState)
  | feCollisionPos (bytes : Byte) (bits : BitVec 3)
  | feDetectedBitRate (answer : BitRate)
  | feMeasure (ch : MeasureChannel) (answer : Byte)
  | applyAnalogConfig (id : AnalogId)
  | preTxRx
  | postTxRx
deriving DecidableEq, Repr

/-- What is outside the block: the front end, the platform timer, the steps they will take before each of the next
Chip-Driver calls and timer questions, and the trace (oldest event first). -/
structure Env where
  fe : FrontEnd
  swGt : SwClock
  swRxeGuard : SwClock
  swApFwt : SwClock
  /-- Entry `k` is what the environment does before the `k`-th next Chip-Driver call or timer question; beyond the list
  it does nothing. -/
  script : List (List EnvEvent)
  trace : List Event
deriving DecidableEq, Repr

/-- The size of an access to REG (R55: only word accesses act). -/
inductive AccessSize where
  | byte
  | half
  | word
deriving DecidableEq, Repr

/-- What the host does between operations, or the write to `CMD` that issues one (R29, R50, R58). -/
inductive HostRequest where
  | regWrite (offset : Word) (size : AccessSize) (v : Word)
  | regRead (offset : Word) (size : AccessSize)
  | bufWrite (addr : Word) (b : Byte)
  | bufRead (addr : Word)
deriving DecidableEq, Repr

/-- Who acts next between operations (R58). -/
inductive Move where
  | host (r : HostRequest)
  | env (e : EnvEvent)
deriving DecidableEq, Repr

/-- A byte-addressed memory in canonical form: addresses strictly rising, no entry equal to what an unlisted address
reads as (`Memory.wf` in Ops). -/
abbrev Memory := List Host.Cell

/-- The state of the machine. -/
structure State where
  /-- The block's parameters (R4), which no step changes. -/
  params : Params
  topState : TopState
  txrxState : TxrxState
  lmState : LmState
  wuState : WuState
  /-- `status` (R14). -/
  status : Status
  fieldOn : Bool
  eofSeen : Bool
  /-- `ARG[0..5]` (R16). -/
  arg : Args
  /-- `RESULT` (R16). -/
  result : Status
  ret0 : Word
  ret1 : Word
  ctx : Ctx
  rxRcvdLen : Len
  fifo : FifoBook
  cache : Cache
  timing : Timing
  mode : Mode
  txBR : BitRate
  rxBR : BitRate
  policy : Policy
  sw : SwArmed
  /-- `nfcvScratch` (R25), indexed from 0. -/
  nfcvScratch : Memory
  lm : ListenCtx
  wu : WakeCtx
  /-- BUF (R50). -/
  buf : Memory
  env : Env
  /-- What the host and the environment will do, in order, between operations. -/
  agenda : List Move
  /-- What the last register or BUF read gave the host. -/
  hostData : Word
  /-- How many times INITIALIZE has left fields unspecified (R31): the index of their free values. -/
  initCount : Nat
deriving DecidableEq, Repr

/-- Why the machine stops. -/
inductive Fault where
  /-- Raised by `feFifoWrite`: the write would exceed `FIFO_DEPTH` (R56, U6: "a model must fault"). Safe: nothing is
  claimed past it. -/
  | fifoOverflow
  /-- Raised by `feFifoRead`: fewer bytes present than are read (R56, U6). Safe. -/
  | fifoUnderflow
  /-- Raised by `toLen`: a bit length or byte counter would exceed 65535 (R64(e), U7: "a model must fault there").
  Safe. -/
  | counterOverflow
  /-- Raised by `bufRead`, `bufWrite` and the host's accesses to BUF: the address does not exist (R50, R51). Safe. -/
  | bufOutOfRange
  /-- Raised by the accesses to `nfcvScratch` beyond `NFCV_SCRATCH_SIZE` (R25). Safe. -/
  | scratchOutOfRange
  /-- Raised by the two synchronous spins of R98, R122 and R123 where the environment takes no further step and the spin
  would go on for ever (R262 items 1 and 8: a hang). Safe: the machine is stuck there. -/
  | spinNeverEnds
deriving DecidableEq, Repr

/-- Why an instruction has no meaning. -/
inductive Refusal where
  /-- Raised by `exec` for an instruction the model does not have; no instruction of this model raises it. Safe. -/
  | notModelled (mnemonic : String)
deriving DecidableEq, Repr

/-- A context nobody has loaded (unspecified in R31; DESIGN CHOICE: log entry 2). -/
def Ctx.zero : Ctx where
  txBuf := 0
  txBufLen := 0
  rxBuf := 0
  rxBufLen := 0
  flags := 0
  fwt := 0
  sfByte := none
  splitByte := false

/-- A channel record at reset: `enabled` = 0 (R31), the rest unspecified there (DESIGN CHOICE: log entry 2). -/
def channelZero : Channel := ⟨false, false, false, 0, 0⟩

/-- The front end at power-on, of which the spec gives nothing (R28; DESIGN CHOICE: log entry 3). -/
def FrontEnd.powerOn : FrontEnd where
  irqPending := 0
  irqEnable := 0
  fifo := []
  incompleteBits := 0
  missingParity := false
  nrt := ⟨.stopped, 0⟩
  mrt := ⟨.stopped, 0⟩
  gpt := ⟨.stopped, 0⟩
  config := ⟨none, none, none, none, none, none, none, none, none, none, none⟩
  collisionBytes := 0
  collisionBits := 0
  detectedBitRate := .keep
  measuredAmp := 0
  measuredPha := 0

/-- The environment at power-on: nothing happened, nothing is foreseen. -/
def Env.powerOn : Env where
  fe := FrontEnd.powerOn
  swGt := ⟨0, false⟩
  swRxeGuard := ⟨0, false⟩
  swApFwt := ⟨0, false⟩
  script := []
  trace := []

/-- The machine right after hardware reset (R31, R250). -/
def State.reset : State where
  params := Config.params
  topState := .notInit
  txrxState := .idle
  lmState := .notInit
  wuState := .notInit
  status := .none
  fieldOn := false
  eofSeen := false
  arg := ⟨0, 0, 0, 0, 0, 0⟩
  result := .none
  ret0 := 0
  ret1 := 0
  ctx := Ctx.zero
  rxRcvdLen := 0
  fifo := ⟨0, 0, 0⟩
  cache := ⟨false, 0, 0, false⟩
  timing := ⟨0, 0, 0, 0, true, 0⟩
  mode := .modeNone
  txBR := .br106
  rxBR := .br106
  policy := .policyNone
  sw := ⟨false, false, false⟩
  nfcvScratch := []
  lm := ⟨0, 0, 0, .keep, false⟩
  wu := ⟨channelZero, channelZero, channelZero⟩
  buf := []
  env := Env.powerOn
  agenda := []
  hostData := 0
  initCount := 0

end Sys2Proof.Machine
end

