-- ==== Sys2Proof/Machine/Flags.lean ====
section
/-! DEFINITION. Interrupt flags and their groups (`60_exceptions.md` R226, R227), the codes of the state tags and of the
status values (`30_encoding.md` R77 to R79, R221), the option bits (R76), and the error classification of a reception
(`43_rx_submachine.md` R158 with `44_error_policy.md` R181, R182). -/

namespace Sys2Proof.Machine

/-! ## Interrupt flags (R226) -/

/-- FIFO water level. -/
def irqWL : Word := 0x00000001
/-- Reception end. -/
def irqRXE : Word := 0x00000002
/-- Reception start. -/
def irqRXS : Word := 0x00000004
/-- Transmission end. -/
def irqTXE : Word := 0x00000008
/-- Bit collision. -/
def irqCOL : Word := 0x00000010
/-- No-response timer expired. -/
def irqNRE : Word := 0x00000020
/-- CRC error. -/
def irqCRC : Word := 0x00000040
/-- Parity error. -/
def irqPAR : Word := 0x00000080
/-- Soft framing error. -/
def irqERR2 : Word := 0x00000100
/-- Hard framing error. -/
def irqERR1 : Word := 0x00000200
/-- External field on. -/
def irqEON : Word := 0x00000400
/-- External field off. -/
def irqEOF : Word := 0x00000800
/-- Collision during RF collision avoidance. -/
def irqCAC : Word := 0x00001000
/-- Collision avoidance finished, field on. -/
def irqCAT : Word := 0x00002000
/-- Peer bit rate detected. -/
def irqNFCT : Word := 0x00004000
/-- Wake-up amplitude threshold exceeded. -/
def irqWAM : Word := 0x00008000
/-- Wake-up phase threshold exceeded. -/
def irqWPH : Word := 0x00010000
/-- Wake-up capacitive threshold exceeded; never enabled. -/
def irqWCAP : Word := 0x00020000

/-- `ALL`: every flag of R226; bits 18 to 31 are 0 (R227). -/
def irqAll : Word := 0x0003FFFF

/-- `TXRX_IRQS` (R227). -/
def txrxIrqs : Word :=
  irqWL ||| irqRXE ||| irqRXS ||| irqTXE ||| irqCOL ||| irqNRE ||| irqCRC ||| irqPAR ||| irqERR2 ||| irqERR1 |||
    irqEON ||| irqEOF

/-- `LM_IRQS` (R227). -/
def lmIrqs : Word := irqEON ||| irqEOF ||| irqNFCT ||| irqRXE ||| irqPAR ||| irqCRC ||| irqERR1

/-- The set `i` holds one of the flags `m`. -/
def has (i m : Word) : Bool := i &&& m != 0

/-! ## Option bits of an exchange (R76) -/

/-- `CRC_TX_MANUAL` = 1. -/
def crcTxManual (f : BitVec 5) : Bool := f.getLsbD 0
/-- `CRC_RX_KEEP` = 1. -/
def crcRxKeep (f : BitVec 5) : Bool := f.getLsbD 1
/-- `CRC_TX_MANUAL | CRC_RX_KEEP`, the flags of R122 and R123. -/
def crcManualKeep : BitVec 5 := 0b00011

/-! ## Codes -/

/-- Codes of `topState` (R77). -/
def topStateCode : TopState → BitVec 3
  | .notInit => 0
  | .init => 1
  | .modeSet => 2
  | .txRx => 3
  | .listen => 4
  | .wakeUp => 5

/-- Codes of `txrxState` (R78). -/
def txrxStateCode : TxrxState → BitVec 8
  | .idle => 0x00
  | .txIdle => 0x10
  | .txWaitGt => 0x11
  | .txWaitFdt => 0x12
  | .txTransmit => 0x13
  | .txWaitWl => 0x14
  | .txReloadFifo => 0x15
  | .txWaitTxe => 0x16
  | .txDone => 0x17
  | .txFail => 0x18
  | .rxIdle => 0x20
  | .rxWaitEon => 0x21
  | .rxWaitRxs => 0x22
  | .rxWaitRxe => 0x23
  | .rxReadFifo => 0x24
  | .rxErrCheck => 0x25
  | .rxReadData => 0x26
  | .rxWaitEof => 0x27
  | .rxDone => 0x28
  | .rxFail => 0x29

/-- The group of a Transceive State: `code[7:4]`, 0 idle, 1 tx-phase, 2 rx-phase (R78). -/
def txrxGroup (t : TxrxState) : BitVec 4 := (txrxStateCode t).extractLsb' 4 4

/-- Codes of `lmState` (R79). -/
def lmStateCode : LmState → BitVec 4
  | .notInit => 0
  | .powerOff => 1
  | .idle => 2
  | .readyA => 3
  | .readyB => 4
  | .readyF => 5
  | .activeP2P => 6

/-- Codes of `wuState` (R79). -/
def wuStateCode : WuState → BitVec 2
  | .notInit => 0
  | .enabled => 1
  | .enabledWoke => 2

/-- Return and status codes (R221). -/
def statusCode : Status → BitVec 8
  | .none => 0
  | .noMem => 1
  | .busy => 2
  | .io => 3
  | .timeout => 4
  | .param => 7
  | .system => 8
  | .framing => 9
  | .notImplemented => 15
  | .crc => 21
  | .notSupported => 24
  | .parity => 27
  | .rfCollision => 29
  | .wrongState => 33
  | .linkLoss => 37
  | .incompleteByte => 40

/-- `topState < bound`, on the codes (R11, R77). -/
def below (t bound : TopState) : Bool := (topStateCode t).toNat < (topStateCode bound).toNat

/-! ## Error classification -/

/-- The result of `Classify` (R158). -/
inductive Verdict where
  | noError
  | nfcaIncomplete
  | error (e : Status)
deriving DecidableEq, Repr

/-- `NfcaShortReply(e, n, ib)` (R181); `total` is `fifo.bytesTotal`. -/
def nfcaShortReply (policy : Policy) (mode : Mode) (total : Nat) (e : Word) (n : Nat) (ib : BitVec 3) : Bool :=
  policy == .policyNone && mode == .pollNfcA && (has e irqPAR || has e irqCRC) && ib != 0 && n == 1 && total == 0

/-- `Classify(e, n, ib, mp)`, the error-check priority (R158). -/
def classify (policy : Policy) (mode : Mode) (total : Nat) (e : Word) (n : Nat) (ib : BitVec 3) (mp : Bool) : Verdict :=
  if has e irqERR1 then .error .framing
  else if nfcaShortReply policy mode total e n ib then .nfcaIncomplete
  else if has e irqERR2 && policy == .policyEMVCo then .error .framing
  else if has e irqPAR then .error .parity
  else if has e irqCRC then .error .crc
  else if has e irqCOL then .error .rfCollision
  else if ib != 0 then .error .incompleteByte
  else if mp then .error .framing
  else .noError

/-- The error kinds the EMVCo filter discards (R182). -/
def emdKind : Status → Bool
  | .rfCollision | .framing | .parity | .crc | .incompleteByte => true
  | _ => false

/-- `EmdDiscard(err, n)` (R182); `total` is `fifo.bytesTotal`. -/
def emdDiscard (policy : Policy) (total : Nat) (err : Status) (n : Nat) : Bool :=
  policy == .policyEMVCo && emdKind err && decide (total + n < Config.emdThreshold)

end Sys2Proof.Machine
end

