-- ==== Sys2Proof/Machine/Operands.lean ====
section
/-! DEFINITION. What the operations compute from their operands: the arithmetic laws of `20_memory.md` R64, buffer bounds
(R51), the predicates on modes (R74), and the OPEN functions of `00_scope.md` R4 as the rules apply them. -/

namespace Sys2Proof.Machine

/-- `NULL` (R51). -/
def nullAddr : Word := 0

/-- The `none` of a `fwt` operand: "wait indefinitely" (R73). -/
def fwtNone : Time := 0xFFFFFFFF

/-- `ceil8(n) = (n + 7) div 8` (R64(a)). -/
def ceil8 (n : Nat) : Nat := (n + 7) / 8

/-- `strip(L)` (R64(c)). -/
def strip (l : Nat) : Nat := if Config.crcLen < l then l - Config.crcLen else l

/-- `satadd(a, b, M)` for a timer value (R5, R64(d)). -/
def satadd (a b : Nat) (m : Time) : Time := BitVec.ofNat 32 (min (a + b) m.toNat)

/-- The clamp of a setting: `min(v, MAX)` (R64(d)). -/
def clampTime (v m : Time) : Time := if v.toNat ≤ m.toNat then v else m

/-- `BitLen(Lrep, ib)` (R163). -/
def bitLen (lrep : Nat) (ib : BitVec 3) : Nat :=
  if ib ≠ 0 ∧ 0 < lrep then 8 * lrep - (8 - ib.toNat) else 8 * lrep

/-- A counter of `LEN_W` bits; a result above 65535 is outside the specified behaviour (R64(e)). -/
def toLen (n : Nat) : Except Fault Len :=
  if n < 65536 then .ok (BitVec.ofNat 16 n) else .error .counterOverflow

/-- The buffer `(a, lenBits)` is in bounds (R51). -/
def inBounds (p : Params) (a : Word) (lenBits : Nat) : Bool :=
  a != nullAddr && decide (a.toNat + ceil8 lenBits ≤ p.bufSize)

/-- `IsActive(mode)` (R74). -/
def isActive : Mode → Bool
  | .pollActiveP2P | .listenActiveP2P => true
  | _ => false

/-- `IsListen(mode)` (R74). -/
def isListen : Mode → Bool
  | .listenNfcA | .listenNfcB | .listenNfcF | .listenActiveP2P => true
  | _ => false

/-- The passive listen modes, which SET_MODE does not support (R91). -/
def isPassiveListen : Mode → Bool
  | .listenNfcA | .listenNfcB | .listenNfcF => true
  | _ => false

/-- The technology of a mode (R93). -/
def techOf : Mode → Tech
  | .modeNone => .noTech
  | .pollNfcA | .listenNfcA => .nfcA
  | .pollNfcB | .listenNfcB => .nfcB
  | .pollNfcF | .listenNfcF => .nfcF
  | .pollNfcV => .nfcV
  | .pollActiveP2P | .listenActiveP2P => .activeP2P

/-- `id(mode, COMMON)` (R91, R93). -/
def commonId (m : Mode) : AnalogId := ⟨isListen m, techOf m, none, .common⟩

/-- `id(mode, rate, direction)` (R92, R93). -/
def rateId (m : Mode) (br : BitRate) (d : Direction) : AnalogId := ⟨isListen m, techOf m, some br, d⟩

/-- `FWT_ADJ(mode, rxBR)` (R4): OPEN for NFC-A, NFC-B and NFC-F at 212 or 424, 0 elsewhere. -/
def fwtAdj (m : Mode) (br : BitRate) : Nat :=
  match techOf m, br with
  | .nfcA, _ | .nfcB, _ | .nfcF, .br212 | .nfcF, .br424 => Config.fwtOffset m br
  | _, _ => 0

/-- `SW_TICKS(v)` (R4). -/
def swTicks (v : Time) : Nat := Config.swTicks v.toNat

/-- `NFCV_DECODE` with its guarantee that the payload fits the capacity (R164); `Busy` is no outcome of a decoder
(R220; DEDUCED: log entry 16). -/
def nfcvDecode (raw : List Byte) (keepCrc : Bool) (capacity : Nat) : NfcvDecoded :=
  let d := Config.nfcvDecodeAny raw keepCrc capacity
  { d with bytes := d.bytes.take capacity, status := if d.status = .busy then .none else d.status }

/-- Wake-up flags of the enabled inductive channels (R206, R208). -/
def wakeMask (w : WakeCtx) : Word :=
  (if w.amp.enabled then irqWAM else 0) ||| (if w.pha.enabled then irqWPH else 0)

/-- Capacity `cap` of the destination of a reception, in bytes (R151). -/
def rxCap (s : State) : Nat :=
  if s.mode = .pollNfcV then s.params.nfcvScratchSize else ceil8 s.ctx.rxBufLen.toNat

/-- `ctx.txBuf = NULL`: the exchange has no tx buffer (R119, R153). The internal source of R122 is one. -/
def Ctx.txAbsent (c : Ctx) : Bool := c.txBuf == nullAddr && c.sfByte.isNone

/-- The five options as START_TRANSCEIVE loads them (R110): `ctx.txBuf` is `NULL` if the tx buffer is absent. -/
def loadedCtx (txBuf : Word) (txBufLen : Len) (rxBuf : Word) (rxBufLen : Len) (flags : BitVec 5) (fwt : Time) : Ctx where
  txBuf := if txBuf ≠ nullAddr ∧ txBufLen ≠ 0 then txBuf else nullAddr
  txBufLen := txBufLen
  rxBuf := rxBuf
  rxBufLen := rxBufLen
  flags := flags
  fwt := fwt
  sfByte := none
  splitByte := false

end Sys2Proof.Machine
end

