-- ==== Sys2Proof/Machine/Ops.lean ====
section
/-! DEFINITION. The named operations every meaning is made of: memory (`20_memory.md` R50 to R56), the environment's
steps (R58), the Chip-Driver calls (`60_exceptions.md` R236), the timers (R232, R233), the FIFO status cache (R19), and
the completion of an exchange, which is this block's "trap entry" (R230, R118). -/

namespace Sys2Proof.Machine

/-- A part of an operation: the state after it, or the fault that stops the machine. -/
abbrev Run := Except Fault State

/-- The outcome of an operation. -/
abbrev Result := Host.Outcome State Fault Refusal

/-! ## Memory -/

/-- What an unlisted address reads as: 0 (DESIGN CHOICE: log entry 4). -/
def unlistedByte : Byte := 0

/-- One byte of a memory. -/
def readByte : Memory → Nat → Byte
  | [], _ => unlistedByte
  | (b, v) :: rest, a => if a = b then v else readByte rest a

/-- Write one byte, keeping the canonical form: writing what an unlisted address reads as removes the entry. -/
def writeByte : Memory → Nat → Byte → Memory
  | [], a, v => if v = unlistedByte then [] else [(a, v)]
  | (b, w) :: rest, a, v =>
    if a < b then (if v = unlistedByte then (b, w) :: rest else (a, v) :: (b, w) :: rest)
    else if a = b then (if v = unlistedByte then rest else (a, v) :: rest)
    else (b, w) :: writeByte rest a v

/-- `n` bytes from address `a` upward (R6, R52). -/
def readBytes (m : Memory) (a : Nat) : Nat → List Byte
  | 0 => []
  | n + 1 => readByte m a :: readBytes m (a + 1) n

/-- Write bytes from address `a` upward, in increasing address order (R52, R56). -/
def writeBytes (m : Memory) (a : Nat) : List Byte → Memory
  | [] => m
  | b :: bs => writeBytes (writeByte m a b) (a + 1) bs

/-- The canonical form: addresses strictly rising, every one above `lo`, no entry that an unlisted address reads as. -/
def wfFrom : Nat → Memory → Bool
  | _, [] => true
  | lo, (a, v) :: rest => decide (lo ≤ a) && v != unlistedByte && wfFrom (a + 1) rest

/-- The memory is in canonical form. -/
def Memory.wf (m : Memory) : Bool := wfFrom 0 m

/-- The block may access `BUF[a ..+ n)`: nothing for `n` = 0, else addresses from 1 to `BUF_SIZE - 1` (R51). -/
def bufAccessOk (p : Params) (a n : Nat) : Bool := n == 0 || (decide (1 ≤ a) && decide (a + n ≤ p.bufSize))

/-- The block reads `BUF[a ..+ n)`. -/
def bufRead (a n : Nat) (s : State) : Except Fault (List Byte) :=
  if bufAccessOk s.params a n then .ok (readBytes s.buf a n) else .error .bufOutOfRange

/-- The block writes `BUF[a ..+ |bytes|)`. -/
def bufWrite (a : Nat) (bytes : List Byte) (s : State) : Run :=
  if bufAccessOk s.params a bytes.length then .ok { s with buf := writeBytes s.buf a bytes } else .error .bufOutOfRange

/-- The block reads `nfcvScratch[i ..+ n)` (R25). -/
def scratchRead (i n : Nat) (s : State) : Except Fault (List Byte) :=
  if i + n ≤ s.params.nfcvScratchSize then .ok (readBytes s.nfcvScratch i n) else .error .scratchOutOfRange

/-- The block writes `nfcvScratch[i ..+ |bytes|)` (R25). -/
def scratchWrite (i : Nat) (bytes : List Byte) (s : State) : Run :=
  if i + bytes.length ≤ s.params.nfcvScratchSize then .ok { s with nfcvScratch := writeBytes s.nfcvScratch i bytes }
  else .error .scratchOutOfRange

/-! ## The environment's steps (R58) -/

/-- Raise flags: only flags in `fe.irqEnable` are latched, and bits 18 to 31 are 0 (R225, R226). -/
def raiseFlags (flags : Word) (f : FrontEnd) : FrontEnd :=
  { f with irqPending := f.irqPending ||| (flags &&& f.irqEnable &&& irqAll) }

/-- Received bytes enter the FIFO, which holds at most `FIFO_DEPTH` bytes (R28). -/
def receiveBytes (depth : Nat) (bytes : List Byte) (f : FrontEnd) : FrontEnd :=
  { f with fifo := f.fifo ++ bytes.take (depth - f.fifo.length) }

/-- A hardware timer of the front end. -/
def hwClock (t : HwTimer) (f : FrontEnd) : HwClock :=
  match t with
  | .nrt => f.nrt
  | .mrt => f.mrt
  | .gpt => f.gpt

/-- Set a hardware timer of the front end. -/
def setHwClock (t : HwTimer) (c : HwClock) (f : FrontEnd) : FrontEnd :=
  match t with
  | .nrt => { f with nrt := c }
  | .mrt => { f with mrt := c }
  | .gpt => { f with gpt := c }

/-- The front end moves a timer from one state to the next, if it is in the first (R58). -/
def moveHwClock (t : HwTimer) (old new : HwTimerState) (f : FrontEnd) : FrontEnd :=
  if (hwClock t f).state = old then setHwClock t { hwClock t f with state := new } f else f

/-- What the platform keeps of a software timer. -/
def swClock (t : SwTimer) (v : Env) : SwClock :=
  match t with
  | .gt => v.swGt
  | .rxeGuard => v.swRxeGuard
  | .apFwt => v.swApFwt

/-- Set what the platform keeps of a software timer. -/
def setSwClock (t : SwTimer) (c : SwClock) (v : Env) : Env :=
  match t with
  | .gt => { v with swGt := c }
  | .rxeGuard => { v with swRxeGuard := c }
  | .apFwt => { v with swApFwt := c }

/-- One step of the environment (R58, R232, R233). -/
def applyEvent (depth : Nat) (e : EnvEvent) (v : Env) : Env :=
  match e with
  | .raise flags => { v with fe := raiseFlags flags v.fe }
  | .receive bytes => { v with fe := receiveBytes depth bytes v.fe }
  | .drain n => { v with fe := { v.fe with fifo := v.fe.fifo.drop n } }
  | .setIncompleteBits ib => { v with fe := { v.fe with incompleteBits := ib } }
  | .setMissingParity mp => { v with fe := { v.fe with missingParity := mp } }
  | .timerRun t => { v with fe := moveHwClock t .armed .running v.fe }
  | .timerExpire t => { v with fe := moveHwClock t .running .expired v.fe }
  | .swExpire t => setSwClock t { swClock t v with expired := true } v
  | .setCollisionPos bytes bits => { v with fe := { v.fe with collisionBytes := bytes, collisionBits := bits } }
  | .setDetectedBitRate br => { v with fe := { v.fe with detectedBitRate := br } }
  | .setMeasured .amp x => { v with fe := { v.fe with measuredAmp := x } }
  | .setMeasured .pha x => { v with fe := { v.fe with measuredPha := x } }

/-- Steps of the environment, in order. -/
def applyEvents (depth : Nat) : List EnvEvent → Env → Env
  | [], v => v
  | e :: es, v => applyEvents depth es (applyEvent depth e v)

/-- The environment acts before a Chip-Driver call or a timer question: it takes the next entry of its script (R58, D35;
DESIGN CHOICE: log entry 5). -/
def envTurn (depth : Nat) (v : Env) : Env :=
  match v.script with
  | [] => v
  | es :: rest => applyEvents depth es { v with script := rest }

/-! ## Chip-Driver calls (R236) -/

/-- Put an event at the end of the trace (R7). -/
def logEvent (e : Event) (v : Env) : Env := { v with trace := v.trace ++ [e] }

/-- The state in which the next Chip-Driver call finds the environment: it has taken its turn. -/
def atCall (s : State) : State := { s with env := envTurn s.params.fifoDepth s.env }

/-- An event of the trace; `emit PRE_TXRX` and `emit POST_TXRX` are events without a Chip-Driver call (R119). -/
def emit (e : Event) (s : State) : State := { s with env := logEvent e s.env }

/-- Change what the front end holds. -/
def withFe (effect : FrontEnd → FrontEnd) (s : State) : State :=
  { s with env := { s.env with fe := effect s.env.fe } }

/-- One Chip-Driver call without an answer: the environment's turn, the call's effect on the front end, its event. -/
def feCall (e : Event) (effect : FrontEnd → FrontEnd) (s : State) : State := emit e (withFe effect (atCall s))

/-- The effect of a command on the front-end state the block observes (R50 `FeCmd(CLEAR_FIFO)`, R90 "front end to
defaults"); the other commands change it only through the front end's own steps. -/
def commandEffect (c : FeCommand) (f : FrontEnd) : FrontEnd :=
  match c with
  | .clearFifo => { f with fifo := [] }
  | .setDefault => { f with config := ⟨none, none, none, none, none, none, none, none, none, none, none⟩ }
  | .txWithCrc | .txWithoutCrc | .unmaskRx | .fieldOnCa | .resetCa => f

/-- `FeCmd(c)` (R237). -/
def feCmd (c : FeCommand) (s : State) : State := feCall (.feCmd c) (commandEffect c) s

/-- The configuration after one more `FeConfig` (R28, R237). -/
def putSetting (c : FeSetting) (g : FeConfiguration) : FeConfiguration :=
  match c with
  | .mode m => { g with mode := some m }
  | .bitrate t r => { g with bitrate := some (t, r) }
  | .nfcvStream t r => { g with nfcvStream := some (t, r) }
  | .flags f => { g with flags := some f }
  | .txLengthBits n => { g with txLengthBits := some n }
  | .nrtEmvMode b => { g with nrtEmvMode := some b }
  | .txrxEnable b => { g with txrxEnable := some b }
  | .antcl b => { g with antcl := some b }
  | .shortFrame b => { g with shortFrame := some b }
  | .listenAp2p b => { g with listenAp2p := some b }
  | .wakeup c => { g with wakeup := some c }

/-- `FeConfig(item, value)` (R237). -/
def feConfig (c : FeSetting) (s : State) : State :=
  feCall (.feConfig c) (fun f => { f with config := putSetting c f.config }) s

/-- `ApplyAnalogConfig(id)` (R93): one event, nothing returned. -/
def applyAnalogConfig (id : AnalogId) (s : State) : State := feCall (.applyAnalogConfig id) (fun f => f) s

/-- `FeIrqEnable(mask)` (R226, R236). -/
def feIrqEnable (mask : Word) (s : State) : State :=
  feCall (.feIrqEnable mask) (fun f => { f with irqEnable := f.irqEnable ||| mask }) s

/-- `FeIrqDisable(mask)` (R226, R236). -/
def feIrqDisable (mask : Word) (s : State) : State :=
  feCall (.feIrqDisable mask) (fun f => { f with irqEnable := f.irqEnable &&& ~~~mask }) s

/-- What `FeGetIrq(mask)` would answer now: `fe.irqPending ∩ mask` (R56). -/
def pendingIn (mask : Word) (s : State) : Word := s.env.fe.irqPending &&& mask

/-- `FeGetIrq(mask)`: the pending flags of the mask, which the call clears (R56, R225). -/
def feGetIrq (mask : Word) (s : State) : Word × State :=
  let s := atCall s
  let i := pendingIn mask s
  (i, emit (.feGetIrq mask i) (withFe (fun f => { f with irqPending := f.irqPending &&& ~~~mask }) s))

/-- `discard FeGetIrq(mask)`. -/
def feDiscardIrq (mask : Word) (s : State) : State := (feGetIrq mask s).2

/-- `FeTimerStart(t, v)`: the timer is `Armed` with value `v` (R233). -/
def feTimerStart (t : HwTimer) (v : Time) (s : State) : State :=
  feCall (.feTimerStart t v) (setHwClock t ⟨.armed, v⟩) s

/-- `FeTimerStop(t)`: the timer is `Stopped` (R233). -/
def feTimerStop (t : HwTimer) (s : State) : State :=
  feCall (.feTimerStop t) (fun f => setHwClock t { hwClock t f with state := .stopped } f) s

/-- `FeTimerCheck(t)`: the timer's state (R233). -/
def feTimerCheck (t : HwTimer) (s : State) : HwTimerState × State :=
  let s := atCall s
  let a := (hwClock t s.env.fe).state
  (a, emit (.feTimerCheck t a) s)

/-- `FeFifoWrite(bytes)` (R56): appends; a write beyond `FIFO_DEPTH` faults; writing nothing is no call. -/
def feFifoWrite (bytes : List Byte) (s : State) : Run :=
  if bytes = [] then .ok s
  else
    let s := atCall s
    if s.env.fe.fifo.length + bytes.length ≤ s.params.fifoDepth then
      .ok (emit (.feFifoWrite bytes) (withFe (fun f => { f with fifo := f.fifo ++ bytes }) s))
    else .error .fifoOverflow

/-- `FeFifoRead(n)` (R56): removes and returns the first `n` bytes; fewer present faults; reading nothing is no call. -/
def feFifoRead (n : Nat) (s : State) : Except Fault (List Byte × State) :=
  if n = 0 then .ok ([], s)
  else
    let s := atCall s
    let bytes := s.env.fe.fifo.take n
    if n ≤ s.env.fe.fifo.length then
      .ok (bytes, emit (.feFifoRead bytes) (withFe (fun f => { f with fifo := f.fifo.drop n }) s))
    else .error .fifoUnderflow

/-- `FeCollisionPos()` (R123): valid bytes and valid bits. -/
def feCollisionPos (s : State) : (Byte × BitVec 3) × State :=
  let s := atCall s
  ((s.env.fe.collisionBytes, s.env.fe.collisionBits),
    emit (.feCollisionPos s.env.fe.collisionBytes s.env.fe.collisionBits) s)

/-- `FeDetectedBitRate()` (R196). -/
def feDetectedBitRate (s : State) : BitRate × State :=
  let s := atCall s
  (s.env.fe.detectedBitRate, emit (.feDetectedBitRate s.env.fe.detectedBitRate) s)

/-- `FeMeasure(ch)` (R206). -/
def feMeasure (ch : MeasureChannel) (s : State) : Byte × State :=
  let s := atCall s
  let v := match ch with
    | .amp => s.env.fe.measuredAmp
    | .pha => s.env.fe.measuredPha
  (v, emit (.feMeasure ch v) s)

/-! ## FIFO status cache (R19, R62) -/

/-- `CacheInvalidate()`. -/
def cacheInvalidate (s : State) : State := { s with cache := { s.cache with valid := false } }

/-- `FifoStatus()`: the state in which the cache holds a snapshot, taken now if it held none. -/
def fifoStatus (s : State) : State :=
  if s.cache.valid then s
  else
    let s := atCall s
    let f := s.env.fe
    { emit (.feFifoStatus f.fifo.length f.incompleteBits f.missingParity) s with
      cache := ⟨true, f.fifo.length, f.incompleteBits, f.missingParity⟩ }

/-! ## Software timers (R232) -/

/-- Set the `armed` bit of a software timer. -/
def setArmed (t : SwTimer) (b : Bool) (s : State) : State :=
  match t with
  | .gt => { s with sw := { s.sw with gt := b } }
  | .rxeGuard => { s with sw := { s.sw with rxeGuard := b } }
  | .apFwt => { s with sw := { s.sw with apFwt := b } }

/-- `SwArm(t, d)`: armed, and the platform starts an interval of `d` units. -/
def swArm (t : SwTimer) (d : Nat) (s : State) : State :=
  setArmed t true { s with env := setSwClock t ⟨d, false⟩ s.env }

/-- `SwDisarm(t)`. -/
def swDisarm (t : SwTimer) (s : State) : State := setArmed t false s

/-- `SwExpired(t)`, a question to the environment; it is not a Chip-Driver call and leaves no event. -/
def swExpired (t : SwTimer) (s : State) : Bool × State :=
  let s := atCall s
  ((swClock t s.env).expired, s)

/-! ## Completion of an exchange (R118, R230) -/

/-- `Cleanup()`: restore the option defaults, disable the exchange's flags, disarm the reception timers, then the hook
(R118, D24). -/
def cleanup (s : State) : State :=
  emit .postTxRx (swDisarm .apFwt (swDisarm .rxeGuard (feIrqDisable txrxIrqs (feConfig (.flags 0) s))))

/-- The exchange ends: Cleanup runs, `status` is recorded, the state is `IDLE` (R138, R139, R166, R167, R230). -/
def endExchange (st : Status) (s : State) : State := { cleanup s with status := st, txrxState := .idle }

/-! ## The end of a host operation (R70) -/

/-- `return E`: the return code is written to `RESULT` and the operation ends (R6). -/
def finish (code : Status) (s : State) : Result := .next { s with result := code }

/-- The operation goes on after a part of it. -/
def andThen (r : Run) (k : State → Result) : Result :=
  match r with
  | .ok s => k s
  | .error f => .fault f

end Sys2Proof.Machine
end

