-- ==== Sys2Proof/Machine/Control.lean ====
section
/-! DEFINITION. The configuration and field-control operations (`40_config_ops.md`): INITIALIZE, SET_MODE, SET_BITRATE,
SET_FDT_POLL, SET_FDT_LISTEN, SET_GT, SET_ERROR_HANDLING, FIELD_ON_AND_START_GT, FIELD_OFF. -/

namespace Sys2Proof.Machine

/-- A context of unspecified contents (R31), after the `n`-th INITIALIZE. -/
def unspecifiedCtx (n : Nat) : Ctx where
  txBuf := Config.unspecified n 0
  txBufLen := (Config.unspecified n 1).setWidth 16
  rxBuf := Config.unspecified n 2
  rxBufLen := (Config.unspecified n 3).setWidth 16
  flags := (Config.unspecified n 4).setWidth 5
  fwt := Config.unspecified n 5
  sfByte := none
  splitByte := false

/-- A channel record with `enabled` = 0 and the rest unspecified (R31); `k` numbers its field. -/
def unspecifiedChannel (n k : Nat) : Channel where
  enabled := false
  refAuto := (Config.unspecified n k).getLsbD 0
  autoAvg := (Config.unspecified n k).getLsbD 1
  delta := (Config.unspecified n k).extractLsb' 8 8
  reference := (Config.unspecified n k).extractLsb' 16 8

/-- A scratch buffer of unspecified contents (R31). -/
def unspecifiedScratch (n size : Nat) : Memory :=
  writeBytes [] 0 ((List.range size).map (Config.unspecifiedScratch n))

/-- "Set every field to its value in R31" (R90). The fields R31 leaves unspecified take free values (DESIGN CHOICE: log
entry 7); `ARG` is never written by the block (R16); BUF, the front end, the host's side and the parameters are not block
state (R31, R28, R32). -/
def initialValues (s : State) : State where
  params := s.params
  topState := .notInit
  txrxState := .idle
  lmState := .notInit
  wuState := .notInit
  status := .none
  fieldOn := false
  eofSeen := false
  arg := s.arg
  result := .none
  ret0 := 0
  ret1 := 0
  ctx := unspecifiedCtx s.initCount
  rxRcvdLen := 0
  fifo := ⟨0, 0, 0⟩
  cache := ⟨false, (Config.unspecified s.initCount 6).toNat, (Config.unspecified s.initCount 7).setWidth 3,
    (Config.unspecified s.initCount 8).getLsbD 0⟩
  timing := ⟨0, 0, 0, 0, true, 0⟩
  mode := .modeNone
  txBR := .br106
  rxBR := .br106
  policy := .policyNone
  sw := ⟨false, false, false⟩
  nfcvScratch := unspecifiedScratch s.initCount s.params.nfcvScratchSize
  lm := ⟨Config.unspecified s.initCount 9, (Config.unspecified s.initCount 10).setWidth 16, 0, .keep, false⟩
  wu := ⟨unspecifiedChannel s.initCount 11, unspecifiedChannel s.initCount 12, unspecifiedChannel s.initCount 13⟩
  buf := s.buf
  env := s.env
  agenda := s.agenda
  hostData := s.hostData
  initCount := s.initCount + 1

/-- The front-end calls of INITIALIZE (R90). -/
def initFrontEnd (s : State) : State :=
  feTimerStop .gpt (feTimerStop .mrt (feTimerStop .nrt
    (feDiscardIrq irqAll (feIrqDisable irqAll (feCmd .setDefault s)))))

/-- INITIALIZE (R90): a running exchange is cleaned up, Listen and Wake-Up are abandoned. -/
def execInitialise (s : State) : Result :=
  let s := if s.txrxState = .idle then s else cleanup s
  finish .none { initFrontEnd (initialValues s) with topState := .init }

/-- The rate kept or replaced: `BR_KEEP` leaves it unchanged (R75, R92). -/
def newRate (operand old : BitRate) : BitRate := if operand = .keep then old else operand

/-- The effect of SET_BITRATE once it is accepted (R92). -/
def applyBitrate (txBR rxBR : BitRate) (s : State) : State :=
  let s := { s with txBR := newRate txBR s.txBR, rxBR := newRate rxBR s.rxBR }
  let s := feConfig (.bitrate s.txBR s.rxBR) s
  let s := applyAnalogConfig (rateId s.mode s.rxBR .rx) (applyAnalogConfig (rateId s.mode s.txBR .tx) s)
  if s.mode = .pollNfcV then feConfig (.nfcvStream s.txBR s.rxBR) s else s

/-- SET_BITRATE as an operation and as the end of SET_MODE (R92, R91). -/
def performSetBitrate (txBR rxBR : BitRate) (s : State) : Result :=
  if below s.topState .modeSet then finish .wrongState s
  else if s.txrxState ≠ .idle then finish .wrongState s
  else finish .none (applyBitrate txBR rxBR s)

/-- SET_BITRATE (R92). -/
def execSetBitrate (txBR rxBR : BitRate) (s : State) : Result := performSetBitrate txBR rxBR s

/-- The return code SET_MODE ends with before it changes anything, if any (R91). -/
def setModeError (mode : Mode) (s : State) : Option Status :=
  if below s.topState .init then some .wrongState
  else if mode = .modeNone then some .param
  else if isPassiveListen mode then some .notSupported
  else if s.txrxState ≠ .idle then some .wrongState
  else none

/-- SET_MODE (R91). -/
def execSetMode (mode : Mode) (txBR rxBR : BitRate) (s : State) : Result :=
  match setModeError mode s with
  | some e => finish e s
  | none =>
    let s := applyAnalogConfig (commonId mode) (feConfig (.mode mode) { s with mode := mode })
    performSetBitrate txBR rxBR { s with topState := .modeSet }

/-- SET_FDT_POLL (R94). -/
def execSetFdtPoll (value : Time) (s : State) : Result :=
  finish .none { s with timing := { s.timing with fdtPoll := clampTime value s.params.fdtPollMax } }

/-- SET_FDT_LISTEN (R95). -/
def execSetFdtListen (value : Time) (s : State) : Result :=
  finish .none { s with timing := { s.timing with fdtListen := clampTime value s.params.fdtListenMax } }

/-- SET_GT (R96). -/
def execSetGt (value : Time) (s : State) : Result :=
  finish .none { s with timing := { s.timing with gt := clampTime value s.params.gtMax } }

/-- SET_ERROR_HANDLING (R97). -/
def execSetErrorHandling (policy : Policy) (s : State) : Result :=
  finish .none (feConfig (.nrtEmvMode (policy == .policyEMVCo)) { s with policy := policy })

/-- The spin of R98: poll `{CAC, CAT}` until one of them is read. Past the script the environment takes no further step
(R58), so a poll that finds nothing there would be repeated for ever (DESIGN CHOICE: log entry 11). -/
def spinCollisionAvoidance : Nat → State → Except Fault (Word × State)
  | 0, _ => .error .spinNeverEnds
  | fuel + 1, s =>
    let r := feGetIrq (irqCAC ||| irqCAT) s
    if r.1 = 0 then spinCollisionAvoidance fuel r.2 else .ok r

/-- The polls after which the spin of R98 can change nothing any more: one per entry of the script, and one. -/
def spinPolls (s : State) : Nat := s.env.script.length + 1

/-- `if timing.GT != none then SwArm(swGT, SW_TICKS(timing.GT))` (R98). -/
def startGuardTime (s : State) : State := if s.timing.gt = 0 then s else swArm .gt (swTicks s.timing.gt) s

/-- The front-end calls of R98 before its spin. -/
def fieldOnRequest (s : State) : State :=
  feCmd .fieldOnCa (feIrqEnable (irqCAC ||| irqCAT) (feDiscardIrq (irqCAC ||| irqCAT) s))

/-- Switch the field on after RF collision avoidance (R98): on `CAC` the field stays off. -/
def fieldOnProcedure (s : State) : Result :=
  let s := fieldOnRequest s
  match spinCollisionAvoidance (spinPolls s) s with
  | .error f => .fault f
  | .ok r =>
    let s := feIrqDisable (irqCAC ||| irqCAT) r.2
    if has r.1 irqCAC then finish .rfCollision s
    else finish .none (startGuardTime { feConfig (.txrxEnable true) s with fieldOn := true })

/-- FIELD_ON_AND_START_GT (R98). -/
def execFieldOnAndStartGt (s : State) : Result :=
  if below s.topState .modeSet then finish .wrongState s
  else if s.fieldOn then finish .none (startGuardTime s)
  else fieldOnProcedure s

/-- FIELD_OFF (R99): a running exchange ends with `IO`. -/
def execFieldOff (s : State) : Result :=
  let s := if s.txrxState = .idle then s else endExchange .io s
  finish .none (swDisarm .gt { feConfig (.txrxEnable false) s with fieldOn := false })

end Sys2Proof.Machine
end

