-- ==== Sys2Proof/Machine/Listen.lean ====
section
/-! DEFINITION. The Listen-Mode state machine (`45_listen.md`): LISTEN_START, LISTEN_STOP and the WORKER step while
`topState = Listen`. -/

namespace Sys2Proof.Machine

/-- The return code LISTEN_START ends with before it changes anything, if any (R192, R198). -/
def listenStartError (lmMask : BitVec 4) (rxBuf : Word) (rxBufLen : Len) (s : State) : Option Status :=
  if below s.topState .init then some .wrongState
  else if s.txrxState ≠ .idle ∨ s.topState = .wakeUp then some .wrongState
  else if lmMask = 0 then some .param
  else if lmMask &&& 0b0111 ≠ 0 then some .notSupported
  else if inBounds s.params rxBuf rxBufLen.toNat then none
  else some .param

/-- LISTEN_START (R192). -/
def execListenStart (lmMask : BitVec 4) (rxBuf : Word) (rxBufLen : Len) (s : State) : Result :=
  match listenStartError lmMask rxBuf rxBufLen s with
  | some e => finish e s
  | none =>
    let s := feConfig (.listenAp2p true) (feIrqEnable lmIrqs (feDiscardIrq lmIrqs
      { s with lm := ⟨rxBuf, rxBufLen, 0, .keep, false⟩ }))
    finish .none { s with lmState := .powerOff, topState := .listen }

/-- LISTEN_STOP (R193): issued when not listening it only resets the context. -/
def execListenStop (s : State) : Result :=
  let s := if s.topState = .listen then
      { feIrqDisable lmIrqs (feConfig (.listenAp2p false) s) with topState := .init }
    else s
  finish .none { s with
    lmState := .notInit
    lm := { s.lm with dataFlag := false, rxLen := 0, bitRate := .keep } }

/-- State `LM_POWER_OFF` (R195). -/
def lmPowerOff (s : State) : Run :=
  let r := feGetIrq irqEON s
  .ok (if has r.1 irqEON then { r.2 with lmState := .idle } else r.2)

/-- The recovery from a bad reception (R197). -/
def listenBadFrame (s : State) : State := feCmd .unmaskRx (feCmd .resetCa (feCmd .clearFifo s))

/-- A good frame (R197): copied without its CRC, up to the capacity, and held for the host. -/
def listenGoodFrame (s : State) : Run := do
  let s := fifoStatus (cacheInvalidate s)
  let k := min (strip s.cache.numBytes) (ceil8 s.lm.rxBufLen.toNat)
  let r ← feFifoRead k s
  let s ← bufWrite r.2.lm.rxBuf.toNat r.1 r.2
  let l ← toLen (8 * k)
  let s := feCmd .clearFifo { s with lm := { s.lm with rxLen := l } }
  .ok { s with lm := { s.lm with dataFlag := true } }

/-- `ListenFrame(i)` (R197). -/
def listenFrame (i : Word) (s : State) : Run :=
  if has i (irqPAR ||| irqCRC ||| irqERR1) then .ok (listenBadFrame s) else listenGoodFrame s

/-- The peer's bit rate is recorded on `NFCT` (R196). -/
def listenBitRate (i : Word) (s : State) : State :=
  if has i irqNFCT then
    let r := feDetectedBitRate s
    { r.2 with lm := { r.2.lm with bitRate := r.1 } }
  else s

/-- State `LM_IDLE` (R196): nothing while a frame is held for the host. -/
def lmIdle (s : State) : Run :=
  if s.lm.dataFlag then .ok s
  else
    let r := feGetIrq (irqNFCT ||| irqRXE ||| irqEOF ||| irqPAR ||| irqCRC ||| irqERR1) s
    let s := listenBitRate r.1 r.2
    if has r.1 irqRXE then listenFrame r.1 s
    else if has r.1 irqEOF then .ok { s with lmState := .powerOff }
    else .ok s

/-- `ListenStep()` (R194). -/
def listenStep (s : State) : Run :=
  match s.lmState with
  | .powerOff => lmPowerOff s
  | .idle => lmIdle s
  | .notInit | .readyA | .readyB | .readyF | .activeP2P => .ok s

end Sys2Proof.Machine
end

