-- ==== Sys2Proof/Machine/Rx.lean ====
section
/-! DEFINITION. The RX sub-machine (`43_rx_submachine.md`) and the recovery of the EMVCo policy (`44_error_policy.md`
R183): one definition per state, a `continue` edge of R116 being a call of the next state's step. -/

namespace Sys2Proof.Machine

/-- State `RX_FAIL` (R167): the exchange ends with the status and length the failing step recorded. -/
def rxFail (s : State) : Run := .ok (endExchange s.status s)

/-- `fail E` (R169): the best-effort length is what was copied. -/
def rxFailWith (e : Status) (s : State) : Run := do
  let l ← toLen (8 * s.fifo.bytesWritten.toNat)
  rxFail { s with status := e, rxRcvdLen := l, txrxState := .rxFail }

/-- State `RX_DONE` (R166). -/
def rxDone (s : State) : Run := .ok (endExchange .none s)

/-- State `RX_WAIT_EOF` (R165), active mode only. -/
def rxWaitEof (s : State) : Run :=
  if s.eofSeen then rxDone { s with txrxState := .rxDone }
  else
    let r := feGetIrq irqEOF s
    if has r.1 irqEOF then rxDone { r.2 with txrxState := .rxDone } else .ok r.2

/-- The first received byte of a split-byte exchange is OR-ed into BUF (R123). -/
def mergeFirst (old : Byte) : List Byte → List Byte
  | [] => []
  | b :: bs => (b ||| old) :: bs

/-- Write received bytes to BUF at `ctx.rxBuf + i`; in a split-byte exchange the first byte is merged (R123). -/
def rxBufWrite (i : Nat) (bytes : List Byte) (s : State) : Run :=
  let a := s.ctx.rxBuf.toNat + i
  bufWrite a (if s.ctx.splitByte && i == 0 then mergeFirst (readByte s.buf a) bytes else bytes) s

/-- `dst[i ..+ |bytes|) <- bytes` (R151): `nfcvScratch` for NFC-V, else BUF at `ctx.rxBuf`. -/
def rxDeliver (i : Nat) (bytes : List Byte) (s : State) : Run :=
  if s.mode = .pollNfcV then scratchWrite i bytes s else rxBufWrite i bytes s

/-- `dst[fifo.bytesWritten ..+ k) <- FeFifoRead(k)` and the count of copied bytes (R156, R162). -/
def rxCopy (k : Nat) (s : State) : Run := do
  let r ← feFifoRead k s
  let s ← rxDeliver r.2.fifo.bytesWritten.toNat r.1 r.2
  let w ← toLen (s.fifo.bytesWritten.toNat + k)
  .ok { s with fifo := { s.fifo with bytesWritten := w } }

/-- `NfcvDecodeStep()` (R164): the decode result overrides the status of the reception. -/
def nfcvDecodeStep (s : State) : Run := do
  let raw ← scratchRead 0 s.fifo.bytesWritten.toNat s
  let d := nfcvDecode raw (crcRxKeep s.ctx.flags) (ceil8 s.ctx.rxBufLen.toNat)
  let s ← bufWrite s.ctx.rxBuf.toNat d.bytes s
  let l ← toLen d.bits
  .ok { s with rxRcvdLen := l, status := if d.status = .none then .busy else d.status }

/-- The length `RX_READ_DATA` reports, in bytes: the CRC stripped unless kept or NFC-V (R162, R64(c)). -/
def reportedBytes (s : State) (l : Nat) : Nat :=
  if s.mode ≠ .pollNfcV ∧ crcRxKeep s.ctx.flags = false then strip l else l

/-- The bit length `RX_READ_DATA` records for the frame (R162, R163). For NFC-V the decode replaces it within the same step
(R164), whose result alone must fit the counter (R64(e); DEDUCED: log entry 15). -/
def reportedBits (s : State) (lrep : Nat) : Except Fault Len :=
  if s.mode = .pollNfcV then .ok s.rxRcvdLen else toLen (bitLen lrep s.cache.incompleteBits)

/-- The edge out of `RX_READ_DATA` (R162). -/
def rxAfterData (s : State) : Run :=
  if s.status ≠ .busy then rxFail { s with txrxState := .rxFail }
  else if isActive s.mode then rxWaitEof { s with txrxState := .rxWaitEof }
  else rxDone { s with txrxState := .rxDone }

/-- State `RX_READ_DATA` (R162). -/
def rxReadData (s : State) : Run := do
  let s := fifoStatus s
  let l := s.fifo.bytesTotal.toNat + s.cache.numBytes
  let lrep := reportedBytes s l
  let s ← rxCopy (min lrep (rxCap s) - s.fifo.bytesWritten.toNat) s
  let total ← toLen l
  let len ← reportedBits s lrep
  let s := { s with
    fifo := { s.fifo with bytesTotal := total }
    status := if rxCap s < lrep ∧ s.status = .busy then .noMem else s.status
    rxRcvdLen := len }
  let s ← if s.mode = .pollNfcV then nfcvDecodeStep s else .ok s
  rxAfterData s

/-- The NFC-A short-reply path (R160): the byte is delivered, the valid bit count reported, the outcome is
`IncompleteByte`. -/
def rxShortReply (s : State) : Run := do
  let k := min 1 (rxCap s)
  let r ← feFifoRead k s
  let s ← rxDeliver 0 r.1 r.2
  rxFail { s with
    fifo := { s.fifo with bytesTotal := 1, bytesWritten := BitVec.ofNat 16 k }
    rxRcvdLen := s.cache.incompleteBits.setWidth 16
    status := .incompleteByte
    txrxState := .rxFail }

/-- `DiscardAndRearm()` (R183): the reception starts over; `status` stays `Busy` and no Cleanup runs. -/
def discardAndRearm (s : State) : State :=
  let s := feCmd .unmaskRx (feCmd .clearFifo s)
  { swDisarm .rxeGuard (cacheInvalidate { s with fifo := { s.fifo with bytesTotal := 0, bytesWritten := 0 } }) with
    txrxState := .rxWaitRxs }

/-- The flags `RX_ERR_CHECK` polls (R228). -/
def errIrqs : Word := irqERR1 ||| irqERR2 ||| irqPAR ||| irqCRC ||| irqCOL

/-- What `RX_ERR_CHECK` does with the classification of the frame (R159, R160, R182). -/
def rxOnVerdict (v : Verdict) (s : State) : Run :=
  match v with
  | .nfcaIncomplete => rxShortReply s
  | .noError => rxReadData { s with txrxState := .rxReadData }
  | .error e =>
    if emdDiscard s.policy s.fifo.bytesTotal.toNat e s.cache.numBytes then .ok (discardAndRearm s)
    else rxReadData { s with status := e, txrxState := .rxReadData }

/-- State `RX_ERR_CHECK` (R159). -/
def rxErrCheck (s : State) : Run :=
  let r := feGetIrq errIrqs (cacheInvalidate s)
  let s := fifoStatus r.2
  rxOnVerdict
    (classify s.policy s.mode s.fifo.bytesTotal.toNat r.1 s.cache.numBytes s.cache.incompleteBits s.cache.missingParity) s

/-- A partial drain exceeded the capacity: `NoMem` (R156). A raw NFC-V response longer than the scratch buffer is decoded all
the same, and the result of the decode overrides (R164, D23), with the edge of R162; DEDUCED: log entry 24. -/
def rxBeyondCapacity (s : State) : Run :=
  if s.mode = .pollNfcV then do
    let s ← nfcvDecodeStep { s with status := .noMem }
    rxAfterData s
  else rxFailWith .noMem s

/-- State `RX_READ_FIFO` (R156): drain what is present, up to the capacity. -/
def rxReadFifo (s : State) : Run := do
  let s := fifoStatus (cacheInvalidate s)
  let n := s.cache.numBytes
  let total ← toLen (s.fifo.bytesTotal.toNat + n)
  let s ← rxCopy (min n (rxCap s - s.fifo.bytesWritten.toNat)) { s with fifo := { s.fifo with bytesTotal := total } }
  if rxCap s < total.toNat then rxBeyondCapacity s else .ok { s with txrxState := .rxWaitRxe }

/-- `EOF` belongs to the polled mask only in active communication (R155, R157). -/
def eofIfActive (m : Mode) : Word := if isActive m then irqEOF else 0

/-- State `RX_WAIT_RXE` (R157): `RXE` > `EOF` (LinkLoss) > `WL` > guard expiry (R229). -/
def rxWaitRxe (s : State) : Run :=
  let r := feGetIrq (irqRXE ||| irqWL ||| eofIfActive s.mode) s
  let s := if has r.1 irqEOF then { r.2 with eofSeen := true } else r.2
  if has r.1 irqRXE then rxErrCheck { swDisarm .rxeGuard s with txrxState := .rxErrCheck }
  else if s.eofSeen then rxFailWith .linkLoss s
  else if has r.1 irqWL then rxReadFifo { s with txrxState := .rxReadFifo }
  else
    let q := swExpired .rxeGuard s
    if q.1 then rxFailWith .framing q.2 else .ok q.2

/-- State `RX_WAIT_RXS` (R155): `RXS` > `EOF` > `NRE` (R229). -/
def rxWaitRxs (s : State) : Run :=
  let r := feGetIrq (irqRXS ||| irqNRE ||| eofIfActive s.mode) s
  if r.1 = 0 then .ok r.2
  else if has r.1 irqRXS then
    rxWaitRxe { swArm .rxeGuard Config.rxeGuardTout { r.2 with eofSeen := has r.1 irqEOF } with txrxState := .rxWaitRxe }
  else if has r.1 irqEOF then rxFailWith .linkLoss r.2
  else rxFailWith .timeout r.2

/-- State `RX_WAIT_EON` (R154), active mode only: `EON` > `NRE` > software FWT (R229). -/
def rxWaitEon (s : State) : Run :=
  let r := feGetIrq (irqEON ||| irqNRE) s
  if has r.1 irqEON then .ok { r.2 with txrxState := .rxWaitRxs }
  else if has r.1 irqNRE then rxFailWith .timeout r.2
  else if r.2.sw.apFwt then
    let q := swExpired .apFwt r.2
    if q.1 then rxFailWith .timeout q.2 else .ok q.2
  else .ok r.2

/-- The start of `RX_IDLE` (R153): the hook of a receive-only flow, then the counters, the cache and `eofSeen`. -/
def rxIdleReset (s : State) : State :=
  let s := if s.ctx.txAbsent then emit .preTxRx s else s
  cacheInvalidate { s with fifo := ⟨0, 0, s.params.fifoRxWl⟩, eofSeen := false }

/-- The timers `RX_IDLE` starts (R153): GPT in passive communication, `swApFwt` in active communication. -/
def rxIdleTimers (s : State) : State :=
  if isActive s.mode then
    if s.timing.nrtDisabled then s else swArm .apFwt (swTicks s.timing.nrtValue) s
  else if s.timing.fdtPoll = 0 then s
  else feTimerStart .gpt s.timing.fdtPoll s

/-- State `RX_IDLE` (R153). -/
def rxIdle (s : State) : Run :=
  let s := rxIdleReset s
  let s := if s.ctx.txAbsent then feCmd .unmaskRx (feCmd .clearFifo s) else s
  let s := rxIdleTimers s
  .ok { s with txrxState := if isActive s.mode then .rxWaitEon else .rxWaitRxs }

end Sys2Proof.Machine
end

