-- ==== Sys2Proof/Machine/Tx.lean ====
section
/-! DEFINITION. The TX sub-machine (`42_tx_submachine.md`): one definition per state. A `continue` edge of R116 is a call
of the next state's step, so a WORKER call that passes several states is one composition of them. -/

namespace Sys2Proof.Machine

/-- State `TX_FAIL` (R139): the exchange ends with the status the failing step recorded. -/
def txFail (s : State) : Run := .ok (endExchange s.status s)

/-- `status <- E; txrxState <- TX_FAIL; continue` (R130: the only failures of the tx-phase). -/
def txFailWith (e : Status) (s : State) : Run := txFail { s with status := e, txrxState := .txFail }

/-- State `TX_DONE` (R138). -/
def txDone (s : State) : Run :=
  if s.ctx.rxBuf = nullAddr then .ok (endExchange .none s)
  else .ok { s with txrxState := .rxIdle }

/-- State `TX_WAIT_TXE` (R137): a lone `WL` is ignored. -/
def txWaitTxe (s : State) : Run :=
  let r := feGetIrq (irqWL ||| irqTXE) s
  if has r.1 irqTXE then txDone { r.2 with txrxState := .txDone } else .ok r.2

/-- `src[i ..+ n)` of R134: `nfcvScratch` for NFC-V, the internal byte of R122, else BUF at `ctx.txBuf`. -/
def txSource (i n : Nat) (s : State) : Except Fault (List Byte) :=
  if s.mode = .pollNfcV then scratchRead i n s
  else
    match s.ctx.sfByte with
    | some b => .ok ((List.replicate 1 b).drop i |>.take n)
    | none => bufRead (s.ctx.txBuf.toNat + i) n s

/-- Hand the next `k` bytes of `src` to the front end and count them (R134, R136). -/
def txHandOver (k : Nat) (s : State) : Run := do
  let bytes ← txSource s.fifo.bytesWritten.toNat k s
  let s ← feFifoWrite bytes s
  let w ← toLen (s.fifo.bytesWritten.toNat + k)
  .ok { s with fifo := { s.fifo with bytesWritten := w } }

/-- The state after a hand-over: `TX_WAIT_WL` while bytes remain, else `TX_WAIT_TXE` (R134, R136). -/
def txAfterHandOver (s : State) : State :=
  { s with txrxState := if s.fifo.bytesWritten.toNat < s.fifo.bytesTotal.toNat then .txWaitWl else .txWaitTxe }

/-- State `TX_RELOAD_FIFO` (R136). -/
def txReloadFifo (s : State) : Run := do
  let k := min (s.fifo.bytesTotal.toNat - s.fifo.bytesWritten.toNat) s.fifo.expectedWaterLevel.toNat
  let s ← txHandOver k s
  .ok (txAfterHandOver s)

/-- State `TX_WAIT_WL` (R135): `TXE` before the payload was all written fails `IO`. -/
def txWaitWl (s : State) : Run :=
  let r := feGetIrq (irqWL ||| irqTXE) s
  if r.1 = 0 then .ok r.2
  else if has r.1 irqWL && !has r.1 irqTXE then txReloadFifo { r.2 with txrxState := .txReloadFifo }
  else txFailWith .io r.2

/-- The end of `TX_TRANSMIT` (R134), once the source is chosen: load the FIFO with the first of `total` bytes and fire
the transmit command. -/
def txFire (total lengthBits : Nat) (crcAuto : Bool) (s : State) : Run := do
  let total ← toLen total
  let s := feConfig (.txLengthBits lengthBits) { s with fifo := ⟨total, 0, s.params.fifoTxRefill⟩ }
  let s ← txHandOver (min total.toNat s.params.fifoDepth) s
  .ok (txAfterHandOver (feCmd (if crcAuto then .txWithCrc else .txWithoutCrc) s))

/-- The payload an NFC-V exchange encodes: `BUF[ctx.txBuf ..+ n0)` (R134). -/
def txPayload (s : State) : Except Fault (List Byte) := bufRead s.ctx.txBuf.toNat (ceil8 s.ctx.txBufLen.toNat) s

/-- The NFC-V branch of `TX_TRANSMIT` (R134): the payload is encoded into `nfcvScratch`, which is transmitted without
automatic CRC; a stream longer than the scratch buffer fails `NoMem`. -/
def txTransmitNfcv (s : State) : Run := do
  let payload ← txPayload s
  let stream := Config.nfcvEncode payload s.ctx.txBufLen.toNat s.ctx.flags
  if s.params.nfcvScratchSize < stream.length then txFailWith .noMem s
  else do
    let s ← scratchWrite 0 stream s
    txFire stream.length (8 * stream.length) false s

/-- State `TX_TRANSMIT` (R134). -/
def txTransmit (s : State) : Run :=
  let s := feCmd .clearFifo (emit .preTxRx s)
  if s.mode = .pollNfcV then txTransmitNfcv s
  else txFire (ceil8 s.ctx.txBufLen.toNat) s.ctx.txBufLen.toNat (!crcTxManual s.ctx.flags) s

/-- State `TX_WAIT_FDT` (R133): waits while GPT runs, in passive communication with an FDT-Poll set. -/
def txWaitFdt (s : State) : Run :=
  if isActive s.mode || s.timing.fdtPoll == 0 then txTransmit { s with txrxState := .txTransmit }
  else
    let r := feTimerCheck .gpt s
    if r.1 = .running then .ok r.2 else txTransmit { r.2 with txrxState := .txTransmit }

/-- State `TX_WAIT_GT` (R132): waits while `swGT` is armed and not expired. -/
def txWaitGt (s : State) : Run :=
  if s.sw.gt then
    let r := swExpired .gt s
    if r.1 then txWaitFdt { swDisarm .gt r.2 with txrxState := .txWaitFdt } else .ok r.2
  else txWaitFdt { swDisarm .gt s with txrxState := .txWaitFdt }

/-- State `TX_IDLE` (R131). -/
def txIdle (s : State) : Run := txWaitGt { s with txrxState := .txWaitGt }

end Sys2Proof.Machine
end

