-- ==== Sys2Proof/Machine/Wakeup.lean ====
section
/-! DEFINITION. The Wake-Up state machine (`46_wakeup.md`): WAKEUP_START, WAKEUP_STOP and the WORKER step while
`topState = WakeUp`. -/

namespace Sys2Proof.Machine

/-- The return code WAKEUP_START ends with before it changes anything, if any (R206): the combination check precedes the
not-implemented check. -/
def wakeupStartError (amp pha cap : Channel) (s : State) : Option Status :=
  if below s.topState .init then some .wrongState
  else if s.txrxState ≠ .idle ∨ s.topState = .listen then some .wrongState
  else if cap.enabled && (amp.enabled || pha.enabled) then some .param
  else if cap.enabled then some .notImplemented
  else if !amp.enabled && !pha.enabled then some .param
  else none

/-- A channel with its reference "auto-measured once at start" where it asks for that (R206). -/
def measuredChannel (ch : MeasureChannel) (c : Channel) (s : State) : Channel × State :=
  if c.enabled && c.refAuto then
    let r := feMeasure ch s
    ({ c with reference := r.1 }, r.2)
  else (c, s)

/-- The Wake-Up context with its references measured, amplitude first (R206). -/
def wakeupContext (amp pha cap : Channel) (s : State) : State :=
  let a := measuredChannel .amp amp s
  let p := measuredChannel .pha pha a.2
  { p.2 with wu := ⟨a.1, p.1, cap⟩ }

/-- The front-end calls of WAKEUP_START once the context is written (R206). -/
def wakeupConfigure (s : State) : State :=
  let m := wakeMask s.wu
  let s := { feConfig (.txrxEnable false) s with fieldOn := false }
  feIrqEnable m (feDiscardIrq m (feConfig (.wakeup (some (s.wu.amp, s.wu.pha))) s))

/-- WAKEUP_START (R206). -/
def execWakeupStart (amp pha cap : Channel) (s : State) : Result :=
  match wakeupStartError amp pha cap s with
  | some e => finish e s
  | none =>
    finish .none { wakeupConfigure (wakeupContext amp pha cap s) with wuState := .enabled, topState := .wakeUp }

/-- WAKEUP_STOP (R207): issued when Wake-Up is not current it only resets the context. -/
def execWakeupStop (s : State) : Result :=
  let s := if s.topState = .wakeUp then
      { feIrqDisable (irqWAM ||| irqWPH ||| irqWCAP) (feConfig (.wakeup none) s) with topState := .init }
    else s
  finish .none { s with
    wuState := .notInit
    wu := ⟨{ s.wu.amp with enabled := false }, { s.wu.pha with enabled := false }, { s.wu.cap with enabled := false }⟩ }

/-- `WakeUpStep()` (R208): only the enabled channels are polled, and `WU_ENABLED_WOKE` polls nothing. -/
def wakeUpStep (s : State) : Run :=
  match s.wuState with
  | .enabled =>
    let r := feGetIrq (wakeMask s.wu) s
    .ok (if r.1 ≠ 0 then { r.2 with wuState := .enabledWoke } else r.2)
  | .notInit | .enabledWoke => .ok s

end Sys2Proof.Machine
end

