-- ==== Sys2Proof/Machine/Transceive.lean ====
section
/-! DEFINITION. Transceive control (`41_transceive_control.md`): START_TRANSCEIVE, WORKER, GET_STATUS and the two
synchronous primitives. -/

namespace Sys2Proof.Machine

/-! ## START_TRANSCEIVE -/

/-- `ComputeTimers()` (R112). -/
def computeTimers (s : State) : State :=
  let t := s.timing
  let t := if s.ctx.fwt = fwtNone then { t with nrtDisabled := true }
    else { t with
      nrtDisabled := false
      nrtValue := satadd s.ctx.fwt.toNat (fwtAdj s.mode s.rxBR) s.params.nrtMax }
  { s with timing := if t.fdtListen = 0 then t else { t with mrtValue := Config.mrtFromFdt s.mode t.fdtListen } }

/-- `Prepare()` (R111). -/
def prepare (s : State) : State :=
  let s := feConfig (.flags s.ctx.flags) (feIrqEnable txrxIrqs (feDiscardIrq txrxIrqs s))
  let s := if s.timing.nrtDisabled then feTimerStop .nrt s else feTimerStart .nrt s.timing.nrtValue s
  if s.timing.fdtListen = 0 then feTimerStop .mrt s else feTimerStart .mrt s.timing.mrtValue s

/-- The block's own bookkeeping at the start of an exchange (R110), before the timers are computed. -/
def loadExchange (c : Ctx) (s : State) : State :=
  swDisarm .apFwt (swDisarm .rxeGuard (cacheInvalidate { s with
    ctx := c, status := .busy, topState := .txRx, fifo := ⟨0, 0, 0⟩, eofSeen := false, rxRcvdLen := 0 }))

/-- Start an exchange on a context whose preconditions hold (R110): `swGT` is not touched. -/
def beginExchange (c : Ctx) (s : State) : State :=
  { prepare (computeTimers (loadExchange c s)) with txrxState := if c.txAbsent then .rxIdle else .txIdle }

/-- The return code START_TRANSCEIVE ends with before it changes anything, if any (R110). -/
def startError (txBuf : Word) (txBufLen : Len) (rxBuf : Word) (rxBufLen : Len) (s : State) : Option Status :=
  if below s.topState .modeSet then some .wrongState
  else if s.txrxState ≠ .idle then some .wrongState
  else if (txBuf = nullAddr ∨ txBufLen = 0) ∧ rxBuf = nullAddr then some .param
  else if txBuf ≠ nullAddr ∧ inBounds s.params txBuf txBufLen.toNat = false then some .param
  else if rxBuf ≠ nullAddr ∧ inBounds s.params rxBuf rxBufLen.toNat = false then some .param
  else if (txBuf = nullAddr ∨ txBufLen = 0) ∧ isListen s.mode = false ∧ s.fieldOn = false then some .wrongState
  else none

/-- START_TRANSCEIVE (R110). -/
def execStartTransceive (txBuf : Word) (txBufLen : Len) (rxBuf : Word) (rxBufLen : Len) (flags : BitVec 5) (fwt : Time)
    (s : State) : Result :=
  match startError txBuf txBufLen rxBuf rxBufLen s with
  | some e => finish e s
  | none => finish .none (beginExchange (loadedCtx txBuf txBufLen rxBuf rxBufLen flags fwt) s)

/-! ## WORKER -/

/-- The WORKER step for `topState = TxRx`: `TxStep()` or `RxStep()` by the state's group (R115). -/
def txrxStep (s : State) : Run :=
  match s.txrxState with
  | .idle => .ok s
  | .txIdle => txIdle s
  | .txWaitGt => txWaitGt s
  | .txWaitFdt => txWaitFdt s
  | .txTransmit => txTransmit s
  | .txWaitWl => txWaitWl s
  | .txReloadFifo => txReloadFifo s
  | .txWaitTxe => txWaitTxe s
  | .txDone => txDone s
  | .txFail => txFail s
  | .rxIdle => rxIdle s
  | .rxWaitEon => rxWaitEon s
  | .rxWaitRxs => rxWaitRxs s
  | .rxWaitRxe => rxWaitRxe s
  | .rxReadFifo => rxReadFifo s
  | .rxErrCheck => rxErrCheck s
  | .rxReadData => rxReadData s
  | .rxWaitEof => rxWaitEof s
  | .rxDone => rxDone s
  | .rxFail => rxFail s

/-- What WORKER does, by `topState` (R115). -/
def workerStep (s : State) : Run :=
  match s.topState with
  | .txRx => txrxStep s
  | .listen => listenStep s
  | .wakeUp => wakeUpStep s
  | .notInit | .init | .modeSet => .ok s

/-- WORKER (R115): `RESULT` is always `None`. -/
def execWorker (s : State) : Result := andThen (workerStep s) (finish .none)

/-! ## GET_STATUS -/

/-- What GET_STATUS returns and the `STATUS` register reads (R117, R29). -/
def statusValue (s : State) : Status := if s.txrxState = .idle then s.status else .busy

/-- GET_STATUS (R117). -/
def execGetStatus (s : State) : Result := finish (statusValue s) { s with ret0 := s.rxRcvdLen.setWidth 32 }

/-! ## Synchronous primitives -/

/-- "Repeat the WORKER step for `topState = TxRx` until `txrxState = IDLE`" (R122, R123). -/
def spinExchange : Nat → State → Run
  | 0, s => if s.txrxState = .idle then .ok s else .error .spinNeverEnds
  | fuel + 1, s =>
    if s.txrxState = .idle then .ok s
    else
      match txrxStep s with
      | .ok s => spinExchange fuel s
      | .error f => .error f

/-- The WORKER steps after which the spin can change nothing any more: every step that waits takes an entry of the
script, and past the script a step that changes the state uses up a pending flag or moves on to a later state. -/
def spinSteps (s : State) : Nat := s.env.script.length + 64

/-- The return code SHORT_FRAME_TRANSCEIVE ends with before it changes anything, if any (R122). -/
def shortFrameError (rxBuf : Word) (rxBufLen : Len) (s : State) : Option Status :=
  if below s.topState .modeSet ∨ s.txrxState ≠ .idle then some .wrongState
  else if s.mode ≠ .pollNfcA then some .wrongState
  else if inBounds s.params rxBuf rxBufLen.toNat = false then some .param
  else if s.fieldOn = false then some .wrongState
  else none

/-- The context of a short-frame exchange (R122): the internal byte, 7 bits, `CRC_TX_MANUAL | CRC_RX_KEEP`. -/
def shortFrameCtx (txCmd : BitVec 7) (rxBuf : Word) (rxBufLen : Len) (fwt : Time) : Ctx where
  txBuf := nullAddr
  txBufLen := 7
  rxBuf := rxBuf
  rxBufLen := rxBufLen
  flags := crcManualKeep
  fwt := fwt
  sfByte := some (txCmd.setWidth 8)
  splitByte := false

/-- The start of a short-frame exchange (R122). -/
def shortFrameStart (c : Ctx) (s : State) : State :=
  feConfig (.shortFrame true) (feConfig (.antcl true) (beginExchange c s))

/-- SHORT_FRAME_TRANSCEIVE (R122). -/
def execShortFrameTransceive (txCmd : BitVec 7) (rxBuf : Word) (rxBufLen : Len) (fwt : Time) (s : State) : Result :=
  match shortFrameError rxBuf rxBufLen s with
  | some e => finish e s
  | none =>
    let s := shortFrameStart (shortFrameCtx txCmd rxBuf rxBufLen fwt) s
    andThen (spinExchange (spinSteps s) s) fun s =>
      let s := feConfig (.shortFrame false) (feConfig (.antcl false) s)
      finish s.status { s with ret0 := s.rxRcvdLen.setWidth 32 }

/-- The return code ANTICOLLISION_TRANSCEIVE ends with before it changes anything, if any (R123). -/
def anticollisionError (buf : Word) (bytesToSend : Byte) (bitsToSend : BitVec 3) (s : State) : Option Status :=
  if below s.topState .modeSet ∨ s.txrxState ≠ .idle then some .wrongState
  else if s.mode ≠ .pollNfcA then some .wrongState
  else if buf = nullAddr ∨ s.params.bufSize < buf.toNat + bytesToSend.toNat + 6 then some .param
  else if bytesToSend = 0 ∧ bitsToSend = 0 then some .param
  else none

/-- The context of an anticollision exchange (R123): one buffer for both directions, 5 bytes received, the first one
merged into the split byte. -/
def anticollisionCtx (buf : Word) (bytesToSend : Byte) (bitsToSend : BitVec 3) (fwt : Time) : Ctx where
  txBuf := buf
  txBufLen := BitVec.ofNat 16 (8 * bytesToSend.toNat + bitsToSend.toNat)
  rxBuf := BitVec.ofNat 32 (buf.toNat + bytesToSend.toNat)
  rxBufLen := 40
  flags := crcManualKeep
  fwt := fwt
  sfByte := none
  splitByte := bitsToSend != 0

/-- `RET1 <- ci ++ cb` where a collision was seen (R123). -/
def readCollisionPos (s : State) : State :=
  if s.status = .rfCollision then
    let r := feCollisionPos s
    { r.2 with ret1 := (r.1.2 ++ r.1.1).setWidth 32 }
  else s

/-- ANTICOLLISION_TRANSCEIVE (R123). -/
def execAnticollisionTransceive (buf : Word) (bytesToSend : Byte) (bitsToSend : BitVec 3) (fwt : Time) (s : State) :
    Result :=
  match anticollisionError buf bytesToSend bitsToSend s with
  | some e => finish e s
  | none =>
    let s := beginExchange (anticollisionCtx buf bytesToSend bitsToSend fwt) (feConfig (.antcl true) s)
    andThen (spinExchange (spinSteps s) s) fun s =>
      let s := feConfig (.antcl false) s
      let s := readCollisionPos { s with ret0 := s.rxRcvdLen.setWidth 32 }
      finish s.status s

end Sys2Proof.Machine
end

