-- ==== Sys2Proof/Machine/Dispatch.lean ====
section
/-! DEFINITION. Which meaning each host operation has: one arm per constructor of `Instr` (R71). -/

namespace Sys2Proof.Machine

def exec (i : Instr) (s : State) : Host.Outcome State Fault Refusal :=
  match i with
  | .initialise => Sys2Proof.Machine.execInitialise s
  | .setMode mode txBR rxBR => Sys2Proof.Machine.execSetMode mode txBR rxBR s
  | .setBitrate txBR rxBR => Sys2Proof.Machine.execSetBitrate txBR rxBR s
  | .setFdtPoll value => Sys2Proof.Machine.execSetFdtPoll value s
  | .setFdtListen value => Sys2Proof.Machine.execSetFdtListen value s
  | .setGt value => Sys2Proof.Machine.execSetGt value s
  | .setErrorHandling policy => Sys2Proof.Machine.execSetErrorHandling policy s
  | .fieldOnAndStartGt => Sys2Proof.Machine.execFieldOnAndStartGt s
  | .fieldOff => Sys2Proof.Machine.execFieldOff s
  | .startTransceive txBuf txBufLen rxBuf rxBufLen flags fwt => Sys2Proof.Machine.execStartTransceive txBuf txBufLen rxBuf rxBufLen flags fwt s
  | .worker => Sys2Proof.Machine.execWorker s
  | .getStatus => Sys2Proof.Machine.execGetStatus s
  | .shortFrameTransceive txCmd rxBuf rxBufLen fwt => Sys2Proof.Machine.execShortFrameTransceive txCmd rxBuf rxBufLen fwt s
  | .anticollisionTransceive buf bytesToSend bitsToSend fwt => Sys2Proof.Machine.execAnticollisionTransceive buf bytesToSend bitsToSend fwt s
  | .listenStart lmMask rxBuf rxBufLen => Sys2Proof.Machine.execListenStart lmMask rxBuf rxBufLen s
  | .listenStop => Sys2Proof.Machine.execListenStop s
  | .wakeupStart amp pha cap => Sys2Proof.Machine.execWakeupStart amp pha cap s
  | .wakeupStop => Sys2Proof.Machine.execWakeupStop s

end Sys2Proof.Machine
end

