-- ==== Sys2Proof/Decode.lean ====
section
/-! DEFINITION. The decoder and the encoder of host operations (`30_encoding.md` R70 to R75, R82). An operation is one
32-bit write to `CMD`; its operands are read from `ARG[0..5]` at that moment. -/

namespace Sys2Proof

/-- Why words are not a legal operation (R82). -/
inductive DecodeError where
  /-- `CMD[31:8]` is not 0. -/
  | cmdUpperBits
  /-- The opcode is not in the map R71. -/
  | unknownOpcode
  /-- A reserved operand field is not 0. -/
  | reservedOperand
  /-- An enumeration operand is outside its legal values. -/
  | illegalEnum
deriving DecidableEq, Repr

/-- `mode` from its code (R74). -/
def modeOfCode (c : BitVec 8) : Option Mode :=
  match c.toNat with
  | 0 => some .modeNone
  | 1 => some .pollNfcA
  | 2 => some .pollNfcB
  | 3 => some .pollNfcF
  | 4 => some .pollNfcV
  | 5 => some .pollActiveP2P
  | 6 => some .listenNfcA
  | 7 => some .listenNfcB
  | 8 => some .listenNfcF
  | 9 => some .listenActiveP2P
  | _ => none

/-- The code of a `mode` (R74). -/
def modeCode : Mode → BitVec 8
  | .modeNone => 0
  | .pollNfcA => 1
  | .pollNfcB => 2
  | .pollNfcF => 3
  | .pollNfcV => 4
  | .pollActiveP2P => 5
  | .listenNfcA => 6
  | .listenNfcB => 7
  | .listenNfcF => 8
  | .listenActiveP2P => 9

/-- A bit rate from its code (R75). -/
def bitRateOfCode (c : BitVec 8) : Option BitRate :=
  match c.toNat with
  | 0 => some .br106
  | 1 => some .br212
  | 2 => some .br424
  | 3 => some .br848
  | 0xFF => some .keep
  | _ => none

/-- The code of a bit rate (R75). -/
def bitRateCode : BitRate → BitVec 8
  | .br106 => 0
  | .br212 => 1
  | .br424 => 2
  | .br848 => 3
  | .keep => 0xFF

/-- `policy` from its code (R79). -/
def policyOfCode (c : BitVec 1) : Policy := if c = 1 then .policyEMVCo else .policyNone

/-- The code of `policy` (R79). -/
def policyCode : Policy → BitVec 1
  | .policyNone => 0
  | .policyEMVCo => 1

/-- Format M: `mode = ARG0[7:0]`, `txBR = ARG0[15:8]`, `rxBR = ARG0[23:16]`; `ARG0[31:24]` reserved (R72). -/
def decodeM (a : Args) : Except DecodeError Instr :=
  if a.a0.extractLsb' 24 8 ≠ 0 then .error .reservedOperand
  else
    match modeOfCode (a.a0.extractLsb' 0 8), bitRateOfCode (a.a0.extractLsb' 8 8),
        bitRateOfCode (a.a0.extractLsb' 16 8) with
    | some m, some t, some r => .ok (.setMode m t r)
    | _, _, _ => .error .illegalEnum

/-- Format B: `txBR = ARG0[7:0]`, `rxBR = ARG0[15:8]`; `ARG0[31:16]` reserved (R72). -/
def decodeB (a : Args) : Except DecodeError Instr :=
  if a.a0.extractLsb' 16 16 ≠ 0 then .error .reservedOperand
  else
    match bitRateOfCode (a.a0.extractLsb' 0 8), bitRateOfCode (a.a0.extractLsb' 8 8) with
    | some t, some r => .ok (.setBitrate t r)
    | _, _ => .error .illegalEnum

/-- Format P: `policy = ARG0[0]`; `ARG0[31:1]` reserved (R72). -/
def decodeP (a : Args) : Except DecodeError Instr :=
  if a.a0.extractLsb' 1 31 ≠ 0 then .error .reservedOperand
  else .ok (.setErrorHandling (policyOfCode (a.a0.extractLsb' 0 1)))

/-- Format X: `txBuf = ARG0`, `txBufLen = ARG1[15:0]`, `rxBuf = ARG2`, `rxBufLen = ARG3[15:0]`, `flags = ARG4[4:0]`,
`fwt = ARG5`; `ARG1[31:16]`, `ARG3[31:16]`, `ARG4[31:5]` reserved (R72). -/
def decodeX (a : Args) : Except DecodeError Instr :=
  if a.a1.extractLsb' 16 16 ≠ 0 ∨ a.a3.extractLsb' 16 16 ≠ 0 ∨ a.a4.extractLsb' 5 27 ≠ 0 then .error .reservedOperand
  else .ok (.startTransceive a.a0 (a.a1.extractLsb' 0 16) a.a2 (a.a3.extractLsb' 0 16) (a.a4.extractLsb' 0 5) a.a5)

/-- Format S: `txCmd = ARG0[6:0]`, `rxBuf = ARG2`, `rxBufLen = ARG3[15:0]`, `fwt = ARG5`; `ARG0[31:7]`, `ARG3[31:16]`
reserved (R72). -/
def decodeS (a : Args) : Except DecodeError Instr :=
  if a.a0.extractLsb' 7 25 ≠ 0 ∨ a.a3.extractLsb' 16 16 ≠ 0 then .error .reservedOperand
  else .ok (.shortFrameTransceive (a.a0.extractLsb' 0 7) a.a2 (a.a3.extractLsb' 0 16) a.a5)

/-- Format A: `buf = ARG0`, `bytesToSend = ARG1[7:0]`, `bitsToSend = ARG1[10:8]`, `fwt = ARG5`; `ARG1[31:11]` reserved
(R72). -/
def decodeA (a : Args) : Except DecodeError Instr :=
  if a.a1.extractLsb' 11 21 ≠ 0 then .error .reservedOperand
  else .ok (.anticollisionTransceive a.a0 (a.a1.extractLsb' 0 8) (a.a1.extractLsb' 8 3) a.a5)

/-- Format L: `lmMask = ARG0[3:0]`, `rxBuf = ARG2`, `rxBufLen = ARG3[15:0]`; `ARG0[31:4]`, `ARG3[31:16]` reserved (R72). -/
def decodeL (a : Args) : Except DecodeError Instr :=
  if a.a0.extractLsb' 4 28 ≠ 0 ∨ a.a3.extractLsb' 16 16 ≠ 0 then .error .reservedOperand
  else .ok (.listenStart (a.a0.extractLsb' 0 4) a.a2 (a.a3.extractLsb' 0 16))

/-- The reserved bits `[7:3]` and `[31:24]` of a channel word are 0 (R72, format W). -/
def channelReservedOk (w : Word) : Bool := w.extractLsb' 3 5 = 0 && w.extractLsb' 24 8 = 0

/-- A channel word: `[0] enabled`, `[1] refAuto`, `[2] autoAvg`, `[15:8] delta`, `[23:16] reference` (R72, format W). -/
def channelOfWord (w : Word) : Channel where
  enabled := w.getLsbD 0
  refAuto := w.getLsbD 1
  autoAvg := w.getLsbD 2
  delta := w.extractLsb' 8 8
  reference := w.extractLsb' 16 8

/-- Format W: channel words `amp = ARG0`, `pha = ARG1`, `cap = ARG2` (R72). -/
def decodeW (a : Args) : Except DecodeError Instr :=
  if channelReservedOk a.a0 && channelReservedOk a.a1 && channelReservedOk a.a2 then
    .ok (.wakeupStart (channelOfWord a.a0) (channelOfWord a.a1) (channelOfWord a.a2))
  else .error .reservedOperand

/-- The operation that these words issue, or why they are illegal (R70, R71, R72, R82). Only the `ARG` registers that the
operation's format lists are looked at (R72 "N: none; ARG ignored"; DEDUCED: log entry 9). -/
def decode (w : OpWords) : Except DecodeError Instr :=
  if w.cmd.extractLsb' 8 24 ≠ 0 then .error .cmdUpperBits
  else
    match (w.cmd.extractLsb' 0 8).toNat with
    | 0x01 => .ok .initialise
    | 0x02 => decodeM w.arg
    | 0x03 => decodeB w.arg
    | 0x04 => .ok (.setFdtPoll w.arg.a0)
    | 0x05 => .ok (.setFdtListen w.arg.a0)
    | 0x06 => .ok (.setGt w.arg.a0)
    | 0x07 => decodeP w.arg
    | 0x08 => .ok .fieldOnAndStartGt
    | 0x09 => .ok .fieldOff
    | 0x0A => decodeX w.arg
    | 0x0B => .ok .worker
    | 0x0C => .ok .getStatus
    | 0x0D => decodeS w.arg
    | 0x0E => decodeA w.arg
    | 0x10 => decodeL w.arg
    | 0x11 => .ok .listenStop
    | 0x12 => decodeW w.arg
    | 0x13 => .ok .wakeupStop
    | _ => .error .unknownOpcode

/-- The opcode of an operation (R71). -/
def opcode : Instr → Word
  | .initialise => 0x01
  | .setMode .. => 0x02
  | .setBitrate .. => 0x03
  | .setFdtPoll .. => 0x04
  | .setFdtListen .. => 0x05
  | .setGt .. => 0x06
  | .setErrorHandling .. => 0x07
  | .fieldOnAndStartGt => 0x08
  | .fieldOff => 0x09
  | .startTransceive .. => 0x0A
  | .worker => 0x0B
  | .getStatus => 0x0C
  | .shortFrameTransceive .. => 0x0D
  | .anticollisionTransceive .. => 0x0E
  | .listenStart .. => 0x10
  | .listenStop => 0x11
  | .wakeupStart .. => 0x12
  | .wakeupStop => 0x13

/-- The channel word of a channel record (R72, format W). -/
def channelWord (c : Channel) : Word :=
  0#8 ++ c.reference ++ c.delta ++ 0#5 ++ BitVec.ofBool c.autoAvg ++ BitVec.ofBool c.refAuto ++ BitVec.ofBool c.enabled

/-- The operand registers as the host writes them for an operation (R72), every reserved field and every register the
format does not list being 0. -/
def encodeArgs : Instr → Args
  | .setMode m t r => ⟨0#8 ++ bitRateCode r ++ bitRateCode t ++ modeCode m, 0, 0, 0, 0, 0⟩
  | .setBitrate t r => ⟨0#16 ++ bitRateCode r ++ bitRateCode t, 0, 0, 0, 0, 0⟩
  | .setFdtPoll v => ⟨v, 0, 0, 0, 0, 0⟩
  | .setFdtListen v => ⟨v, 0, 0, 0, 0, 0⟩
  | .setGt v => ⟨v, 0, 0, 0, 0, 0⟩
  | .setErrorHandling p => ⟨0#31 ++ policyCode p, 0, 0, 0, 0, 0⟩
  | .startTransceive tx txLen rx rxLen flags fwt => ⟨tx, 0#16 ++ txLen, rx, 0#16 ++ rxLen, 0#27 ++ flags, fwt⟩
  | .shortFrameTransceive c rx rxLen fwt => ⟨0#25 ++ c, 0, rx, 0#16 ++ rxLen, 0, fwt⟩
  | .anticollisionTransceive b bytes bits fwt => ⟨b, 0#21 ++ bits ++ bytes, 0, 0, 0, fwt⟩
  | .listenStart m rx rxLen => ⟨0#28 ++ m, 0, rx, 0#16 ++ rxLen, 0, 0⟩
  | .wakeupStart a p c => ⟨channelWord a, channelWord p, channelWord c, 0, 0, 0⟩
  | .initialise => ⟨0, 0, 0, 0, 0, 0⟩
  | .fieldOnAndStartGt => ⟨0, 0, 0, 0, 0, 0⟩
  | .fieldOff => ⟨0, 0, 0, 0, 0, 0⟩
  | .worker => ⟨0, 0, 0, 0, 0, 0⟩
  | .getStatus => ⟨0, 0, 0, 0, 0, 0⟩
  | .listenStop => ⟨0, 0, 0, 0, 0, 0⟩
  | .wakeupStop => ⟨0, 0, 0, 0, 0, 0⟩

/-- The words that issue an operation (R70). -/
def encode (i : Instr) : OpWords := ⟨opcode i, encodeArgs i⟩

/-- The contents of the operand registers that an operation's format lists (R72). -/
def listedArgs (i : Instr) (a : Args) : List Word :=
  match i with
  | .setMode .. | .setBitrate .. | .setFdtPoll .. | .setFdtListen .. | .setGt .. | .setErrorHandling .. => [a.a0]
  | .startTransceive .. => [a.a0, a.a1, a.a2, a.a3, a.a4, a.a5]
  | .shortFrameTransceive .. => [a.a0, a.a2, a.a3, a.a5]
  | .anticollisionTransceive .. => [a.a0, a.a1, a.a5]
  | .listenStart .. => [a.a0, a.a2, a.a3]
  | .wakeupStart .. => [a.a0, a.a1, a.a2]
  | .initialise | .fieldOnAndStartGt | .fieldOff | .worker | .getStatus | .listenStop | .wakeupStop => []

/-- The words of an operation given as one number of `nbits` bits: bits 31..0 are the word for `CMD` and each further
32 bits the next operand register; the bits above `nbits` are 0. -/
def tableWords (nbits w : Nat) : OpWords :=
  let v := w % 2 ^ nbits
  { cmd := BitVec.ofNat 32 v
    arg :=
      { a0 := BitVec.ofNat 32 (v / 2 ^ 32)
        a1 := BitVec.ofNat 32 (v / 2 ^ 64)
        a2 := BitVec.ofNat 32 (v / 2 ^ 96)
        a3 := BitVec.ofNat 32 (v / 2 ^ 128)
        a4 := BitVec.ofNat 32 (v / 2 ^ 160)
        a5 := BitVec.ofNat 32 (v / 2 ^ 192) } }

/-- The operation the decoder reads from the table's word `w` of `nbits` bits, the operand registers being 0 where the
word has no bits for them. -/
def decodeTableWord (nbits w : Nat) : Option Instr :=
  match decode (tableWords nbits w) with
  | .ok i => some i
  | .error _ => none

end Sys2Proof
end

