-- ==== Sys2Proof/Machine/Fetch.lean ====
section
/-! DEFINITION. The host's side of the block: the register block (`10_state.md` R29, `20_memory.md` R55), the host's
accesses to BUF (R50), and what acts next: the environment, the host, or the operation a write to `CMD` issues (R58, R70). -/

namespace Sys2Proof.Machine

/-- The `STATE` register (R29): `[7:0] txrxState`, `[10:8] topState`, `[15:12] lmState`, `[17:16] wuState`,
`[20] fieldOn`, `[21] lm.dataFlag`, other bits 0. -/
def stateWord (s : State) : Word :=
  0#10 ++ BitVec.ofBool s.lm.dataFlag ++ BitVec.ofBool s.fieldOn ++ 0#2 ++ wuStateCode s.wuState ++
    lmStateCode s.lmState ++ 0#1 ++ topStateCode s.topState ++ txrxStateCode s.txrxState

/-- What a word read of the register at this offset gives (R29): `CMD` reads 0, offsets `0x3C` and above read 0. -/
def registerValue (offset : Nat) (s : State) : Word :=
  match offset with
  | 0x04 => (statusCode s.result).setWidth 32
  | 0x08 => s.arg.a0
  | 0x0C => s.arg.a1
  | 0x10 => s.arg.a2
  | 0x14 => s.arg.a3
  | 0x18 => s.arg.a4
  | 0x1C => s.arg.a5
  | 0x20 => (statusCode (statusValue s)).setWidth 32
  | 0x24 => stateWord s
  | 0x28 => s.rxRcvdLen.setWidth 32
  | 0x2C => s.lm.rxLen.setWidth 32
  | 0x30 => (bitRateCode s.lm.bitRate).setWidth 32
  | 0x34 => s.ret0
  | 0x38 => s.ret1
  | _ => 0

/-- A read of REG (R55): any access that is not a word-aligned word access returns 0 (an offset of the map is aligned). -/
def readRegister (offset : Word) (size : AccessSize) (s : State) : Word :=
  if size = .word then registerValue offset.toNat s else 0

/-- A write of a register other than `CMD` (R29): only `ARG0..ARG5` take a value, every other write is ignored. -/
def writeRegister (offset : Word) (size : AccessSize) (v : Word) (s : State) : State :=
  if size = .word then
    match offset.toNat with
    | 0x08 => { s with arg := { s.arg with a0 := v } }
    | 0x0C => { s with arg := { s.arg with a1 := v } }
    | 0x10 => { s with arg := { s.arg with a2 := v } }
    | 0x14 => { s with arg := { s.arg with a3 := v } }
    | 0x18 => { s with arg := { s.arg with a4 := v } }
    | 0x1C => { s with arg := { s.arg with a5 := v } }
    | _ => s
  else s

/-- What happens next: a move that issues no operation, with its outcome, or a word written to `CMD` and the state in
which its operation runs. -/
inductive Fetched where
  | quiet (r : Result)
  | command (w : Word) (s : State)

/-- One request of the host (R29, R50): a word write at offset 0 issues an operation. -/
def hostRequest (r : HostRequest) (s : State) : Fetched :=
  match r with
  | .regWrite offset size v =>
    if offset = 0 ∧ size = .word then .command v s else .quiet (.next (writeRegister offset size v s))
  | .regRead offset size => .quiet (.next { s with hostData := readRegister offset size s })
  | .bufWrite a b =>
    .quiet (if a.toNat < s.params.bufSize then .next { s with buf := writeByte s.buf a.toNat b } else .fault .bufOutOfRange)
  | .bufRead a =>
    .quiet (if a.toNat < s.params.bufSize then .next { s with hostData := (readByte s.buf a.toNat).setWidth 32 }
      else .fault .bufOutOfRange)

/-- The next move of the agenda; with none left the block does nothing ("the block acts only inside a host operation",
R58; R250). -/
def fetch (s : State) : Fetched :=
  match s.agenda with
  | [] => .quiet (.next s)
  | .env e :: rest =>
    .quiet (.next { s with agenda := rest, env := applyEvent s.params.fifoDepth e s.env })
  | .host r :: rest => hostRequest r { s with agenda := rest }

/-- An illegal operation writes `RESULT <- Param` and changes no other state (R82). -/
def illegalOperation (s : State) : Result := finish .param s

/-- The next move is the host's write of these words' command, with these operands in `ARG` (DESIGN CHOICE: log entry 1). -/
def placeOperation (w : OpWords) (s : State) : State :=
  { s with arg := w.arg, agenda := .host (.regWrite 0 .word w.cmd) :: s.agenda }

end Sys2Proof.Machine
end

