-- ==== Sys2Proof/Machine/Step.lean ====
section
/-! DEFINITION. One step of the machine: the next move of the agenda, and for a write to `CMD` the whole operation it
issues ("writing executes the operation", R29; "runs to completion ... and only then does the write return", R70). -/

namespace Sys2Proof.Machine

/-- One step: a move that issues no operation, or one host operation from its decoding to its return (R56, R59, R70);
illegal words are answered with `Param` (R82). -/
def step (s : State) : Host.Outcome State Fault Refusal :=
  match fetch s with
  | .quiet r => r
  | .command w s =>
    match decode ⟨w, s.arg⟩ with
    | .ok i => exec i s
    | .error _ => illegalOperation s

/-- `s` with the operation whose words are `w` (`nbits` bits; see `tableWords`) as its next move. -/
def State.withFetchWord (s : State) (nbits w : Nat) : State := placeOperation (tableWords nbits w) s

end Sys2Proof.Machine
end

