-- ==== Sys2Proof/Safety.lean ====
section
/-! DEFINITION. The terms in which statements about RFAL-TSM are made: the invariant of the machine (`10_state.md` R30,
`43_rx_submachine.md` R168, the bounds of `20_memory.md`), what is polled, and what a step may leave behind. -/

namespace Sys2Proof.Machine

/-- The states of an exchange in which a host operation can leave the block: `IDLE`, the two entries, and the states that
wait. The other states are passed within one WORKER operation (R116). -/
def resting : TxrxState → Bool
  | .idle | .txIdle | .txWaitGt | .txWaitFdt | .txWaitWl | .txWaitTxe
  | .rxIdle | .rxWaitEon | .rxWaitRxs | .rxWaitRxe | .rxWaitEof => true
  | .txTransmit | .txReloadFifo | .txDone | .txFail | .rxReadFifo | .rxErrCheck | .rxReadData | .rxDone | .rxFail =>
    false

/-- The tx-phase group (R78). -/
def txPhase (t : TxrxState) : Bool := txrxGroup t = 1

/-- The rx-phase group (R78). -/
def rxPhase (t : TxrxState) : Bool := txrxGroup t = 2

/-- The buffers of the context are absent or in bounds (R51, R110), and a reception has a destination. -/
def ctxInBounds (s : State) : Prop :=
  (s.ctx.txBuf = nullAddr ∨ inBounds s.params s.ctx.txBuf s.ctx.txBufLen.toNat = true) ∧
  (s.ctx.rxBuf = nullAddr ∨ inBounds s.params s.ctx.rxBuf s.ctx.rxBufLen.toNat = true)

/-- The length of the source of a transmission, in bytes (R134): the scratch buffer for NFC-V, else the frame in BUF. -/
def txSourceLen (s : State) : Nat :=
  if s.mode = .pollNfcV then s.params.nfcvScratchSize else ceil8 s.ctx.txBufLen.toNat

/-- What holds of the state between two moves of the agenda, whatever the host and the front end did. -/
structure Inv (s : State) : Prop where
  /-- The parameters are within the bounds of R4. -/
  params : s.params.wf
  /-- BUF is in canonical form, with addresses below `BUF_SIZE` (R50). -/
  buf : s.buf.wf = true ∧ ∀ c ∈ s.buf, c.1 < s.params.bufSize
  /-- The scratch buffer is in canonical form, with indices below `NFCV_SCRATCH_SIZE` (R25). -/
  scratch : s.nfcvScratch.wf = true ∧ ∀ c ∈ s.nfcvScratch, c.1 < s.params.nfcvScratchSize
  /-- The front end's FIFO holds at most `FIFO_DEPTH` bytes (R28). -/
  feFifo : s.env.fe.fifo.length ≤ s.params.fifoDepth
  /-- Bits 18 to 31 of the flag words are 0 (R226). -/
  feFlags : s.env.fe.irqPending &&& ~~~irqAll = 0 ∧ s.env.fe.irqEnable &&& ~~~irqAll = 0
  /-- An operation ends in a resting state (R116). -/
  rests : resting s.txrxState = true
  /-- R30(b): in the tx-phase `fifo.bytesWritten <= fifo.bytesTotal`. -/
  txCounters : txPhase s.txrxState = true → s.fifo.bytesWritten.toNat ≤ s.fifo.bytesTotal.toNat
  /-- R30(c), R168(a): in the rx-phase, past `RX_IDLE`, `fifo.bytesWritten <= fifo.bytesTotal` and
  `fifo.bytesWritten <= cap`. -/
  rxCounters : rxPhase s.txrxState = true → s.txrxState ≠ .rxIdle →
    s.fifo.bytesWritten.toNat ≤ s.fifo.bytesTotal.toNat ∧ s.fifo.bytesWritten.toNat ≤ rxCap s
  /-- While a frame is awaited or comes in, every byte counted has been copied: R156 copies what it counts or fails. -/
  rxDrained : s.txrxState = .rxWaitEon ∨ s.txrxState = .rxWaitRxs ∨ s.txrxState = .rxWaitRxe →
    s.fifo.bytesWritten = s.fifo.bytesTotal
  /-- R30(d): `txrxState != IDLE` implies `topState = TxRx`. -/
  top : s.txrxState ≠ .idle → s.topState = .txRx
  /-- `status` is `Busy` exactly while an exchange runs (R14, R120(b)). -/
  busy : s.status = .busy ↔ s.txrxState ≠ .idle
  /-- The buffers of a running exchange are in bounds (R51), and the rx-phase has a destination (R110, R138). -/
  ctx : s.txrxState ≠ .idle → ctxInBounds s ∧ (rxPhase s.txrxState = true → s.ctx.rxBuf ≠ nullAddr)
  /-- The internal source of R122 and the split byte of R123 belong to one operation: no exchange that a host operation
  leaves running has either. -/
  ordinary : s.txrxState ≠ .idle → s.ctx.sfByte = none ∧ s.ctx.splitByte = false
  /-- The tx-phase has a tx buffer (R110), and does not count beyond its source (R134). -/
  txSource : txPhase s.txrxState = true → s.ctx.txBuf ≠ nullAddr ∧ s.ctx.txBufLen ≠ 0 ∧
    s.fifo.bytesTotal.toNat ≤ txSourceLen s
  /-- The missing-end-of-frame guard is armed in `RX_WAIT_RXE` and, with the active-mode FWT timer, disarmed when no
  exchange runs (R155, R118). -/
  guard : (s.txrxState = .rxWaitRxe → s.sw.rxeGuard = true) ∧
    (s.txrxState = .idle → s.sw.rxeGuard = false ∧ s.sw.apFwt = false)
  /-- A Listen context in use has its buffer in bounds (R192). -/
  listen : s.lmState ≠ .notInit → inBounds s.params s.lm.rxBuf s.lm.rxBufLen.toNat = true
  /-- The technology-specific Listen states are never entered (R190, R198). -/
  listenStates : s.lmState = .notInit ∨ s.lmState = .powerOff ∨ s.lmState = .idle
  /-- The passive listen modes are never set (R91). -/
  modeSupported : isPassiveListen s.mode = false

/-- R30(e): at most one of the three machines is current. -/
def siblingsExclusive (s : State) : Prop :=
  (s.lmState ≠ .notInit → s.topState = .listen) ∧ (s.wuState ≠ .notInit → s.topState = .wakeUp)

/-- What the next poll of a mask will answer: the environment takes its turn, then the pending flags of the mask. -/
def polled (mask : Word) (s : State) : Word := pendingIn mask (atCall s)

/-- The environment takes no further step during the operation: whatever it does, it has done before. -/
def quietEnv (s : State) : Prop := s.env.script = []

/-- The number of `POST_TXRX` hooks in a trace. -/
def postHooks (l : List Event) : Nat := l.count .postTxRx

/-- The number of `PRE_TXRX` hooks in a trace. -/
def preHooks (l : List Event) : Nat := l.count .preTxRx

/-- What Cleanup leaves in the trace (R118). -/
def cleanupEvents : List Event := [.feConfig (.flags 0), .feIrqDisable txrxIrqs, .postTxRx]

/-- The timing values after `ComputeTimers` for this Frame Waiting Time (R112). -/
def startTiming (s : State) (fwt : Time) : Timing where
  gt := s.timing.gt
  fdtListen := s.timing.fdtListen
  fdtPoll := s.timing.fdtPoll
  nrtDisabled := decide (fwt = fwtNone)
  nrtValue := if fwt = fwtNone then s.timing.nrtValue
    else BitVec.ofNat 32 (min (fwt.toNat + fwtAdj s.mode s.rxBR) s.params.nrtMax.toNat)
  mrtValue := if s.timing.fdtListen = 0 then s.timing.mrtValue else Config.mrtFromFdt s.mode s.timing.fdtListen

/-- The bytes `bytes` lie at `a` in `m`, and every other byte of `m` is as in `old`. -/
def storedAt (old m : Memory) (a : Nat) (bytes : List Byte) : Prop :=
  ∀ x, readByte m x = if a ≤ x ∧ x < a + bytes.length then bytes.getD (x - a) 0 else readByte old x

/-- The state after `n` WORKER operations one after the other, where none of them stops. -/
def workers : Nat → State → Option State
  | 0, s => some s
  | n + 1, s =>
    match exec .worker s with
    | .next t => workers n t
    | .fault _ | .refused _ => none

/-- Nothing is received while the script lasts. -/
def noReceive (s : State) : Prop := ∀ es ∈ s.env.script, ∀ e ∈ es, ∀ bytes, e ≠ EnvEvent.receive bytes

/-- No byte leaves the FIFO by the front end's own steps while the script lasts. -/
def noDrain (s : State) : Prop := ∀ es ∈ s.env.script, ∀ e ∈ es, ∀ n, e ≠ EnvEvent.drain n

/-- WORKER asks the platform timer for the guard time: it is armed, in the states R131 and R132 pass. -/
def asksGuard (s : State) : Bool := (s.txrxState = .txIdle ∨ s.txrxState = .txWaitGt) && s.sw.gt

/-- The guard time is not armed, or the platform timer answers "expired" (R132). -/
def guardOver (s : State) : Prop := asksGuard s = true → (atCall s).env.swGt.expired = true

/-- The software timers once `TX_WAIT_GT` is left (R132): `swGT` is disarmed. -/
def swPastGuard (s : State) : SwArmed :=
  if s.txrxState = .txIdle ∨ s.txrxState = .txWaitGt then { s.sw with gt := false } else s.sw

/-- WORKER asks for GPT before a transmission: in passive communication with an FDT-Poll set (R133). -/
def asksDelay (s : State) : Bool := s.txrxState ≠ .txTransmit && !isActive s.mode && s.timing.fdtPoll != 0

/-- The answer it gets: the environment has had its turn at the question for the guard time, if there was one, and at this. -/
def delayAnswer (s : State) : HwTimerState := (atCall (if asksGuard s then atCall s else s)).env.fe.gpt.state

/-- The frame delay is not asked for, or GPT is not running (R133). -/
def delayOver (s : State) : Prop := asksDelay s = true → delayAnswer s ≠ .running

/-- What the way to the transmission leaves in the trace: the question for GPT (R132, R133). -/
def gateEvents (s : State) : List Event := if asksDelay s then [.feTimerCheck .gpt (delayAnswer s)] else []

/-- The fields R31 names have the values it gives, with this `topState`. -/
structure Restored (s : State) (top : TopState) : Prop where
  topState : s.topState = top
  txrxState : s.txrxState = .idle
  lmState : s.lmState = .notInit
  wuState : s.wuState = .notInit
  status : s.status = .none
  fieldOn : s.fieldOn = false
  eofSeen : s.eofSeen = false
  cacheValid : s.cache.valid = false
  fifo : s.fifo = ⟨0, 0, 0⟩
  timing : s.timing = ⟨0, 0, 0, 0, true, 0⟩
  mode : s.mode = .modeNone
  txBR : s.txBR = .br106
  rxBR : s.rxBR = .br106
  policy : s.policy = .policyNone
  sw : s.sw = ⟨false, false, false⟩
  dataFlag : s.lm.dataFlag = false
  rxLen : s.lm.rxLen = 0
  bitRate : s.lm.bitRate = .keep
  amp : s.wu.amp.enabled = false
  pha : s.wu.pha.enabled = false
  cap : s.wu.cap.enabled = false
  rxRcvdLen : s.rxRcvdLen = 0
  result : s.result = .none
  ret0 : s.ret0 = 0
  ret1 : s.ret1 = 0

/-- An exchange runs. -/
def running (s : State) : Bool := s.txrxState ≠ .idle

/-- The byte range `[a, a + n)` does not hold `x`. -/
def outside (a n x : Nat) : Prop := x < a ∨ a + n ≤ x

/-- `n` entries of a script in which the environment does nothing. -/
def idleTurns (n : Nat) : List (List EnvEvent) := List.replicate n []

end Sys2Proof.Machine
end

