-- ==== Sys2Proof/WellFormed.lean ====
section
/-! DEFINITION. When the words of an operation are legal (`30_encoding.md` R82): `CMD[31:8]` is 0, the opcode is in
the map, no reserved operand bit is set, and every enumeration operand has a legal value.

An `Instr` term is well-formed by its types (every field has the width or the enumeration its operand has), so the
checks are on the words. They are written with masks, apart from the decoder's field extraction. -/

namespace Sys2Proof

/-- A legal `mode` code (R74: 10 to 255 are illegal). -/
def legalMode (c : Nat) : Bool := c ≤ 9

/-- A legal bit-rate code (R75). -/
def legalBitRate (c : Nat) : Bool := c ≤ 3 || c == 0xFF

/-- The reserved bits of a word are 0. -/
def reservedZero (w mask : Word) : Bool := w &&& mask == 0

/-- The byte of `w` that starts at bit `lo`, as a number. -/
def byteAt (w : Word) (lo : Nat) : Nat := w.toNat / 2 ^ lo % 256

/-- The operand registers are legal for the operation with this opcode (R72, R82). -/
def operandsLegal (opcode : Nat) (a : Args) : Bool :=
  match opcode with
  | 0x02 => reservedZero a.a0 0xFF000000#32 && legalMode (byteAt a.a0 0) && legalBitRate (byteAt a.a0 8)
      && legalBitRate (byteAt a.a0 16)
  | 0x03 => reservedZero a.a0 0xFFFF0000#32 && legalBitRate (byteAt a.a0 0) && legalBitRate (byteAt a.a0 8)
  | 0x07 => reservedZero a.a0 0xFFFFFFFE#32
  | 0x0A => reservedZero a.a1 0xFFFF0000#32 && reservedZero a.a3 0xFFFF0000#32 && reservedZero a.a4 0xFFFFFFE0#32
  | 0x0D => reservedZero a.a0 0xFFFFFF80#32 && reservedZero a.a3 0xFFFF0000#32
  | 0x0E => reservedZero a.a1 0xFFFFF800#32
  | 0x10 => reservedZero a.a0 0xFFFFFFF0#32 && reservedZero a.a3 0xFFFF0000#32
  | 0x12 => reservedZero a.a0 0xFF0000F8#32 && reservedZero a.a1 0xFF0000F8#32 && reservedZero a.a2 0xFF0000F8#32
  | _ => true

/-- The opcodes of the map R71. -/
def legalOpcode (c : Nat) : Bool := (1 ≤ c && c ≤ 0x0E) || (0x10 ≤ c && c ≤ 0x13)

/-- The words are those of a legal operation (R82). -/
def OpWords.wellFormed (w : OpWords) : Bool :=
  reservedZero w.cmd 0xFFFFFF00#32 && legalOpcode (byteAt w.cmd 0) && operandsLegal (byteAt w.cmd 0) w.arg

end Sys2Proof
end

