-- ==== Sys2Proof/Certificates/Slice0/Obligations.lean ====
section
/-! DEFINITION. The statements about RFAL-TSM. Each says which rules of spec/ it formalises; an opcode stands for its
operation (`30_encoding.md` R71). In a statement, `v` is the environment after the operation, and a state is written as the
state before it with every field that the operation writes; all other fields, and BUF where it is not named, are as before. -/

open Sys2Proof Sys2Proof.Machine

/-! ## Encoding -/

/-- R70, R72: the words of an operation decode to it, with every operand at every value, whatever the operand registers
that its format does not list hold. R72 says that `ARG` is ignored only of format N; that no other format looks at the
registers it does not list is the model's reading (DEDUCED: log entry 9). -/
def Obligations.DecodeInvertsEncode : Prop :=
  ∀ (i : Instr) (a : Args), listedArgs i a = listedArgs i (encodeArgs i) → decode ⟨opcode i, a⟩ = .ok i

/-- R72, R82: words that decode have the operation's opcode, and in the operand registers of its format exactly the bits
of its operands: no reserved bit is set and no operand bit is dropped. Of the registers that the format does not list nothing
is said (log entry 9). -/
def Obligations.DecodedWordsAreTheEncoding : Prop :=
  ∀ (w : OpWords) (i : Instr), decode w = .ok i → w.cmd = opcode i ∧ listedArgs i w.arg = listedArgs i (encodeArgs i)

/-- R82: the decoder accepts exactly the legal operations, the legality being stated with masks apart from the decoder. That
words are legal whatever the operand registers hold that their format does not list is the model's reading (DEDUCED: log
entry 9). -/
def Obligations.DecodeAcceptsExactlyLegalWords : Prop :=
  ∀ w : OpWords, (∃ i, decode w = .ok i) ↔ w.wellFormed = true

/-- R71, R72 on a few words written out from the tables of spec/. That the ANTICOLLISION_TRANSCEIVE word decodes with 9 in
`ARG2` to `ARG4`, which its format does not list, is the model's reading (DEDUCED: log entry 9). -/
def Obligations.SampleWordsDecode : Prop :=
  decode ⟨0x00000002, ⟨0x00010103, 0, 0, 0, 0, 0⟩⟩ = .ok (.setMode .pollNfcF .br212 .br212) ∧
  decode ⟨0x0000000A, ⟨0x100, 56, 0x200, 512, 0x13, 1000⟩⟩ = .ok (.startTransceive 0x100 56 0x200 512 0b10011 1000) ∧
  decode ⟨0x0000000E, ⟨0x100, 0x702, 9, 9, 9, 1236⟩⟩ = .ok (.anticollisionTransceive 0x100 2 7 1236) ∧
  decode ⟨0x00000012, ⟨0x00000A03, 0x00120C05, 0, 0, 0, 0⟩⟩ =
    .ok (.wakeupStart ⟨true, true, false, 0x0A, 0⟩ ⟨true, false, true, 0x0C, 0x12⟩ ⟨false, false, false, 0, 0⟩) ∧
  decode ⟨0x0000000F, ⟨0, 0, 0, 0, 0, 0⟩⟩ = .error .unknownOpcode ∧
  decode ⟨0x0000010B, ⟨0, 0, 0, 0, 0, 0⟩⟩ = .error .cmdUpperBits

/-! ## The host's interface -/

/-- R82: an illegal operation writes `RESULT <- Param`, changes no other state and makes no Chip-Driver call. -/
def Obligations.IllegalOperationReturnsParam : Prop :=
  ∀ (s : State) (w : Word) (rest : List Move), s.agenda = .host (.regWrite 0 .word w) :: rest →
    OpWords.wellFormed ⟨w, s.arg⟩ = false → step s = .next { s with agenda := rest, result := .param }

/-- R70: a word written to `CMD` that decodes, with the operands `ARG` holds at that moment, is executed by this very
step; and the words of any operation, placed as the next move, make the step that operation. -/
def Obligations.StepRunsDecodedOperation : Prop :=
  (∀ (s : State) (w : Word) (rest : List Move) (i : Instr), s.agenda = .host (.regWrite 0 .word w) :: rest →
    decode ⟨w, s.arg⟩ = .ok i → step s = exec i { s with agenda := rest }) ∧
  (∀ (s : State) (i : Instr), step (placeOperation (encode i) s) = exec i { s with arg := encodeArgs i })

/-- R29, R55: what a read of each register gives; a read changes only what the host has read, and every access that is not
a word access at a multiple of 4 reads 0. -/
def Obligations.RegisterReads : Prop :=
  ∀ (s : State) (rest : List Move) (off : Word) (size : AccessSize), s.agenda = .host (.regRead off size) :: rest →
    ∃ d : Word, step s = .next { s with agenda := rest, hostData := d } ∧
      (size ≠ .word ∨ off.toNat % 4 ≠ 0 ∨ 0x3C ≤ off.toNat ∨ off = 0 → d = 0) ∧
      (size = .word →
        (off = 0x04 → d = (statusCode s.result).setWidth 32) ∧
        (off = 0x08 → d = s.arg.a0) ∧ (off = 0x0C → d = s.arg.a1) ∧ (off = 0x10 → d = s.arg.a2) ∧
        (off = 0x14 → d = s.arg.a3) ∧ (off = 0x18 → d = s.arg.a4) ∧ (off = 0x1C → d = s.arg.a5) ∧
        (off = 0x20 → d = (statusCode (if s.txrxState = .idle then s.status else .busy)).setWidth 32) ∧
        (off = 0x24 → d.extractLsb' 0 8 = txrxStateCode s.txrxState ∧ d.extractLsb' 8 3 = topStateCode s.topState ∧
          d.extractLsb' 12 4 = lmStateCode s.lmState ∧ d.extractLsb' 16 2 = wuStateCode s.wuState ∧
          d.getLsbD 20 = s.fieldOn ∧ d.getLsbD 21 = s.lm.dataFlag ∧ d.getLsbD 11 = false ∧ d.extractLsb' 18 2 = 0 ∧
          d.extractLsb' 22 10 = 0) ∧
        (off = 0x28 → d.toNat = s.rxRcvdLen.toNat) ∧ (off = 0x2C → d.toNat = s.lm.rxLen.toNat) ∧
        (off = 0x30 → d = (bitRateCode s.lm.bitRate).setWidth 32) ∧
        (off = 0x34 → d = s.ret0) ∧ (off = 0x38 → d = s.ret1))

/-- R29, R55: a write away from `CMD` changes at most the operand register at its offset, and only as a word access. -/
def Obligations.RegisterWrites : Prop :=
  ∀ (s : State) (rest : List Move) (off : Word) (size : AccessSize) (v : Word),
    s.agenda = .host (.regWrite off size v) :: rest → off ≠ 0 ∨ size ≠ .word →
    ∃ a : Args, step s = .next { s with agenda := rest, arg := a } ∧
      a.a0 = (if size = .word ∧ off = 0x08 then v else s.arg.a0) ∧
      a.a1 = (if size = .word ∧ off = 0x0C then v else s.arg.a1) ∧
      a.a2 = (if size = .word ∧ off = 0x10 then v else s.arg.a2) ∧
      a.a3 = (if size = .word ∧ off = 0x14 then v else s.arg.a3) ∧
      a.a4 = (if size = .word ∧ off = 0x18 then v else s.arg.a4) ∧
      a.a5 = (if size = .word ∧ off = 0x1C then v else s.arg.a5)

/-- R50, R61: a byte the host writes to BUF is the byte it reads there, every other byte reads as before, and the write
keeps the memory's canonical form. A write and a read beyond BUF stop the machine (the model's choice, log entry 10). -/
def Obligations.BufReadsWhatWasWritten : Prop :=
  (∀ (s : State) (a c : Word) (b : Byte) (rest : List Move), s.buf.wf = true →
    s.agenda = .host (.bufWrite a b) :: .host (.bufRead c) :: rest →
    (a.toNat < s.params.bufSize → c.toNat < s.params.bufSize →
      ∃ m, step s = .next { s with buf := m, agenda := .host (.bufRead c) :: rest } ∧ m.wf = true ∧
        step { s with buf := m, agenda := .host (.bufRead c) :: rest } = .next
          { s with buf := m, agenda := rest, hostData := (if c = a then b else readByte s.buf c.toNat).setWidth 32 }) ∧
    (s.params.bufSize ≤ a.toNat → step s = .fault .bufOutOfRange)) ∧
  (∀ (s : State) (a : Word) (rest : List Move), s.agenda = .host (.bufRead a) :: rest → s.params.bufSize ≤ a.toNat →
    step s = .fault .bufOutOfRange)

/-- R58, R225: a flag the front end raises becomes pending only if it is enabled, and nothing else of the state changes. -/
def Obligations.OnlyEnabledFlagsAreLatched : Prop :=
  ∀ (s : State) (f : Word) (rest : List Move), Inv s → s.agenda = .env (.raise f) :: rest →
    ∃ p : Word, step s = .next { s with agenda := rest, env := { s.env with fe := { s.env.fe with irqPending := p } } } ∧
      ∀ k < 32, p.getLsbD k = (s.env.fe.irqPending.getLsbD k || (f.getLsbD k && s.env.fe.irqEnable.getLsbD k))

/-! ## Reset and the invariant -/

/-- R31, R250: the state after hardware reset has the values R31 gives; nothing is pending for the block to do. -/
def Obligations.ResetValues : Prop :=
  Restored State.reset .notInit ∧ State.reset.agenda = [] ∧ step State.reset = .next State.reset

/-- The invariant `Inv` (R30 and the bounds of R51, R151, R168; see its docstring) holds at reset. -/
def Obligations.ResetInv : Prop := Inv State.reset

/-- R30, R51, R116, R120(b), R168(a): every step, whatever the host, the front end and its peer do, keeps `Inv`. -/
def Obligations.StepKeepsInv : Prop := ∀ s t : State, Inv s → step s = .next t → Inv t

/-- R51, R151, R25, U6: no operation of the block accesses BUF or the scratch buffer out of range, and none is refused; and the
reception never reads more bytes from the FIFO than are there, while the front end takes none out. -/
def Obligations.NoOperationLeavesItsBuffers : Prop :=
  (∀ (i : Instr) (s : State), Inv s →
     exec i s ≠ .fault .bufOutOfRange ∧ exec i s ≠ .fault .scratchOutOfRange ∧ ∀ r, exec i s ≠ .refused r) ∧
  (∀ s : State, Inv s → s.topState = .txRx → rxPhase s.txrxState = true → noDrain s →
     exec .worker s ≠ .fault .fifoUnderflow)

/-- R30(e), R256: only SET_MODE, START_TRANSCEIVE and the two synchronous primitives can leave two machines current. -/
def Obligations.SiblingsStayExclusive : Prop :=
  siblingsExclusive State.reset ∧
  ∀ (i : Instr) (s t : State), siblingsExclusive s → opcode i ∉ [(0x02 : Word), 0x0A, 0x0D, 0x0E] → exec i s = .next t →
    siblingsExclusive t

/-! ## What each operation may change -/

/-- R11, R14, R16, R17, R20 to R23, R26, R27, R32: the operations that may write each piece of state (with the writers that
the operation rules add: FIELD_ON_AND_START_GT, WAKEUP_START, the two synchronous primitives); any other operation leaves
it as it is. -/
def Obligations.OnlyTheNamedOperationsWrite : Prop :=
  ∀ (i : Instr) (s t : State), exec i s = .next t →
    t.params = s.params ∧ t.arg = s.arg ∧ t.agenda = s.agenda ∧ t.hostData = s.hostData ∧
    (opcode i ∉ [(0x01 : Word), 0x02, 0x0A, 0x0D, 0x0E, 0x10, 0x11, 0x12, 0x13] → t.topState = s.topState) ∧
    (opcode i ∉ [(0x01 : Word), 0x0A, 0x0B, 0x09, 0x0D, 0x0E] → t.txrxState = s.txrxState ∧ t.status = s.status) ∧
    (opcode i ∉ [(0x01 : Word), 0x02] → t.mode = s.mode) ∧
    (opcode i ∉ [(0x01 : Word), 0x02, 0x03] → t.txBR = s.txBR ∧ t.rxBR = s.rxBR) ∧
    (opcode i ∉ [(0x01 : Word), 0x04] → t.timing.fdtPoll = s.timing.fdtPoll) ∧
    (opcode i ∉ [(0x01 : Word), 0x05] → t.timing.fdtListen = s.timing.fdtListen) ∧
    (opcode i ∉ [(0x01 : Word), 0x06] → t.timing.gt = s.timing.gt) ∧
    (opcode i ∉ [(0x01 : Word), 0x07] → t.policy = s.policy) ∧
    (opcode i ∉ [(0x01 : Word), 0x08, 0x09, 0x12] → t.fieldOn = s.fieldOn) ∧
    (opcode i ∉ [(0x01 : Word), 0x0A, 0x0D, 0x0E] → t.ctx = s.ctx ∧ t.timing.nrtValue = s.timing.nrtValue ∧
      t.timing.nrtDisabled = s.timing.nrtDisabled ∧ t.timing.mrtValue = s.timing.mrtValue) ∧
    (opcode i ∉ [(0x01 : Word), 0x0A, 0x0B, 0x0D, 0x0E] → t.rxRcvdLen = s.rxRcvdLen ∧ t.fifo = s.fifo ∧
      t.cache = s.cache ∧ t.eofSeen = s.eofSeen ∧ t.nfcvScratch = s.nfcvScratch) ∧
    (opcode i ∉ [(0x0B : Word), 0x0D, 0x0E] → t.buf = s.buf) ∧
    (opcode i ∉ [(0x01 : Word), 0x0B, 0x10, 0x11] → t.lmState = s.lmState ∧ t.lm = s.lm) ∧
    (opcode i ∉ [(0x01 : Word), 0x0B, 0x12, 0x13] → t.wuState = s.wuState) ∧
    (opcode i ∉ [(0x01 : Word), 0x12, 0x13] → t.wu = s.wu) ∧
    (opcode i ∉ [(0x01 : Word), 0x08, 0x09, 0x0B, 0x0D, 0x0E] → t.sw.gt = s.sw.gt) ∧
    (opcode i ∉ [(0x01 : Word), 0x0C, 0x0D, 0x0E] → t.ret0 = s.ret0) ∧
    (opcode i ∉ [(0x01 : Word), 0x0E] → t.ret1 = s.ret1)

/-- R51, R151, R168(a), R197: an operation that stores to BUF stores only into the buffer it was given: WORKER into the
reception's buffer or the Listen buffer, SHORT_FRAME_TRANSCEIVE into its `rxBuf`, ANTICOLLISION_TRANSCEIVE into the five
bytes from `buf + bytesToSend` (the area R123 gives from general knowledge, G5; PRESUMED: log entry 12). -/
def Obligations.StoresStayInTheBuffer : Prop :=
  (∀ s t : State, Inv s → exec .worker s = .next t → ∀ x : Nat,
    (s.topState = .txRx → outside s.ctx.rxBuf.toNat (ceil8 s.ctx.rxBufLen.toNat) x) →
    (s.topState = .listen → outside s.lm.rxBuf.toNat (ceil8 s.lm.rxBufLen.toNat) x) →
    readByte t.buf x = readByte s.buf x) ∧
  (∀ (s t : State) (c : BitVec 7) (rx : Word) (len : Len) (fwt : Time), Inv s →
    exec (.shortFrameTransceive c rx len fwt) s = .next t → ∀ x : Nat, outside rx.toNat (ceil8 len.toNat) x →
    readByte t.buf x = readByte s.buf x) ∧
  (∀ (s t : State) (b : Word) (n : Byte) (k : BitVec 3) (fwt : Time), Inv s →
    exec (.anticollisionTransceive b n k fwt) s = .next t → ∀ x : Nat, outside (b.toNat + n.toNat) 5 x →
    readByte t.buf x = readByte s.buf x)

/-- R118, R120(a), R119: `POST_TXRX` is emitted once when an exchange ends, by whatever operation ends it, and never
otherwise; a synchronous primitive that is not turned away runs one whole exchange. -/
def Obligations.CleanupRunsOncePerExchange : Prop :=
  ∀ (i : Instr) (s t : State), exec i s = .next t →
    (opcode i ∉ [(0x0D : Word), 0x0E] →
      postHooks t.env.trace = postHooks s.env.trace + (if running s = true ∧ running t = false then 1 else 0)) ∧
    (opcode i ∈ [(0x0D : Word), 0x0E] →
      (t = { s with result := t.result } ∧ t.result ∈ [Status.wrongState, .param]) ∨
      (running t = false ∧ postHooks t.env.trace = postHooks s.env.trace + 1))

/-- R119: WORKER emits `PRE_TXRX` exactly when an exchange goes past its first transmit attempt, or past `RX_IDLE` without a
tx buffer. -/
def Obligations.PreHookBeforeTransmitOrReceiveOnly : Prop :=
  ∀ s t : State, s.topState = .txRx → exec .worker s = .next t →
    preHooks t.env.trace = preHooks s.env.trace +
      (if (s.txrxState ∈ [TxrxState.txIdle, .txWaitGt, .txWaitFdt, .txTransmit] ∧
            t.txrxState ∉ [TxrxState.txIdle, .txWaitGt, .txWaitFdt]) ∨
          (s.txrxState = .rxIdle ∧ s.ctx.txAbsent = true) then 1 else 0)

/-- R59, R12: WORKER never goes from a reception back to a transmission nor starts an exchange; from a transmission it
goes only to `RX_IDLE`, on in the transmission, or to `IDLE`. -/
def Obligations.TransmissionPrecedesReception : Prop :=
  ∀ s t : State, exec .worker s = .next t →
    (s.txrxState = .idle → t.txrxState = .idle) ∧
    (rxPhase s.txrxState = true → txPhase t.txrxState = false) ∧
    (txPhase s.txrxState = true → txPhase t.txrxState = true ∨ t.txrxState = .rxIdle ∨ t.txrxState = .idle)

/-! ## Configuration and field control -/

/-- R90, R31: INITIALIZE completes in every state, leaves the values of R31 with `topState = Init`, runs Cleanup only where
an exchange was running, and leaves every interrupt disabled, none pending and the three hardware timers stopped. That it
leaves `ARG` as it was rests on R16 (DESIGN CHOICE: log entry 7). -/
def Obligations.InitializeCompletes : Prop :=
  (∀ a : Args, decode ⟨0x01, a⟩ = .ok .initialise) ∧
  ∀ s : State, ∃ (t : State) (ans : Word), exec .initialise s = .next t ∧ Restored t .init ∧
    t.params = s.params ∧ t.arg = s.arg ∧ t.buf = s.buf ∧ t.agenda = s.agenda ∧ t.hostData = s.hostData ∧
    t.env.trace = s.env.trace ++ (if running s then cleanupEvents else []) ++
      [.feCmd .setDefault, .feIrqDisable irqAll, .feGetIrq irqAll ans, .feTimerStop .nrt, .feTimerStop .mrt,
        .feTimerStop .gpt] ∧
    t.env.fe.irqEnable &&& irqAll = 0 ∧ t.env.fe.irqPending &&& irqAll = 0 ∧
    t.env.fe.nrt.state = .stopped ∧ t.env.fe.mrt.state = .stopped ∧ t.env.fe.gpt.state = .stopped

/-- R91, R92, R93: SET_MODE with a supported mode and no exchange running; and where it returns an error, with which code:
then nothing but `RESULT` changes. -/
def Obligations.SetModeAcceptsOrRejects : Prop :=
  (∀ (s : State) (m : Mode) (tx rx : BitRate), s.topState ≠ .notInit → m ≠ .modeNone →
     m ∉ [Mode.listenNfcA, .listenNfcB, .listenNfcF] → s.txrxState = .idle →
     ∃ (v : Env) (t r : BitRate), t = (if tx = .keep then s.txBR else tx) ∧ r = (if rx = .keep then s.rxBR else rx) ∧
       exec (.setMode m tx rx) s = .next
         { s with mode := m, topState := .modeSet, txBR := t, rxBR := r, env := v, result := .none } ∧
       v.trace = s.env.trace ++
         [.feConfig (.mode m), .applyAnalogConfig ⟨isListen m, techOf m, none, .common⟩, .feConfig (.bitrate t r),
           .applyAnalogConfig ⟨isListen m, techOf m, some t, .tx⟩, .applyAnalogConfig ⟨isListen m, techOf m, some r, .rx⟩] ++
         (if m = .pollNfcV then [.feConfig (.nfcvStream t r)] else []) ∧
       v.fe.config.mode = some m ∧ v.fe.config.bitrate = some (t, r) ∧ v.fe.irqEnable = s.env.fe.irqEnable) ∧
  (∀ (s : State) (m : Mode) (tx rx : BitRate) (code : Status),
     (s.topState = .notInit ∧ code = .wrongState ∨
       s.topState ≠ .notInit ∧ m = .modeNone ∧ code = .param ∨
       s.topState ≠ .notInit ∧ m ∈ [Mode.listenNfcA, .listenNfcB, .listenNfcF] ∧ code = .notSupported ∨
       s.topState ≠ .notInit ∧ m ∉ [Mode.modeNone, .listenNfcA, .listenNfcB, .listenNfcF] ∧ s.txrxState ≠ .idle ∧
         code = .wrongState) →
     exec (.setMode m tx rx) s = .next { s with result := code })

/-- R92, R93: SET_BITRATE, accepted and refused. -/
def Obligations.SetBitrateCompletes : Prop :=
  ∀ (s : State) (tx rx : BitRate),
    (s.topState ∉ [TopState.notInit, .init] → s.txrxState = .idle →
      ∃ (v : Env) (t r : BitRate), t = (if tx = .keep then s.txBR else tx) ∧ r = (if rx = .keep then s.rxBR else rx) ∧
        exec (.setBitrate tx rx) s = .next { s with txBR := t, rxBR := r, env := v, result := .none } ∧
        v.trace = s.env.trace ++
          [.feConfig (.bitrate t r), .applyAnalogConfig ⟨isListen s.mode, techOf s.mode, some t, .tx⟩,
            .applyAnalogConfig ⟨isListen s.mode, techOf s.mode, some r, .rx⟩] ++
          (if s.mode = .pollNfcV then [.feConfig (.nfcvStream t r)] else []) ∧
        v.fe.config.bitrate = some (t, r) ∧ v.fe.irqEnable = s.env.fe.irqEnable) ∧
    (s.topState ∈ [TopState.notInit, .init] ∨ s.txrxState ≠ .idle →
      exec (.setBitrate tx rx) s = .next { s with result := .wrongState })

/-- R94, R95, R96: the three timing setters complete in every state, clamp to the maximum of the setting and write nothing
but the setting (and `RESULT`). That they decode whatever `ARG1` to `ARG5` hold is the model's reading (DEDUCED: log entry
9). -/
def Obligations.TimingSettersClamp : Prop :=
  (∀ a : Args, decode ⟨0x04, a⟩ = .ok (.setFdtPoll a.a0) ∧ decode ⟨0x05, a⟩ = .ok (.setFdtListen a.a0) ∧
    decode ⟨0x06, a⟩ = .ok (.setGt a.a0)) ∧
  ∀ (s : State) (value : Time), ∃ p l g : Time,
    exec (.setFdtPoll value) s = .next { s with timing := { s.timing with fdtPoll := p }, result := .none } ∧
    p.toNat = min value.toNat s.params.fdtPollMax.toNat ∧
    exec (.setFdtListen value) s = .next { s with timing := { s.timing with fdtListen := l }, result := .none } ∧
    l.toNat = min value.toNat s.params.fdtListenMax.toNat ∧
    exec (.setGt value) s = .next { s with timing := { s.timing with gt := g }, result := .none } ∧
    g.toNat = min value.toNat s.params.gtMax.toNat

/-- R97: SET_ERROR_HANDLING completes in every state and tells the front end whether its no-response timer goes on. -/
def Obligations.SetErrorHandlingCompletes : Prop :=
  ∀ (s : State) (p : Policy), ∃ v : Env,
    exec (.setErrorHandling p) s = .next { s with policy := p, env := v, result := .none } ∧
    v.trace = s.env.trace ++ [.feConfig (.nrtEmvMode (decide (p = .policyEMVCo)))] ∧
    v.fe.config = { s.env.fe.config with nrtEmvMode := some (decide (p = .policyEMVCo)) } ∧
    v.fe.irqEnable = s.env.fe.irqEnable

/-- R98, R232, R262(1): FIELD_ON_AND_START_GT. With the field off and a front end that answers at the first poll, or after any
number of empty polls: on `CAC` it returns `RfCollision` and the field stays off, on `CAT` alone the field is on and `swGT` is
armed where `GT` is set. With the field on no Chip-Driver call is made and `swGT` is armed anew where `GT` is set. Below
`ModeSet` it returns `WrongState`. With a front end that never answers it is stuck; the fault that says so is the model's
(DESIGN CHOICE: log entry 11), R262 says that the hardware hangs. -/
def Obligations.FieldOnAndStartGuardTime : Prop :=
  (∀ (s : State) (n : Nat) (f : Word), s.topState ∉ [TopState.notInit, .init] → s.fieldOn = false →
     (n = 0 ∧ f = polled (irqCAC ||| irqCAT) (fieldOnRequest s) ∨
       (∃ (g : Word) (rest : List (List EnvEvent)), s.env.script.drop 3 = idleTurns n ++ [.raise g] :: rest ∧
         pendingIn (irqCAC ||| irqCAT) (fieldOnRequest s) = 0 ∧ f = g &&& (irqCAC ||| irqCAT))) → f ≠ 0 →
     ∃ v : Env,
       exec .fieldOnAndStartGt s = .next
         (if has f irqCAC then { s with env := v, result := .rfCollision }
         else { s with
           env := v, fieldOn := true, result := .none, sw := { s.sw with gt := s.sw.gt || s.timing.gt != 0 } }) ∧
       v.trace = s.env.trace ++
         [.feGetIrq (irqCAC ||| irqCAT) (polled (irqCAC ||| irqCAT) s), .feIrqEnable (irqCAC ||| irqCAT),
           .feCmd .fieldOnCa] ++
         List.replicate n (.feGetIrq (irqCAC ||| irqCAT) 0) ++
         [.feGetIrq (irqCAC ||| irqCAT) f, .feIrqDisable (irqCAC ||| irqCAT)] ++
         (if has f irqCAC then [] else [.feConfig (.txrxEnable true)]) ∧
       (has f irqCAC = false → s.timing.gt ≠ 0 → v.swGt = ⟨swTicks s.timing.gt, false⟩) ∧
       v.fe.irqEnable &&& (irqCAC ||| irqCAT) = 0) ∧
  (∀ s : State,
     (s.topState ∉ [TopState.notInit, .init] → s.fieldOn = true →
       exec .fieldOnAndStartGt s = .next
         (if s.timing.gt = 0 then { s with result := .none }
         else { s with
           result := .none, sw := { s.sw with gt := true }
           env := { s.env with swGt := ⟨swTicks s.timing.gt, false⟩ } })) ∧
     (s.topState ∈ [TopState.notInit, .init] → exec .fieldOnAndStartGt s = .next { s with result := .wrongState }) ∧
     (s.topState ∉ [TopState.notInit, .init] → s.fieldOn = false → quietEnv s →
       exec .fieldOnAndStartGt s = .fault .spinNeverEnds))

/-- R99: FIELD_OFF completes in every state; a running exchange ends with `IO` through one Cleanup, and its received length
stays as it is. -/
def Obligations.FieldOffCompletes : Prop :=
  (∀ a : Args, decode ⟨0x09, a⟩ = .ok .fieldOff) ∧
  ∀ s : State, ∃ v : Env,
    exec .fieldOff s = .next
      (if s.txrxState = .idle then
        { s with fieldOn := false, sw := { s.sw with gt := false }, env := v, result := .none }
      else
        { s with
          status := .io, txrxState := .idle, fieldOn := false, sw := ⟨false, false, false⟩, env := v, result := .none }) ∧
    v.trace = s.env.trace ++ (if s.txrxState = .idle then [] else cleanupEvents) ++ [.feConfig (.txrxEnable false)] ∧
    v.fe.config.txrxEnable = some false

/-! ## Transceive control -/

/-- R110, R111, R112, R63, R73: START_TRANSCEIVE accepted. The computed no-response value saturates at `NRT_MAX`; `swGT` is
not touched; no step of a sub-machine is taken. -/
def Obligations.StartTransceiveCompletes : Prop :=
  ∀ (s : State) (txBuf : Word) (txLen : Len) (rxBuf : Word) (rxLen : Len) (flags : BitVec 5) (fwt : Time),
    s.topState ∉ [TopState.notInit, .init] → s.txrxState = .idle →
    (txBuf ≠ 0 ∧ txLen ≠ 0 ∨ rxBuf ≠ 0) →
    (txBuf = 0 ∨ inBounds s.params txBuf txLen.toNat = true) → (rxBuf = 0 ∨ inBounds s.params rxBuf rxLen.toNat = true) →
    (txBuf ≠ 0 ∧ txLen ≠ 0 ∨ isListen s.mode = true ∨ s.fieldOn = true) →
    ∃ v : Env,
      exec (.startTransceive txBuf txLen rxBuf rxLen flags fwt) s = .next { s with
        ctx := ⟨if txLen = 0 then 0 else txBuf, txLen, rxBuf, rxLen, flags, fwt, none, false⟩
        status := .busy, topState := .txRx, fifo := ⟨0, 0, 0⟩, cache := { s.cache with valid := false }, eofSeen := false
        rxRcvdLen := 0, sw := { s.sw with rxeGuard := false, apFwt := false }, timing := startTiming s fwt
        txrxState := if txBuf ≠ 0 ∧ txLen ≠ 0 then .txIdle else .rxIdle, env := v, result := .none } ∧
      v.trace = s.env.trace ++
        [.feGetIrq txrxIrqs (polled txrxIrqs s), .feIrqEnable txrxIrqs, .feConfig (.flags flags),
          if fwt = 0xFFFFFFFF then .feTimerStop .nrt else .feTimerStart .nrt (startTiming s fwt).nrtValue,
          if s.timing.fdtListen = 0 then .feTimerStop .mrt else .feTimerStart .mrt (startTiming s fwt).mrtValue] ∧
      v.fe.config = { s.env.fe.config with flags := some flags } ∧
      v.fe.irqEnable = s.env.fe.irqEnable ||| txrxIrqs

/-- R110, R223, R231: where START_TRANSCEIVE returns an error, and with which code; nothing but `RESULT` changes. A running
exchange is never restarted. -/
def Obligations.StartTransceiveRejects : Prop :=
  ∀ (s : State) (txBuf : Word) (txLen : Len) (rxBuf : Word) (rxLen : Len) (flags : BitVec 5) (fwt : Time),
    let ready := s.topState ∉ [TopState.notInit, .init] ∧ s.txrxState = .idle
    let present := txBuf ≠ 0 ∧ txLen ≠ 0
    let legal := (present ∨ rxBuf ≠ 0) ∧ (txBuf = 0 ∨ inBounds s.params txBuf txLen.toNat = true) ∧
      (rxBuf = 0 ∨ inBounds s.params rxBuf rxLen.toNat = true)
    (¬ready → exec (.startTransceive txBuf txLen rxBuf rxLen flags fwt) s = .next { s with result := .wrongState }) ∧
    (ready → ¬legal → exec (.startTransceive txBuf txLen rxBuf rxLen flags fwt) s = .next { s with result := .param }) ∧
    (ready → legal → ¬present → isListen s.mode = false → s.fieldOn = false →
      exec (.startTransceive txBuf txLen rxBuf rxLen flags fwt) s = .next { s with result := .wrongState })

/-- R115, R194, R196, R208: WORKER with nothing to do completes, makes no Chip-Driver call and changes only `RESULT`. -/
def Obligations.WorkerSkipsWithNothingActive : Prop :=
  ∀ s : State,
    (s.topState ∈ [TopState.notInit, .init, .modeSet] ∨ s.topState = .txRx ∧ s.txrxState = .idle ∨
      s.topState = .listen ∧ s.lmState ∉ [LmState.powerOff, .idle] ∨
      s.topState = .listen ∧ s.lmState = .idle ∧ s.lm.dataFlag = true ∨
      s.topState = .wakeUp ∧ s.wuState ≠ .enabled) →
    exec .worker s = .next { s with result := .none }

/-- R117, R14: GET_STATUS completes in every state, returns `Busy` while an exchange runs and else the recorded status, and
writes the received length into `RET0`; the `STATUS` register reads the same value. -/
def Obligations.GetStatusReturnsStatus : Prop :=
  (∀ a : Args, decode ⟨0x0C, a⟩ = .ok .getStatus) ∧
  ∀ s : State, ∃ r : Word, r.toNat = s.rxRcvdLen.toNat ∧
    (s.txrxState ≠ .idle → exec .getStatus s = .next { s with result := .busy, ret0 := r } ∧
      registerValue 0x20 s = (statusCode .busy).setWidth 32) ∧
    (s.txrxState = .idle → exec .getStatus s = .next { s with result := s.status, ret0 := r } ∧
      registerValue 0x20 s = (statusCode s.status).setWidth 32)

/-! ## Transmission -/

/-- R131, R132, R133, R30, R232: however often WORKER is issued, and whatever else the front end does, a transmission does not
leave `TX_WAIT_GT` while the guard time is armed and has not expired, and no Chip-Driver call is made meanwhile. With no
guard time left to wait for, in passive communication with an FDT-Poll set, WORKER waits in `TX_WAIT_FDT` while GPT is
running; it only asks. -/
def Obligations.GuardTimeAndFrameDelayGateTransmission : Prop :=
  (∀ (n : Nat) (s : State), s.topState = .txRx → s.txrxState ∈ [TxrxState.txIdle, .txWaitGt] → s.sw.gt = true →
     s.env.swGt.expired = false → (∀ es ∈ s.env.script.take n, EnvEvent.swExpire .gt ∉ es) →
     ∃ v : Env, workers n s = some { s with
         txrxState := if n = 0 then s.txrxState else .txWaitGt, env := v, result := if n = 0 then s.result else .none } ∧
       v.trace = s.env.trace ∧ v.script = s.env.script.drop n ∧ v.swGt = s.env.swGt) ∧
  (∀ s : State, s.topState = .txRx → s.txrxState ∈ [TxrxState.txIdle, .txWaitGt, .txWaitFdt] → guardOver s →
     asksDelay s = true → delayAnswer s = .running →
     ∃ v : Env, exec .worker s = .next
         { s with txrxState := .txWaitFdt, sw := swPastGuard s, env := v, result := .none } ∧
       v.trace = s.env.trace ++ [.feTimerCheck .gpt .running])

/-- R131, R132, R133, R134, R76: with the guard time absent or expired, and the frame delay not asked for or GPT not running
(stopped, armed or expired), one WORKER goes from any of the waiting states to the transmission: it hands the first
`min(ceil8(txBufLen), FIFO_DEPTH)` bytes of BUF to the cleared FIFO and fires the transmit command, with or without automatic
CRC. The front end may do anything meanwhile but receive. -/
def Obligations.TransmitLoadsTheFifo : Prop :=
  ∀ s : State, s.topState = .txRx → s.txrxState ∈ [TxrxState.txIdle, .txWaitGt, .txWaitFdt, .txTransmit] →
    guardOver s → delayOver s → s.mode ≠ .pollNfcV → s.ctx.sfByte = none →
    inBounds s.params s.ctx.txBuf s.ctx.txBufLen.toNat = true → s.ctx.txBufLen ≠ 0 → 1 ≤ s.params.fifoDepth →
    noReceive s →
    ∃ (v : Env) (total k : Len), total.toNat = (s.ctx.txBufLen.toNat + 7) / 8 ∧
      k.toNat = min total.toNat s.params.fifoDepth ∧
      exec .worker s = .next { s with
        fifo := ⟨total, k, s.params.fifoTxRefill⟩, sw := swPastGuard s, env := v, result := .none
        txrxState := if s.params.fifoDepth < total.toNat then .txWaitWl else .txWaitTxe } ∧
      v.trace = s.env.trace ++ gateEvents s ++
        [.preTxRx, .feCmd .clearFifo, .feConfig (.txLengthBits s.ctx.txBufLen.toNat),
          .feFifoWrite (readBytes s.buf s.ctx.txBuf.toNat k.toNat),
          .feCmd (if s.ctx.flags.getLsbD 0 then .txWithoutCrc else .txWithCrc)]

/-- R131, R132, R133, R134 (NFC-V): past the same gates as any transmission, from any of the waiting states, the payload is
encoded into the scratch buffer, which is transmitted without automatic CRC; a stream that does not fit ends the exchange with
`NoMem`. A stream of more than 65535 bytes, which no counter holds, stops the machine (U7; log entry 15). The front end may do
anything meanwhile but receive. -/
def Obligations.NfcvTransmitsTheEncodedStream : Prop :=
  ∀ (s : State) (stream : List Byte), s.topState = .txRx →
    s.txrxState ∈ [TxrxState.txIdle, .txWaitGt, .txWaitFdt, .txTransmit] → guardOver s → delayOver s → s.mode = .pollNfcV →
    s.nfcvScratch.wf = true → inBounds s.params s.ctx.txBuf s.ctx.txBufLen.toNat = true → noReceive s →
    stream = Config.nfcvEncode (readBytes s.buf s.ctx.txBuf.toNat ((s.ctx.txBufLen.toNat + 7) / 8)) s.ctx.txBufLen.toNat
      s.ctx.flags →
    ∃ (v : Env) (k : Len) (m : Memory),
      exec .worker s =
        (if s.params.nfcvScratchSize < stream.length then .next { s with
          status := .noMem, txrxState := .idle, sw := { swPastGuard s with rxeGuard := false, apFwt := false }, env := v
          result := .none }
        else if stream.length < 65536 then .next { s with
          fifo := ⟨BitVec.ofNat 16 stream.length, k, s.params.fifoTxRefill⟩, nfcvScratch := m, env := v, result := .none
          sw := swPastGuard s, txrxState := if s.params.fifoDepth < stream.length then .txWaitWl else .txWaitTxe }
        else .fault .counterOverflow) ∧
      (stream.length < 65536 → k.toNat = min stream.length s.params.fifoDepth) ∧
      storedAt s.nfcvScratch m 0 stream ∧
      v.trace = s.env.trace ++ gateEvents s ++ [.preTxRx, .feCmd .clearFifo] ++
        (if s.params.nfcvScratchSize < stream.length then cleanupEvents
        else [.feConfig (.txLengthBits (8 * stream.length))] ++
          (if k = 0 then [] else [.feFifoWrite (stream.take k.toNat)]) ++ [.feCmd .txWithoutCrc])

/-- R135, R136, R139, R229, R52, R63: `TX_WAIT_WL` with no polled flag waits; with `TXE`, alone or with `WL`, the exchange fails
`IO` through one Cleanup; with `WL` alone the next `min(bytesTotal - bytesWritten, expectedWaterLevel)` bytes are read now,
from the scratch buffer in NFC-V and else from BUF, and handed over where the FIFO has room for them. Without room the machine
faults (U6). -/
def Obligations.WatermarkWaitsReloadsOrFails : Prop :=
  (∀ s : State, s.topState = .txRx → s.txrxState = .txWaitWl →
     (polled (irqWL ||| irqTXE) s = 0 →
       ∃ v : Env, exec .worker s = .next { s with env := v, result := .none } ∧
         v.trace = s.env.trace ++ [.feGetIrq (irqWL ||| irqTXE) 0] ∧
         v.fe.irqPending = (atCall s).env.fe.irqPending) ∧
     (has (polled (irqWL ||| irqTXE) s) irqTXE = true →
       ∃ v : Env, exec .worker s = .next { s with
           status := .io, txrxState := .idle, sw := { s.sw with rxeGuard := false, apFwt := false }, env := v
           result := .none } ∧
         v.trace = s.env.trace ++ [.feGetIrq (irqWL ||| irqTXE) (polled (irqWL ||| irqTXE) s)] ++ cleanupEvents)) ∧
  (∀ (s : State) (k : Nat), s.topState = .txRx → s.txrxState = .txWaitWl →
     (s.mode = .pollNfcV ∨ s.ctx.sfByte = none ∧ inBounds s.params s.ctx.txBuf s.ctx.txBufLen.toNat = true) →
     s.fifo.bytesTotal.toNat ≤ txSourceLen s → s.fifo.bytesWritten.toNat < s.fifo.bytesTotal.toNat →
     s.fifo.expectedWaterLevel ≠ 0 → polled (irqWL ||| irqTXE) s = irqWL →
     k = min (s.fifo.bytesTotal.toNat - s.fifo.bytesWritten.toNat) s.fifo.expectedWaterLevel.toNat →
     let room := s.params.fifoDepth - (atCall (feGetIrq (irqWL ||| irqTXE) s).2).env.fe.fifo.length
     (k ≤ room → ∃ (v : Env) (w : Len), w.toNat = s.fifo.bytesWritten.toNat + k ∧
       exec .worker s = .next { s with
         fifo := { s.fifo with bytesWritten := w }, env := v, result := .none
         txrxState := if w.toNat < s.fifo.bytesTotal.toNat then .txWaitWl else .txWaitTxe } ∧
       v.trace = s.env.trace ++ [.feGetIrq (irqWL ||| irqTXE) irqWL,
         .feFifoWrite (if s.mode = .pollNfcV then readBytes s.nfcvScratch s.fifo.bytesWritten.toNat k
           else readBytes s.buf (s.ctx.txBuf.toNat + s.fifo.bytesWritten.toNat) k)]) ∧
     (room < k → exec .worker s = .fault .fifoOverflow))

/-- R137, R138: `TX_WAIT_TXE` ignores a lone `WL`; on `TXE` an exchange without a receive buffer ends with success through
one Cleanup, any other goes on to the reception, which starts at the next WORKER. -/
def Obligations.TransmitEndCompletesOrReceives : Prop :=
  ∀ (s : State) (i : Word), s.topState = .txRx → s.txrxState = .txWaitTxe → i = polled (irqWL ||| irqTXE) s →
    (has i irqTXE = false → ∃ v : Env, exec .worker s = .next { s with env := v, result := .none } ∧
      v.trace = s.env.trace ++ [.feGetIrq (irqWL ||| irqTXE) i]) ∧
    (has i irqTXE = true → s.ctx.rxBuf = 0 → ∃ v : Env, exec .worker s = .next { s with
        status := .none, txrxState := .idle, sw := { s.sw with rxeGuard := false, apFwt := false }, env := v
        result := .none } ∧
      v.trace = s.env.trace ++ [.feGetIrq (irqWL ||| irqTXE) i] ++ cleanupEvents) ∧
    (has i irqTXE = true → s.ctx.rxBuf ≠ 0 → ∃ v : Env, exec .worker s = .next
        { s with txrxState := .rxIdle, env := v, result := .none } ∧
      v.trace = s.env.trace ++ [.feGetIrq (irqWL ||| irqTXE) i] ∧
      v.fe.irqPending = (atCall s).env.fe.irqPending &&& ~~~(irqWL ||| irqTXE))

/-! ## Reception -/

/-- R153, R119: `RX_IDLE` resets the counters, the cache and `eofSeen`; a receive-only exchange emits `PRE_TXRX` and enables
the receiver on an empty FIFO; passive communication arms GPT, active communication the software FWT timer. -/
def Obligations.ReceptionStarts : Prop :=
  ∀ s : State, s.topState = .txRx → s.txrxState = .rxIdle →
    ∃ v : Env, exec .worker s = .next { s with
        fifo := ⟨0, 0, s.params.fifoRxWl⟩, cache := { s.cache with valid := false }, eofSeen := false
        sw := { s.sw with apFwt := s.sw.apFwt || isActive s.mode && !s.timing.nrtDisabled }
        txrxState := if isActive s.mode then .rxWaitEon else .rxWaitRxs, env := v, result := .none } ∧
      v.trace = s.env.trace ++
        (if s.ctx.txBuf = 0 ∧ s.ctx.sfByte = none then [.preTxRx, .feCmd .clearFifo, .feCmd .unmaskRx] else []) ++
        (if isActive s.mode = false ∧ s.timing.fdtPoll ≠ 0 then [.feTimerStart .gpt s.timing.fdtPoll] else []) ∧
      (isActive s.mode = true → s.timing.nrtDisabled = false →
        v.swApFwt = ⟨swTicks s.timing.nrtValue, false⟩) ∧
      (isActive s.mode = false → s.timing.fdtPoll ≠ 0 → v.fe.gpt = ⟨.armed, s.timing.fdtPoll⟩)

/-- R154, R169, R229: in `RX_WAIT_EON`, `EON` goes on, else `NRE` or the expired software timer fails `Timeout`, else the
state waits. -/
def Obligations.ExternalFieldOnBeforeTimeout : Prop :=
  ∀ (s : State) (i : Word), s.topState = .txRx → s.txrxState = .rxWaitEon → i = polled (irqEON ||| irqNRE) s →
    8 * s.fifo.bytesWritten.toNat < 65536 →
    let late := s.sw.apFwt = true ∧ (swExpired .apFwt (feGetIrq (irqEON ||| irqNRE) s).2).1 = true
    (has i irqEON = true → ∃ v : Env, exec .worker s = .next { s with txrxState := .rxWaitRxs, env := v, result := .none } ∧
      v.trace = s.env.trace ++ [.feGetIrq (irqEON ||| irqNRE) i]) ∧
    (has i irqEON = false → (has i irqNRE = true ∨ late) → ∃ (v : Env) (l : Len), l.toNat = 8 * s.fifo.bytesWritten.toNat ∧
      exec .worker s = .next { s with
        status := .timeout, rxRcvdLen := l, txrxState := .idle, sw := { s.sw with rxeGuard := false, apFwt := false }
        env := v, result := .none } ∧
      v.trace = s.env.trace ++ [.feGetIrq (irqEON ||| irqNRE) i] ++ cleanupEvents) ∧
    (i = 0 → ¬late → ∃ v : Env, exec .worker s = .next { s with env := v, result := .none } ∧
      v.trace = s.env.trace ++ [.feGetIrq (irqEON ||| irqNRE) 0])

/-- R155, R157, R169, R229, R232: `RX_WAIT_RXS`. Without `RXS`, `EOF` (active communication only) fails `LinkLoss`, else `NRE`
fails `Timeout`, else the state waits. `RXS`, which overrules `NRE`, records in `eofSeen` whether the field went off with it,
arms the missing-end-of-frame guard with 10 units and goes on within the same WORKER: the rest of it is what WORKER does from
`RX_WAIT_RXE`, a frame already over included. With `RXE` and `WL` not pending, and a front end that takes no further step after
the first poll (R58), that is to wait there, or `LinkLoss` where the field went off with `RXS`. -/
def Obligations.StartOfFrameTimeoutOrLinkLoss : Prop :=
  (∀ (s : State) (m i : Word), s.topState = .txRx → s.txrxState = .rxWaitRxs →
     m = irqRXS ||| irqNRE ||| (if isActive s.mode then irqEOF else 0) → i = polled m s →
     (has i irqRXS = false → 8 * s.fifo.bytesWritten.toNat < 65536 →
       (i = 0 → ∃ v : Env, exec .worker s = .next { s with env := v, result := .none } ∧
         v.trace = s.env.trace ++ [.feGetIrq m 0]) ∧
       (i ≠ 0 → ∃ (v : Env) (l : Len), l.toNat = 8 * s.fifo.bytesWritten.toNat ∧ exec .worker s = .next { s with
           status := if has i irqEOF then .linkLoss else .timeout, rxRcvdLen := l, txrxState := .idle
           sw := { s.sw with rxeGuard := false, apFwt := false }, env := v, result := .none } ∧
         v.trace = s.env.trace ++ [.feGetIrq m i] ++ cleanupEvents)) ∧
     (has i irqRXS = true → ∃ v : Env,
       exec .worker s = exec .worker { s with
         eofSeen := has i irqEOF, sw := { s.sw with rxeGuard := true }, txrxState := .rxWaitRxe, env := v } ∧
       v.swRxeGuard = ⟨10, false⟩ ∧ v.trace = s.env.trace ++ [.feGetIrq m i] ∧ v.script = s.env.script.tail ∧
       v.fe = { (atCall s).env.fe with irqPending := (atCall s).env.fe.irqPending &&& ~~~m })) ∧
  (∀ (s : State) (p m x : Word), s.topState = .txRx → s.txrxState = .rxWaitRxs → s.env.script.tail = [] →
     p = (atCall s).env.fe.irqPending → has p irqRXS = true → p &&& (irqRXE ||| irqWL) = 0 →
     8 * s.fifo.bytesWritten.toNat < 65536 →
     x = (if isActive s.mode then irqEOF else 0) → m = irqRXS ||| irqNRE ||| x →
     (p &&& x = 0 → ∃ v : Env, exec .worker s = .next { s with
         eofSeen := false, sw := { s.sw with rxeGuard := true }, txrxState := .rxWaitRxe, env := v, result := .none } ∧
       v.swRxeGuard = ⟨10, false⟩ ∧
       v.trace = s.env.trace ++ [.feGetIrq m (p &&& m), .feGetIrq (irqRXE ||| irqWL ||| x) 0]) ∧
     (p &&& x ≠ 0 → ∃ (v : Env) (l : Len), l.toNat = 8 * s.fifo.bytesWritten.toNat ∧ exec .worker s = .next { s with
         eofSeen := true, status := .linkLoss, rxRcvdLen := l, txrxState := .idle
         sw := { s.sw with rxeGuard := false, apFwt := false }, env := v, result := .none } ∧
       v.trace = s.env.trace ++ [.feGetIrq m (p &&& m), .feGetIrq (irqRXE ||| irqWL ||| x) 0] ++ cleanupEvents))

/-- R157, R169, R229, R259: in `RX_WAIT_RXE` without `RXE`, a field gone (now or before) fails `LinkLoss`; with no polled
flag the expired guard fails `Framing`, and the state waits while the guard has not expired. -/
def Obligations.EndOfFrameLinkLossOrGuard : Prop :=
  ∀ (s : State) (m i : Word), s.topState = .txRx → s.txrxState = .rxWaitRxe →
    m = irqRXE ||| irqWL ||| (if isActive s.mode then irqEOF else 0) → i = polled m s → has i irqRXE = false →
    8 * s.fifo.bytesWritten.toNat < 65536 →
    let seen := s.eofSeen || has i irqEOF
    let late := (swExpired .rxeGuard (feGetIrq m s).2).1
    (seen = true ∨ has i irqWL = false ∧ late = true →
      ∃ (v : Env) (l : Len), l.toNat = 8 * s.fifo.bytesWritten.toNat ∧ exec .worker s = .next { s with
        eofSeen := seen, status := if seen then .linkLoss else .framing, rxRcvdLen := l, txrxState := .idle
        sw := { s.sw with rxeGuard := false, apFwt := false }, env := v, result := .none } ∧
      v.trace = s.env.trace ++ [.feGetIrq m i] ++ cleanupEvents) ∧
    (seen = false → has i irqWL = false → late = false →
      ∃ v : Env, exec .worker s = .next { s with env := v, result := .none } ∧ v.trace = s.env.trace ++ [.feGetIrq m i])

/-- R156, R151, R168, R62, R169: on `WL` before the end of the frame, in any mode but NFC-V and with a front end that takes no
step during the operation (`quietEnv`, R58), all bytes present are counted, and copied up to the capacity of the reception's
buffer; a frame beyond the capacity fails `NoMem`, with the copied bytes delivered. -/
def Obligations.PartialDrainCopiesUpToCapacity : Prop :=
  ∀ (s : State) (n k cap : Nat) (i : Word), s.topState = .txRx → s.txrxState = .rxWaitRxe → s.mode ≠ .pollNfcV →
    quietEnv s → s.buf.wf = true → inBounds s.params s.ctx.rxBuf s.ctx.rxBufLen.toNat = true → s.ctx.splitByte = false →
    s.eofSeen = false → i = s.env.fe.irqPending &&& (irqRXE ||| irqWL ||| (if isActive s.mode then irqEOF else 0)) →
    i = irqWL → n = s.env.fe.fifo.length → cap = (s.ctx.rxBufLen.toNat + 7) / 8 →
    s.fifo.bytesWritten.toNat ≤ cap → s.fifo.bytesWritten.toNat ≤ s.fifo.bytesTotal.toNat →
    s.fifo.bytesTotal.toNat + n < 65536 → 8 * cap < 65536 → k = min n (cap - s.fifo.bytesWritten.toNat) →
    ∃ (v : Env) (m : Memory) (total w l : Len), total.toNat = s.fifo.bytesTotal.toNat + n ∧
      w.toNat = s.fifo.bytesWritten.toNat + k ∧ l.toNat = 8 * w.toNat ∧
      storedAt s.buf m (s.ctx.rxBuf.toNat + s.fifo.bytesWritten.toNat) (s.env.fe.fifo.take k) ∧
      v.fe.fifo = s.env.fe.fifo.drop k ∧
      exec .worker s = .next (if total.toNat ≤ cap then { s with
          fifo := { s.fifo with bytesTotal := total, bytesWritten := w }, buf := m, env := v, result := .none
          cache := ⟨true, n, s.env.fe.incompleteBits, s.env.fe.missingParity⟩ }
        else { s with
          fifo := { s.fifo with bytesTotal := total, bytesWritten := w }, buf := m, env := v, result := .none
          cache := ⟨true, n, s.env.fe.incompleteBits, s.env.fe.missingParity⟩
          status := .noMem, rxRcvdLen := l, txrxState := .idle
          sw := { s.sw with rxeGuard := false, apFwt := false } })

/-- R158, R181: the priority order of the error check, and the short-reply reinterpretation in its second place. -/
def Obligations.ErrorCheckPriority : Prop :=
  ∀ (policy : Policy) (mode : Mode) (total n : Nat) (e : Word) (ib : BitVec 3) (mp : Bool),
    let short := policy = .policyNone ∧ mode = .pollNfcA ∧ (has e irqPAR = true ∨ has e irqCRC = true) ∧ ib ≠ 0 ∧ n = 1 ∧
      total = 0
    let soft := has e irqERR2 = true ∧ policy = .policyEMVCo
    let r := classify policy mode total e n ib mp
    (has e irqERR1 = true → r = .error .framing) ∧
    (has e irqERR1 = false → short → r = .nfcaIncomplete) ∧
    (has e irqERR1 = false → ¬short →
      (soft → r = .error .framing) ∧
      (¬soft → has e irqPAR = true → r = .error .parity) ∧
      (¬soft → has e irqPAR = false → has e irqCRC = true → r = .error .crc) ∧
      (¬soft → has e irqPAR = false → has e irqCRC = false → has e irqCOL = true → r = .error .rfCollision) ∧
      (¬soft → e &&& (irqPAR ||| irqCRC ||| irqCOL) = 0 → ib ≠ 0 → r = .error .incompleteByte) ∧
      (¬soft → e &&& (irqPAR ||| irqCRC ||| irqCOL) = 0 → ib = 0 → mp = true → r = .error .framing) ∧
      (¬soft → e &&& (irqPAR ||| irqCRC ||| irqCOL) = 0 → ib = 0 → mp = false → r = .noError))

/-- R159, R162, R163, R165, R166, R167, R152, R64(c), R30(c): a frame that ends, in passive or active communication but NFC-V,
and is neither a short reply nor discarded, with a front end that takes no step during the operation (`quietEnv`, R58): up to
the capacity the bytes are delivered, the CRC is left in the FIFO unless it is kept, the exact bit length is reported, and the
exchange ends with the first error, with `NoMem` for a frame beyond the capacity, or with success; in active communication the
success waits in `RX_WAIT_EOF`, still `Busy`, unless the field is known to have gone off. -/
def Obligations.FrameIsDeliveredAndReported : Prop :=
  ∀ (s : State) (e m p : Word) (n total lrep cap k : Nat) (verdict : Verdict) (outcome : Status) (gone : Bool),
    s.topState = .txRx → s.txrxState = .rxWaitRxe → s.mode ≠ .pollNfcV → quietEnv s → s.buf.wf = true →
    inBounds s.params s.ctx.rxBuf s.ctx.rxBufLen.toNat = true → s.ctx.splitByte = false → s.status = .busy →
    m = irqRXE ||| irqWL ||| (if isActive s.mode then irqEOF else 0) →
    p = s.env.fe.irqPending → has p irqRXE = true → e = p &&& (irqERR1 ||| irqERR2 ||| irqPAR ||| irqCRC ||| irqCOL) →
    n = s.env.fe.fifo.length →
    verdict = classify s.policy s.mode s.fifo.bytesTotal.toNat e n s.env.fe.incompleteBits s.env.fe.missingParity →
    verdict ≠ .nfcaIncomplete →
    (∀ x, verdict = .error x → s.policy = .policyEMVCo → 4 ≤ s.fifo.bytesTotal.toNat + n) →
    total = s.fifo.bytesTotal.toNat + n → cap = (s.ctx.rxBufLen.toNat + 7) / 8 →
    s.fifo.bytesWritten = s.fifo.bytesTotal → s.fifo.bytesWritten.toNat ≤ cap → 8 * total < 65536 →
    lrep = (if s.ctx.flags.getLsbD 1 = false ∧ 2 < total then total - 2 else total) →
    k = min lrep cap - s.fifo.bytesWritten.toNat →
    outcome = (match verdict with
      | .error x => x
      | .noError | .nfcaIncomplete => if cap < lrep then .noMem else .none) →
    gone = (s.eofSeen || has (p &&& m) irqEOF) →
    let waits : Prop := isActive s.mode = true ∧ outcome = .none ∧ gone = false
    ∃ (v : Env) (b : Memory) (w l : Len), w.toNat = s.fifo.bytesWritten.toNat + k ∧
      l.toNat = (if s.env.fe.incompleteBits = 0 ∨ lrep = 0 then 8 * lrep
        else 8 * lrep - (8 - s.env.fe.incompleteBits.toNat)) ∧
      storedAt s.buf b (s.ctx.rxBuf.toNat + s.fifo.bytesWritten.toNat) (s.env.fe.fifo.take k) ∧
      exec .worker s = .next { s with
        status := if waits then .busy else outcome, txrxState := if waits then .rxWaitEof else .idle, eofSeen := gone
        rxRcvdLen := l, fifo := { s.fifo with bytesTotal := BitVec.ofNat 16 total, bytesWritten := w }, buf := b
        cache := ⟨true, n, s.env.fe.incompleteBits, s.env.fe.missingParity⟩
        sw := { s.sw with rxeGuard := false, apFwt := if waits then s.sw.apFwt else false }, env := v, result := .none } ∧
      v.trace = s.env.trace ++
        [.feGetIrq m (p &&& m), .feGetIrq (irqERR1 ||| irqERR2 ||| irqPAR ||| irqCRC ||| irqCOL) e,
          .feFifoStatus n s.env.fe.incompleteBits s.env.fe.missingParity] ++
        (if k = 0 then [] else [.feFifoRead (s.env.fe.fifo.take k)]) ++
        (if waits then [.feGetIrq irqEOF 0] else cleanupEvents) ∧
      v.fe.fifo = s.env.fe.fifo.drop k

/-- R160, R181, R53: a one-byte NFC-A reply with residual bits and a parity or CRC flag, under the default policy, ends the
exchange with `IncompleteByte`, the byte delivered where there is room and the valid bit count reported. The front end takes
no step during the operation (`quietEnv`, R58). -/
def Obligations.ShortReplyBecomesIncompleteByte : Prop :=
  ∀ (s : State) (b : Byte) (p : Word), s.topState = .txRx → s.txrxState = .rxWaitRxe → s.mode = .pollNfcA →
    s.policy = .policyNone → quietEnv s → s.buf.wf = true →
    inBounds s.params s.ctx.rxBuf s.ctx.rxBufLen.toNat = true → s.ctx.splitByte = false →
    p = s.env.fe.irqPending → has p irqRXE = true → has p irqERR1 = false → has p (irqPAR ||| irqCRC) = true →
    s.env.fe.fifo = [b] → s.env.fe.incompleteBits ≠ 0 → s.fifo.bytesTotal = 0 → s.fifo.bytesWritten = 0 →
    ∃ (v : Env) (m : Memory) (l : Len), l.toNat = s.env.fe.incompleteBits.toNat ∧
      storedAt s.buf m s.ctx.rxBuf.toNat (if s.ctx.rxBufLen = 0 then [] else [b]) ∧
      exec .worker s = .next { s with
        status := .incompleteByte, rxRcvdLen := l, txrxState := .idle, buf := m, env := v, result := .none
        fifo := { s.fifo with bytesTotal := 1, bytesWritten := if s.ctx.rxBufLen = 0 then 0 else 1 }
        cache := ⟨true, 1, s.env.fe.incompleteBits, s.env.fe.missingParity⟩
        sw := { s.sw with rxeGuard := false, apFwt := false } } ∧
      postHooks v.trace = postHooks s.env.trace + 1

/-- R182, R183, R97: under the EMVCo policy an erroneous frame of fewer than four bytes is discarded, in passive and in active
communication: the FIFO is cleared, the receiver re-enabled, the exchange stays `Busy` waiting for a frame, `eofSeen` is kept,
and neither Cleanup nor a timer start happens. The front end takes no step during the operation (`quietEnv`, R58). -/
def Obligations.EmvcoDiscardsShortErroneousFrames : Prop :=
  ∀ (s : State) (p m : Word) (n : Nat) (x : Status), s.topState = .txRx → s.txrxState = .rxWaitRxe →
    s.policy = .policyEMVCo → quietEnv s → m = irqRXE ||| irqWL ||| (if isActive s.mode then irqEOF else 0) →
    p = s.env.fe.irqPending → has p irqRXE = true → n = s.env.fe.fifo.length → s.fifo.bytesTotal.toNat + n < 4 →
    classify s.policy s.mode s.fifo.bytesTotal.toNat (p &&& (irqERR1 ||| irqERR2 ||| irqPAR ||| irqCRC ||| irqCOL)) n
      s.env.fe.incompleteBits s.env.fe.missingParity = .error x →
    ∃ v : Env, exec .worker s = .next { s with
        fifo := { s.fifo with bytesTotal := 0, bytesWritten := 0 }, sw := { s.sw with rxeGuard := false }
        cache := ⟨false, n, s.env.fe.incompleteBits, s.env.fe.missingParity⟩, txrxState := .rxWaitRxs
        eofSeen := s.eofSeen || has (p &&& m) irqEOF, env := v, result := .none } ∧
      v.fe.fifo = [] ∧ v.fe.nrt = s.env.fe.nrt ∧
      v.trace = s.env.trace ++
        [.feGetIrq m (p &&& m),
          .feGetIrq (irqERR1 ||| irqERR2 ||| irqPAR ||| irqCRC ||| irqCOL)
            (p &&& (irqERR1 ||| irqERR2 ||| irqPAR ||| irqCRC ||| irqCOL)),
          .feFifoStatus n s.env.fe.incompleteBits s.env.fe.missingParity, .feCmd .clearFifo, .feCmd .unmaskRx]

/-- R164, R162, R159 (NFC-V): a frame that ends and is not discarded, with a front end that takes no step during the operation
(`quietEnv`, R58): the rest of the raw response is drained into the scratch buffer up to its size, the raw response is decoded
into the receive buffer, and the decode result replaces the status recorded before: an error of the frame, or `NoMem` for a
response longer than the scratch buffer, by success included. A byte or bit count above 65535 stops the machine (U7; log entry
15). That the decoder never answers `Busy` is the model's (DEDUCED: log entry 16). -/
def Obligations.NfcvDecodeOverridesTheStatus : Prop :=
  ∀ (s : State) (e p : Word) (n w k total cap : Nat) (raw : List Byte) (d : NfcvDecoded), s.topState = .txRx →
    s.txrxState = .rxWaitRxe → s.mode = .pollNfcV → quietEnv s → s.buf.wf = true → s.nfcvScratch.wf = true →
    inBounds s.params s.ctx.rxBuf s.ctx.rxBufLen.toNat = true → p = s.env.fe.irqPending → has p irqRXE = true →
    e = p &&& (irqERR1 ||| irqERR2 ||| irqPAR ||| irqCRC ||| irqCOL) → n = s.env.fe.fifo.length →
    w = s.fifo.bytesWritten.toNat → s.fifo.bytesTotal = s.fifo.bytesWritten → w ≤ s.params.nfcvScratchSize →
    total = w + n → k = min total s.params.nfcvScratchSize - w →
    (∀ x, classify s.policy s.mode w e n s.env.fe.incompleteBits s.env.fe.missingParity = .error x →
      s.policy = .policyEMVCo → 4 ≤ total) →
    cap = (s.ctx.rxBufLen.toNat + 7) / 8 → raw = readBytes s.nfcvScratch 0 w ++ s.env.fe.fifo.take k →
    d = nfcvDecode raw (s.ctx.flags.getLsbD 1) cap →
    d.bytes.length ≤ cap ∧ d.status ≠ .busy ∧
    ∃ (v : Env) (m scratch : Memory), storedAt s.buf m s.ctx.rxBuf.toNat d.bytes ∧
      storedAt s.nfcvScratch scratch w (s.env.fe.fifo.take k) ∧
      exec .worker s = (if total < 65536 ∧ d.bits < 65536 then .next { s with
        status := d.status, rxRcvdLen := BitVec.ofNat 16 d.bits, txrxState := .idle, buf := m, nfcvScratch := scratch
        fifo := { s.fifo with bytesTotal := BitVec.ofNat 16 total, bytesWritten := BitVec.ofNat 16 (w + k) }
        cache := ⟨true, n, s.env.fe.incompleteBits, s.env.fe.missingParity⟩
        sw := { s.sw with rxeGuard := false, apFwt := false }, env := v, result := .none }
        else .fault .counterOverflow) ∧
      v.trace = s.env.trace ++
        [.feGetIrq (irqRXE ||| irqWL) (p &&& (irqRXE ||| irqWL)),
          .feGetIrq (irqERR1 ||| irqERR2 ||| irqPAR ||| irqCRC ||| irqCOL) e,
          .feFifoStatus n s.env.fe.incompleteBits s.env.fe.missingParity] ++
        (if k = 0 then [] else [.feFifoRead (s.env.fe.fifo.take k)]) ++ cleanupEvents

/-- R165, R166, R152: in `RX_WAIT_EOF` an `EOF` seen before ends the exchange with success without a poll, an `EOF` polled now
ends it too, and without it the state waits. -/
def Obligations.FrameEndWaitsForFieldOff : Prop :=
  ∀ (s : State), s.topState = .txRx → s.txrxState = .rxWaitEof →
    (s.eofSeen = true ∨ has (polled irqEOF s) irqEOF = true →
      ∃ v : Env, exec .worker s = .next { s with
          status := .none, txrxState := .idle, sw := { s.sw with rxeGuard := false, apFwt := false }, env := v
          result := .none } ∧
        v.trace = s.env.trace ++ (if s.eofSeen then [] else [.feGetIrq irqEOF irqEOF]) ++ cleanupEvents) ∧
    (s.eofSeen = false → has (polled irqEOF s) irqEOF = false →
      ∃ v : Env, exec .worker s = .next { s with env := v, result := .none } ∧
        v.trace = s.env.trace ++ [.feGetIrq irqEOF 0])

/-! ## Listen mode -/

/-- R192, R227: LISTEN_START accepted. -/
def Obligations.ListenStartCompletes : Prop :=
  ∀ (s : State) (mask : BitVec 4) (rxBuf : Word) (rxLen : Len), s.topState ∉ [TopState.notInit, .wakeUp] →
    s.txrxState = .idle → mask = 0b1000 → inBounds s.params rxBuf rxLen.toNat = true →
    ∃ v : Env, exec (.listenStart mask rxBuf rxLen) s = .next { s with
        lm := ⟨rxBuf, rxLen, 0, .keep, false⟩, lmState := .powerOff, topState := .listen, env := v, result := .none } ∧
      v.trace = s.env.trace ++
        [.feGetIrq lmIrqs (polled lmIrqs s), .feIrqEnable lmIrqs, .feConfig (.listenAp2p true)] ∧
      v.fe.config = { s.env.fe.config with listenAp2p := some true } ∧ v.fe.irqEnable = s.env.fe.irqEnable ||| lmIrqs

/-- R192, R198, R206: where LISTEN_START and WAKEUP_START return an error, and with which code: the forbidden combination of
Wake-Up channels comes before the channel that is not implemented. Nothing but `RESULT` changes and no Chip-Driver call is
made. -/
def Obligations.ListenAndWakeupStartReject : Prop :=
  (∀ (s : State) (mask : BitVec 4) (rxBuf : Word) (rxLen : Len),
     let ready := s.topState ∉ [TopState.notInit, .wakeUp] ∧ s.txrxState = .idle
     (¬ready → exec (.listenStart mask rxBuf rxLen) s = .next { s with result := .wrongState }) ∧
     (ready → mask = 0 → exec (.listenStart mask rxBuf rxLen) s = .next { s with result := .param }) ∧
     (ready → mask.getLsbD 0 = true ∨ mask.getLsbD 1 = true ∨ mask.getLsbD 2 = true →
       exec (.listenStart mask rxBuf rxLen) s = .next { s with result := .notSupported }) ∧
     (ready → mask = 0b1000 → inBounds s.params rxBuf rxLen.toNat = false →
       exec (.listenStart mask rxBuf rxLen) s = .next { s with result := .param })) ∧
  (∀ (s : State) (amp pha cap : Channel),
     let ready := s.topState ∉ [TopState.notInit, .listen] ∧ s.txrxState = .idle
     let inductive' := amp.enabled || pha.enabled
     (¬ready → exec (.wakeupStart amp pha cap) s = .next { s with result := .wrongState }) ∧
     (ready → cap.enabled = true → inductive' = true →
       exec (.wakeupStart amp pha cap) s = .next { s with result := .param }) ∧
     (ready → cap.enabled = true → inductive' = false →
       exec (.wakeupStart amp pha cap) s = .next { s with result := .notImplemented }) ∧
     (ready → cap.enabled = false → inductive' = false →
       exec (.wakeupStart amp pha cap) s = .next { s with result := .param }))

/-- R193, R207: LISTEN_STOP and WAKEUP_STOP complete in every state; issued when their machine is not current they only reset
its context. -/
def Obligations.ListenAndWakeupStop : Prop :=
  (∀ a : Args, decode ⟨0x11, a⟩ = .ok .listenStop ∧ decode ⟨0x13, a⟩ = .ok .wakeupStop) ∧
  (∀ s : State, ∃ v : Env,
     exec .listenStop s = .next { s with
       lmState := .notInit, lm := { s.lm with dataFlag := false, rxLen := 0, bitRate := .keep }
       topState := if s.topState = .listen then .init else s.topState, env := v, result := .none } ∧
     (s.topState ≠ .listen → v = s.env) ∧
     (s.topState = .listen → v.trace = s.env.trace ++ [.feConfig (.listenAp2p false), .feIrqDisable lmIrqs] ∧
       v.fe.config = { s.env.fe.config with listenAp2p := some false } ∧
       v.fe.irqEnable = s.env.fe.irqEnable &&& ~~~lmIrqs)) ∧
  (∀ s : State, ∃ v : Env,
     exec .wakeupStop s = .next { s with
       wuState := .notInit
       wu := ⟨{ s.wu.amp with enabled := false }, { s.wu.pha with enabled := false }, { s.wu.cap with enabled := false }⟩
       topState := if s.topState = .wakeUp then .init else s.topState, env := v, result := .none } ∧
     (s.topState ≠ .wakeUp → v = s.env) ∧
     (s.topState = .wakeUp →
       v.trace = s.env.trace ++ [.feConfig (.wakeup none), .feIrqDisable (irqWAM ||| irqWPH ||| irqWCAP)] ∧
       v.fe.irqEnable = s.env.fe.irqEnable &&& ~~~(irqWAM ||| irqWPH ||| irqWCAP)))

/-- R194, R195, R196, R229: in `LM_POWER_OFF` an external field moves the machine to `LM_IDLE`; in `LM_IDLE` without a frame the
detected bit rate is recorded and the loss of the field moves the machine back. -/
def Obligations.ListenFollowsTheField : Prop :=
  (∀ s : State, s.topState = .listen → s.lmState = .powerOff →
     ∃ v : Env, exec .worker s = .next { s with
         lmState := if has (polled irqEON s) irqEON then .idle else .powerOff, env := v, result := .none } ∧
       v.trace = s.env.trace ++ [.feGetIrq irqEON (polled irqEON s)]) ∧
  (∀ (s : State) (m i : Word), s.topState = .listen → s.lmState = .idle → s.lm.dataFlag = false →
     m = irqNFCT ||| irqRXE ||| irqEOF ||| irqPAR ||| irqCRC ||| irqERR1 → i = polled m s → has i irqRXE = false →
     ∃ (v : Env) (br : BitRate), br = (atCall (feGetIrq m s).2).env.fe.detectedBitRate ∧
       exec .worker s = .next { s with
         lm := { s.lm with bitRate := if has i irqNFCT then br else s.lm.bitRate }
         lmState := if has i irqEOF then .powerOff else .idle, env := v, result := .none } ∧
       v.trace = s.env.trace ++ [.feGetIrq m i] ++ (if has i irqNFCT then [.feDetectedBitRate br] else []))

/-- R197, R196, R64(c): a frame received in `LM_IDLE`, with a front end that takes no step during the operation (`quietEnv`,
R58). A bit rate detected with it is recorded first. A good frame is copied without its CRC up to the capacity, held with its
data flag, and the FIFO is cleared; a bad one is dropped by resetting FIFO and collision avoidance, and leaves nothing but
that bit rate in the context. The state stays `LM_IDLE`, also with `EOF`. -/
def Obligations.ListenFrameIsHeldOrDropped : Prop :=
  ∀ (s : State) (p mask : Word) (n k : Nat) (br : BitRate), s.topState = .listen → s.lmState = .idle →
    s.lm.dataFlag = false → quietEnv s → s.buf.wf = true → inBounds s.params s.lm.rxBuf s.lm.rxBufLen.toNat = true →
    mask = irqNFCT ||| irqRXE ||| irqEOF ||| irqPAR ||| irqCRC ||| irqERR1 → p = s.env.fe.irqPending →
    has p irqRXE = true → n = s.env.fe.fifo.length →
    k = min (if 2 < n then n - 2 else n) ((s.lm.rxBufLen.toNat + 7) / 8) → 8 * k < 65536 →
    br = (if has p irqNFCT then s.env.fe.detectedBitRate else s.lm.bitRate) →
    let polls : List Event := [.feGetIrq mask (p &&& mask)] ++
      (if has p irqNFCT then [.feDetectedBitRate s.env.fe.detectedBitRate] else [])
    (has p (irqPAR ||| irqCRC ||| irqERR1) = false → ∃ (v : Env) (m : Memory) (l : Len), l.toNat = 8 * k ∧
      storedAt s.buf m s.lm.rxBuf.toNat (s.env.fe.fifo.take k) ∧
      exec .worker s = .next { s with
        lm := { s.lm with rxLen := l, dataFlag := true, bitRate := br }, buf := m, env := v, result := .none
        cache := ⟨true, n, s.env.fe.incompleteBits, s.env.fe.missingParity⟩ } ∧
      v.fe.fifo = [] ∧
      v.trace = s.env.trace ++ polls ++ [.feFifoStatus n s.env.fe.incompleteBits s.env.fe.missingParity] ++
        (if k = 0 then [] else [.feFifoRead (s.env.fe.fifo.take k)]) ++ [.feCmd .clearFifo]) ∧
    (has p (irqPAR ||| irqCRC ||| irqERR1) = true → ∃ v : Env,
      exec .worker s = .next { s with lm := { s.lm with bitRate := br }, env := v, result := .none } ∧ v.fe.fifo = [] ∧
      v.trace = s.env.trace ++ polls ++ [.feCmd .clearFifo, .feCmd .resetCa, .feCmd .unmaskRx])

/-! ## Wake-up -/

/-- R206, R205: WAKEUP_START with one or both inductive channels: a reference that asks for it is measured once, the field is
switched off, and the enabled channels' flags alone are enabled. The front end takes no step during the operation (`quietEnv`,
R58). -/
def Obligations.WakeupStartCompletes : Prop :=
  ∀ (s : State) (amp pha cap : Channel) (ra rp : Byte) (m : Word), s.topState ∉ [TopState.notInit, .listen] →
    s.txrxState = .idle → cap.enabled = false → (amp.enabled = true ∨ pha.enabled = true) →
    m = (if amp.enabled then irqWAM else 0) ||| (if pha.enabled then irqWPH else 0) → quietEnv s →
    ra = (if amp.enabled = true ∧ amp.refAuto = true then s.env.fe.measuredAmp else amp.reference) →
    rp = (if pha.enabled = true ∧ pha.refAuto = true then s.env.fe.measuredPha else pha.reference) →
    ∃ v : Env, exec (.wakeupStart amp pha cap) s = .next { s with
        wu := ⟨{ amp with reference := ra }, { pha with reference := rp }, cap⟩, wuState := .enabled, topState := .wakeUp
        fieldOn := false, env := v, result := .none } ∧
      v.trace = s.env.trace ++
        (if amp.enabled = true ∧ amp.refAuto = true then [.feMeasure .amp ra] else []) ++
        (if pha.enabled = true ∧ pha.refAuto = true then [.feMeasure .pha rp] else []) ++
        [.feConfig (.txrxEnable false),
          .feConfig (.wakeup (some ({ amp with reference := ra }, { pha with reference := rp }))),
          .feGetIrq m (s.env.fe.irqPending &&& m), .feIrqEnable m] ∧
      v.fe.irqEnable = s.env.fe.irqEnable ||| m

/-- R208, R205: the first threshold flag of an enabled channel latches `WU_ENABLED_WOKE`; however often WORKER is issued
afterwards, it stays, without a Chip-Driver call. -/
def Obligations.WakeupLatchesWoke : Prop :=
  ∀ (s : State) (m : Word), s.topState = .wakeUp →
    m = (if s.wu.amp.enabled then irqWAM else 0) ||| (if s.wu.pha.enabled then irqWPH else 0) →
    (s.wuState = .enabled → ∃ v : Env,
      exec .worker s = .next { s with
        wuState := if polled m s = 0 then .enabled else .enabledWoke, env := v, result := .none } ∧
      v.trace = s.env.trace ++ [.feGetIrq m (polled m s)]) ∧
    (s.wuState = .enabledWoke → ∀ n : Nat,
      workers n s = some { s with result := if n = 0 then s.result else .none })

/-! ## The synchronous primitives -/

/-- R122, R110, R134, R155, R162: a whole SHORT_FRAME_TRANSCEIVE. With a peer that answers `bytes` without an error: one byte, the
7-bit command, is transmitted without CRC, the answer is delivered with its CRC kept, and the operation returns `None` with
the bit length. With nobody answering it returns `Timeout` with length 0 and leaves BUF as it was. -/
def Obligations.ShortFrameCompletes : Prop :=
  (∀ (s : State) (c : BitVec 7) (rxBuf : Word) (rxLen : Len) (fwt : Time) (bytes : List Byte), 1 ≤ s.params.fifoDepth →
     s.topState ∉ [TopState.notInit, .init] → s.txrxState = .idle → s.mode = .pollNfcA → s.fieldOn = true →
     inBounds s.params rxBuf rxLen.toNat = true → s.sw.gt = false → s.timing.fdtPoll = 0 → s.buf.wf = true →
     1 ≤ bytes.length → bytes.length ≤ s.params.fifoDepth → bytes.length ≤ (rxLen.toNat + 7) / 8 → 8 * bytes.length < 65536 →
     s.env.fe.incompleteBits = 0 → s.env.fe.missingParity = false →
     s.env.script = idleTurns 11 ++ [[.drain 1, .raise irqTXE], [.receive bytes, .raise irqRXS], [.raise irqRXE]] →
     ∃ (v : Env) (m : Memory) (n l : Len), n.toNat = bytes.length ∧ l.toNat = 8 * bytes.length ∧
       storedAt s.buf m rxBuf.toNat bytes ∧
       exec (.shortFrameTransceive c rxBuf rxLen fwt) s = .next { s with
         ctx := ⟨0, 7, rxBuf, rxLen, 0b00011, fwt, some (c.setWidth 8), false⟩, status := .none, topState := .txRx
         fifo := ⟨n, n, s.params.fifoRxWl⟩, cache := ⟨true, bytes.length, 0, false⟩, eofSeen := false, rxRcvdLen := l
         timing := startTiming s fwt, sw := { s.sw with rxeGuard := false, apFwt := false }, buf := m
         ret0 := l.setWidth 32, env := v, result := .none } ∧
       .feFifoWrite [c.setWidth 8] ∈ v.trace ∧ .feCmd .txWithoutCrc ∈ v.trace ∧ .feConfig (.txLengthBits 7) ∈ v.trace ∧
       v.fe.config.antcl = some false ∧ v.fe.config.shortFrame = some false ∧
       postHooks v.trace = postHooks s.env.trace + 1) ∧
  (∀ (s : State) (c : BitVec 7) (rxBuf : Word) (rxLen : Len) (fwt : Time), 1 ≤ s.params.fifoDepth →
     s.topState ∉ [TopState.notInit, .init] → s.txrxState = .idle → s.mode = .pollNfcA → s.fieldOn = true →
     inBounds s.params rxBuf rxLen.toNat = true → s.sw.gt = false → s.timing.fdtPoll = 0 →
     s.env.script = idleTurns 11 ++ [[.raise irqTXE], [.raise irqNRE]] →
     ∃ v : Env,
       exec (.shortFrameTransceive c rxBuf rxLen fwt) s = .next { s with
         ctx := ⟨0, 7, rxBuf, rxLen, 0b00011, fwt, some (c.setWidth 8), false⟩, status := .timeout, topState := .txRx
         fifo := ⟨0, 0, s.params.fifoRxWl⟩, cache := { s.cache with valid := false }, eofSeen := false, rxRcvdLen := 0
         timing := startTiming s fwt, sw := { s.sw with rxeGuard := false, apFwt := false }, ret0 := 0, env := v
         result := .timeout })

/-- R122, R123, R223: where the synchronous primitives return an error before they start, and with which code; nothing but
`RESULT` changes. -/
def Obligations.SynchronousPrimitivesReject : Prop :=
  ∀ (s : State) (c : BitVec 7) (rxBuf : Word) (rxLen : Len) (fwt : Time) (b : Word) (n : Byte) (k : BitVec 3),
    let ready := s.topState ∉ [TopState.notInit, .init] ∧ s.txrxState = .idle ∧ s.mode = .pollNfcA
    (¬ready → exec (.shortFrameTransceive c rxBuf rxLen fwt) s = .next { s with result := .wrongState } ∧
      exec (.anticollisionTransceive b n k fwt) s = .next { s with result := .wrongState }) ∧
    (ready → inBounds s.params rxBuf rxLen.toNat = false →
      exec (.shortFrameTransceive c rxBuf rxLen fwt) s = .next { s with result := .param }) ∧
    (ready → inBounds s.params rxBuf rxLen.toNat = true → s.fieldOn = false →
      exec (.shortFrameTransceive c rxBuf rxLen fwt) s = .next { s with result := .wrongState }) ∧
    (ready → (b = 0 ∨ s.params.bufSize < b.toNat + n.toNat + 6 ∨ n = 0 ∧ k = 0) →
      exec (.anticollisionTransceive b n k fwt) s = .next { s with result := .param })

/-- R123, R162, R163: a whole ANTICOLLISION_TRANSCEIVE, with a peer that answers `bytes` with or without a collision: the
answer follows the bytes sent, its first byte OR-ed into a split byte, and a collision is returned with its position. The
merge and the position are the spec's from general knowledge (U9; log entry 12). -/
def Obligations.AnticollisionCompletes : Prop :=
  ∀ (s : State) (b : Word) (n : Byte) (k : BitVec 3) (fwt : Time) (bytes : List Byte) (col : Bool) (sent : Nat),
    s.params.bufSize ≤ 2 ^ 32 → s.topState ∉ [TopState.notInit, .init] → s.txrxState = .idle → s.mode = .pollNfcA →
    b ≠ 0 → b.toNat + n.toNat + 6 ≤ s.params.bufSize → (n ≠ 0 ∨ k ≠ 0) → s.sw.gt = false → s.timing.fdtPoll = 0 →
    s.policy = .policyNone → s.buf.wf = true → 1 ≤ bytes.length → bytes.length ≤ 5 → bytes.length ≤ s.params.fifoDepth →
    s.env.fe.incompleteBits = 0 → s.env.fe.missingParity = false →
    sent = n.toNat + (if k = 0 then 0 else 1) → sent ≤ s.params.fifoDepth →
    s.env.script = idleTurns 10 ++ [[.drain sent, .raise irqTXE], [.receive bytes, .raise irqRXS],
      [.raise (if col then irqRXE ||| irqCOL else irqRXE)]] →
    ∃ (v : Env) (m : Memory) (w l tl : Len), w.toNat = bytes.length ∧ l.toNat = 8 * bytes.length ∧
      tl.toNat = 8 * n.toNat + k.toNat ∧
      storedAt s.buf m (b.toNat + n.toNat)
        (if k = 0 then bytes else (bytes.headD 0 ||| readByte s.buf (b.toNat + n.toNat)) :: bytes.tail) ∧
      exec (.anticollisionTransceive b n k fwt) s = .next { s with
        ctx := ⟨b, tl, b + n.setWidth 32, 40, 0b00011, fwt, none, k != 0⟩, topState := .txRx
        status := if col then .rfCollision else .none, fifo := ⟨w, w, s.params.fifoRxWl⟩
        cache := ⟨true, bytes.length, 0, false⟩, eofSeen := false, rxRcvdLen := l, timing := startTiming s fwt
        sw := { s.sw with rxeGuard := false, apFwt := false }, buf := m, ret0 := l.setWidth 32
        ret1 := if col then 0#21 ++ s.env.fe.collisionBits ++ s.env.fe.collisionBytes else s.ret1, env := v
        result := if col then .rfCollision else .none } ∧
      .feFifoWrite (readBytes s.buf b.toNat sent) ∈ v.trace ∧ v.fe.config.antcl = some false ∧
      postHooks v.trace = postHooks s.env.trace + 1

/-- The number of polls or WORKER steps that the model gives a synchronous spin (R98, R122, R123) is its own device (DESIGN
CHOICE: log entry 11): it does not matter to a spin that ends, or stops for another reason: a larger number gives the same
result. -/
def Obligations.SpinResultDoesNotDependOnFuel : Prop :=
  (∀ (n k : Nat) (s t : State), spinExchange n s = .ok t → t.txrxState = .idle ∧ spinExchange (n + k) s = .ok t) ∧
  (∀ (n k : Nat) (s : State) (f : Fault), spinExchange n s = .error f → f ≠ .spinNeverEnds →
    spinExchange (n + k) s = .error f) ∧
  (∀ (n k : Nat) (s : State) (r : Word × State), spinCollisionAvoidance n s = .ok r →
    r.1 ≠ 0 ∧ spinCollisionAvoidance (n + k) s = .ok r)

/-! ## NFC-V reception, and how long a spin can last -/

/-- R156, R151, R164 (NFC-V): on `WL` before the end of the frame, with a front end that takes no step during the operation
(`quietEnv`, R58), all bytes present are counted, and copied into the scratch buffer up to its size. A raw response beyond it
is decoded all the same, and the exchange ends with the outcome of the decode, which overrides `NoMem` (D23; DEDUCED: log entry
24). The byte count is within 65535; a bit count of the decode above it stops the machine (U7; log entry 15). -/
def Obligations.NfcvPartialDrainFillsTheScratchBuffer : Prop :=
  ∀ (s : State) (p : Word) (n w k total cap : Nat) (raw : List Byte) (d : NfcvDecoded), s.topState = .txRx →
    s.txrxState = .rxWaitRxe → s.mode = .pollNfcV → quietEnv s → s.buf.wf = true → s.nfcvScratch.wf = true →
    inBounds s.params s.ctx.rxBuf s.ctx.rxBufLen.toNat = true → s.eofSeen = false → p = s.env.fe.irqPending →
    p &&& (irqRXE ||| irqWL) = irqWL → n = s.env.fe.fifo.length → w = s.fifo.bytesWritten.toNat →
    s.fifo.bytesTotal = s.fifo.bytesWritten → w ≤ s.params.nfcvScratchSize → total = w + n → total < 65536 →
    k = min n (s.params.nfcvScratchSize - w) → cap = (s.ctx.rxBufLen.toNat + 7) / 8 →
    raw = readBytes s.nfcvScratch 0 w ++ s.env.fe.fifo.take k → d = nfcvDecode raw (s.ctx.flags.getLsbD 1) cap →
    ∃ (v : Env) (m scratch : Memory), storedAt s.buf m s.ctx.rxBuf.toNat d.bytes ∧
      storedAt s.nfcvScratch scratch w (s.env.fe.fifo.take k) ∧ v.fe.fifo = s.env.fe.fifo.drop k ∧
      exec .worker s =
        (if total ≤ s.params.nfcvScratchSize then .next { s with
          fifo := { s.fifo with bytesTotal := BitVec.ofNat 16 total, bytesWritten := BitVec.ofNat 16 (w + k) }
          cache := ⟨true, n, s.env.fe.incompleteBits, s.env.fe.missingParity⟩, nfcvScratch := scratch, env := v
          result := .none }
        else if d.bits < 65536 then .next { s with
          fifo := { s.fifo with bytesTotal := BitVec.ofNat 16 total, bytesWritten := BitVec.ofNat 16 (w + k) }
          cache := ⟨true, n, s.env.fe.incompleteBits, s.env.fe.missingParity⟩, nfcvScratch := scratch, env := v
          status := d.status, rxRcvdLen := BitVec.ofNat 16 d.bits, txrxState := .idle, buf := m
          sw := { s.sw with rxeGuard := false, apFwt := false }, result := .none }
        else .fault .counterOverflow) ∧
      v.trace = s.env.trace ++
        [.feGetIrq (irqRXE ||| irqWL) irqWL, .feFifoStatus n s.env.fe.incompleteBits s.env.fe.missingParity] ++
        (if k = 0 then [] else [.feFifoRead (s.env.fe.fifo.take k)]) ++
        (if total ≤ s.params.nfcvScratchSize then [] else cleanupEvents)

/-- R98, R122, R123, R262(1), R262(8): the polls and WORKER steps that the model gives a synchronous spin are enough (DESIGN
CHOICE: log entry 11): a spin that has not ended after them does not end with any larger number, so the model's fault is the
hardware's hang. -/
def Obligations.SpinStepsAreEnough : Prop :=
  (∀ (k : Nat) (s : State), spinExchange (spinSteps s) s = .error .spinNeverEnds →
    spinExchange (spinSteps s + k) s = .error .spinNeverEnds) ∧
  (∀ (k : Nat) (s : State), spinCollisionAvoidance (spinPolls s) s = .error .spinNeverEnds →
    spinCollisionAvoidance (spinPolls s + k) s = .error .spinNeverEnds)
end

