-- ==== Sys2Proof/Laws/State.lean ====
section
/-! SUPPORT. What each operation of Ops leaves unchanged, field by field, true by rfl and tagged simp, so that no later
proof unfolds a record update. One theorem per operation: a conjunction of equations, each of which simp uses. -/

namespace Sys2Proof.Machine

@[simp] theorem atCall_fields  (s : State) :
    (atCall s).params = s.params ∧ (atCall s).topState = s.topState ∧ (atCall s).txrxState = s.txrxState ∧
    (atCall s).lmState = s.lmState ∧ (atCall s).wuState = s.wuState ∧ (atCall s).status = s.status ∧
    (atCall s).fieldOn = s.fieldOn ∧ (atCall s).eofSeen = s.eofSeen ∧ (atCall s).arg = s.arg ∧
    (atCall s).result = s.result ∧ (atCall s).ret0 = s.ret0 ∧ (atCall s).ret1 = s.ret1 ∧ (atCall s).ctx = s.ctx ∧
    (atCall s).rxRcvdLen = s.rxRcvdLen ∧ (atCall s).fifo = s.fifo ∧ (atCall s).cache = s.cache ∧
    (atCall s).timing = s.timing ∧ (atCall s).mode = s.mode ∧ (atCall s).txBR = s.txBR ∧ (atCall s).rxBR = s.rxBR ∧
    (atCall s).policy = s.policy ∧ (atCall s).sw = s.sw ∧ (atCall s).nfcvScratch = s.nfcvScratch ∧
    (atCall s).lm = s.lm ∧ (atCall s).wu = s.wu ∧ (atCall s).buf = s.buf ∧ (atCall s).agenda = s.agenda ∧
    (atCall s).hostData = s.hostData ∧ (atCall s).initCount = s.initCount := by
  refine ⟨rfl, rfl, rfl, rfl, rfl, rfl, rfl, rfl, rfl, rfl, rfl, rfl, rfl, rfl, rfl, rfl, rfl, rfl, rfl, rfl, rfl, rfl, rfl, rfl, rfl, rfl, rfl, rfl, rfl⟩

@[simp] theorem emit_fields (e : Event) (s : State) :
    (emit e s).params = s.params ∧ (emit e s).topState = s.topState ∧ (emit e s).txrxState = s.txrxState ∧
    (emit e s).lmState = s.lmState ∧ (emit e s).wuState = s.wuState ∧ (emit e s).status = s.status ∧
    (emit e s).fieldOn = s.fieldOn ∧ (emit e s).eofSeen = s.eofSeen ∧ (emit e s).arg = s.arg ∧
    (emit e s).result = s.result ∧ (emit e s).ret0 = s.ret0 ∧ (emit e s).ret1 = s.ret1 ∧ (emit e s).ctx = s.ctx ∧
    (emit e s).rxRcvdLen = s.rxRcvdLen ∧ (emit e s).fifo = s.fifo ∧ (emit e s).cache = s.cache ∧
    (emit e s).timing = s.timing ∧ (emit e s).mode = s.mode ∧ (emit e s).txBR = s.txBR ∧ (emit e s).rxBR = s.rxBR ∧
    (emit e s).policy = s.policy ∧ (emit e s).sw = s.sw ∧ (emit e s).nfcvScratch = s.nfcvScratch ∧
    (emit e s).lm = s.lm ∧ (emit e s).wu = s.wu ∧ (emit e s).buf = s.buf ∧ (emit e s).agenda = s.agenda ∧
    (emit e s).hostData = s.hostData ∧ (emit e s).initCount = s.initCount := by
  refine ⟨rfl, rfl, rfl, rfl, rfl, rfl, rfl, rfl, rfl, rfl, rfl, rfl, rfl, rfl, rfl, rfl, rfl, rfl, rfl, rfl, rfl, rfl, rfl, rfl, rfl, rfl, rfl, rfl, rfl⟩

@[simp] theorem withFe_fields (g : FrontEnd → FrontEnd) (s : State) :
    (withFe g s).params = s.params ∧ (withFe g s).topState = s.topState ∧ (withFe g s).txrxState = s.txrxState ∧
    (withFe g s).lmState = s.lmState ∧ (withFe g s).wuState = s.wuState ∧ (withFe g s).status = s.status ∧
    (withFe g s).fieldOn = s.fieldOn ∧ (withFe g s).eofSeen = s.eofSeen ∧ (withFe g s).arg = s.arg ∧
    (withFe g s).result = s.result ∧ (withFe g s).ret0 = s.ret0 ∧ (withFe g s).ret1 = s.ret1 ∧
    (withFe g s).ctx = s.ctx ∧ (withFe g s).rxRcvdLen = s.rxRcvdLen ∧ (withFe g s).fifo = s.fifo ∧
    (withFe g s).cache = s.cache ∧ (withFe g s).timing = s.timing ∧ (withFe g s).mode = s.mode ∧
    (withFe g s).txBR = s.txBR ∧ (withFe g s).rxBR = s.rxBR ∧ (withFe g s).policy = s.policy ∧
    (withFe g s).sw = s.sw ∧ (withFe g s).nfcvScratch = s.nfcvScratch ∧ (withFe g s).lm = s.lm ∧
    (withFe g s).wu = s.wu ∧ (withFe g s).buf = s.buf ∧ (withFe g s).agenda = s.agenda ∧
    (withFe g s).hostData = s.hostData ∧ (withFe g s).initCount = s.initCount := by
  refine ⟨rfl, rfl, rfl, rfl, rfl, rfl, rfl, rfl, rfl, rfl, rfl, rfl, rfl, rfl, rfl, rfl, rfl, rfl, rfl, rfl, rfl, rfl, rfl, rfl, rfl, rfl, rfl, rfl, rfl⟩

@[simp] theorem feCall_fields (e : Event) (g : FrontEnd → FrontEnd) (s : State) :
    (feCall e g s).params = s.params ∧ (feCall e g s).topState = s.topState ∧
    (feCall e g s).txrxState = s.txrxState ∧ (feCall e g s).lmState = s.lmState ∧
    (feCall e g s).wuState = s.wuState ∧ (feCall e g s).status = s.status ∧ (feCall e g s).fieldOn = s.fieldOn ∧
    (feCall e g s).eofSeen = s.eofSeen ∧ (feCall e g s).arg = s.arg ∧ (feCall e g s).result = s.result ∧
    (feCall e g s).ret0 = s.ret0 ∧ (feCall e g s).ret1 = s.ret1 ∧ (feCall e g s).ctx = s.ctx ∧
    (feCall e g s).rxRcvdLen = s.rxRcvdLen ∧ (feCall e g s).fifo = s.fifo ∧ (feCall e g s).cache = s.cache ∧
    (feCall e g s).timing = s.timing ∧ (feCall e g s).mode = s.mode ∧ (feCall e g s).txBR = s.txBR ∧
    (feCall e g s).rxBR = s.rxBR ∧ (feCall e g s).policy = s.policy ∧ (feCall e g s).sw = s.sw ∧
    (feCall e g s).nfcvScratch = s.nfcvScratch ∧ (feCall e g s).lm = s.lm ∧ (feCall e g s).wu = s.wu ∧
    (feCall e g s).buf = s.buf ∧ (feCall e g s).agenda = s.agenda ∧ (feCall e g s).hostData = s.hostData ∧
    (feCall e g s).initCount = s.initCount := by
  simp [feCall]

@[simp] theorem feCmd_fields (c : FeCommand) (s : State) :
    (feCmd c s).params = s.params ∧ (feCmd c s).topState = s.topState ∧ (feCmd c s).txrxState = s.txrxState ∧
    (feCmd c s).lmState = s.lmState ∧ (feCmd c s).wuState = s.wuState ∧ (feCmd c s).status = s.status ∧
    (feCmd c s).fieldOn = s.fieldOn ∧ (feCmd c s).eofSeen = s.eofSeen ∧ (feCmd c s).arg = s.arg ∧
    (feCmd c s).result = s.result ∧ (feCmd c s).ret0 = s.ret0 ∧ (feCmd c s).ret1 = s.ret1 ∧ (feCmd c s).ctx = s.ctx ∧
    (feCmd c s).rxRcvdLen = s.rxRcvdLen ∧ (feCmd c s).fifo = s.fifo ∧ (feCmd c s).cache = s.cache ∧
    (feCmd c s).timing = s.timing ∧ (feCmd c s).mode = s.mode ∧ (feCmd c s).txBR = s.txBR ∧
    (feCmd c s).rxBR = s.rxBR ∧ (feCmd c s).policy = s.policy ∧ (feCmd c s).sw = s.sw ∧
    (feCmd c s).nfcvScratch = s.nfcvScratch ∧ (feCmd c s).lm = s.lm ∧ (feCmd c s).wu = s.wu ∧
    (feCmd c s).buf = s.buf ∧ (feCmd c s).agenda = s.agenda ∧ (feCmd c s).hostData = s.hostData ∧
    (feCmd c s).initCount = s.initCount := by
  simp [feCmd]

@[simp] theorem feConfig_fields (c : FeSetting) (s : State) :
    (feConfig c s).params = s.params ∧ (feConfig c s).topState = s.topState ∧
    (feConfig c s).txrxState = s.txrxState ∧ (feConfig c s).lmState = s.lmState ∧
    (feConfig c s).wuState = s.wuState ∧ (feConfig c s).status = s.status ∧ (feConfig c s).fieldOn = s.fieldOn ∧
    (feConfig c s).eofSeen = s.eofSeen ∧ (feConfig c s).arg = s.arg ∧ (feConfig c s).result = s.result ∧
    (feConfig c s).ret0 = s.ret0 ∧ (feConfig c s).ret1 = s.ret1 ∧ (feConfig c s).ctx = s.ctx ∧
    (feConfig c s).rxRcvdLen = s.rxRcvdLen ∧ (feConfig c s).fifo = s.fifo ∧ (feConfig c s).cache = s.cache ∧
    (feConfig c s).timing = s.timing ∧ (feConfig c s).mode = s.mode ∧ (feConfig c s).txBR = s.txBR ∧
    (feConfig c s).rxBR = s.rxBR ∧ (feConfig c s).policy = s.policy ∧ (feConfig c s).sw = s.sw ∧
    (feConfig c s).nfcvScratch = s.nfcvScratch ∧ (feConfig c s).lm = s.lm ∧ (feConfig c s).wu = s.wu ∧
    (feConfig c s).buf = s.buf ∧ (feConfig c s).agenda = s.agenda ∧ (feConfig c s).hostData = s.hostData ∧
    (feConfig c s).initCount = s.initCount := by
  simp [feConfig]

@[simp] theorem applyAnalogConfig_fields (id : AnalogId) (s : State) :
    (applyAnalogConfig id s).params = s.params ∧ (applyAnalogConfig id s).topState = s.topState ∧
    (applyAnalogConfig id s).txrxState = s.txrxState ∧ (applyAnalogConfig id s).lmState = s.lmState ∧
    (applyAnalogConfig id s).wuState = s.wuState ∧ (applyAnalogConfig id s).status = s.status ∧
    (applyAnalogConfig id s).fieldOn = s.fieldOn ∧ (applyAnalogConfig id s).eofSeen = s.eofSeen ∧
    (applyAnalogConfig id s).arg = s.arg ∧ (applyAnalogConfig id s).result = s.result ∧
    (applyAnalogConfig id s).ret0 = s.ret0 ∧ (applyAnalogConfig id s).ret1 = s.ret1 ∧
    (applyAnalogConfig id s).ctx = s.ctx ∧ (applyAnalogConfig id s).rxRcvdLen = s.rxRcvdLen ∧
    (applyAnalogConfig id s).fifo = s.fifo ∧ (applyAnalogConfig id s).cache = s.cache ∧
    (applyAnalogConfig id s).timing = s.timing ∧ (applyAnalogConfig id s).mode = s.mode ∧
    (applyAnalogConfig id s).txBR = s.txBR ∧ (applyAnalogConfig id s).rxBR = s.rxBR ∧
    (applyAnalogConfig id s).policy = s.policy ∧ (applyAnalogConfig id s).sw = s.sw ∧
    (applyAnalogConfig id s).nfcvScratch = s.nfcvScratch ∧ (applyAnalogConfig id s).lm = s.lm ∧
    (applyAnalogConfig id s).wu = s.wu ∧ (applyAnalogConfig id s).buf = s.buf ∧
    (applyAnalogConfig id s).agenda = s.agenda ∧ (applyAnalogConfig id s).hostData = s.hostData ∧
    (applyAnalogConfig id s).initCount = s.initCount := by
  simp [applyAnalogConfig]

@[simp] theorem feIrqEnable_fields (m : Word) (s : State) :
    (feIrqEnable m s).params = s.params ∧ (feIrqEnable m s).topState = s.topState ∧
    (feIrqEnable m s).txrxState = s.txrxState ∧ (feIrqEnable m s).lmState = s.lmState ∧
    (feIrqEnable m s).wuState = s.wuState ∧ (feIrqEnable m s).status = s.status ∧
    (feIrqEnable m s).fieldOn = s.fieldOn ∧ (feIrqEnable m s).eofSeen = s.eofSeen ∧ (feIrqEnable m s).arg = s.arg ∧
    (feIrqEnable m s).result = s.result ∧ (feIrqEnable m s).ret0 = s.ret0 ∧ (feIrqEnable m s).ret1 = s.ret1 ∧
    (feIrqEnable m s).ctx = s.ctx ∧ (feIrqEnable m s).rxRcvdLen = s.rxRcvdLen ∧ (feIrqEnable m s).fifo = s.fifo ∧
    (feIrqEnable m s).cache = s.cache ∧ (feIrqEnable m s).timing = s.timing ∧ (feIrqEnable m s).mode = s.mode ∧
    (feIrqEnable m s).txBR = s.txBR ∧ (feIrqEnable m s).rxBR = s.rxBR ∧ (feIrqEnable m s).policy = s.policy ∧
    (feIrqEnable m s).sw = s.sw ∧ (feIrqEnable m s).nfcvScratch = s.nfcvScratch ∧ (feIrqEnable m s).lm = s.lm ∧
    (feIrqEnable m s).wu = s.wu ∧ (feIrqEnable m s).buf = s.buf ∧ (feIrqEnable m s).agenda = s.agenda ∧
    (feIrqEnable m s).hostData = s.hostData ∧ (feIrqEnable m s).initCount = s.initCount := by
  simp [feIrqEnable]

@[simp] theorem feIrqDisable_fields (m : Word) (s : State) :
    (feIrqDisable m s).params = s.params ∧ (feIrqDisable m s).topState = s.topState ∧
    (feIrqDisable m s).txrxState = s.txrxState ∧ (feIrqDisable m s).lmState = s.lmState ∧
    (feIrqDisable m s).wuState = s.wuState ∧ (feIrqDisable m s).status = s.status ∧
    (feIrqDisable m s).fieldOn = s.fieldOn ∧ (feIrqDisable m s).eofSeen = s.eofSeen ∧
    (feIrqDisable m s).arg = s.arg ∧ (feIrqDisable m s).result = s.result ∧ (feIrqDisable m s).ret0 = s.ret0 ∧
    (feIrqDisable m s).ret1 = s.ret1 ∧ (feIrqDisable m s).ctx = s.ctx ∧ (feIrqDisable m s).rxRcvdLen = s.rxRcvdLen ∧
    (feIrqDisable m s).fifo = s.fifo ∧ (feIrqDisable m s).cache = s.cache ∧ (feIrqDisable m s).timing = s.timing ∧
    (feIrqDisable m s).mode = s.mode ∧ (feIrqDisable m s).txBR = s.txBR ∧ (feIrqDisable m s).rxBR = s.rxBR ∧
    (feIrqDisable m s).policy = s.policy ∧ (feIrqDisable m s).sw = s.sw ∧
    (feIrqDisable m s).nfcvScratch = s.nfcvScratch ∧ (feIrqDisable m s).lm = s.lm ∧ (feIrqDisable m s).wu = s.wu ∧
    (feIrqDisable m s).buf = s.buf ∧ (feIrqDisable m s).agenda = s.agenda ∧
    (feIrqDisable m s).hostData = s.hostData ∧ (feIrqDisable m s).initCount = s.initCount := by
  simp [feIrqDisable]

@[simp] theorem feGetIrq_fields (m : Word) (s : State) :
    ((feGetIrq m s).2).params = s.params ∧ ((feGetIrq m s).2).topState = s.topState ∧
    ((feGetIrq m s).2).txrxState = s.txrxState ∧ ((feGetIrq m s).2).lmState = s.lmState ∧
    ((feGetIrq m s).2).wuState = s.wuState ∧ ((feGetIrq m s).2).status = s.status ∧
    ((feGetIrq m s).2).fieldOn = s.fieldOn ∧ ((feGetIrq m s).2).eofSeen = s.eofSeen ∧
    ((feGetIrq m s).2).arg = s.arg ∧ ((feGetIrq m s).2).result = s.result ∧ ((feGetIrq m s).2).ret0 = s.ret0 ∧
    ((feGetIrq m s).2).ret1 = s.ret1 ∧ ((feGetIrq m s).2).ctx = s.ctx ∧ ((feGetIrq m s).2).rxRcvdLen = s.rxRcvdLen ∧
    ((feGetIrq m s).2).fifo = s.fifo ∧ ((feGetIrq m s).2).cache = s.cache ∧ ((feGetIrq m s).2).timing = s.timing ∧
    ((feGetIrq m s).2).mode = s.mode ∧ ((feGetIrq m s).2).txBR = s.txBR ∧ ((feGetIrq m s).2).rxBR = s.rxBR ∧
    ((feGetIrq m s).2).policy = s.policy ∧ ((feGetIrq m s).2).sw = s.sw ∧
    ((feGetIrq m s).2).nfcvScratch = s.nfcvScratch ∧ ((feGetIrq m s).2).lm = s.lm ∧ ((feGetIrq m s).2).wu = s.wu ∧
    ((feGetIrq m s).2).buf = s.buf ∧ ((feGetIrq m s).2).agenda = s.agenda ∧
    ((feGetIrq m s).2).hostData = s.hostData ∧ ((feGetIrq m s).2).initCount = s.initCount := by
  simp [feGetIrq]

@[simp] theorem feDiscardIrq_fields (m : Word) (s : State) :
    (feDiscardIrq m s).params = s.params ∧ (feDiscardIrq m s).topState = s.topState ∧
    (feDiscardIrq m s).txrxState = s.txrxState ∧ (feDiscardIrq m s).lmState = s.lmState ∧
    (feDiscardIrq m s).wuState = s.wuState ∧ (feDiscardIrq m s).status = s.status ∧
    (feDiscardIrq m s).fieldOn = s.fieldOn ∧ (feDiscardIrq m s).eofSeen = s.eofSeen ∧
    (feDiscardIrq m s).arg = s.arg ∧ (feDiscardIrq m s).result = s.result ∧ (feDiscardIrq m s).ret0 = s.ret0 ∧
    (feDiscardIrq m s).ret1 = s.ret1 ∧ (feDiscardIrq m s).ctx = s.ctx ∧ (feDiscardIrq m s).rxRcvdLen = s.rxRcvdLen ∧
    (feDiscardIrq m s).fifo = s.fifo ∧ (feDiscardIrq m s).cache = s.cache ∧ (feDiscardIrq m s).timing = s.timing ∧
    (feDiscardIrq m s).mode = s.mode ∧ (feDiscardIrq m s).txBR = s.txBR ∧ (feDiscardIrq m s).rxBR = s.rxBR ∧
    (feDiscardIrq m s).policy = s.policy ∧ (feDiscardIrq m s).sw = s.sw ∧
    (feDiscardIrq m s).nfcvScratch = s.nfcvScratch ∧ (feDiscardIrq m s).lm = s.lm ∧ (feDiscardIrq m s).wu = s.wu ∧
    (feDiscardIrq m s).buf = s.buf ∧ (feDiscardIrq m s).agenda = s.agenda ∧
    (feDiscardIrq m s).hostData = s.hostData ∧ (feDiscardIrq m s).initCount = s.initCount := by
  simp [feDiscardIrq]

@[simp] theorem feTimerStart_fields (t : HwTimer) (v : Time) (s : State) :
    (feTimerStart t v s).params = s.params ∧ (feTimerStart t v s).topState = s.topState ∧
    (feTimerStart t v s).txrxState = s.txrxState ∧ (feTimerStart t v s).lmState = s.lmState ∧
    (feTimerStart t v s).wuState = s.wuState ∧ (feTimerStart t v s).status = s.status ∧
    (feTimerStart t v s).fieldOn = s.fieldOn ∧ (feTimerStart t v s).eofSeen = s.eofSeen ∧
    (feTimerStart t v s).arg = s.arg ∧ (feTimerStart t v s).result = s.result ∧ (feTimerStart t v s).ret0 = s.ret0 ∧
    (feTimerStart t v s).ret1 = s.ret1 ∧ (feTimerStart t v s).ctx = s.ctx ∧
    (feTimerStart t v s).rxRcvdLen = s.rxRcvdLen ∧ (feTimerStart t v s).fifo = s.fifo ∧
    (feTimerStart t v s).cache = s.cache ∧ (feTimerStart t v s).timing = s.timing ∧
    (feTimerStart t v s).mode = s.mode ∧ (feTimerStart t v s).txBR = s.txBR ∧ (feTimerStart t v s).rxBR = s.rxBR ∧
    (feTimerStart t v s).policy = s.policy ∧ (feTimerStart t v s).sw = s.sw ∧
    (feTimerStart t v s).nfcvScratch = s.nfcvScratch ∧ (feTimerStart t v s).lm = s.lm ∧
    (feTimerStart t v s).wu = s.wu ∧ (feTimerStart t v s).buf = s.buf ∧ (feTimerStart t v s).agenda = s.agenda ∧
    (feTimerStart t v s).hostData = s.hostData ∧ (feTimerStart t v s).initCount = s.initCount := by
  simp [feTimerStart]

@[simp] theorem feTimerStop_fields (t : HwTimer) (s : State) :
    (feTimerStop t s).params = s.params ∧ (feTimerStop t s).topState = s.topState ∧
    (feTimerStop t s).txrxState = s.txrxState ∧ (feTimerStop t s).lmState = s.lmState ∧
    (feTimerStop t s).wuState = s.wuState ∧ (feTimerStop t s).status = s.status ∧
    (feTimerStop t s).fieldOn = s.fieldOn ∧ (feTimerStop t s).eofSeen = s.eofSeen ∧ (feTimerStop t s).arg = s.arg ∧
    (feTimerStop t s).result = s.result ∧ (feTimerStop t s).ret0 = s.ret0 ∧ (feTimerStop t s).ret1 = s.ret1 ∧
    (feTimerStop t s).ctx = s.ctx ∧ (feTimerStop t s).rxRcvdLen = s.rxRcvdLen ∧ (feTimerStop t s).fifo = s.fifo ∧
    (feTimerStop t s).cache = s.cache ∧ (feTimerStop t s).timing = s.timing ∧ (feTimerStop t s).mode = s.mode ∧
    (feTimerStop t s).txBR = s.txBR ∧ (feTimerStop t s).rxBR = s.rxBR ∧ (feTimerStop t s).policy = s.policy ∧
    (feTimerStop t s).sw = s.sw ∧ (feTimerStop t s).nfcvScratch = s.nfcvScratch ∧ (feTimerStop t s).lm = s.lm ∧
    (feTimerStop t s).wu = s.wu ∧ (feTimerStop t s).buf = s.buf ∧ (feTimerStop t s).agenda = s.agenda ∧
    (feTimerStop t s).hostData = s.hostData ∧ (feTimerStop t s).initCount = s.initCount := by
  simp [feTimerStop]

@[simp] theorem feTimerCheck_fields (t : HwTimer) (s : State) :
    ((feTimerCheck t s).2).params = s.params ∧ ((feTimerCheck t s).2).topState = s.topState ∧
    ((feTimerCheck t s).2).txrxState = s.txrxState ∧ ((feTimerCheck t s).2).lmState = s.lmState ∧
    ((feTimerCheck t s).2).wuState = s.wuState ∧ ((feTimerCheck t s).2).status = s.status ∧
    ((feTimerCheck t s).2).fieldOn = s.fieldOn ∧ ((feTimerCheck t s).2).eofSeen = s.eofSeen ∧
    ((feTimerCheck t s).2).arg = s.arg ∧ ((feTimerCheck t s).2).result = s.result ∧
    ((feTimerCheck t s).2).ret0 = s.ret0 ∧ ((feTimerCheck t s).2).ret1 = s.ret1 ∧
    ((feTimerCheck t s).2).ctx = s.ctx ∧ ((feTimerCheck t s).2).rxRcvdLen = s.rxRcvdLen ∧
    ((feTimerCheck t s).2).fifo = s.fifo ∧ ((feTimerCheck t s).2).cache = s.cache ∧
    ((feTimerCheck t s).2).timing = s.timing ∧ ((feTimerCheck t s).2).mode = s.mode ∧
    ((feTimerCheck t s).2).txBR = s.txBR ∧ ((feTimerCheck t s).2).rxBR = s.rxBR ∧
    ((feTimerCheck t s).2).policy = s.policy ∧ ((feTimerCheck t s).2).sw = s.sw ∧
    ((feTimerCheck t s).2).nfcvScratch = s.nfcvScratch ∧ ((feTimerCheck t s).2).lm = s.lm ∧
    ((feTimerCheck t s).2).wu = s.wu ∧ ((feTimerCheck t s).2).buf = s.buf ∧
    ((feTimerCheck t s).2).agenda = s.agenda ∧ ((feTimerCheck t s).2).hostData = s.hostData ∧
    ((feTimerCheck t s).2).initCount = s.initCount := by
  simp [feTimerCheck]

@[simp] theorem feCollisionPos_fields  (s : State) :
    ((feCollisionPos s).2).params = s.params ∧ ((feCollisionPos s).2).topState = s.topState ∧
    ((feCollisionPos s).2).txrxState = s.txrxState ∧ ((feCollisionPos s).2).lmState = s.lmState ∧
    ((feCollisionPos s).2).wuState = s.wuState ∧ ((feCollisionPos s).2).status = s.status ∧
    ((feCollisionPos s).2).fieldOn = s.fieldOn ∧ ((feCollisionPos s).2).eofSeen = s.eofSeen ∧
    ((feCollisionPos s).2).arg = s.arg ∧ ((feCollisionPos s).2).result = s.result ∧
    ((feCollisionPos s).2).ret0 = s.ret0 ∧ ((feCollisionPos s).2).ret1 = s.ret1 ∧
    ((feCollisionPos s).2).ctx = s.ctx ∧ ((feCollisionPos s).2).rxRcvdLen = s.rxRcvdLen ∧
    ((feCollisionPos s).2).fifo = s.fifo ∧ ((feCollisionPos s).2).cache = s.cache ∧
    ((feCollisionPos s).2).timing = s.timing ∧ ((feCollisionPos s).2).mode = s.mode ∧
    ((feCollisionPos s).2).txBR = s.txBR ∧ ((feCollisionPos s).2).rxBR = s.rxBR ∧
    ((feCollisionPos s).2).policy = s.policy ∧ ((feCollisionPos s).2).sw = s.sw ∧
    ((feCollisionPos s).2).nfcvScratch = s.nfcvScratch ∧ ((feCollisionPos s).2).lm = s.lm ∧
    ((feCollisionPos s).2).wu = s.wu ∧ ((feCollisionPos s).2).buf = s.buf ∧
    ((feCollisionPos s).2).agenda = s.agenda ∧ ((feCollisionPos s).2).hostData = s.hostData ∧
    ((feCollisionPos s).2).initCount = s.initCount := by
  simp [feCollisionPos]

@[simp] theorem feDetectedBitRate_fields  (s : State) :
    ((feDetectedBitRate s).2).params = s.params ∧ ((feDetectedBitRate s).2).topState = s.topState ∧
    ((feDetectedBitRate s).2).txrxState = s.txrxState ∧ ((feDetectedBitRate s).2).lmState = s.lmState ∧
    ((feDetectedBitRate s).2).wuState = s.wuState ∧ ((feDetectedBitRate s).2).status = s.status ∧
    ((feDetectedBitRate s).2).fieldOn = s.fieldOn ∧ ((feDetectedBitRate s).2).eofSeen = s.eofSeen ∧
    ((feDetectedBitRate s).2).arg = s.arg ∧ ((feDetectedBitRate s).2).result = s.result ∧
    ((feDetectedBitRate s).2).ret0 = s.ret0 ∧ ((feDetectedBitRate s).2).ret1 = s.ret1 ∧
    ((feDetectedBitRate s).2).ctx = s.ctx ∧ ((feDetectedBitRate s).2).rxRcvdLen = s.rxRcvdLen ∧
    ((feDetectedBitRate s).2).fifo = s.fifo ∧ ((feDetectedBitRate s).2).cache = s.cache ∧
    ((feDetectedBitRate s).2).timing = s.timing ∧ ((feDetectedBitRate s).2).mode = s.mode ∧
    ((feDetectedBitRate s).2).txBR = s.txBR ∧ ((feDetectedBitRate s).2).rxBR = s.rxBR ∧
    ((feDetectedBitRate s).2).policy = s.policy ∧ ((feDetectedBitRate s).2).sw = s.sw ∧
    ((feDetectedBitRate s).2).nfcvScratch = s.nfcvScratch ∧ ((feDetectedBitRate s).2).lm = s.lm ∧
    ((feDetectedBitRate s).2).wu = s.wu ∧ ((feDetectedBitRate s).2).buf = s.buf ∧
    ((feDetectedBitRate s).2).agenda = s.agenda ∧ ((feDetectedBitRate s).2).hostData = s.hostData ∧
    ((feDetectedBitRate s).2).initCount = s.initCount := by
  simp [feDetectedBitRate]

@[simp] theorem feMeasure_fields (ch : MeasureChannel) (s : State) :
    ((feMeasure ch s).2).params = s.params ∧ ((feMeasure ch s).2).topState = s.topState ∧
    ((feMeasure ch s).2).txrxState = s.txrxState ∧ ((feMeasure ch s).2).lmState = s.lmState ∧
    ((feMeasure ch s).2).wuState = s.wuState ∧ ((feMeasure ch s).2).status = s.status ∧
    ((feMeasure ch s).2).fieldOn = s.fieldOn ∧ ((feMeasure ch s).2).eofSeen = s.eofSeen ∧
    ((feMeasure ch s).2).arg = s.arg ∧ ((feMeasure ch s).2).result = s.result ∧ ((feMeasure ch s).2).ret0 = s.ret0 ∧
    ((feMeasure ch s).2).ret1 = s.ret1 ∧ ((feMeasure ch s).2).ctx = s.ctx ∧
    ((feMeasure ch s).2).rxRcvdLen = s.rxRcvdLen ∧ ((feMeasure ch s).2).fifo = s.fifo ∧
    ((feMeasure ch s).2).cache = s.cache ∧ ((feMeasure ch s).2).timing = s.timing ∧
    ((feMeasure ch s).2).mode = s.mode ∧ ((feMeasure ch s).2).txBR = s.txBR ∧ ((feMeasure ch s).2).rxBR = s.rxBR ∧
    ((feMeasure ch s).2).policy = s.policy ∧ ((feMeasure ch s).2).sw = s.sw ∧
    ((feMeasure ch s).2).nfcvScratch = s.nfcvScratch ∧ ((feMeasure ch s).2).lm = s.lm ∧
    ((feMeasure ch s).2).wu = s.wu ∧ ((feMeasure ch s).2).buf = s.buf ∧ ((feMeasure ch s).2).agenda = s.agenda ∧
    ((feMeasure ch s).2).hostData = s.hostData ∧ ((feMeasure ch s).2).initCount = s.initCount := by
  simp [feMeasure]

@[simp] theorem swExpired_fields (t : SwTimer) (s : State) :
    ((swExpired t s).2).params = s.params ∧ ((swExpired t s).2).topState = s.topState ∧
    ((swExpired t s).2).txrxState = s.txrxState ∧ ((swExpired t s).2).lmState = s.lmState ∧
    ((swExpired t s).2).wuState = s.wuState ∧ ((swExpired t s).2).status = s.status ∧
    ((swExpired t s).2).fieldOn = s.fieldOn ∧ ((swExpired t s).2).eofSeen = s.eofSeen ∧
    ((swExpired t s).2).arg = s.arg ∧ ((swExpired t s).2).result = s.result ∧ ((swExpired t s).2).ret0 = s.ret0 ∧
    ((swExpired t s).2).ret1 = s.ret1 ∧ ((swExpired t s).2).ctx = s.ctx ∧
    ((swExpired t s).2).rxRcvdLen = s.rxRcvdLen ∧ ((swExpired t s).2).fifo = s.fifo ∧
    ((swExpired t s).2).cache = s.cache ∧ ((swExpired t s).2).timing = s.timing ∧ ((swExpired t s).2).mode = s.mode ∧
    ((swExpired t s).2).txBR = s.txBR ∧ ((swExpired t s).2).rxBR = s.rxBR ∧ ((swExpired t s).2).policy = s.policy ∧
    ((swExpired t s).2).sw = s.sw ∧ ((swExpired t s).2).nfcvScratch = s.nfcvScratch ∧ ((swExpired t s).2).lm = s.lm ∧
    ((swExpired t s).2).wu = s.wu ∧ ((swExpired t s).2).buf = s.buf ∧ ((swExpired t s).2).agenda = s.agenda ∧
    ((swExpired t s).2).hostData = s.hostData ∧ ((swExpired t s).2).initCount = s.initCount := by
  simp [swExpired]

@[simp] theorem cacheInvalidate_fields  (s : State) :
    (cacheInvalidate s).params = s.params ∧ (cacheInvalidate s).topState = s.topState ∧
    (cacheInvalidate s).txrxState = s.txrxState ∧ (cacheInvalidate s).lmState = s.lmState ∧
    (cacheInvalidate s).wuState = s.wuState ∧ (cacheInvalidate s).status = s.status ∧
    (cacheInvalidate s).fieldOn = s.fieldOn ∧ (cacheInvalidate s).eofSeen = s.eofSeen ∧
    (cacheInvalidate s).arg = s.arg ∧ (cacheInvalidate s).result = s.result ∧ (cacheInvalidate s).ret0 = s.ret0 ∧
    (cacheInvalidate s).ret1 = s.ret1 ∧ (cacheInvalidate s).ctx = s.ctx ∧
    (cacheInvalidate s).rxRcvdLen = s.rxRcvdLen ∧ (cacheInvalidate s).fifo = s.fifo ∧
    (cacheInvalidate s).timing = s.timing ∧ (cacheInvalidate s).mode = s.mode ∧ (cacheInvalidate s).txBR = s.txBR ∧
    (cacheInvalidate s).rxBR = s.rxBR ∧ (cacheInvalidate s).policy = s.policy ∧ (cacheInvalidate s).sw = s.sw ∧
    (cacheInvalidate s).nfcvScratch = s.nfcvScratch ∧ (cacheInvalidate s).lm = s.lm ∧ (cacheInvalidate s).wu = s.wu ∧
    (cacheInvalidate s).buf = s.buf ∧ (cacheInvalidate s).env = s.env ∧ (cacheInvalidate s).agenda = s.agenda ∧
    (cacheInvalidate s).hostData = s.hostData ∧ (cacheInvalidate s).initCount = s.initCount := by
  refine ⟨rfl, rfl, rfl, rfl, rfl, rfl, rfl, rfl, rfl, rfl, rfl, rfl, rfl, rfl, rfl, rfl, rfl, rfl, rfl, rfl, rfl, rfl, rfl, rfl, rfl, rfl, rfl, rfl, rfl⟩

@[simp] theorem setArmed_fields (t : SwTimer) (b : Bool) (s : State) :
    (setArmed t b s).params = s.params ∧ (setArmed t b s).topState = s.topState ∧
    (setArmed t b s).txrxState = s.txrxState ∧ (setArmed t b s).lmState = s.lmState ∧
    (setArmed t b s).wuState = s.wuState ∧ (setArmed t b s).status = s.status ∧
    (setArmed t b s).fieldOn = s.fieldOn ∧ (setArmed t b s).eofSeen = s.eofSeen ∧ (setArmed t b s).arg = s.arg ∧
    (setArmed t b s).result = s.result ∧ (setArmed t b s).ret0 = s.ret0 ∧ (setArmed t b s).ret1 = s.ret1 ∧
    (setArmed t b s).ctx = s.ctx ∧ (setArmed t b s).rxRcvdLen = s.rxRcvdLen ∧ (setArmed t b s).fifo = s.fifo ∧
    (setArmed t b s).cache = s.cache ∧ (setArmed t b s).timing = s.timing ∧ (setArmed t b s).mode = s.mode ∧
    (setArmed t b s).txBR = s.txBR ∧ (setArmed t b s).rxBR = s.rxBR ∧ (setArmed t b s).policy = s.policy ∧
    (setArmed t b s).nfcvScratch = s.nfcvScratch ∧ (setArmed t b s).lm = s.lm ∧ (setArmed t b s).wu = s.wu ∧
    (setArmed t b s).buf = s.buf ∧ (setArmed t b s).env = s.env ∧ (setArmed t b s).agenda = s.agenda ∧
    (setArmed t b s).hostData = s.hostData ∧ (setArmed t b s).initCount = s.initCount := by
  cases t <;> refine ⟨rfl, rfl, rfl, rfl, rfl, rfl, rfl, rfl, rfl, rfl, rfl, rfl, rfl, rfl, rfl, rfl, rfl, rfl, rfl, rfl, rfl, rfl, rfl, rfl, rfl, rfl, rfl, rfl, rfl⟩

@[simp] theorem swDisarm_fields (t : SwTimer) (s : State) :
    (swDisarm t s).params = s.params ∧ (swDisarm t s).topState = s.topState ∧
    (swDisarm t s).txrxState = s.txrxState ∧ (swDisarm t s).lmState = s.lmState ∧
    (swDisarm t s).wuState = s.wuState ∧ (swDisarm t s).status = s.status ∧ (swDisarm t s).fieldOn = s.fieldOn ∧
    (swDisarm t s).eofSeen = s.eofSeen ∧ (swDisarm t s).arg = s.arg ∧ (swDisarm t s).result = s.result ∧
    (swDisarm t s).ret0 = s.ret0 ∧ (swDisarm t s).ret1 = s.ret1 ∧ (swDisarm t s).ctx = s.ctx ∧
    (swDisarm t s).rxRcvdLen = s.rxRcvdLen ∧ (swDisarm t s).fifo = s.fifo ∧ (swDisarm t s).cache = s.cache ∧
    (swDisarm t s).timing = s.timing ∧ (swDisarm t s).mode = s.mode ∧ (swDisarm t s).txBR = s.txBR ∧
    (swDisarm t s).rxBR = s.rxBR ∧ (swDisarm t s).policy = s.policy ∧ (swDisarm t s).nfcvScratch = s.nfcvScratch ∧
    (swDisarm t s).lm = s.lm ∧ (swDisarm t s).wu = s.wu ∧ (swDisarm t s).buf = s.buf ∧ (swDisarm t s).env = s.env ∧
    (swDisarm t s).agenda = s.agenda ∧ (swDisarm t s).hostData = s.hostData ∧
    (swDisarm t s).initCount = s.initCount := by
  exact setArmed_fields t false s

@[simp] theorem swArm_fields (t : SwTimer) (d : Nat) (s : State) :
    (swArm t d s).params = s.params ∧ (swArm t d s).topState = s.topState ∧ (swArm t d s).txrxState = s.txrxState ∧
    (swArm t d s).lmState = s.lmState ∧ (swArm t d s).wuState = s.wuState ∧ (swArm t d s).status = s.status ∧
    (swArm t d s).fieldOn = s.fieldOn ∧ (swArm t d s).eofSeen = s.eofSeen ∧ (swArm t d s).arg = s.arg ∧
    (swArm t d s).result = s.result ∧ (swArm t d s).ret0 = s.ret0 ∧ (swArm t d s).ret1 = s.ret1 ∧
    (swArm t d s).ctx = s.ctx ∧ (swArm t d s).rxRcvdLen = s.rxRcvdLen ∧ (swArm t d s).fifo = s.fifo ∧
    (swArm t d s).cache = s.cache ∧ (swArm t d s).timing = s.timing ∧ (swArm t d s).mode = s.mode ∧
    (swArm t d s).txBR = s.txBR ∧ (swArm t d s).rxBR = s.rxBR ∧ (swArm t d s).policy = s.policy ∧
    (swArm t d s).nfcvScratch = s.nfcvScratch ∧ (swArm t d s).lm = s.lm ∧ (swArm t d s).wu = s.wu ∧
    (swArm t d s).buf = s.buf ∧ (swArm t d s).agenda = s.agenda ∧ (swArm t d s).hostData = s.hostData ∧
    (swArm t d s).initCount = s.initCount := by
  cases t <;> refine ⟨rfl, rfl, rfl, rfl, rfl, rfl, rfl, rfl, rfl, rfl, rfl, rfl, rfl, rfl, rfl, rfl, rfl, rfl, rfl, rfl, rfl, rfl, rfl, rfl, rfl, rfl, rfl, rfl⟩

@[simp] theorem fifoStatus_fields  (s : State) :
    (fifoStatus s).params = s.params ∧ (fifoStatus s).topState = s.topState ∧
    (fifoStatus s).txrxState = s.txrxState ∧ (fifoStatus s).lmState = s.lmState ∧
    (fifoStatus s).wuState = s.wuState ∧ (fifoStatus s).status = s.status ∧ (fifoStatus s).fieldOn = s.fieldOn ∧
    (fifoStatus s).eofSeen = s.eofSeen ∧ (fifoStatus s).arg = s.arg ∧ (fifoStatus s).result = s.result ∧
    (fifoStatus s).ret0 = s.ret0 ∧ (fifoStatus s).ret1 = s.ret1 ∧ (fifoStatus s).ctx = s.ctx ∧
    (fifoStatus s).rxRcvdLen = s.rxRcvdLen ∧ (fifoStatus s).fifo = s.fifo ∧ (fifoStatus s).timing = s.timing ∧
    (fifoStatus s).mode = s.mode ∧ (fifoStatus s).txBR = s.txBR ∧ (fifoStatus s).rxBR = s.rxBR ∧
    (fifoStatus s).policy = s.policy ∧ (fifoStatus s).sw = s.sw ∧ (fifoStatus s).nfcvScratch = s.nfcvScratch ∧
    (fifoStatus s).lm = s.lm ∧ (fifoStatus s).wu = s.wu ∧ (fifoStatus s).buf = s.buf ∧
    (fifoStatus s).agenda = s.agenda ∧ (fifoStatus s).hostData = s.hostData ∧
    (fifoStatus s).initCount = s.initCount := by
  unfold fifoStatus; split <;> simp

@[simp] theorem cleanup_fields  (s : State) :
    (cleanup s).params = s.params ∧ (cleanup s).topState = s.topState ∧ (cleanup s).txrxState = s.txrxState ∧
    (cleanup s).lmState = s.lmState ∧ (cleanup s).wuState = s.wuState ∧ (cleanup s).status = s.status ∧
    (cleanup s).fieldOn = s.fieldOn ∧ (cleanup s).eofSeen = s.eofSeen ∧ (cleanup s).arg = s.arg ∧
    (cleanup s).result = s.result ∧ (cleanup s).ret0 = s.ret0 ∧ (cleanup s).ret1 = s.ret1 ∧ (cleanup s).ctx = s.ctx ∧
    (cleanup s).rxRcvdLen = s.rxRcvdLen ∧ (cleanup s).fifo = s.fifo ∧ (cleanup s).cache = s.cache ∧
    (cleanup s).timing = s.timing ∧ (cleanup s).mode = s.mode ∧ (cleanup s).txBR = s.txBR ∧
    (cleanup s).rxBR = s.rxBR ∧ (cleanup s).policy = s.policy ∧ (cleanup s).nfcvScratch = s.nfcvScratch ∧
    (cleanup s).lm = s.lm ∧ (cleanup s).wu = s.wu ∧ (cleanup s).buf = s.buf ∧ (cleanup s).agenda = s.agenda ∧
    (cleanup s).hostData = s.hostData ∧ (cleanup s).initCount = s.initCount := by
  simp [cleanup]

@[simp] theorem endExchange_fields (st : Status) (s : State) :
    (endExchange st s).params = s.params ∧ (endExchange st s).topState = s.topState ∧
    (endExchange st s).lmState = s.lmState ∧ (endExchange st s).wuState = s.wuState ∧
    (endExchange st s).fieldOn = s.fieldOn ∧ (endExchange st s).eofSeen = s.eofSeen ∧
    (endExchange st s).arg = s.arg ∧ (endExchange st s).result = s.result ∧ (endExchange st s).ret0 = s.ret0 ∧
    (endExchange st s).ret1 = s.ret1 ∧ (endExchange st s).ctx = s.ctx ∧ (endExchange st s).rxRcvdLen = s.rxRcvdLen ∧
    (endExchange st s).fifo = s.fifo ∧ (endExchange st s).cache = s.cache ∧ (endExchange st s).timing = s.timing ∧
    (endExchange st s).mode = s.mode ∧ (endExchange st s).txBR = s.txBR ∧ (endExchange st s).rxBR = s.rxBR ∧
    (endExchange st s).policy = s.policy ∧ (endExchange st s).nfcvScratch = s.nfcvScratch ∧
    (endExchange st s).lm = s.lm ∧ (endExchange st s).wu = s.wu ∧ (endExchange st s).buf = s.buf ∧
    (endExchange st s).agenda = s.agenda ∧ (endExchange st s).hostData = s.hostData ∧
    (endExchange st s).initCount = s.initCount := by
  simp [endExchange]

@[simp] theorem loadExchange_fields (c : Ctx) (s : State) :
    (loadExchange c s).params = s.params ∧ (loadExchange c s).txrxState = s.txrxState ∧
    (loadExchange c s).lmState = s.lmState ∧ (loadExchange c s).wuState = s.wuState ∧
    (loadExchange c s).fieldOn = s.fieldOn ∧ (loadExchange c s).arg = s.arg ∧ (loadExchange c s).result = s.result ∧
    (loadExchange c s).ret0 = s.ret0 ∧ (loadExchange c s).ret1 = s.ret1 ∧ (loadExchange c s).timing = s.timing ∧
    (loadExchange c s).mode = s.mode ∧ (loadExchange c s).txBR = s.txBR ∧ (loadExchange c s).rxBR = s.rxBR ∧
    (loadExchange c s).policy = s.policy ∧ (loadExchange c s).nfcvScratch = s.nfcvScratch ∧
    (loadExchange c s).lm = s.lm ∧ (loadExchange c s).wu = s.wu ∧ (loadExchange c s).buf = s.buf ∧
    (loadExchange c s).env = s.env ∧ (loadExchange c s).agenda = s.agenda ∧
    (loadExchange c s).hostData = s.hostData ∧ (loadExchange c s).initCount = s.initCount := by
  simp [loadExchange]

@[simp] theorem computeTimers_fields  (s : State) :
    (computeTimers s).params = s.params ∧ (computeTimers s).topState = s.topState ∧
    (computeTimers s).txrxState = s.txrxState ∧ (computeTimers s).lmState = s.lmState ∧
    (computeTimers s).wuState = s.wuState ∧ (computeTimers s).status = s.status ∧
    (computeTimers s).fieldOn = s.fieldOn ∧ (computeTimers s).eofSeen = s.eofSeen ∧ (computeTimers s).arg = s.arg ∧
    (computeTimers s).result = s.result ∧ (computeTimers s).ret0 = s.ret0 ∧ (computeTimers s).ret1 = s.ret1 ∧
    (computeTimers s).ctx = s.ctx ∧ (computeTimers s).rxRcvdLen = s.rxRcvdLen ∧ (computeTimers s).fifo = s.fifo ∧
    (computeTimers s).cache = s.cache ∧ (computeTimers s).mode = s.mode ∧ (computeTimers s).txBR = s.txBR ∧
    (computeTimers s).rxBR = s.rxBR ∧ (computeTimers s).policy = s.policy ∧ (computeTimers s).sw = s.sw ∧
    (computeTimers s).nfcvScratch = s.nfcvScratch ∧ (computeTimers s).lm = s.lm ∧ (computeTimers s).wu = s.wu ∧
    (computeTimers s).buf = s.buf ∧ (computeTimers s).env = s.env ∧ (computeTimers s).agenda = s.agenda ∧
    (computeTimers s).hostData = s.hostData ∧ (computeTimers s).initCount = s.initCount := by
  refine ⟨rfl, rfl, rfl, rfl, rfl, rfl, rfl, rfl, rfl, rfl, rfl, rfl, rfl, rfl, rfl, rfl, rfl, rfl, rfl, rfl, rfl, rfl, rfl, rfl, rfl, rfl, rfl, rfl, rfl⟩

@[simp] theorem prepare_fields  (s : State) :
    (prepare s).params = s.params ∧ (prepare s).topState = s.topState ∧ (prepare s).txrxState = s.txrxState ∧
    (prepare s).lmState = s.lmState ∧ (prepare s).wuState = s.wuState ∧ (prepare s).status = s.status ∧
    (prepare s).fieldOn = s.fieldOn ∧ (prepare s).eofSeen = s.eofSeen ∧ (prepare s).arg = s.arg ∧
    (prepare s).result = s.result ∧ (prepare s).ret0 = s.ret0 ∧ (prepare s).ret1 = s.ret1 ∧ (prepare s).ctx = s.ctx ∧
    (prepare s).rxRcvdLen = s.rxRcvdLen ∧ (prepare s).fifo = s.fifo ∧ (prepare s).cache = s.cache ∧
    (prepare s).timing = s.timing ∧ (prepare s).mode = s.mode ∧ (prepare s).txBR = s.txBR ∧
    (prepare s).rxBR = s.rxBR ∧ (prepare s).policy = s.policy ∧ (prepare s).sw = s.sw ∧
    (prepare s).nfcvScratch = s.nfcvScratch ∧ (prepare s).lm = s.lm ∧ (prepare s).wu = s.wu ∧
    (prepare s).buf = s.buf ∧ (prepare s).agenda = s.agenda ∧ (prepare s).hostData = s.hostData ∧
    (prepare s).initCount = s.initCount := by
  unfold prepare; dsimp only; split <;> split <;> simp

@[simp] theorem beginExchange_fields (c : Ctx) (s : State) :
    (beginExchange c s).params = s.params ∧ (beginExchange c s).lmState = s.lmState ∧
    (beginExchange c s).wuState = s.wuState ∧ (beginExchange c s).fieldOn = s.fieldOn ∧
    (beginExchange c s).arg = s.arg ∧ (beginExchange c s).result = s.result ∧ (beginExchange c s).ret0 = s.ret0 ∧
    (beginExchange c s).ret1 = s.ret1 ∧ (beginExchange c s).mode = s.mode ∧ (beginExchange c s).txBR = s.txBR ∧
    (beginExchange c s).rxBR = s.rxBR ∧ (beginExchange c s).policy = s.policy ∧
    (beginExchange c s).nfcvScratch = s.nfcvScratch ∧ (beginExchange c s).lm = s.lm ∧ (beginExchange c s).wu = s.wu ∧
    (beginExchange c s).buf = s.buf ∧ (beginExchange c s).agenda = s.agenda ∧
    (beginExchange c s).hostData = s.hostData ∧ (beginExchange c s).initCount = s.initCount := by
  simp [beginExchange]

@[simp] theorem rxIdleReset_fields  (s : State) :
    (rxIdleReset s).params = s.params ∧ (rxIdleReset s).topState = s.topState ∧
    (rxIdleReset s).txrxState = s.txrxState ∧ (rxIdleReset s).lmState = s.lmState ∧
    (rxIdleReset s).wuState = s.wuState ∧ (rxIdleReset s).status = s.status ∧ (rxIdleReset s).fieldOn = s.fieldOn ∧
    (rxIdleReset s).arg = s.arg ∧ (rxIdleReset s).result = s.result ∧ (rxIdleReset s).ret0 = s.ret0 ∧
    (rxIdleReset s).ret1 = s.ret1 ∧ (rxIdleReset s).ctx = s.ctx ∧ (rxIdleReset s).rxRcvdLen = s.rxRcvdLen ∧
    (rxIdleReset s).timing = s.timing ∧ (rxIdleReset s).mode = s.mode ∧ (rxIdleReset s).txBR = s.txBR ∧
    (rxIdleReset s).rxBR = s.rxBR ∧ (rxIdleReset s).policy = s.policy ∧ (rxIdleReset s).sw = s.sw ∧
    (rxIdleReset s).nfcvScratch = s.nfcvScratch ∧ (rxIdleReset s).lm = s.lm ∧ (rxIdleReset s).wu = s.wu ∧
    (rxIdleReset s).buf = s.buf ∧ (rxIdleReset s).agenda = s.agenda ∧ (rxIdleReset s).hostData = s.hostData ∧
    (rxIdleReset s).initCount = s.initCount := by
  unfold rxIdleReset; dsimp only; split <;> simp

@[simp] theorem rxIdleTimers_fields  (s : State) :
    (rxIdleTimers s).params = s.params ∧ (rxIdleTimers s).topState = s.topState ∧
    (rxIdleTimers s).txrxState = s.txrxState ∧ (rxIdleTimers s).lmState = s.lmState ∧
    (rxIdleTimers s).wuState = s.wuState ∧ (rxIdleTimers s).status = s.status ∧
    (rxIdleTimers s).fieldOn = s.fieldOn ∧ (rxIdleTimers s).eofSeen = s.eofSeen ∧ (rxIdleTimers s).arg = s.arg ∧
    (rxIdleTimers s).result = s.result ∧ (rxIdleTimers s).ret0 = s.ret0 ∧ (rxIdleTimers s).ret1 = s.ret1 ∧
    (rxIdleTimers s).ctx = s.ctx ∧ (rxIdleTimers s).rxRcvdLen = s.rxRcvdLen ∧ (rxIdleTimers s).fifo = s.fifo ∧
    (rxIdleTimers s).cache = s.cache ∧ (rxIdleTimers s).timing = s.timing ∧ (rxIdleTimers s).mode = s.mode ∧
    (rxIdleTimers s).txBR = s.txBR ∧ (rxIdleTimers s).rxBR = s.rxBR ∧ (rxIdleTimers s).policy = s.policy ∧
    (rxIdleTimers s).nfcvScratch = s.nfcvScratch ∧ (rxIdleTimers s).lm = s.lm ∧ (rxIdleTimers s).wu = s.wu ∧
    (rxIdleTimers s).buf = s.buf ∧ (rxIdleTimers s).agenda = s.agenda ∧ (rxIdleTimers s).hostData = s.hostData ∧
    (rxIdleTimers s).initCount = s.initCount := by
  unfold rxIdleTimers; split <;> split <;> simp

@[simp] theorem discardAndRearm_fields  (s : State) :
    (discardAndRearm s).params = s.params ∧ (discardAndRearm s).topState = s.topState ∧
    (discardAndRearm s).lmState = s.lmState ∧ (discardAndRearm s).wuState = s.wuState ∧
    (discardAndRearm s).status = s.status ∧ (discardAndRearm s).fieldOn = s.fieldOn ∧
    (discardAndRearm s).eofSeen = s.eofSeen ∧ (discardAndRearm s).arg = s.arg ∧
    (discardAndRearm s).result = s.result ∧ (discardAndRearm s).ret0 = s.ret0 ∧ (discardAndRearm s).ret1 = s.ret1 ∧
    (discardAndRearm s).ctx = s.ctx ∧ (discardAndRearm s).rxRcvdLen = s.rxRcvdLen ∧
    (discardAndRearm s).timing = s.timing ∧ (discardAndRearm s).mode = s.mode ∧ (discardAndRearm s).txBR = s.txBR ∧
    (discardAndRearm s).rxBR = s.rxBR ∧ (discardAndRearm s).policy = s.policy ∧
    (discardAndRearm s).nfcvScratch = s.nfcvScratch ∧ (discardAndRearm s).lm = s.lm ∧ (discardAndRearm s).wu = s.wu ∧
    (discardAndRearm s).buf = s.buf ∧ (discardAndRearm s).agenda = s.agenda ∧
    (discardAndRearm s).hostData = s.hostData ∧ (discardAndRearm s).initCount = s.initCount := by
  simp [discardAndRearm]

@[simp] theorem applyBitrate_fields (t r : BitRate) (s : State) :
    (applyBitrate t r s).params = s.params ∧ (applyBitrate t r s).topState = s.topState ∧
    (applyBitrate t r s).txrxState = s.txrxState ∧ (applyBitrate t r s).lmState = s.lmState ∧
    (applyBitrate t r s).wuState = s.wuState ∧ (applyBitrate t r s).status = s.status ∧
    (applyBitrate t r s).fieldOn = s.fieldOn ∧ (applyBitrate t r s).eofSeen = s.eofSeen ∧
    (applyBitrate t r s).arg = s.arg ∧ (applyBitrate t r s).result = s.result ∧ (applyBitrate t r s).ret0 = s.ret0 ∧
    (applyBitrate t r s).ret1 = s.ret1 ∧ (applyBitrate t r s).ctx = s.ctx ∧
    (applyBitrate t r s).rxRcvdLen = s.rxRcvdLen ∧ (applyBitrate t r s).fifo = s.fifo ∧
    (applyBitrate t r s).cache = s.cache ∧ (applyBitrate t r s).timing = s.timing ∧
    (applyBitrate t r s).mode = s.mode ∧ (applyBitrate t r s).policy = s.policy ∧ (applyBitrate t r s).sw = s.sw ∧
    (applyBitrate t r s).nfcvScratch = s.nfcvScratch ∧ (applyBitrate t r s).lm = s.lm ∧
    (applyBitrate t r s).wu = s.wu ∧ (applyBitrate t r s).buf = s.buf ∧ (applyBitrate t r s).agenda = s.agenda ∧
    (applyBitrate t r s).hostData = s.hostData ∧ (applyBitrate t r s).initCount = s.initCount := by
  unfold applyBitrate; dsimp only; split <;> simp

@[simp] theorem initFrontEnd_fields  (s : State) :
    (initFrontEnd s).params = s.params ∧ (initFrontEnd s).topState = s.topState ∧
    (initFrontEnd s).txrxState = s.txrxState ∧ (initFrontEnd s).lmState = s.lmState ∧
    (initFrontEnd s).wuState = s.wuState ∧ (initFrontEnd s).status = s.status ∧
    (initFrontEnd s).fieldOn = s.fieldOn ∧ (initFrontEnd s).eofSeen = s.eofSeen ∧ (initFrontEnd s).arg = s.arg ∧
    (initFrontEnd s).result = s.result ∧ (initFrontEnd s).ret0 = s.ret0 ∧ (initFrontEnd s).ret1 = s.ret1 ∧
    (initFrontEnd s).ctx = s.ctx ∧ (initFrontEnd s).rxRcvdLen = s.rxRcvdLen ∧ (initFrontEnd s).fifo = s.fifo ∧
    (initFrontEnd s).cache = s.cache ∧ (initFrontEnd s).timing = s.timing ∧ (initFrontEnd s).mode = s.mode ∧
    (initFrontEnd s).txBR = s.txBR ∧ (initFrontEnd s).rxBR = s.rxBR ∧ (initFrontEnd s).policy = s.policy ∧
    (initFrontEnd s).sw = s.sw ∧ (initFrontEnd s).nfcvScratch = s.nfcvScratch ∧ (initFrontEnd s).lm = s.lm ∧
    (initFrontEnd s).wu = s.wu ∧ (initFrontEnd s).buf = s.buf ∧ (initFrontEnd s).agenda = s.agenda ∧
    (initFrontEnd s).hostData = s.hostData ∧ (initFrontEnd s).initCount = s.initCount := by
  simp [initFrontEnd]

@[simp] theorem startGuardTime_fields  (s : State) :
    (startGuardTime s).params = s.params ∧ (startGuardTime s).topState = s.topState ∧
    (startGuardTime s).txrxState = s.txrxState ∧ (startGuardTime s).lmState = s.lmState ∧
    (startGuardTime s).wuState = s.wuState ∧ (startGuardTime s).status = s.status ∧
    (startGuardTime s).fieldOn = s.fieldOn ∧ (startGuardTime s).eofSeen = s.eofSeen ∧
    (startGuardTime s).arg = s.arg ∧ (startGuardTime s).result = s.result ∧ (startGuardTime s).ret0 = s.ret0 ∧
    (startGuardTime s).ret1 = s.ret1 ∧ (startGuardTime s).ctx = s.ctx ∧ (startGuardTime s).rxRcvdLen = s.rxRcvdLen ∧
    (startGuardTime s).fifo = s.fifo ∧ (startGuardTime s).cache = s.cache ∧ (startGuardTime s).timing = s.timing ∧
    (startGuardTime s).mode = s.mode ∧ (startGuardTime s).txBR = s.txBR ∧ (startGuardTime s).rxBR = s.rxBR ∧
    (startGuardTime s).policy = s.policy ∧ (startGuardTime s).nfcvScratch = s.nfcvScratch ∧
    (startGuardTime s).lm = s.lm ∧ (startGuardTime s).wu = s.wu ∧ (startGuardTime s).buf = s.buf ∧
    (startGuardTime s).agenda = s.agenda ∧ (startGuardTime s).hostData = s.hostData ∧
    (startGuardTime s).initCount = s.initCount := by
  unfold startGuardTime; split <;> simp

@[simp] theorem fieldOnRequest_fields  (s : State) :
    (fieldOnRequest s).params = s.params ∧ (fieldOnRequest s).topState = s.topState ∧
    (fieldOnRequest s).txrxState = s.txrxState ∧ (fieldOnRequest s).lmState = s.lmState ∧
    (fieldOnRequest s).wuState = s.wuState ∧ (fieldOnRequest s).status = s.status ∧
    (fieldOnRequest s).fieldOn = s.fieldOn ∧ (fieldOnRequest s).eofSeen = s.eofSeen ∧
    (fieldOnRequest s).arg = s.arg ∧ (fieldOnRequest s).result = s.result ∧ (fieldOnRequest s).ret0 = s.ret0 ∧
    (fieldOnRequest s).ret1 = s.ret1 ∧ (fieldOnRequest s).ctx = s.ctx ∧ (fieldOnRequest s).rxRcvdLen = s.rxRcvdLen ∧
    (fieldOnRequest s).fifo = s.fifo ∧ (fieldOnRequest s).cache = s.cache ∧ (fieldOnRequest s).timing = s.timing ∧
    (fieldOnRequest s).mode = s.mode ∧ (fieldOnRequest s).txBR = s.txBR ∧ (fieldOnRequest s).rxBR = s.rxBR ∧
    (fieldOnRequest s).policy = s.policy ∧ (fieldOnRequest s).sw = s.sw ∧
    (fieldOnRequest s).nfcvScratch = s.nfcvScratch ∧ (fieldOnRequest s).lm = s.lm ∧ (fieldOnRequest s).wu = s.wu ∧
    (fieldOnRequest s).buf = s.buf ∧ (fieldOnRequest s).agenda = s.agenda ∧
    (fieldOnRequest s).hostData = s.hostData ∧ (fieldOnRequest s).initCount = s.initCount := by
  simp [fieldOnRequest]

@[simp] theorem readCollisionPos_fields  (s : State) :
    (readCollisionPos s).params = s.params ∧ (readCollisionPos s).topState = s.topState ∧
    (readCollisionPos s).txrxState = s.txrxState ∧ (readCollisionPos s).lmState = s.lmState ∧
    (readCollisionPos s).wuState = s.wuState ∧ (readCollisionPos s).status = s.status ∧
    (readCollisionPos s).fieldOn = s.fieldOn ∧ (readCollisionPos s).eofSeen = s.eofSeen ∧
    (readCollisionPos s).arg = s.arg ∧ (readCollisionPos s).result = s.result ∧ (readCollisionPos s).ret0 = s.ret0 ∧
    (readCollisionPos s).ctx = s.ctx ∧ (readCollisionPos s).rxRcvdLen = s.rxRcvdLen ∧
    (readCollisionPos s).fifo = s.fifo ∧ (readCollisionPos s).cache = s.cache ∧
    (readCollisionPos s).timing = s.timing ∧ (readCollisionPos s).mode = s.mode ∧
    (readCollisionPos s).txBR = s.txBR ∧ (readCollisionPos s).rxBR = s.rxBR ∧
    (readCollisionPos s).policy = s.policy ∧ (readCollisionPos s).sw = s.sw ∧
    (readCollisionPos s).nfcvScratch = s.nfcvScratch ∧ (readCollisionPos s).lm = s.lm ∧
    (readCollisionPos s).wu = s.wu ∧ (readCollisionPos s).buf = s.buf ∧ (readCollisionPos s).agenda = s.agenda ∧
    (readCollisionPos s).hostData = s.hostData ∧ (readCollisionPos s).initCount = s.initCount := by
  unfold readCollisionPos; split <;> simp

/-! ## The fields an operation does write -/

@[simp] theorem cacheInvalidate_cache (s : State) : (cacheInvalidate s).cache = { s.cache with valid := false } := rfl

@[simp] theorem endExchange_status (st : Status) (s : State) : (endExchange st s).status = st := rfl

@[simp] theorem endExchange_txrxState (st : Status) (s : State) : (endExchange st s).txrxState = .idle := rfl

@[simp] theorem cleanup_sw (s : State) : (cleanup s).sw = { s.sw with rxeGuard := false, apFwt := false } := by
  simp [cleanup, swDisarm, setArmed]

@[simp] theorem endExchange_sw (st : Status) (s : State) :
    (endExchange st s).sw = { s.sw with rxeGuard := false, apFwt := false } := by
  simp [endExchange]

@[simp] theorem swDisarm_gt (s : State) : (swDisarm .gt s).sw = { s.sw with gt := false } := rfl

@[simp] theorem swDisarm_rxeGuard (s : State) : (swDisarm .rxeGuard s).sw = { s.sw with rxeGuard := false } := rfl

@[simp] theorem swDisarm_apFwt (s : State) : (swDisarm .apFwt s).sw = { s.sw with apFwt := false } := rfl

@[simp] theorem swArm_gt (d : Nat) (s : State) : (swArm .gt d s).sw = { s.sw with gt := true } := rfl

@[simp] theorem swArm_rxeGuard (d : Nat) (s : State) : (swArm .rxeGuard d s).sw = { s.sw with rxeGuard := true } := rfl

@[simp] theorem swArm_apFwt (d : Nat) (s : State) : (swArm .apFwt d s).sw = { s.sw with apFwt := true } := rfl

@[simp] theorem swArm_env (t : SwTimer) (d : Nat) (s : State) : (swArm t d s).env = setSwClock t ⟨d, false⟩ s.env := by
  cases t <;> rfl

@[simp] theorem loadExchange_written (c : Ctx) (s : State) :
    (loadExchange c s).ctx = c ∧ (loadExchange c s).status = .busy ∧ (loadExchange c s).topState = .txRx ∧
    (loadExchange c s).fifo = ⟨0, 0, 0⟩ ∧ (loadExchange c s).eofSeen = false ∧ (loadExchange c s).rxRcvdLen = 0 ∧
    (loadExchange c s).cache = { s.cache with valid := false } ∧
    (loadExchange c s).sw = { s.sw with rxeGuard := false, apFwt := false } := by
  simp [loadExchange, swDisarm, setArmed, cacheInvalidate]

@[simp] theorem beginExchange_written (c : Ctx) (s : State) :
    (beginExchange c s).ctx = c ∧ (beginExchange c s).status = .busy ∧ (beginExchange c s).topState = .txRx ∧
    (beginExchange c s).fifo = ⟨0, 0, 0⟩ ∧ (beginExchange c s).eofSeen = false ∧ (beginExchange c s).rxRcvdLen = 0 ∧
    (beginExchange c s).cache = { s.cache with valid := false } ∧
    (beginExchange c s).sw = { s.sw with rxeGuard := false, apFwt := false } ∧
    (beginExchange c s).txrxState = if c.txAbsent then .rxIdle else .txIdle := by
  simp [beginExchange]

@[simp] theorem discardAndRearm_written (s : State) :
    (discardAndRearm s).fifo = { s.fifo with bytesTotal := 0, bytesWritten := 0 } ∧
    (discardAndRearm s).cache = { s.cache with valid := false } ∧
    (discardAndRearm s).sw = { s.sw with rxeGuard := false } ∧
    (discardAndRearm s).txrxState = .rxWaitRxs := by
  simp [discardAndRearm, swDisarm, setArmed]

@[simp] theorem fifoStatus_valid (s : State) : (fifoStatus s).cache.valid = true := by
  unfold fifoStatus; split
  · assumption
  · rfl

end Sys2Proof.Machine
end

