-- ==== Sys2Proof/Laws/Env.lean ====
section
/-! SUPPORT. What the environment's steps and the Chip-Driver calls do to the environment: the trace grows only by the
calls' own events, the enabled flags and the configuration change only by the block's calls, the FIFO never holds more
than `FIFO_DEPTH` bytes. -/

namespace Sys2Proof.Machine

/-- What a step of the environment cannot change (R58). -/
@[simp] theorem applyEvent_keeps (d : Nat) (e : EnvEvent) (v : Env) :
    (applyEvent d e v).trace = v.trace ∧ (applyEvent d e v).script = v.script ∧
    (applyEvent d e v).fe.irqEnable = v.fe.irqEnable ∧ (applyEvent d e v).fe.config = v.fe.config := by
  cases e with
  | raise => simp [applyEvent, raiseFlags]
  | receive => simp [applyEvent, receiveBytes]
  | timerRun t => cases t <;> simp only [applyEvent, moveHwClock] <;> split <;> simp [setHwClock]
  | timerExpire t => cases t <;> simp only [applyEvent, moveHwClock] <;> split <;> simp [setHwClock]
  | swExpire t => cases t <;> simp [applyEvent, setSwClock]
  | setMeasured ch x => cases ch <;> simp [applyEvent]
  | _ => simp [applyEvent]

/-- What several steps of the environment cannot change. -/
@[simp] theorem applyEvents_keeps (d : Nat) (es : List EnvEvent) (v : Env) :
    (applyEvents d es v).trace = v.trace ∧ (applyEvents d es v).script = v.script ∧
    (applyEvents d es v).fe.irqEnable = v.fe.irqEnable ∧ (applyEvents d es v).fe.config = v.fe.config := by
  induction es generalizing v with
  | nil => simp [applyEvents]
  | cons e es ih => simp [applyEvents, ih]

/-- The environment's turn takes one entry of its script and leaves no event of its own. -/
@[simp] theorem envTurn_keeps (d : Nat) (v : Env) :
    (envTurn d v).trace = v.trace ∧ (envTurn d v).script = v.script.tail ∧
    (envTurn d v).fe.irqEnable = v.fe.irqEnable ∧ (envTurn d v).fe.config = v.fe.config := by
  unfold envTurn
  split
  · next h => simp [h]
  · next h => simp [h]

/-- With no script left the environment does nothing. -/
theorem envTurn_quiet {d : Nat} {v : Env} (h : v.script = []) : envTurn d v = v := by
  unfold envTurn; rw [h]

/-- With no script left a call finds the state as it is. -/
theorem atCall_quiet {s : State} (h : s.env.script = []) : atCall s = s := by
  unfold atCall; rw [envTurn_quiet h]

@[simp] theorem atCall_env (s : State) :
    (atCall s).env.trace = s.env.trace ∧ (atCall s).env.script = s.env.script.tail ∧
    (atCall s).env.fe.irqEnable = s.env.fe.irqEnable ∧ (atCall s).env.fe.config = s.env.fe.config := by
  simp [atCall]

@[simp] theorem emit_env (e : Event) (s : State) :
    (emit e s).env.trace = s.env.trace ++ [e] ∧ (emit e s).env.script = s.env.script ∧ (emit e s).env.fe = s.env.fe ∧
    (emit e s).env.swGt = s.env.swGt ∧ (emit e s).env.swRxeGuard = s.env.swRxeGuard ∧
    (emit e s).env.swApFwt = s.env.swApFwt := by
  simp [emit, logEvent]

@[simp] theorem withFe_env (g : FrontEnd → FrontEnd) (s : State) :
    (withFe g s).env.trace = s.env.trace ∧ (withFe g s).env.script = s.env.script ∧
    (withFe g s).env.fe = g s.env.fe ∧ (withFe g s).env.swGt = s.env.swGt ∧
    (withFe g s).env.swRxeGuard = s.env.swRxeGuard ∧ (withFe g s).env.swApFwt = s.env.swApFwt := by
  simp [withFe]

/-- A call without an answer: one event, one entry of the script, its effect on the front end it finds. -/
@[simp] theorem feCall_env (e : Event) (g : FrontEnd → FrontEnd) (s : State) :
    (feCall e g s).env.trace = s.env.trace ++ [e] ∧ (feCall e g s).env.script = s.env.script.tail ∧
    (feCall e g s).env.fe = g (atCall s).env.fe := by
  simp [feCall]

@[simp] theorem setArmed_env (t : SwTimer) (b : Bool) (s : State) : (setArmed t b s).env = s.env := by
  cases t <;> rfl

@[simp] theorem swDisarm_env (t : SwTimer) (s : State) : (swDisarm t s).env = s.env := setArmed_env t false s

@[simp] theorem setSwClock_keeps (t : SwTimer) (c : SwClock) (v : Env) :
    (setSwClock t c v).trace = v.trace ∧ (setSwClock t c v).script = v.script ∧ (setSwClock t c v).fe = v.fe := by
  cases t <;> simp [setSwClock]

/-- The trace and the script after each Chip-Driver call. -/
@[simp] theorem calls_env (s : State) :
    (∀ c, (feCmd c s).env.trace = s.env.trace ++ [.feCmd c] ∧ (feCmd c s).env.script = s.env.script.tail) ∧
    (∀ c, (feConfig c s).env.trace = s.env.trace ++ [.feConfig c] ∧ (feConfig c s).env.script = s.env.script.tail) ∧
    (∀ i, (applyAnalogConfig i s).env.trace = s.env.trace ++ [.applyAnalogConfig i] ∧
      (applyAnalogConfig i s).env.script = s.env.script.tail) ∧
    (∀ m, (feIrqEnable m s).env.trace = s.env.trace ++ [.feIrqEnable m] ∧
      (feIrqEnable m s).env.script = s.env.script.tail) ∧
    (∀ m, (feIrqDisable m s).env.trace = s.env.trace ++ [.feIrqDisable m] ∧
      (feIrqDisable m s).env.script = s.env.script.tail) ∧
    (∀ t v, (feTimerStart t v s).env.trace = s.env.trace ++ [.feTimerStart t v] ∧
      (feTimerStart t v s).env.script = s.env.script.tail) ∧
    (∀ t, (feTimerStop t s).env.trace = s.env.trace ++ [.feTimerStop t] ∧
      (feTimerStop t s).env.script = s.env.script.tail) := by
  simp [feCmd, feConfig, applyAnalogConfig, feIrqEnable, feIrqDisable, feTimerStart, feTimerStop]

/-- A poll: its answer is what is pending when it is made, it clears exactly that, and it is one event (R56). -/
theorem feGetIrq_spec (m : Word) (s : State) :
    (feGetIrq m s).1 = pendingIn m (atCall s) ∧
    (feGetIrq m s).2.env.fe.irqPending = (atCall s).env.fe.irqPending &&& ~~~m ∧
    (feGetIrq m s).2.env.trace = s.env.trace ++ [.feGetIrq m (pendingIn m (atCall s))] ∧
    (feGetIrq m s).2.env.script = s.env.script.tail := by
  simp [feGetIrq]

@[simp] theorem feGetIrq_env (m : Word) (s : State) :
    (feGetIrq m s).2.env.trace = s.env.trace ++ [.feGetIrq m (pendingIn m (atCall s))] ∧
    (feGetIrq m s).2.env.script = s.env.script.tail ∧
    (feGetIrq m s).2.env.fe = { (atCall s).env.fe with irqPending := (atCall s).env.fe.irqPending &&& ~~~m } := by
  simp [feGetIrq]

@[simp] theorem feDiscardIrq_env (m : Word) (s : State) :
    (feDiscardIrq m s).env.trace = s.env.trace ++ [.feGetIrq m (pendingIn m (atCall s))] ∧
    (feDiscardIrq m s).env.script = s.env.script.tail := by
  simp [feDiscardIrq]

/-- What `FeFifoRead` can do (R56): nothing for a count of 0; else the first `n` bytes of the FIFO it finds. -/
theorem feFifoRead_spec {n : Nat} {s : State} {r : List Byte × State} (h : feFifoRead n s = .ok r) :
    (n = 0 ∧ r = ([], s)) ∨
    (0 < n ∧ n ≤ (atCall s).env.fe.fifo.length ∧ r.1 = (atCall s).env.fe.fifo.take n ∧
      r.2 = emit (.feFifoRead ((atCall s).env.fe.fifo.take n))
        (withFe (fun f => { f with fifo := f.fifo.drop n }) (atCall s))) := by
  unfold feFifoRead at h
  split at h
  · next h0 => exact .inl ⟨h0, by cases h; rfl⟩
  · next h0 =>
    dsimp only at h
    split at h
    · next hn => exact .inr ⟨by omega, hn, by cases h; rfl, by cases h; rfl⟩
    · cases h

/-- A read gives as many bytes as it asks for. -/
theorem feFifoRead_length {n : Nat} {s : State} {r : List Byte × State} (h : feFifoRead n s = .ok r) :
    r.1.length = n := by
  rcases feFifoRead_spec h with ⟨rfl, rfl⟩ | ⟨_, hn, h1, _⟩
  · rfl
  · rw [h1, List.length_take]; omega

/-- What `FeFifoWrite` can do (R56): nothing for no bytes; else append, within `FIFO_DEPTH`. -/
theorem feFifoWrite_spec {bytes : List Byte} {s t : State} (h : feFifoWrite bytes s = .ok t) :
    (bytes = [] ∧ t = s) ∨
    (bytes ≠ [] ∧ (atCall s).env.fe.fifo.length + bytes.length ≤ s.params.fifoDepth ∧
      t = emit (.feFifoWrite bytes) (withFe (fun f => { f with fifo := f.fifo ++ bytes }) (atCall s))) := by
  unfold feFifoWrite at h
  split at h
  · next hb => exact .inl ⟨hb, by cases h; rfl⟩
  · next hb =>
    dsimp only at h
    split at h
    · next hl => exact .inr ⟨hb, by simpa using hl, by cases h; rfl⟩
    · cases h

/-- What a counter holds (R64(e)). -/
theorem toLen_spec {n : Nat} {l : Len} (h : toLen n = .ok l) : n < 65536 ∧ l.toNat = n := by
  unfold toLen at h
  split at h
  · next hn =>
    cases h
    exact ⟨hn, by rw [BitVec.toNat_ofNat]; exact Nat.mod_eq_of_lt hn⟩
  · cases h

/-- What a block write to BUF can do (R51). -/
theorem bufWrite_spec {a : Nat} {bytes : List Byte} {s t : State} (h : bufWrite a bytes s = .ok t) :
    bufAccessOk s.params a bytes.length = true ∧ t = { s with buf := writeBytes s.buf a bytes } := by
  unfold bufWrite at h
  split at h
  · next ha => exact ⟨ha, by cases h; rfl⟩
  · cases h

/-- What a write to the scratch buffer can do (R25). -/
theorem scratchWrite_spec {i : Nat} {bytes : List Byte} {s t : State} (h : scratchWrite i bytes s = .ok t) :
    i + bytes.length ≤ s.params.nfcvScratchSize ∧ t = { s with nfcvScratch := writeBytes s.nfcvScratch i bytes } := by
  unfold scratchWrite at h
  split at h
  · next ha => exact ⟨ha, by cases h; rfl⟩
  · cases h

/-- What a block read of BUF can do (R51). -/
theorem bufRead_spec {a n : Nat} {s : State} {bytes : List Byte} (h : bufRead a n s = .ok bytes) :
    bufAccessOk s.params a n = true ∧ bytes = readBytes s.buf a n := by
  unfold bufRead at h
  split at h
  · next ha => exact ⟨ha, by cases h; rfl⟩
  · cases h

/-- What a read of the scratch buffer can do (R25). -/
theorem scratchRead_spec {i n : Nat} {s : State} {bytes : List Byte} (h : scratchRead i n s = .ok bytes) :
    i + n ≤ s.params.nfcvScratchSize ∧ bytes = readBytes s.nfcvScratch i n := by
  unfold scratchRead at h
  split at h
  · next ha => exact ⟨ha, by cases h; rfl⟩
  · cases h

/-- What `FifoStatus` does (R19): with a valid cache nothing; else one call, after which the cache is the front end's. -/
theorem fifoStatus_spec (s : State) :
    (s.cache.valid = true ∧ fifoStatus s = s) ∨
    (s.cache.valid = false ∧ (fifoStatus s).cache =
        ⟨true, (atCall s).env.fe.fifo.length, (atCall s).env.fe.incompleteBits, (atCall s).env.fe.missingParity⟩ ∧
      (fifoStatus s).env.fe = (atCall s).env.fe ∧ (fifoStatus s).env.script = s.env.script.tail) := by
  unfold fifoStatus
  split
  · next hc => exact .inl ⟨hc, rfl⟩
  · next hc => exact .inr ⟨by simpa using hc, rfl, by simp, by simp⟩

/-- An operation that goes on after a part of it completes only where the part answered. -/
theorem andThen_next {r : Run} {k : State → Result} {t : State} (h : andThen r k = .next t) :
    ∃ s, r = .ok s ∧ k s = .next t := by
  cases r with
  | ok s => exact ⟨s, rfl, h⟩
  | error f => cases h

/-- The FIFO holds at most `FIFO_DEPTH` bytes after any step of the environment (R28). -/
theorem applyEvent_fifo {d : Nat} (e : EnvEvent) {v : Env} (h : v.fe.fifo.length ≤ d) :
    (applyEvent d e v).fe.fifo.length ≤ d := by
  cases e with
  | receive bs => simp only [applyEvent, receiveBytes, List.length_append, List.length_take]; omega
  | drain n => simp only [applyEvent, List.length_drop]; omega
  | timerRun t => cases t <;> simp only [applyEvent, moveHwClock] <;> split <;> simpa [setHwClock]
  | timerExpire t => cases t <;> simp only [applyEvent, moveHwClock] <;> split <;> simpa [setHwClock]
  | swExpire t => simpa [applyEvent]
  | setMeasured ch x => cases ch <;> simpa [applyEvent]
  | _ => simpa [applyEvent, raiseFlags]

/-- The FIFO holds at most `FIFO_DEPTH` bytes when a call finds it. -/
theorem envTurn_fifo {d : Nat} {v : Env} (h : v.fe.fifo.length ≤ d) : (envTurn d v).fe.fifo.length ≤ d := by
  have go : ∀ (es : List EnvEvent) (v : Env), v.fe.fifo.length ≤ d → (applyEvents d es v).fe.fifo.length ≤ d := by
    intro es
    induction es with
    | nil => exact fun _ h => h
    | cons e es ih => exact fun v h => ih _ (applyEvent_fifo e h)
  unfold envTurn
  split
  · exact h
  · exact go _ _ h

end Sys2Proof.Machine
end

