-- ==== Sys2Proof/Laws/Gates.lean ====
section
/-! SUPPORT. The way to a transmission (`42_tx_submachine.md` R131 to R133): past the guard time and the frame delay a WORKER
step is the step of `TX_TRANSMIT`. -/

namespace Sys2Proof.Machine

/-- Past the frame delay, `TX_WAIT_FDT` is `TX_TRANSMIT` after at most one question. -/
theorem txWaitFdt_past {s : State} (hs : s.txrxState = .txWaitFdt) (hd : delayOver s) :
    ∃ v : Env, txWaitFdt s = txTransmit { s with txrxState := .txTransmit, env := v } ∧
      v.trace = s.env.trace ++ gateEvents s ∧ ∃ n, v.script = s.env.script.drop n := by
  have ha : asksGuard s = false := by simp [asksGuard, hs]
  by_cases h : isActive s.mode = true ∨ s.timing.fdtPoll = 0
  · refine ⟨s.env, ?_, ?_, 0, rfl⟩
    · rcases h with h | h <;> simp [txWaitFdt, h]
    · rcases h with h | h <;> simp [gateEvents, asksDelay, h]
  · push Not at h
    have hq : asksDelay s = true := by simpa [asksDelay, hs, h.1] using h.2
    have hr := hd hq
    simp only [delayAnswer, ha, Bool.false_eq_true, if_false] at hr
    refine ⟨(feTimerCheck .gpt s).2.env, ?_, ?_, 1, ?_⟩
    · have hr' : (feTimerCheck .gpt s).1 ≠ .running := hr
      simp only [txWaitFdt, h.1, h.2, Bool.false_or, beq_iff_eq, if_false, hr']
      rfl
    · simp [gateEvents, hq, delayAnswer, ha, feTimerCheck, hwClock]
    · simp [feTimerCheck]

/-- What `TX_WAIT_GT` does past both gates, entered in this WORKER or before. -/
theorem txWaitGt_past {s : State} (hs : s.txrxState = .txIdle ∨ s.txrxState = .txWaitGt) (hg : guardOver s)
    (hd : delayOver s) :
    ∃ v : Env, txWaitGt { s with txrxState := .txWaitGt } =
        txTransmit { s with txrxState := .txTransmit, sw := swPastGuard s, env := v } ∧
      v.trace = s.env.trace ++ gateEvents s ∧ ∃ n, v.script = s.env.script.drop n := by
  have hw : swPastGuard s = { s.sw with gt := false } := by simp [swPastGuard, hs]
  have hn : (s.txrxState = .txTransmit) = False := by rcases hs with h | h <;> simp [h]
  by_cases hgt : s.sw.gt = true
  · have ha : asksGuard s = true := by simp [asksGuard, hs, hgt]
    let t : State := { atCall s with sw := { s.sw with gt := false }, txrxState := .txWaitFdt }
    have ht : asksDelay t = asksDelay s := by simp [t, asksDelay, atCall, hn]
    have hta : delayAnswer t = delayAnswer s := by
      have ht' : asksGuard t = false := by simp [t, asksGuard]
      simp only [delayAnswer, ha, ht', Bool.false_eq_true, if_true, if_false]; rfl
    have hgate : gateEvents t = gateEvents s := by simp [gateEvents, ht, hta]
    obtain ⟨v, hv, h1, n, h2⟩ := txWaitFdt_past (s := t) rfl (by simpa [delayOver, ht, hta] using hd)
    refine ⟨v, ?_, ?_, n + 1, ?_⟩
    · have he : (swExpired .gt { s with txrxState := .txWaitGt }).1 = true := hg ha
      simp only [txWaitGt, hgt, if_true, he, hw]
      exact hv
    · rw [h1, hgate]; simp [t]
    · rw [h2]; simp [t]
  · have ha : asksGuard s = false := by simp [asksGuard, hgt]
    let t : State := { s with sw := { s.sw with gt := false }, txrxState := .txWaitFdt }
    have ht : asksDelay t = asksDelay s := by simp [t, asksDelay, hn]
    have hta : delayAnswer t = delayAnswer s := by
      have ht' : asksGuard t = false := by simp [t, asksGuard]
      simp only [delayAnswer, ha, ht', Bool.false_eq_true, if_false]; rfl
    have hgate : gateEvents t = gateEvents s := by simp [gateEvents, ht, hta]
    obtain ⟨v, hv, h1, n, h2⟩ := txWaitFdt_past (s := t) rfl (by simpa [delayOver, ht, hta] using hd)
    refine ⟨v, ?_, by rw [h1, hgate], n, h2⟩
    simp only [txWaitGt, hgt, hw]
    exact hv

/-- What a WORKER step does from any state before a transmission once the guard time and the frame delay are over: it asks
what has to be asked, disarms the guard timer, and transmits. -/
theorem txrxStep_past_gates {s : State} (hs : s.txrxState ∈ [TxrxState.txIdle, .txWaitGt, .txWaitFdt, .txTransmit])
    (hg : guardOver s) (hd : delayOver s) :
    ∃ v : Env, txrxStep s = txTransmit { s with txrxState := .txTransmit, sw := swPastGuard s, env := v } ∧
      v.trace = s.env.trace ++ gateEvents s ∧ ∃ n, v.script = s.env.script.drop n := by
  simp only [List.mem_cons, List.not_mem_nil, or_false] at hs
  rcases hs with h | h | h | h
  · obtain ⟨v, hv⟩ := txWaitGt_past (.inl h) hg hd
    exact ⟨v, by simpa [txrxStep, h, txIdle] using hv⟩
  · obtain ⟨v, hv⟩ := txWaitGt_past (.inr h) hg hd
    refine ⟨v, ?_, hv.2⟩
    rw [← hv.1]; simp only [txrxStep, h]; rw [← h]
  · obtain ⟨v, hv⟩ := txWaitFdt_past h hd
    exact ⟨v, by simpa [txrxStep, h, swPastGuard] using hv⟩
  · refine ⟨s.env, ?_, by simp [gateEvents, asksDelay, h], 0, rfl⟩
    have hw : swPastGuard s = s.sw := by simp [swPastGuard, h]
    simp only [txrxStep, h, hw]; rw [← h]

end Sys2Proof.Machine
end

