-- ==== Sys2Proof/Laws/Memory.lean ====
section
/-! SUPPORT. The laws of byte memories: a read after a write, the canonical form kept by every write, and where the
entries of a written memory lie. -/

namespace Sys2Proof.Machine

theorem readByte_cons (b : Nat) (v : Byte) (m : Memory) (a : Nat) :
    readByte ((b, v) :: m) a = if a = b then v else readByte m a := rfl

/-- In a canonical memory whose addresses start at `lo`, a lower address is unlisted. -/
theorem readByte_of_lt {lo a : Nat} {m : Memory} (h : wfFrom lo m = true) (ha : a < lo) : readByte m a = unlistedByte := by
  induction m generalizing lo with
  | nil => rfl
  | cons c rest ih =>
    obtain ⟨b, v⟩ := c
    simp only [wfFrom, Bool.and_eq_true, decide_eq_true_eq] at h
    rw [readByte_cons, if_neg (by omega)]
    exact ih h.2 (by omega)

/-- A lower bound of a canonical memory's addresses may be lowered. -/
theorem wfFrom_mono {lo lo' : Nat} {m : Memory} (h : wfFrom lo m = true) (hl : lo' ≤ lo) : wfFrom lo' m = true := by
  cases m with
  | nil => rfl
  | cons c rest =>
    obtain ⟨b, v⟩ := c
    simp only [wfFrom, Bool.and_eq_true, decide_eq_true_eq] at h ⊢
    exact ⟨⟨by omega, h.1.2⟩, h.2⟩

/-- A write at or above the bound keeps the canonical form above it. -/
theorem wfFrom_writeByte {lo a : Nat} {m : Memory} (v : Byte) (h : wfFrom lo m = true) (ha : lo ≤ a) :
    wfFrom lo (writeByte m a v) = true := by
  induction m generalizing lo with
  | nil =>
    unfold writeByte
    split
    · rfl
    · next hv => simp [wfFrom, ha, hv]
  | cons c rest ih =>
    obtain ⟨b, w⟩ := c
    have h' := h
    simp only [wfFrom, Bool.and_eq_true, decide_eq_true_eq] at h
    obtain ⟨⟨hb, hw⟩, hr⟩ := h
    unfold writeByte
    split
    · next hab =>
      split
      · exact h'
      · next hv =>
        simp only [wfFrom, Bool.and_eq_true, decide_eq_true_eq]
        exact ⟨⟨ha, by simpa using hv⟩, ⟨by omega, hw⟩, hr⟩
    · next hab =>
      split
      · next hab' =>
        split
        · exact wfFrom_mono hr (by omega)
        · next hv =>
          subst hab'
          simp only [wfFrom, Bool.and_eq_true, decide_eq_true_eq]
          exact ⟨⟨ha, by simpa using hv⟩, hr⟩
      · simp only [wfFrom, Bool.and_eq_true, decide_eq_true_eq]
        exact ⟨⟨hb, hw⟩, ih hr (by omega)⟩

/-- A write keeps the canonical form. -/
theorem wf_writeByte {m : Memory} (a : Nat) (v : Byte) (h : m.wf = true) : Memory.wf (writeByte m a v) = true :=
  wfFrom_writeByte v h (Nat.zero_le a)

/-- Writing several bytes keeps the canonical form. -/
theorem wf_writeBytes {m : Memory} (a : Nat) (bs : List Byte) (h : m.wf = true) :
    Memory.wf (writeBytes m a bs) = true := by
  induction bs generalizing m a with
  | nil => exact h
  | cons b bs ih => exact ih (a + 1) (wf_writeByte a b h)

/-- Reading any address after a write to a canonical memory. -/
theorem readByte_writeByte_of_wfFrom {lo : Nat} {m : Memory} (h : wfFrom lo m = true) (a : Nat) (v : Byte) (x : Nat) :
    readByte (writeByte m a v) x = if x = a then v else readByte m x := by
  induction m generalizing lo with
  | nil =>
    unfold writeByte
    split
    · next hv => simp [readByte, hv]
    · simp [readByte]
  | cons c rest ih =>
    obtain ⟨b, w⟩ := c
    simp only [wfFrom, Bool.and_eq_true, decide_eq_true_eq] at h
    obtain ⟨_, hr⟩ := h
    unfold writeByte
    split
    · next hab =>
      have hlow : readByte rest a = unlistedByte := readByte_of_lt hr (by omega)
      split
      · next hv =>
        by_cases hx : x = a
        · subst hx; rw [readByte_cons, if_neg (by omega), hlow, if_pos rfl, hv]
        · rw [if_neg hx]
      · rw [readByte_cons]
    · next hab =>
      split
      · next hab' =>
        subst hab'
        have hlow : readByte rest a = unlistedByte := readByte_of_lt hr (by omega)
        split
        · next hv =>
          by_cases hx : x = a
          · subst hx; rw [hlow, if_pos rfl, hv]
          · rw [if_neg hx, readByte_cons, if_neg hx]
        · by_cases hx : x = a
          · simp [readByte_cons, hx]
          · simp [readByte_cons, hx]
      · next hab' =>
        rw [readByte_cons, readByte_cons, ih hr]
        by_cases hx : x = a
        · subst hx; simp [hab']
        · simp [hx]

/-- A byte that was written reads as it was written. -/
theorem readByte_writeByte_same {m : Memory} (h : m.wf = true) (a : Nat) (v : Byte) :
    readByte (writeByte m a v) a = v := by
  rw [readByte_writeByte_of_wfFrom h, if_pos rfl]

/-- A write leaves every other byte as it was. -/
theorem readByte_writeByte_other {m : Memory} (h : m.wf = true) {a x : Nat} (v : Byte) (hx : x ≠ a) :
    readByte (writeByte m a v) x = readByte m x := by
  rw [readByte_writeByte_of_wfFrom h, if_neg hx]

/-- Writing bytes leaves every byte outside their range as it was. -/
theorem readByte_writeBytes_outside {m : Memory} (h : m.wf = true) (a : Nat) (bs : List Byte) {x : Nat}
    (hx : x < a ∨ a + bs.length ≤ x) : readByte (writeBytes m a bs) x = readByte m x := by
  induction bs generalizing m a with
  | nil => rfl
  | cons b bs ih =>
    rw [List.length_cons] at hx
    rw [writeBytes, ih (wf_writeByte a b h) (a + 1) (by omega), readByte_writeByte_other h b (by omega)]

/-- Byte `i` of what was written reads back. -/
theorem readByte_writeBytes_inside {m : Memory} (h : m.wf = true) (a : Nat) (bs : List Byte) {i : Nat}
    (hi : i < bs.length) : readByte (writeBytes m a bs) (a + i) = bs[i] := by
  induction bs generalizing m a i with
  | nil => exact absurd hi (by simp)
  | cons b bs ih =>
    rw [writeBytes]
    cases i with
    | zero =>
      show readByte (writeBytes (writeByte m a b) (a + 1) bs) a = b
      rw [readByte_writeBytes_outside (wf_writeByte a b h) (a + 1) bs (by omega), readByte_writeByte_same h]
    | succ i =>
      have := ih (wf_writeByte a b h) (a + 1) (i := i) (by simpa using hi)
      rw [show a + (i + 1) = a + 1 + i by omega, this]
      rfl

@[simp] theorem readBytes_length (m : Memory) (a n : Nat) : (readBytes m a n).length = n := by
  induction n generalizing a with
  | zero => rfl
  | succ n ih => rw [readBytes, List.length_cons, ih]

/-- Byte `i` of what is read from `a`. -/
theorem readBytes_getElem (m : Memory) (a n i : Nat) (hi : i < (readBytes m a n).length) :
    (readBytes m a n)[i] = readByte m (a + i) := by
  induction n generalizing a i with
  | zero => exact absurd hi (by simp [readBytes])
  | succ n ih =>
    cases i with
    | zero => rfl
    | succ i =>
      have := ih (a + 1) i (by simpa [readBytes] using hi)
      simp only [readBytes, List.getElem_cons_succ]
      rw [this]
      congr 1
      omega

/-- The entries of a written memory are old entries or the written address. -/
theorem mem_writeByte {m : Memory} {a : Nat} {v : Byte} {c : Host.Cell} (h : c ∈ writeByte m a v) : c ∈ m ∨ c.1 = a := by
  induction m with
  | nil =>
    unfold writeByte at h
    split at h
    · exact absurd h (by simp)
    · simp only [List.mem_singleton] at h; exact .inr (by rw [h])
  | cons d rest ih =>
    obtain ⟨b, w⟩ := d
    unfold writeByte at h
    split at h
    · split at h
      · exact .inl h
      · rcases List.mem_cons.1 h with h | h
        · exact .inr (by rw [h])
        · exact .inl h
    · split at h
      · split at h
        · exact .inl (List.mem_cons_of_mem _ h)
        · rcases List.mem_cons.1 h with h | h
          · exact .inr (by rw [h])
          · exact .inl (List.mem_cons_of_mem _ h)
      · rcases List.mem_cons.1 h with h | h
        · exact .inl (by rw [h]; exact List.mem_cons_self)
        · rcases ih h with h | h
          · exact .inl (List.mem_cons_of_mem _ h)
          · exact .inr h

/-- A memory whose addresses are below `n` still is after writing bytes that end at or below `n`. -/
theorem below_writeBytes {m : Memory} {n : Nat} (a : Nat) (bs : List Byte) (hm : ∀ c ∈ m, c.1 < n)
    (ha : bs = [] ∨ a + bs.length ≤ n) : ∀ c ∈ writeBytes m a bs, c.1 < n := by
  induction bs generalizing m a with
  | nil => exact hm
  | cons b bs ih =>
    have hb : a + (bs.length + 1) ≤ n := by simpa using ha
    refine ih (a + 1) (fun c hc => ?_) (.inr (by omega))
    rcases mem_writeByte hc with h | h
    · exact hm c h
    · omega

end Sys2Proof.Machine
end

