-- ==== Sys2Proof/Laws/Keeps.lean ====
section
/-! SUPPORT. The part of the invariant that does not depend on the exchange (parameters, the two memories in canonical form
and within bounds, FIFO and flag words of the front end), and that every Chip-Driver call and every environment step keeps
it. -/

namespace Sys2Proof.Machine

/-- A part of an operation that answers, answers something with `P`; and it does not stop by leaving BUF or the scratch
buffer. -/
def GivesSafely {α : Type} (P : α → Prop) (r : Except Fault α) : Prop :=
  match r with
  | .ok t => P t
  | .error e => e ≠ .bufOutOfRange ∧ e ≠ .scratchOutOfRange

theorem GivesSafely.bind {α β : Type} {P : α → Prop} {Q : β → Prop} {x : Except Fault α} {f : α → Except Fault β}
    (hx : GivesSafely P x) (hf : ∀ a, P a → GivesSafely Q (f a)) : GivesSafely Q (x >>= f) := by
  cases x with
  | ok a => exact hf a hx
  | error e => exact hx

theorem GivesSafely.ok {α : Type} {P : α → Prop} {a : α} (h : P a) : GivesSafely P (.ok a) := h

/-- The part of `Inv` that holds also in the middle of an operation. -/
structure Sound (s : State) : Prop where
  params : s.params.wf
  buf : s.buf.wf = true ∧ ∀ c ∈ s.buf, c.1 < s.params.bufSize
  scratch : s.nfcvScratch.wf = true ∧ ∀ c ∈ s.nfcvScratch, c.1 < s.params.nfcvScratchSize
  feFifo : s.env.fe.fifo.length ≤ s.params.fifoDepth
  feFlags : s.env.fe.irqPending &&& ~~~irqAll = 0 ∧ s.env.fe.irqEnable &&& ~~~irqAll = 0

/-- The front end's FIFO holds at most `d` bytes, and bits 18 to 31 of its flag words are 0. -/
def FeOk (d : Nat) (f : FrontEnd) : Prop :=
  f.fifo.length ≤ d ∧ f.irqPending &&& ~~~irqAll = 0 ∧ f.irqEnable &&& ~~~irqAll = 0

theorem raise_ok {p f e a : Word} (hp : p &&& ~~~a = 0) : (p ||| (f &&& e &&& a)) &&& ~~~a = 0 := by
  ext i hi
  have := congrArg (fun w : Word => w.getLsbD i) hp
  simp at this ⊢
  grind

theorem applyEvent_ok {d e v} (h : FeOk d v.fe) : FeOk d (applyEvent d e v).fe := by
  obtain ⟨h1, h2, h3⟩ := h
  refine ⟨applyEvent_fifo e h1, ?_, by simpa using h3⟩
  cases e with
  | raise f => exact raise_ok h2
  | timerRun t => cases t <;> simp only [applyEvent, moveHwClock] <;> split <;> simpa [setHwClock]
  | timerExpire t => cases t <;> simp only [applyEvent, moveHwClock] <;> split <;> simpa [setHwClock]
  | swExpire t => simpa [applyEvent]
  | setMeasured ch x => cases ch <;> simpa [applyEvent]
  | _ => simpa [applyEvent, receiveBytes]

theorem envTurn_ok {d v} (h : FeOk d v.fe) : FeOk d (envTurn d v).fe := by
  have go : ∀ (es : List EnvEvent) (v : Env), FeOk d v.fe → FeOk d (applyEvents d es v).fe := by
    intro es
    induction es with
    | nil => exact fun _ h => h
    | cons e es ih => exact fun v h => ih _ (applyEvent_ok h)
  unfold envTurn
  split
  · exact h
  · exact go _ _ h

theorem Sound.fe {s} (h : Sound s) : FeOk s.params.fifoDepth s.env.fe := ⟨h.feFifo, h.feFlags.1, h.feFlags.2⟩

/-- `Sound` depends only on the parameters, the two memories and the front end. -/
theorem Sound.of {s t : State} (h : Sound s) (hp : t.params = s.params) (hb : t.buf = s.buf)
    (hn : t.nfcvScratch = s.nfcvScratch) (hf : FeOk s.params.fifoDepth t.env.fe) : Sound t :=
  ⟨hp ▸ h.params, by rw [hp, hb]; exact h.buf, by rw [hp, hn]; exact h.scratch, by rw [hp]; exact hf.1, hf.2.1,
      hf.2.2⟩

theorem Sound.atCall {s} (h : Sound s) : Sound (atCall s) :=
  h.of rfl rfl rfl (envTurn_ok h.fe)

theorem Sound.feCall {s e g} (h : Sound s) (hg : ∀ f, FeOk s.params.fifoDepth f → FeOk s.params.fifoDepth (g f)) :
    Sound (feCall e g s) :=
  h.of (by simp) (by simp) (by simp) (by simpa using hg _ h.atCall.fe)

theorem Sound.feCmd {s} (h : Sound s) (c) : Sound (feCmd c s) := by
  refine h.feCall fun f hf => ?_
  cases c <;> try exact hf
  exact ⟨Nat.zero_le _, hf.2⟩

theorem Sound.feConfig {s} (h : Sound s) (c) : Sound (feConfig c s) := h.feCall fun _ hf => hf
theorem Sound.applyAnalogConfig {s} (h : Sound s) (c) : Sound (applyAnalogConfig c s) := h.feCall fun _ hf => hf

theorem en_ok {e m : Word} (he : e &&& ~~~irqAll = 0) (hm : m &&& ~~~irqAll = 0) : (e ||| m) &&& ~~~irqAll = 0 := by
  ext i hi
  have := congrArg (fun w : Word => w.getLsbD i) he
  have := congrArg (fun w : Word => w.getLsbD i) hm
  simp at *
  grind
theorem dis_ok {e m a : Word} (he : e &&& ~~~a = 0) : (e &&& ~~~m) &&& ~~~a = 0 := by
  ext i hi
  have := congrArg (fun w : Word => w.getLsbD i) he
  simp at *
  grind

theorem Sound.feIrqEnable {s} (h : Sound s) {m} (hm : m &&& ~~~irqAll = 0) : Sound (feIrqEnable m s) :=
  h.feCall fun _ hf => ⟨hf.1, hf.2.1, en_ok hf.2.2 hm⟩
theorem Sound.feIrqDisable {s} (h : Sound s) {m} : Sound (feIrqDisable m s) :=
  h.feCall fun _ hf => ⟨hf.1, hf.2.1, dis_ok hf.2.2⟩
theorem Sound.feGetIrq {s} (h : Sound s) {m} : Sound (feGetIrq m s).2 :=
  h.of (by simp) (by simp) (by simp) (by simp; exact ⟨h.atCall.fe.1, dis_ok h.atCall.fe.2.1,
      by simpa using h.feFlags.2⟩)
theorem Sound.feDiscardIrq {s} (h : Sound s) {m} : Sound (feDiscardIrq m s) := h.feGetIrq
theorem Sound.feTimerStart {s} (h : Sound s) (t v) : Sound (feTimerStart t v s) := by
  refine h.feCall fun f hf => ?_
  cases t <;> exact hf
theorem Sound.feTimerStop {s} (h : Sound s) (t) : Sound (feTimerStop t s) := by
  refine h.feCall fun f hf => ?_
  cases t <;> exact hf
theorem Sound.emit {s} (h : Sound s) (e) : Sound (emit e s) := h.of (by simp) (by simp) (by simp) (by simpa using
    h.fe)
theorem Sound.feTimerCheck {s} (h : Sound s) (t) : Sound (feTimerCheck t s).2 := h.atCall.emit _
theorem Sound.feCollisionPos {s} (h : Sound s) : Sound (feCollisionPos s).2 := h.atCall.emit _
theorem Sound.feDetectedBitRate {s} (h : Sound s) : Sound (feDetectedBitRate s).2 := h.atCall.emit _
theorem Sound.feMeasure {s} (h : Sound s) (c) : Sound (feMeasure c s).2 := h.atCall.emit _
theorem Sound.swExpired {s} (h : Sound s) (t) : Sound (swExpired t s).2 := h.atCall
theorem Sound.swDisarm {s} (h : Sound s) (t) : Sound (swDisarm t s) := h.of (by simp) (by simp) (by simp) (by simpa
    using h.fe)
theorem Sound.swArm {s} (h : Sound s) (t d) : Sound (swArm t d s) := h.of (by simp) (by simp) (by simp) (by simpa
    using h.fe)
theorem Sound.cacheInvalidate {s} (h : Sound s) : Sound (cacheInvalidate s) := h.of rfl rfl rfl h.fe
theorem Sound.fifoStatus {s} (h : Sound s) : Sound (fifoStatus s) := by
  unfold Machine.fifoStatus; split
  · exact h
  · exact (h.atCall.emit _).of rfl rfl rfl (h.atCall.emit _).fe
theorem Sound.cleanup {s} (h : Sound s) : Sound (cleanup s) :=
  ((((h.feConfig _).feIrqDisable).swDisarm _).swDisarm _).emit _
theorem Sound.endExchange {s} (h : Sound s) (st) : Sound (endExchange st s) := h.cleanup.of rfl rfl rfl h.cleanup.fe

end Sys2Proof.Machine
end

