-- ==== Sys2Proof/Laws/PerInstr.lean ====
section
/-! SUPPORT. Per instruction: the words the encoder writes for it are legal (R72, R82), every reserved field being 0 and
every enumeration operand having a legal code. -/

namespace Sys2Proof.Laws

open Sys2Proof

/-- A value in the low bits of a word under zeros has nothing in the bits above it. -/
theorem reserved_high_zero {m n : Nat} (v : BitVec n) : (0#m ++ v) &&& (BitVec.allOnes m ++ 0#n) = 0#(m + n) := by
  ext i hi
  simp only [BitVec.getElem_and, BitVec.getElem_append]
  split <;> simp

/-- A 16-bit operand leaves the upper half of its word 0. -/
theorem reservedZero_len (v : Len) : reservedZero (0#16 ++ v) 0xFFFF0000#32 = true := by
  simpa [reservedZero] using reserved_high_zero (m := 16) v

/-- The reserved bits of a channel word are 0. -/
theorem reservedZero_channelWord (c : Channel) : reservedZero (channelWord c) 0xFF0000F8#32 = true := by
  have h : channelWord c &&& 0xFF0000F8#32 = 0 := by
    ext i hi
    simp only [channelWord, BitVec.getElem_and, BitVec.getElem_append]
    interval_cases i <;> simp
  simp [reservedZero, h]

/-- The words of an operation are legal. -/
def EncodesWellFormed.Statement (i : Instr) : Prop := (encode i).wellFormed = true

theorem EncodesWellFormed.initialise :
    EncodesWellFormed.Statement .initialise := by
  rfl

theorem EncodesWellFormed.setMode (m : Mode) (t r : BitRate) :
    EncodesWellFormed.Statement (.setMode m t r) := by
  cases m <;> cases t <;> cases r <;> rfl

theorem EncodesWellFormed.setBitrate (t r : BitRate) :
    EncodesWellFormed.Statement (.setBitrate t r) := by
  cases t <;> cases r <;> rfl

theorem EncodesWellFormed.setFdtPoll (v : Time) :
    EncodesWellFormed.Statement (.setFdtPoll v) := by
  simp [EncodesWellFormed.Statement, OpWords.wellFormed, encode, encodeArgs, opcode, operandsLegal, byteAt, legalOpcode,
    reservedZero]

theorem EncodesWellFormed.setFdtListen (v : Time) :
    EncodesWellFormed.Statement (.setFdtListen v) := by
  simp [EncodesWellFormed.Statement, OpWords.wellFormed, encode, encodeArgs, opcode, operandsLegal, byteAt, legalOpcode,
    reservedZero]

theorem EncodesWellFormed.setGt (v : Time) :
    EncodesWellFormed.Statement (.setGt v) := by
  simp [EncodesWellFormed.Statement, OpWords.wellFormed, encode, encodeArgs, opcode, operandsLegal, byteAt, legalOpcode,
    reservedZero]

theorem EncodesWellFormed.setErrorHandling (p : Policy) :
    EncodesWellFormed.Statement (.setErrorHandling p) := by
  cases p <;> rfl

theorem EncodesWellFormed.fieldOnAndStartGt :
    EncodesWellFormed.Statement .fieldOnAndStartGt := by
  rfl

theorem EncodesWellFormed.fieldOff :
    EncodesWellFormed.Statement .fieldOff := by
  rfl

theorem EncodesWellFormed.startTransceive (tx : Word) (txLen : Len) (rx : Word) (rxLen : Len) (flags : BitVec 5) (fwt : Time) :
    EncodesWellFormed.Statement (.startTransceive tx txLen rx rxLen flags fwt) := by
  have h : reservedZero (0#27 ++ flags) 0xFFFFFFE0#32 = true := by
    simpa [reservedZero] using reserved_high_zero (m := 27) flags
  simp [EncodesWellFormed.Statement, OpWords.wellFormed, encode, encodeArgs, opcode, operandsLegal, byteAt, legalOpcode, reservedZero_len, h]
  decide

theorem EncodesWellFormed.worker :
    EncodesWellFormed.Statement .worker := by
  rfl

theorem EncodesWellFormed.getStatus :
    EncodesWellFormed.Statement .getStatus := by
  rfl

theorem EncodesWellFormed.shortFrameTransceive (c : BitVec 7) (rx : Word) (rxLen : Len) (fwt : Time) :
    EncodesWellFormed.Statement (.shortFrameTransceive c rx rxLen fwt) := by
  have h : reservedZero (0#25 ++ c) 0xFFFFFF80#32 = true := by
    simpa [reservedZero] using reserved_high_zero (m := 25) c
  simp [EncodesWellFormed.Statement, OpWords.wellFormed, encode, encodeArgs, opcode, operandsLegal, byteAt, legalOpcode, reservedZero_len, h]
  decide

theorem EncodesWellFormed.anticollisionTransceive (b : Word) (n : Byte) (k : BitVec 3) (fwt : Time) :
    EncodesWellFormed.Statement (.anticollisionTransceive b n k fwt) := by
  have h : reservedZero (0#21 ++ k ++ n) 0xFFFFF800#32 = true := by
    rw [reservedZero, BitVec.append_assoc]
    simpa using reserved_high_zero (m := 21) (k ++ n)
  simp [EncodesWellFormed.Statement, OpWords.wellFormed, encode, encodeArgs, opcode, operandsLegal, byteAt, legalOpcode, h]
  decide

theorem EncodesWellFormed.listenStart (m : BitVec 4) (rx : Word) (rxLen : Len) :
    EncodesWellFormed.Statement (.listenStart m rx rxLen) := by
  have h : reservedZero (0#28 ++ m) 0xFFFFFFF0#32 = true := by
    simpa [reservedZero] using reserved_high_zero (m := 28) m
  simp [EncodesWellFormed.Statement, OpWords.wellFormed, encode, encodeArgs, opcode, operandsLegal, byteAt, legalOpcode, reservedZero_len, h]
  decide

theorem EncodesWellFormed.listenStop :
    EncodesWellFormed.Statement .listenStop := by
  rfl

theorem EncodesWellFormed.wakeupStart (a p c : Channel) :
    EncodesWellFormed.Statement (.wakeupStart a p c) := by
  simp [EncodesWellFormed.Statement, OpWords.wellFormed, encode, encodeArgs, opcode, operandsLegal, byteAt, legalOpcode, reservedZero_channelWord]
  decide

theorem EncodesWellFormed.wakeupStop :
    EncodesWellFormed.Statement .wakeupStop := by
  rfl

end Sys2Proof.Laws
end

