-- ==== Sys2Proof/Laws/TxKeeps.lean ====
section
/-! SUPPORT. The part of the invariant that an exchange can change, and that the steps of the TX sub-machine
(`42_tx_submachine.md`) keep it without leaving their source. -/

namespace Sys2Proof.Machine

/-- What `Inv` says of an exchange, here also for the two synchronous primitives, whose source may be the internal byte of
R122. -/
structure ExchangeInv (s : State) : Prop where
  base : Sound s
  rests : resting s.txrxState = true
  txCounters : txPhase s.txrxState = true → s.fifo.bytesWritten.toNat ≤ s.fifo.bytesTotal.toNat
  rxCounters : rxPhase s.txrxState = true → s.txrxState ≠ .rxIdle →
    s.fifo.bytesWritten.toNat ≤ s.fifo.bytesTotal.toNat ∧ s.fifo.bytesWritten.toNat ≤ rxCap s
  top : s.txrxState ≠ .idle → s.topState = .txRx
  busy : s.status = .busy ↔ s.txrxState ≠ .idle
  ctx : s.txrxState ≠ .idle → ctxInBounds s ∧ (rxPhase s.txrxState = true → s.ctx.rxBuf ≠ nullAddr)
  txSource : txPhase s.txrxState = true → (s.ctx.txBuf ≠ nullAddr ∨ (s.ctx.sfByte.isSome = true ∧ s.mode ≠
      .pollNfcV)) ∧ s.ctx.txBufLen ≠ 0 ∧
    s.fifo.bytesTotal.toNat ≤ txSourceLen s
  drained : s.txrxState = .rxWaitEon ∨ s.txrxState = .rxWaitRxs ∨ s.txrxState = .rxWaitRxe →
    s.fifo.bytesWritten = s.fifo.bytesTotal
  guard : (s.txrxState = .rxWaitRxe → s.sw.rxeGuard = true) ∧
    (s.txrxState = .idle → s.sw.rxeGuard = false ∧ s.sw.apFwt = false)

/-- What the steps of an exchange leave alone. -/
structure SameExchange (s t : State) : Prop where
  params : t.params = s.params
  mode : t.mode = s.mode
  ctx : t.ctx = s.ctx
  lm : t.lm = s.lm
  lmState : t.lmState = s.lmState
  top : t.topState = s.topState

theorem SameExchange.refl (s : State) : SameExchange s s := ⟨rfl, rfl, rfl, rfl, rfl, rfl⟩
theorem SameExchange.trans {s t u : State} (h : SameExchange s t) (g : SameExchange t u) : SameExchange s u :=
  ⟨g.1.trans h.1, g.2.trans h.2, g.3.trans h.3, g.4.trans h.4, g.5.trans h.5, g.6.trans h.6⟩

/-- `t` follows `s` in an exchange that keeps its part of the invariant. -/
def Continues (s : State) (t : State) : Prop := ExchangeInv t ∧ SameExchange s t

theorem end_keeps {s : State} {st : Status} (h : Sound s) (hst : st ≠ .busy) : ExchangeInv (endExchange st s) where
  base := h.endExchange st
  rests := rfl
  txCounters := by intro h; exact absurd (show txPhase .idle = true from h) (by decide)
  rxCounters := by intro h; exact absurd (show rxPhase .idle = true from h) (by decide)
  top := by intro h; exact absurd rfl h
  busy := by simp [hst]
  ctx := by intro h; exact absurd rfl h
  txSource := by intro h; exact absurd (show txPhase .idle = true from h) (by decide)
  drained := by
    rintro (h | h | h) <;> exact absurd (show TxrxState.idle = _ from h) (by decide)
  guard := by simp

theorem end_same (s : State) (st : Status) : SameExchange s (endExchange st s) := ⟨by simp, by simp, by simp,
    by simp, by simp, by simp⟩

theorem wait_keeps {s : State} (st : TxrxState) (b : Sound s) (hr : resting st = true) (ht : s.topState = .txRx) (hb
    : s.status = .busy)
   (hc : ctxInBounds s) (hx : rxPhase st = true → s.ctx.rxBuf ≠ nullAddr) (hst : st ≠ .idle)
   (htx : txPhase st = true → s.fifo.bytesWritten.toNat ≤ s.fifo.bytesTotal.toNat ∧ (s.ctx.txBuf ≠ nullAddr ∨
       (s.ctx.sfByte.isSome = true ∧ s.mode ≠ .pollNfcV)) ∧ s.ctx.txBufLen ≠ 0 ∧
    s.fifo.bytesTotal.toNat ≤ txSourceLen s)
   (hrx : rxPhase st = true → st ≠ .rxIdle → s.fifo.bytesWritten.toNat ≤ s.fifo.bytesTotal.toNat ∧
       s.fifo.bytesWritten.toNat ≤ rxCap s)
   (hd : st = .rxWaitEon ∨ st = .rxWaitRxs ∨ st = .rxWaitRxe → s.fifo.bytesWritten = s.fifo.bytesTotal)
   (hg : st = .rxWaitRxe → s.sw.rxeGuard = true) : ExchangeInv { s with txrxState := st } where
  base := b.of rfl rfl rfl b.fe
  rests := hr
  txCounters h := (htx h).1
  rxCounters := hrx
  top _ := ht
  busy := by simp [hb, hst]
  ctx _ := ⟨hc, hx⟩
  txSource h := (htx h).2
  drained := hd
  guard := ⟨hg, fun h => absurd h hst⟩

/-- What holds in the middle of a step of the tx-phase. -/
structure Sending (s : State) : Prop where
  base : Sound s
  top : s.topState = .txRx
  busy : s.status = .busy
  ctx : ctxInBounds s
  src : s.ctx.txBuf ≠ nullAddr ∨ (s.ctx.sfByte.isSome = true ∧ s.mode ≠ .pollNfcV)
  len : s.ctx.txBufLen ≠ 0
  cnt : s.fifo.bytesWritten.toNat ≤ s.fifo.bytesTotal.toNat
  tot : s.fifo.bytesTotal.toNat ≤ txSourceLen s

theorem Sending.of {s t : State} (h : Sending s) (hb : Sound t) (hs : SameExchange s t) (h1 : t.status = s.status)
    (h2 : t.fifo = s.fifo) : Sending t := by
  obtain ⟨p, m, c, -, -, tp⟩ := hs
  refine ⟨hb, tp ▸ h.top, h1 ▸ h.busy, ?_, ?_, ?_, ?_, ?_⟩
  · unfold ctxInBounds; rw [c, p]; exact h.ctx
  · rw [c, m]; exact h.src
  · rw [c]; exact h.len
  · rw [h2]; exact h.cnt
  · rw [h2]; unfold txSourceLen; rw [m, p, c]; exact h.tot

theorem Sending.good {s : State} (h : Sending s) (st : TxrxState) (hr : resting st = true) (hp : txPhase st = true)
    : ExchangeInv { s with txrxState := st } := by
  have : st ≠ .idle := by rintro rfl; exact absurd hp (by decide)
  have hx : rxPhase st = true → False := by revert hp; cases st <;> decide
  refine wait_keeps st h.base hr h.top h.busy h.ctx (fun h => (hx h).elim) this
    (fun _ => ⟨h.cnt, h.src, h.len, h.tot⟩) (fun h => (hx h).elim) ?_ ?_
  · rintro (rfl | rfl | rfl) <;> exact (hx (by decide)).elim
  · rintro rfl; exact (hx (by decide)).elim

theorem SameExchange.status (s : State) (x : Status) (t : TxrxState) :
    SameExchange s { s with status := x, txrxState := t } := ⟨rfl, rfl, rfl, rfl, rfl, rfl⟩
theorem SameExchange.txrx (s : State) (t : TxrxState) : SameExchange s { s with txrxState := t } :=
  ⟨rfl, rfl, rfl, rfl, rfl, rfl⟩

theorem txFailWith_keeps {s : State} (e : Status) (h : Sound s) (he : e ≠ .busy) : GivesSafely (Continues s)
    (txFailWith e s) := by
  refine ⟨end_keeps (h.of rfl rfl rfl h.fe) he, ?_⟩
  exact (SameExchange.status s e .txFail).trans (end_same _ _)

theorem Sending.st {s : State} (h : Sending s) (st) : Sending { s with txrxState := st } :=
  h.of (h.base.of rfl rfl rfl h.base.fe) (SameExchange.txrx _ _) rfl rfl

theorem txDone_keeps {s : State} (h : Sending s) : GivesSafely (Continues s) (txDone s) := by
  unfold txDone
  split
  · exact ⟨end_keeps h.base (by decide), end_same _ _⟩
  · next hn =>
    exact ⟨wait_keeps _ h.base rfl h.top h.busy h.ctx (fun _ => hn) (by decide) (by intro h; exact absurd h (by
        decide)) (by intro _ h; exact absurd rfl h)
      (by rintro (h | h | h) <;> exact absurd h (by decide)) (by intro h; exact absurd h (by decide)),
          SameExchange.txrx _ _⟩

theorem GivesSafely.mono {α} {P Q : α → Prop} {r : Except Fault α} (h : GivesSafely P r) (hpq : ∀ a,
    P a → Q a) : GivesSafely Q r := by
  cases r with
  | ok a => exact hpq a h
  | error e => exact h

theorem Continues.trans {s t u} (h : SameExchange s t) (g : Continues t u) : Continues s u := ⟨g.1, h.trans g.2⟩

theorem same_feGetIrq (m s) : SameExchange s (feGetIrq m s).2 := ⟨by simp, by simp, by simp, by simp, by simp,
    by simp⟩

theorem txWaitTxe_keeps {s : State} (h : Sending s) (hst : s.txrxState = .txWaitTxe) : GivesSafely (Continues s)
    (txWaitTxe s) := by
  unfold txWaitTxe
  dsimp only
  have h1 : Sending (feGetIrq (irqWL ||| irqTXE) s).2 := h.of h.base.feGetIrq (same_feGetIrq _ _) (by simp) (by simp)
  split
  · refine (txDone_keeps (h1.of (h1.base.of rfl rfl rfl h1.base.fe) (SameExchange.txrx _ _) rfl rfl)).mono fun t ht
        => Continues.trans ((same_feGetIrq _ s).trans (SameExchange.txrx _ _)) ht
  · refine ⟨?_, same_feGetIrq _ _⟩
    have := h1.good .txWaitTxe rfl rfl
    have e : ({ (feGetIrq (irqWL ||| irqTXE) s).2 with txrxState := .txWaitTxe } : State) = (feGetIrq (irqWL |||
        irqTXE) s).2 := by
      have : (feGetIrq (irqWL ||| irqTXE) s).2.txrxState = .txWaitTxe := by simp [hst]
      rw [← this]
    rwa [e] at this

theorem ceil8_le {a : Word} {n : Nat} {p : Params} (h : inBounds p a n = true) : a.toNat ≠ 0 ∧ a.toNat + ceil8 n ≤
    p.bufSize := by
  simp [inBounds, nullAddr] at h
  refine ⟨fun h0 => h.1 (by simpa using BitVec.eq_of_toNat_eq (x := a) (y := 0#32) (by simpa using h0)), h.2⟩

theorem txSource_keeps {s : State} (h : Sending s) {i k : Nat} (hk : i + k ≤ s.fifo.bytesTotal.toNat) :
    GivesSafely (fun b => b.length = k ∨ s.ctx.sfByte.isSome = true) (txSource i k s) := by
  unfold txSource
  have ht := h.tot
  unfold txSourceLen at ht
  split
  · next hm =>
    rw [if_pos hm] at ht
    unfold scratchRead
    rw [if_pos (by omega)]
    exact .inl (by simp)
  · next hm =>
    rw [if_neg hm] at ht
    split
    · next hb => exact .inr (by simp [hb])
    · next hb =>
      have hsrc : s.ctx.txBuf ≠ nullAddr := h.src.resolve_right (by simp [hb])
      have hin := ceil8_le (h.ctx.1.resolve_left hsrc)
      unfold bufRead
      rw [if_pos (by simp [bufAccessOk]; omega)]
      exact .inl (by simp)

theorem toLen_safe (n : Nat) : GivesSafely (fun l => l.toNat = n) (toLen n) := by
  unfold toLen
  split
  · next h => exact (by rw [BitVec.toNat_ofNat]; exact Nat.mod_eq_of_lt h : (BitVec.ofNat 16 n).toNat = n)
  · exact ⟨by decide, by decide⟩

theorem feFifoWrite_safe {s : State} (h : Sound s) (b : List Byte) :
    GivesSafely (fun t => ∃ v, t = { s with env := v } ∧ Sound t) (feFifoWrite b s) := by
  unfold feFifoWrite
  split
  · exact ⟨s.env, rfl, h⟩
  · dsimp only
    split
    · next hl =>
      refine ⟨(emit (.feFifoWrite b) (withFe (fun f => { f with fifo := f.fifo ++ b }) (atCall s))).env, rfl, ?_⟩
      refine h.atCall.of rfl rfl rfl ⟨?_, h.atCall.fe.2⟩
      simp at hl ⊢; exact hl
    · exact ⟨by decide, by decide⟩

theorem same_env (s : State) (v : Env) : SameExchange s { s with env := v } := ⟨rfl, rfl, rfl, rfl, rfl, rfl⟩

theorem txHandOver_keeps {s : State} (h : Sending s) {k : Nat} (hk : s.fifo.bytesWritten.toNat + k ≤
    s.fifo.bytesTotal.toNat) :
    GivesSafely (fun t => Sending t ∧ SameExchange s t ∧ t.txrxState = s.txrxState) (txHandOver k s) := by
  unfold txHandOver
  refine (txSource_keeps h hk).bind fun b _ => ?_
  refine (feFifoWrite_safe h.base b).bind fun t ht => ?_
  obtain ⟨v, rfl, hb⟩ := ht
  refine (toLen_safe _).bind fun w hw => ?_
  dsimp only at hw
  refine ⟨⟨hb.of rfl rfl rfl hb.fe, h.top, h.busy, h.ctx, h.src, h.len, ?_, h.tot⟩, ⟨rfl, rfl, rfl, rfl, rfl, rfl⟩,
      rfl⟩
  show w.toNat ≤ _
  rw [hw]; exact hk

theorem txAfter_keeps {s : State} (h : Sending s) : Continues s (txAfterHandOver s) := by
  unfold txAfterHandOver
  refine ⟨?_, ⟨rfl, rfl, rfl, rfl, rfl, rfl⟩⟩
  split
  · exact h.good _ rfl rfl
  · exact h.good _ rfl rfl

theorem txReloadFifo_keeps {s : State} (h : Sending s) : GivesSafely (Continues s) (txReloadFifo s) := by
  unfold txReloadFifo
  have := h.cnt
  refine (txHandOver_keeps h (by omega)).bind fun t ht => ?_
  exact Continues.trans ht.2.1 (txAfter_keeps ht.1)

theorem good_self {s : State} {st : TxrxState} (h : ExchangeInv { s with txrxState := st }) (e : s.txrxState = st) :
    ExchangeInv s := by
  subst e; exact h

theorem txWaitWl_keeps {s : State} (h : Sending s) (hst : s.txrxState = .txWaitWl) : GivesSafely (Continues s)
    (txWaitWl s) := by
  unfold txWaitWl
  dsimp only
  have h1 : Sending (feGetIrq (irqWL ||| irqTXE) s).2 := h.of h.base.feGetIrq (same_feGetIrq _ _) (by simp) (by simp)
  split
  · exact ⟨good_self (h1.good .txWaitWl rfl rfl) (by simp [hst]), same_feGetIrq _ _⟩
  · split
    · exact (txReloadFifo_keeps (h1.st _)).mono
        fun _ ht => Continues.trans ((same_feGetIrq _ s).trans (SameExchange.txrx _ _)) ht
    · exact (txFailWith_keeps .io h1.base (by decide)).mono fun _ ht => Continues.trans (same_feGetIrq _ s) ht

theorem txFire_keeps {s : State} (h : Sending s) {total n : Nat} {c : Bool} (ht : total ≤ txSourceLen s) :
    GivesSafely (Continues s) (txFire total n c s) := by
  unfold txFire
  refine (toLen_safe _).bind fun l hl => ?_
  dsimp only
  have b0 : Sound { s with fifo := ⟨l, 0, s.params.fifoTxRefill⟩ } := h.base.of rfl rfl rfl h.base.fe
  have h1 : Sending (feConfig (.txLengthBits n) { s with fifo := ⟨l, 0, s.params.fifoTxRefill⟩ }) :=
    ⟨b0.feConfig _, by simpa using h.top, by simpa using h.busy, by simpa [ctxInBounds] using h.ctx,
        by simpa using h.src, by simpa using h.len,
      by simp, by simpa [txSourceLen, hl] using ht⟩
  have s1 : SameExchange s (feConfig (.txLengthBits n) { s with fifo := ⟨l, 0, s.params.fifoTxRefill⟩ }) := ⟨by
      simp, by simp, by simp, by simp, by simp, by simp⟩
  refine (txHandOver_keeps h1 (by simp)).bind fun t ht => ?_
  obtain ⟨hm, hs, -⟩ := ht
  have h2 : ∀ c, Sending (feCmd c t) := fun c => hm.of (hm.base.feCmd c) ⟨by simp, by simp, by simp, by simp,
      by simp, by simp⟩ (by simp) (by simp)
  have s2 : ∀ c, SameExchange t (feCmd c t) := fun c => ⟨by simp, by simp, by simp, by simp, by simp, by simp⟩
  exact Continues.trans ((s1.trans hs).trans (s2 _)) (txAfter_keeps (h2 _))

theorem scratchWrite_safe {s : State} (h : Sound s) {i : Nat} {b : List Byte} (hl : i + b.length ≤
    s.params.nfcvScratchSize) :
    GivesSafely (fun t => t = { s with nfcvScratch := writeBytes s.nfcvScratch i b } ∧ Sound t) (scratchWrite i b s)
        := by
  unfold scratchWrite
  rw [if_pos hl]
  exact ⟨rfl, ⟨h.params, h.buf, ⟨wf_writeBytes i b h.scratch.1, below_writeBytes i b h.scratch.2 (.inr hl)⟩,
      h.feFifo, h.feFlags⟩⟩

theorem bufWrite_safe {s : State} (h : Sound s) {a : Nat} {b : List Byte} (hl : 1 ≤ a ∧ a + b.length ≤
    s.params.bufSize) :
    GivesSafely (fun t => t = { s with buf := writeBytes s.buf a b } ∧ Sound t) (bufWrite a b s) := by
  unfold bufWrite
  rw [if_pos (by simp [bufAccessOk]; omega)]
  exact ⟨rfl, ⟨h.params, ⟨wf_writeBytes a b h.buf.1, below_writeBytes a b h.buf.2 (.inr hl.2)⟩, h.scratch,
      h.feFifo, h.feFlags⟩⟩

theorem Sending.scr {s : State} (h : Sending s) {m} (hb : Sound { s with nfcvScratch := m }) : Sending { s with
    nfcvScratch := m } :=
  ⟨hb, h.top, h.busy, h.ctx, h.src, h.len, h.cnt, h.tot⟩

theorem SameExchange.scr (s : State) (m : Memory) : SameExchange s { s with nfcvScratch := m } := ⟨rfl, rfl, rfl,
    rfl, rfl, rfl⟩

theorem txTransmit_keeps {s : State} (h : Sending s) : GivesSafely (Continues s) (txTransmit s) := by
  unfold txTransmit
  dsimp only
  have h1 : Sending (feCmd .clearFifo (emit .preTxRx s)) :=
    h.of ((h.base.emit _).feCmd _) ⟨by simp, by simp, by simp, by simp, by simp, by simp⟩ (by simp) (by simp)
  have s1 : SameExchange s (feCmd .clearFifo (emit .preTxRx s)) := ⟨by simp, by simp, by simp, by simp, by simp,
      by simp⟩
  generalize feCmd .clearFifo (emit .preTxRx s) = u at *
  split
  · next hm =>
    unfold txTransmitNfcv txPayload
    have hsrc : u.ctx.txBuf ≠ nullAddr := h1.src.resolve_right (by simp [hm])
    have hin := ceil8_le (h1.ctx.1.resolve_left hsrc)
    unfold bufRead
    rw [if_pos (by simp [bufAccessOk]; omega)]
    refine GivesSafely.bind (P := fun _ => True) trivial fun b _ => ?_
    dsimp only
    split
    · exact (txFailWith_keeps .noMem h1.base (by decide)).mono fun _ ht => Continues.trans s1 ht
    · next hl =>
      refine (scratchWrite_safe h1.base (by simpa using hl)).bind fun t ht => ?_
      obtain ⟨rfl, hb⟩ := ht
      refine (txFire_keeps (h1.scr hb) (by simp [txSourceLen, hm]; omega)).mono fun _ ht => Continues.trans
          (s1.trans (SameExchange.scr u _)) ht
  · next hm =>
    exact (txFire_keeps h1 (by simp [txSourceLen, hm])).mono fun _ ht => Continues.trans s1 ht

theorem txWaitFdt_keeps {s : State} (h : Sending s) (hst : s.txrxState = .txWaitFdt) : GivesSafely (Continues s)
    (txWaitFdt s) := by
  unfold txWaitFdt
  dsimp only
  have h1 : Sending (feTimerCheck .gpt s).2 := h.of (h.base.feTimerCheck _) ⟨by simp, by simp, by simp, by simp,
      by simp, by simp⟩ (by simp) (by simp)
  have s1 : SameExchange s (feTimerCheck .gpt s).2 := ⟨by simp, by simp, by simp, by simp, by simp, by simp⟩
  split
  · exact (txTransmit_keeps (h.st _)).mono fun _ ht => Continues.trans (SameExchange.txrx _ _) ht
  · split
    · exact ⟨good_self (h1.good .txWaitFdt rfl rfl) (by simp [hst]), s1⟩
    · exact (txTransmit_keeps (h1.st _)).mono fun _ ht => Continues.trans (s1.trans (SameExchange.txrx _ _)) ht

theorem txWaitGt_keeps {s : State} (h : Sending s) (hst : s.txrxState = .txWaitGt) : GivesSafely (Continues s)
    (txWaitGt s) := by
  unfold txWaitGt
  dsimp only
  have h1 : Sending (swExpired .gt s).2 := h.of (h.base.swExpired _) ⟨by simp, by simp, by simp, by simp, by simp,
      by simp⟩ (by simp) (by simp)
  have s1 : SameExchange s (swExpired .gt s).2 := ⟨by simp, by simp, by simp, by simp, by simp, by simp⟩
  have hd : ∀ {u : State}, Sending u → Sending (swDisarm .gt u) := fun hu => hu.of (hu.base.swDisarm _) ⟨by simp,
      by simp, by simp, by simp, by simp, by simp⟩ (by simp) (by simp)
  have sd : ∀ (u : State), SameExchange u (swDisarm .gt u) := fun u => ⟨by simp, by simp, by simp, by simp,
      by simp, by simp⟩
  split
  · split
    · exact (txWaitFdt_keeps ((hd h1).st _) rfl).mono fun _ ht => Continues.trans (s1.trans ((sd _).trans
          (SameExchange.txrx _ _))) ht
    · exact ⟨good_self (h1.good .txWaitGt rfl rfl) (by simp [hst]), s1⟩
  · exact (txWaitFdt_keeps ((hd h).st _) rfl).mono fun _ ht => Continues.trans ((sd _).trans (SameExchange.txrx _
        _)) ht

theorem txIdle_keeps {s : State} (h : Sending s) : GivesSafely (Continues s) (txIdle s) :=
  (txWaitGt_keeps (h.st _) rfl).mono fun _ ht => Continues.trans (SameExchange.txrx _ _) ht

end Sys2Proof.Machine
end

