-- ==== Sys2Proof/Laws/RxKeeps.lean ====
section
/-! SUPPORT. The steps of the RX sub-machine (`43_rx_submachine.md`), the WORKER step of an exchange and the spins of the
synchronous primitives keep the exchange's part of the invariant without leaving their destination. -/

namespace Sys2Proof.Machine

/-- What holds in the middle of a step of the rx-phase. -/
structure Receiving (s : State) : Prop where
  base : Sound s
  top : s.topState = .txRx
  ctx : ctxInBounds s
  dst : s.ctx.rxBuf ≠ nullAddr
  cnt : s.fifo.bytesWritten.toNat ≤ s.fifo.bytesTotal.toNat
  cap : s.fifo.bytesWritten.toNat ≤ rxCap s

theorem Receiving.of {s t : State} (h : Receiving s) (hb : Sound t) (hs : SameExchange s t) (h2 : t.fifo = s.fifo) :
    Receiving t := by
  obtain ⟨p, m, c, -, -, tp⟩ := hs
  refine ⟨hb, tp ▸ h.top, ?_, ?_, ?_, ?_⟩
  · unfold ctxInBounds; rw [c, p]; exact h.ctx
  · rw [c]; exact h.dst
  · rw [h2]; exact h.cnt
  · rw [h2]; unfold rxCap; rw [m, p, c]; exact h.cap

theorem rxCap_same {s t : State} (h : SameExchange s t) : rxCap t = rxCap s := by
  unfold rxCap; rw [h.mode, h.params, h.ctx]

theorem Receiving.st {s : State} (h : Receiving s) (st) : Receiving { s with txrxState := st } :=
  h.of (h.base.of rfl rfl rfl h.base.fe) (SameExchange.txrx _ _) rfl

theorem Receiving.good {s : State} (h : Receiving s) (hb : s.status = .busy) (st : TxrxState) (hr : resting st =
    true) (hp : rxPhase st = true)
    (hd : st = .rxWaitEon ∨ st = .rxWaitRxs ∨ st = .rxWaitRxe → s.fifo.bytesWritten = s.fifo.bytesTotal)
    (hg : st = .rxWaitRxe → s.sw.rxeGuard = true) : ExchangeInv { s with txrxState := st } := by
  have : st ≠ .idle := by rintro rfl; exact absurd hp (by decide)
  have hx : txPhase st = true → False := by revert hp; cases st <;> decide
  exact wait_keeps st h.base hr h.top hb h.ctx (fun _ => h.dst) this (fun h => (hx h).elim) (fun _ _ => ⟨h.cnt,
      h.cap⟩) hd hg

theorem rxFailWith_keeps {s : State} (e : Status) (h : Sound s) (he : e ≠ .busy) : GivesSafely (Continues s)
    (rxFailWith e s) := by
  unfold rxFailWith
  refine (toLen_safe _).bind fun l _ => ?_
  refine ⟨end_keeps (h.of rfl rfl rfl h.fe) he, ?_⟩
  exact SameExchange.trans (t := { s with status := e, rxRcvdLen := l, txrxState := .rxFail }) ⟨rfl, rfl, rfl, rfl,
      rfl, rfl⟩ (end_same _ _)

theorem rxDone_keeps {s : State} (h : Sound s) : GivesSafely (Continues s) (rxDone s) := ⟨end_keeps h (by decide),
    end_same _ _⟩

theorem rxWaitEof_keeps {s : State} (h : Receiving s) (hb : s.status = .busy) (hst : s.txrxState = .rxWaitEof) :
    GivesSafely (Continues s) (rxWaitEof s) := by
  unfold rxWaitEof
  dsimp only
  have h1 : Receiving (feGetIrq irqEOF s).2 := h.of h.base.feGetIrq (same_feGetIrq _ _) (by simp)
  split
  · exact (rxDone_keeps (h.st _).base).mono fun _ ht => Continues.trans (SameExchange.txrx _ _) ht
  · split
    · exact (rxDone_keeps (h1.st _).base).mono fun _ ht => Continues.trans ((same_feGetIrq _ _).trans
          (SameExchange.txrx _ _)) ht
    · exact ⟨good_self (h1.good (by simp [hb]) .rxWaitEof rfl rfl (by simp) (by simp)) (by simp [hst]),
          same_feGetIrq _ _⟩

@[simp] theorem mergeFirst_length (o : Byte) (l : List Byte) : (mergeFirst o l).length = l.length := by
  cases l <;> rfl

theorem rxDeliver_keeps {s : State} (h : Receiving s) {i : Nat} {b : List Byte} (hl : i + b.length ≤ rxCap s) :
    GivesSafely (fun t => Sound t ∧ ∃ m n, t = { s with buf := m, nfcvScratch := n }) (rxDeliver i b s) := by
  unfold rxDeliver
  unfold rxCap at hl
  split
  · next hm =>
    rw [if_pos hm] at hl
    exact (scratchWrite_safe h.base hl).mono fun t ht => ⟨ht.2, _, _, ht.1⟩
  · next hm =>
    rw [if_neg hm] at hl
    have := ceil8_le (h.ctx.2.resolve_left h.dst)
    unfold rxBufWrite
    dsimp only
    split
    · exact (bufWrite_safe h.base (by simp; omega)).mono fun t ht => ⟨ht.2, _, _, ht.1⟩
    · exact (bufWrite_safe h.base (by omega)).mono fun t ht => ⟨ht.2, _, _, ht.1⟩

theorem feFifoRead_safe {s : State} (h : Sound s) (n : Nat) :
    GivesSafely (fun r => r.1.length = n ∧ ∃ v, r.2 = { s with env := v } ∧ Sound r.2) (feFifoRead n s) := by
  unfold feFifoRead
  split
  · next h0 => subst h0; exact ⟨rfl, s.env, rfl, h⟩
  · dsimp only
    split
    · next hl =>
      refine ⟨by simpa using hl, (emit (.feFifoRead ((atCall s).env.fe.fifo.take n))
        (withFe (fun f => { f with fifo := f.fifo.drop n }) (atCall s))).env, rfl, ?_⟩
      refine h.atCall.of rfl rfl rfl ⟨?_, h.atCall.fe.2⟩
      have := h.atCall.feFifo
      simp at this ⊢; omega
    · exact ⟨by decide, by decide⟩

theorem rxCopy_keeps {s : State} (h : Receiving s) {k : Nat} (hk : s.fifo.bytesWritten.toNat + k ≤ rxCap s) :
    GivesSafely (fun t => Sound t ∧ SameExchange s t ∧ t.status = s.status ∧ t.txrxState = s.txrxState ∧ t.sw = s.sw
        ∧ t.cache = s.cache ∧
      t.fifo.bytesTotal = s.fifo.bytesTotal ∧ t.fifo.bytesWritten.toNat = s.fifo.bytesWritten.toNat + k) (rxCopy k
          s) := by
  unfold rxCopy
  refine (feFifoRead_safe h.base k).bind fun r hr => ?_
  obtain ⟨hlen, v, hv, hb⟩ := hr
  obtain ⟨b, t⟩ := r
  dsimp only at hlen hv hb ⊢
  subst hv
  have h1 : Receiving { s with env := v } := ⟨hb, h.top, h.ctx, h.dst, h.cnt, h.cap⟩
  refine (rxDeliver_keeps h1 (by rw [hlen]; exact hk)).bind fun t ht => ?_
  obtain ⟨hb2, m, n, rfl⟩ := ht
  refine (toLen_safe _).bind fun w hw => ?_
  exact ⟨hb2.of rfl rfl rfl hb2.fe, ⟨rfl, rfl, rfl, rfl, rfl, rfl⟩, rfl, rfl, rfl, rfl, rfl, hw⟩

theorem nfcvDecodeStep_keeps {s : State} (h : Sound s) (hc : ctxInBounds s) (hd : s.ctx.rxBuf ≠ nullAddr) (hw :
    s.fifo.bytesWritten.toNat ≤ s.params.nfcvScratchSize) :
    GivesSafely (fun t => Sound t ∧ SameExchange s t ∧ t.fifo = s.fifo ∧ t.sw = s.sw) (nfcvDecodeStep s) := by
  unfold nfcvDecodeStep scratchRead
  rw [if_pos (by omega)]
  refine GivesSafely.bind (P := fun _ => True) trivial fun raw _ => ?_
  dsimp only
  have := ceil8_le (hc.2.resolve_left hd)
  refine (bufWrite_safe h (b := (nfcvDecode raw (crcRxKeep s.ctx.flags) (ceil8 s.ctx.rxBufLen.toNat)).bytes)
      ?_).bind fun t ht => ?_
  · simp [nfcvDecode]; omega
  · obtain ⟨rfl, hb⟩ := ht
    refine (toLen_safe _).bind fun l _ => ?_
    exact ⟨hb.of rfl rfl rfl hb.fe, ⟨rfl, rfl, rfl, rfl, rfl, rfl⟩, rfl, rfl⟩

theorem rxAfterData_keeps {s : State} (h : Receiving s) : GivesSafely (Continues s) (rxAfterData s) := by
  unfold rxAfterData
  split
  · next hn => exact ⟨end_keeps (h.st _).base hn, (SameExchange.txrx _ _).trans (end_same _ _)⟩
  · next hn =>
    have hb : s.status = .busy := by simpa using hn
    split
    · exact (rxWaitEof_keeps (h.st .rxWaitEof) hb rfl).mono fun _ ht => Continues.trans (SameExchange.txrx _ _) ht
    · exact (rxDone_keeps (h.st _).base).mono fun _ ht => Continues.trans (SameExchange.txrx _ _) ht

theorem rxBeyondCapacity_keeps {s : State} (h : Receiving s) : GivesSafely (Continues s) (rxBeyondCapacity s) := by
  unfold rxBeyondCapacity
  split
  · next hn =>
    have hm : Receiving { s with status := .noMem } :=
      h.of (h.base.of rfl rfl rfl h.base.fe) ⟨rfl, rfl, rfl, rfl, rfl, rfl⟩ rfl
    have sm : SameExchange s { s with status := .noMem } := ⟨rfl, rfl, rfl, rfl, rfl, rfl⟩
    refine (nfcvDecodeStep_keeps hm.base hm.ctx hm.dst ?_).bind fun x hx => ?_
    · have := hm.cap; unfold rxCap at this; rwa [if_pos hn] at this
    · exact (rxAfterData_keeps (hm.of hx.1 hx.2.1 hx.2.2.1)).mono fun _ ht => Continues.trans (sm.trans hx.2.1) ht
  · exact rxFailWith_keeps .noMem h.base (by decide)

theorem rxReadFifo_keeps {s : State} (h : Receiving s) (hb : s.status = .busy) (hd : s.fifo.bytesWritten =
    s.fifo.bytesTotal)
    (hg : s.sw.rxeGuard = true) : GivesSafely (Continues s) (rxReadFifo s) := by
  unfold rxReadFifo
  have h1 : Receiving (fifoStatus (cacheInvalidate s)) := h.of h.base.cacheInvalidate.fifoStatus ⟨by simp, by simp,
      by simp, by simp, by simp, by simp⟩ (by simp)
  have s1 : SameExchange s (fifoStatus (cacheInvalidate s)) := ⟨by simp, by simp, by simp, by simp, by simp, by simp⟩
  have b1 : (fifoStatus (cacheInvalidate s)).status = .busy := by simp [hb]
  have g1 : (fifoStatus (cacheInvalidate s)).sw.rxeGuard = true := by simp [hg]
  have d1 : (fifoStatus (cacheInvalidate s)).fifo.bytesWritten = (fifoStatus (cacheInvalidate s)).fifo.bytesTotal :=
      by
    simp [hd]
  generalize fifoStatus (cacheInvalidate s) = u at *
  refine (toLen_safe _).bind fun tot htot => ?_
  have h2 : Receiving { u with fifo := { u.fifo with bytesTotal := tot } } := ⟨h1.base.of rfl rfl rfl h1.base.fe,
      h1.top, h1.ctx, h1.dst, by
    show u.fifo.bytesWritten.toNat ≤ tot.toNat; have := h1.cnt; omega, h1.cap⟩
  have hc := h1.cap
  refine (rxCopy_keeps h2 (k := min u.cache.numBytes (rxCap u - u.fifo.bytesWritten.toNat)) (by
    show u.fifo.bytesWritten.toNat + _ ≤ rxCap u
    omega)).bind fun t ht => ?_
  obtain ⟨tb, ts, tst, ttx, tsw, -, tbt, tbw⟩ := ht
  have su : SameExchange u t := SameExchange.trans (t := { u with fifo := { u.fifo with bytesTotal := tot } }) ⟨rfl,
      rfl, rfl, rfl, rfl, rfl⟩ ts
  dsimp only at *
  have hcap : rxCap t = rxCap u := rxCap_same su
  have ht : Receiving t := ⟨tb, su.top ▸ h1.top, by unfold ctxInBounds; rw [su.ctx, su.params]; exact h1.ctx,
      by rw [su.ctx]; exact h1.dst,
    by rw [tbt, tbw]; have := h1.cnt; omega, by rw [hcap, tbw]; have := h1.cap; omega⟩
  split
  · exact (rxBeyondCapacity_keeps ht).mono fun _ hx => Continues.trans (s1.trans su) hx
  · next hle =>
    refine ⟨?_, (s1.trans su).trans (SameExchange.txrx _ _)⟩
    exact ht.good (tst.trans b1) _ rfl rfl (fun _ => BitVec.eq_of_toNat_eq (by
      rw [tbt, tbw]
      have e : u.fifo.bytesWritten.toNat = u.fifo.bytesTotal.toNat := by rw [d1]
      rw [hcap] at hle
      show _ = tot.toNat
      omega)) (fun _ => by rw [tsw]; exact g1)

theorem reported_le (s : State) (l : Nat) : reportedBytes s l ≤ l := by
  unfold reportedBytes strip; split <;> [split; skip] <;> omega

theorem reportedBits_safe (s : State) (l : Nat) : GivesSafely (fun _ => True) (reportedBits s l) := by
  unfold reportedBits
  split
  · trivial
  · exact (toLen_safe _).mono fun _ _ => trivial

theorem rxReadData_keeps {s : State} (h : Receiving s) : GivesSafely (Continues s) (rxReadData s) := by
  unfold rxReadData
  have h1 : Receiving (fifoStatus s) := h.of h.base.fifoStatus ⟨by simp, by simp, by simp, by simp, by simp,
      by simp⟩ (by simp)
  have s1 : SameExchange s (fifoStatus s) := ⟨by simp, by simp, by simp, by simp, by simp, by simp⟩
  generalize fifoStatus s = u at *
  have hcap := h1.cap
  refine (rxCopy_keeps h1 (by omega)).bind fun t ht => ?_
  obtain ⟨tb, ts, tst, ttx, tsw, tca, tbt, tbw⟩ := ht
  refine (toLen_safe _).bind fun tot htot => ?_
  refine (reportedBits_safe t _).bind fun len _ => ?_
  dsimp only at htot ⊢
  have hcap' : rxCap t = rxCap u := rxCap_same ts
  have hr := reported_le u (u.fifo.bytesTotal.toNat + u.cache.numBytes)
  have hcnt := h1.cnt
  have tctx : ctxInBounds t := by unfold ctxInBounds; rw [ts.ctx, ts.params]; exact h1.ctx
  have tdst : t.ctx.rxBuf ≠ nullAddr := by rw [ts.ctx]; exact h1.dst
  generalize hst : (if rxCap t < reportedBytes u (u.fifo.bytesTotal.toNat + u.cache.numBytes) ∧ t.status =
      Status.busy then Status.noMem else t.status) = st
  have hm : Receiving { t with fifo := { t.fifo with bytesTotal := tot }, status := st, rxRcvdLen := len } :=
    ⟨tb.of rfl rfl rfl tb.fe, ts.top ▸ h1.top, tctx, tdst, by show _ ≤ tot.toNat; rw [tbw, htot]; omega,
        by show _ ≤ rxCap t; rw [hcap']; show t.fifo.bytesWritten.toNat ≤ _; rw [tbw]; omega⟩
  have sm : SameExchange s
      { t with fifo := { t.fifo with bytesTotal := tot }, status := st, rxRcvdLen := len } :=
    (s1.trans ts).trans ⟨rfl, rfl, rfl, rfl, rfl, rfl⟩
  split
  · next hn =>
    refine (nfcvDecodeStep_keeps hm.base hm.ctx hm.dst ?_).bind fun x hx => ?_
    · have := hm.cap; unfold rxCap at this; rwa [if_pos hn] at this
    · exact (rxAfterData_keeps (hm.of hx.1 hx.2.1 hx.2.2.1)).mono fun _ ht => Continues.trans (sm.trans hx.2.1) ht
  · change GivesSafely (Continues s) (rxAfterData _)
    exact (rxAfterData_keeps hm).mono fun _ ht => Continues.trans sm ht

theorem rxShortReply_keeps {s : State} (h : Receiving s) : GivesSafely (Continues s) (rxShortReply s) := by
  unfold rxShortReply
  dsimp only
  refine (feFifoRead_safe h.base _).bind fun r hr => ?_
  obtain ⟨hlen, v, hv, hb⟩ := hr
  obtain ⟨b, t⟩ := r
  dsimp only at hlen hv hb ⊢
  subst hv
  have h1 : Receiving { s with env := v } := ⟨hb, h.top, h.ctx, h.dst, h.cnt, h.cap⟩
  refine (rxDeliver_keeps h1 (i := 0) (by rw [hlen]; show _ ≤ rxCap s; omega)).bind fun t ht => ?_
  obtain ⟨hb2, m, n, rfl⟩ := ht
  exact ⟨end_keeps (st := .incompleteByte) (hb2.of rfl rfl rfl hb2.fe) (by decide), ⟨by simp, by simp, by simp,
      by simp, by simp, by simp⟩⟩

theorem discard_keeps {s : State} (h : Receiving s) (hb : s.status = .busy) : Continues s (discardAndRearm s) := by
  refine ⟨?_, ⟨by simp, by simp, by simp, by simp, by simp, by simp⟩⟩
  have hbase : Sound (discardAndRearm s) := by
    have b1 := (h.base.feCmd .clearFifo).feCmd .unmaskRx
    exact h.base.of (by simp) (by simp) (by simp) (by simpa [discardAndRearm] using b1.fe)
  have hm : Receiving (discardAndRearm s) := ⟨hbase, by simp [h.top], by simpa [ctxInBounds] using h.ctx,
      by simpa using h.dst, by simp, by simp⟩
  exact good_self (hm.good (by simp [hb]) .rxWaitRxs rfl rfl (by simp) (by simp)) (by simp)

theorem classify_ne {p m n e k ib mp x} (h : classify p m n e k ib mp = .error x) : x ≠ .busy := by
  unfold classify at h
  repeat' split at h
  all_goals first | (cases h; decide) | cases h

theorem rxErrCheck_keeps {s : State} (h : Receiving s) (hb : s.status = .busy) : GivesSafely (Continues s)
    (rxErrCheck s) := by
  unfold rxErrCheck
  dsimp only
  have h1 : Receiving (fifoStatus (feGetIrq errIrqs (cacheInvalidate s)).2) := h.of
      h.base.cacheInvalidate.feGetIrq.fifoStatus ⟨by simp, by simp, by simp, by simp, by simp, by simp⟩ (by simp)
  have s1 : SameExchange s (fifoStatus (feGetIrq errIrqs (cacheInvalidate s)).2) := ⟨by simp, by simp, by simp,
      by simp, by simp, by simp⟩
  have b1 : (fifoStatus (feGetIrq errIrqs (cacheInvalidate s)).2).status = .busy := by simp [hb]
  generalize fifoStatus (feGetIrq errIrqs (cacheInvalidate s)).2 = u at *
  unfold rxOnVerdict
  split
  · exact (rxShortReply_keeps h1).mono fun _ ht => Continues.trans s1 ht
  · exact (rxReadData_keeps (h1.st .rxReadData)).mono fun _ ht => Continues.trans (s1.trans (SameExchange.txrx _ _))
        ht
  · rename_i e _
    split
    · exact Continues.trans s1 (discard_keeps h1 b1)
    · have h2 : Receiving { u with status := e, txrxState := .rxReadData } :=
        ⟨h1.base.of rfl rfl rfl h1.base.fe, h1.top, h1.ctx, h1.dst, h1.cnt, h1.cap⟩
      exact (rxReadData_keeps h2).mono fun _ ht => Continues.trans (s1.trans (SameExchange.status u e _)) ht

theorem rxWaitRxe_keeps {s : State} (h : Receiving s) (hb : s.status = .busy) (hst : s.txrxState = .rxWaitRxe)
    (hd : s.fifo.bytesWritten = s.fifo.bytesTotal) (hg : s.sw.rxeGuard = true) : GivesSafely (Continues s)
        (rxWaitRxe s) := by
  unfold rxWaitRxe
  dsimp only
  generalize hm : (irqRXE ||| irqWL ||| eofIfActive s.mode) = m
  have h1 : ∀ {u}, u = (if has (feGetIrq m s).1 irqEOF then { (feGetIrq m s).2 with eofSeen := true } else (feGetIrq
      m s).2) →
      Receiving u ∧ SameExchange s u ∧ u.status = .busy ∧ u.sw.rxeGuard = true ∧ u.txrxState = .rxWaitRxe ∧
        u.fifo.bytesWritten = u.fifo.bytesTotal := by
    rintro u rfl
    have h0 : Receiving (feGetIrq m s).2 := h.of h.base.feGetIrq (same_feGetIrq _ _) (by simp)
    split
    · exact ⟨⟨h0.base.of rfl rfl rfl h0.base.fe, h0.top, h0.ctx, h0.dst, h0.cnt, h0.cap⟩,
        (same_feGetIrq m s).trans ⟨rfl, rfl, rfl, rfl, rfl, rfl⟩, by simp [hb], by simp [hg], by simp [hst],
            by simp [hd]⟩
    · exact ⟨h0, same_feGetIrq _ _, by simp [hb], by simp [hg], by simp [hst], by simp [hd]⟩
  obtain ⟨h1, s1, b1, g1, t1, d1⟩ := h1 rfl
  generalize (if has (feGetIrq m s).1 irqEOF then { (feGetIrq m s).2 with eofSeen := true } else (feGetIrq m s).2) =
      u at *
  split
  · have h2 : Receiving (swDisarm .rxeGuard u) := h1.of (h1.base.swDisarm _) ⟨by simp, by simp, by simp, by simp,
        by simp, by simp⟩ (by simp)
    have s2 : SameExchange u (swDisarm .rxeGuard u) := ⟨by simp, by simp, by simp, by simp, by simp, by simp⟩
    exact (rxErrCheck_keeps (h2.st _) (by simp [b1])).mono fun _ ht => Continues.trans ((s1.trans s2).trans
        (SameExchange.txrx _ _)) ht
  · split
    · exact (rxFailWith_keeps _ h1.base (by decide)).mono fun _ ht => Continues.trans s1 ht
    · split
      · exact (rxReadFifo_keeps (h1.st .rxReadFifo) b1 d1 g1).mono fun _ ht => Continues.trans (s1.trans
            (SameExchange.txrx _ _)) ht
      · have h2 : Receiving (swExpired .rxeGuard u).2 := h1.of (h1.base.swExpired _) ⟨by simp, by simp, by simp,
            by simp, by simp, by simp⟩ (by simp)
        have s2 : SameExchange u (swExpired .rxeGuard u).2 := ⟨by simp, by simp, by simp, by simp, by simp, by simp⟩
        split
        · exact (rxFailWith_keeps _ h2.base (by decide)).mono fun _ ht => Continues.trans (s1.trans s2) ht
        · exact ⟨good_self (h2.good (by simp [b1]) .rxWaitRxe rfl rfl (by simp [d1]) (by simp [g1])) (by simp [t1]),
              s1.trans s2⟩

theorem rxWaitRxs_keeps {s : State} (h : Receiving s) (hb : s.status = .busy) (hst : s.txrxState = .rxWaitRxs)
    (hd : s.fifo.bytesWritten = s.fifo.bytesTotal) : GivesSafely (Continues s) (rxWaitRxs s) := by
  unfold rxWaitRxs
  dsimp only
  generalize hm : (irqRXS ||| irqNRE ||| eofIfActive s.mode) = m
  have h1 : Receiving (feGetIrq m s).2 := h.of h.base.feGetIrq (same_feGetIrq _ _) (by simp)
  have s1 := same_feGetIrq m s
  have b1 : (feGetIrq m s).2.status = .busy := by simp [hb]
  have t1 : (feGetIrq m s).2.txrxState = .rxWaitRxs := by simp [hst]
  have d1 : (feGetIrq m s).2.fifo.bytesWritten = (feGetIrq m s).2.fifo.bytesTotal := by simp [hd]
  generalize feGetIrq m s = r at *
  split
  · exact ⟨good_self (h1.good b1 .rxWaitRxs rfl rfl (by simp [d1]) (by simp)) t1, s1⟩
  · split
    · generalize hv : ({ r.2 with eofSeen := has r.1 irqEOF } : State) = v
      have hvv : Receiving v ∧ SameExchange r.2 v ∧ v.status = .busy ∧ v.fifo.bytesWritten = v.fifo.bytesTotal := by
        subst hv
        exact ⟨⟨h1.base.of rfl rfl rfl h1.base.fe, h1.top, h1.ctx, h1.dst, h1.cnt, h1.cap⟩, ⟨rfl, rfl, rfl, rfl,
            rfl, rfl⟩, b1, d1⟩
      have h2 : Receiving (swArm .rxeGuard Config.rxeGuardTout v) := hvv.1.of (hvv.1.base.swArm _ _) ⟨by simp,
          by simp, by simp, by simp, by simp, by simp⟩ (by simp)
      have s2 : SameExchange v (swArm .rxeGuard Config.rxeGuardTout v) := ⟨by simp, by simp, by simp, by simp,
          by simp, by simp⟩
      exact (rxWaitRxe_keeps (h2.st .rxWaitRxe) (by simp [hvv.2.2.1]) rfl (by simpa using hvv.2.2.2) (by simp)).mono
          fun _ ht => Continues.trans ((s1.trans (hvv.2.1.trans s2)).trans (SameExchange.txrx _ _)) ht
    · split
      · exact (rxFailWith_keeps _ h1.base (by decide)).mono fun _ ht => Continues.trans s1 ht
      · exact (rxFailWith_keeps _ h1.base (by decide)).mono fun _ ht => Continues.trans s1 ht

theorem rxWaitEon_keeps {s : State} (h : Receiving s) (hb : s.status = .busy) (hst : s.txrxState = .rxWaitEon)
    (hd : s.fifo.bytesWritten = s.fifo.bytesTotal) : GivesSafely (Continues s) (rxWaitEon s) := by
  unfold rxWaitEon
  dsimp only
  generalize hm : (irqEON ||| irqNRE) = m
  have h1 : Receiving (feGetIrq m s).2 := h.of h.base.feGetIrq (same_feGetIrq _ _) (by simp)
  have s1 := same_feGetIrq m s
  have b1 : (feGetIrq m s).2.status = .busy := by simp [hb]
  have t1 : (feGetIrq m s).2.txrxState = .rxWaitEon := by simp [hst]
  have d1 : (feGetIrq m s).2.fifo.bytesWritten = (feGetIrq m s).2.fifo.bytesTotal := by simp [hd]
  generalize feGetIrq m s = r at *
  split
  · exact ⟨h1.good b1 .rxWaitRxs rfl rfl (by simp [d1]) (by simp), s1.trans (SameExchange.txrx _ _)⟩
  · split
    · exact (rxFailWith_keeps _ h1.base (by decide)).mono fun _ ht => Continues.trans s1 ht
    · split
      · have h2 : Receiving (swExpired .apFwt r.2).2 := h1.of (h1.base.swExpired _) ⟨by simp, by simp, by simp,
            by simp, by simp, by simp⟩ (by simp)
        have s2 : SameExchange r.2 (swExpired .apFwt r.2).2 := ⟨by simp, by simp, by simp, by simp, by simp, by simp⟩
        split
        · exact (rxFailWith_keeps _ h2.base (by decide)).mono fun _ ht => Continues.trans (s1.trans s2) ht
        · exact ⟨good_self (h2.good (by simp [b1]) .rxWaitEon rfl rfl (by simp [d1]) (by simp)) (by simp [t1]),
              s1.trans s2⟩
      · exact ⟨good_self (h1.good b1 .rxWaitEon rfl rfl (by simp [d1]) (by simp)) t1, s1⟩

theorem rxIdle_keeps {s : State} (h : Sound s) (ht : s.topState = .txRx) (hc : ctxInBounds s) (hd : s.ctx.rxBuf ≠
    nullAddr) (hb : s.status = .busy) : GivesSafely (Continues s) (rxIdle s) := by
  unfold rxIdle
  dsimp only
  have b1 : Sound (rxIdleReset s) := by
    unfold rxIdleReset; dsimp only
    split
    · exact (h.emit _).of
        (t := cacheInvalidate { emit .preTxRx s with fifo := _, eofSeen := _ }) rfl rfl rfl (h.emit _).fe
    · exact h.of (t := cacheInvalidate { s with fifo := _, eofSeen := _ }) rfl rfl rfl h.fe
  have h1 : Receiving (rxIdleReset s) := ⟨b1, by simp [ht], by simpa [ctxInBounds] using hc, by simpa using hd,
     by unfold rxIdleReset; simp, by unfold rxIdleReset; simp⟩
  have s1 : SameExchange s (rxIdleReset s) := ⟨by simp, by simp, by simp, by simp, by simp, by simp⟩
  have st1 : (rxIdleReset s).status = .busy := by simp [hb]
  have d1 : (rxIdleReset s).fifo.bytesWritten = (rxIdleReset s).fifo.bytesTotal := by simp [rxIdleReset]
  generalize rxIdleReset s = u at *
  have h2 : Receiving (if u.ctx.txAbsent then feCmd .unmaskRx (feCmd .clearFifo u) else u) ∧ SameExchange u (if
      u.ctx.txAbsent then feCmd .unmaskRx (feCmd .clearFifo u) else u) ∧ (if u.ctx.txAbsent then feCmd .unmaskRx
          (feCmd .clearFifo u) else u).status = .busy ∧
      (if u.ctx.txAbsent then feCmd .unmaskRx (feCmd .clearFifo u) else u).fifo = u.fifo := by
    split
    · exact ⟨h1.of ((h1.base.feCmd _).feCmd _) ⟨by simp, by simp, by simp, by simp, by simp, by simp⟩ (by simp),
          ⟨by simp, by simp, by simp, by simp, by simp, by simp⟩, by simp [st1], by simp⟩
    · exact ⟨h1, SameExchange.refl _, st1, rfl⟩
  obtain ⟨h2, s2, st2, f2⟩ := h2
  generalize (if u.ctx.txAbsent then feCmd .unmaskRx (feCmd .clearFifo u) else u) = v at *
  have h3 : Receiving (rxIdleTimers v) := by
    refine h2.of ?_ ⟨by simp, by simp, by simp, by simp, by simp, by simp⟩ (by simp)
    unfold rxIdleTimers
    split <;> split
    · exact h2.base
    · exact h2.base.swArm _ _
    · exact h2.base
    · exact h2.base.feTimerStart _ _
  have s3 : SameExchange v (rxIdleTimers v) := ⟨by simp, by simp, by simp, by simp, by simp, by simp⟩
  have st3 : (rxIdleTimers v).status = .busy := by simp [st2]
  have d3 : (rxIdleTimers v).fifo.bytesWritten = (rxIdleTimers v).fifo.bytesTotal := by simp [f2, d1]
  generalize rxIdleTimers v = w at *
  refine ⟨?_, ((s1.trans s2).trans s3).trans (SameExchange.txrx _ _)⟩
  split
  · exact h3.good st3 _ rfl rfl (by simp [d3]) (by simp)
  · exact h3.good st3 _ rfl rfl (by simp [d3]) (by simp)

theorem ExchangeInv.tx {s : State} (h : ExchangeInv s) (hp : txPhase s.txrxState = true) : Sending s := by
  have hn : s.txrxState ≠ .idle := by intro h0; rw [h0] at hp; exact absurd hp (by decide)
  exact ⟨h.base, h.top hn, h.busy.2 hn, (h.ctx hn).1, (h.txSource hp).1, (h.txSource hp).2.1, h.txCounters hp,
      (h.txSource hp).2.2⟩

theorem ExchangeInv.rx {s : State} (h : ExchangeInv s) (hp : rxPhase s.txrxState = true) (hi : s.txrxState ≠
    .rxIdle) : Receiving s := by
  have hn : s.txrxState ≠ .idle := by intro h0; rw [h0] at hp; exact absurd hp (by decide)
  exact ⟨h.base, h.top hn, (h.ctx hn).1, (h.ctx hn).2 hp, (h.rxCounters hp hi).1, (h.rxCounters hp hi).2⟩

theorem txrxStep_keeps {s : State} (h : ExchangeInv s) : GivesSafely (Continues s) (txrxStep s) := by
  have hr := h.rests
  have hb : s.txrxState ≠ .idle → s.status = .busy := h.busy.2
  unfold txrxStep
  split <;> rename_i hs <;> rw [hs] at hr hb
  case h_1 => exact ⟨h, SameExchange.refl _⟩
  case h_2 => exact txIdle_keeps (h.tx (by rw [hs]; decide))
  case h_3 => exact txWaitGt_keeps (h.tx (by rw [hs]; decide)) hs
  case h_4 => exact txWaitFdt_keeps (h.tx (by rw [hs]; decide)) hs
  case h_6 => exact txWaitWl_keeps (h.tx (by rw [hs]; decide)) hs
  case h_8 => exact txWaitTxe_keeps (h.tx (by rw [hs]; decide)) hs
  case h_11 =>
    have hn : s.txrxState ≠ .idle := by rw [hs]; decide
    exact rxIdle_keeps h.base (h.top hn) (h.ctx hn).1 ((h.ctx hn).2 (by rw [hs]; decide)) (hb (by decide))
  case h_12 => exact rxWaitEon_keeps (h.rx (by rw [hs]; decide) (by rw [hs]; decide)) (hb (by decide)) hs (h.drained
        (by rw [hs]; simp))
  case h_13 => exact rxWaitRxs_keeps (h.rx (by rw [hs]; decide) (by rw [hs]; decide)) (hb (by decide)) hs (h.drained
        (by rw [hs]; simp))
  case h_14 => exact rxWaitRxe_keeps (h.rx (by rw [hs]; decide) (by rw [hs]; decide)) (hb (by decide)) hs (h.drained
        (by rw [hs]; simp)) (h.guard.1 hs)
  case h_18 => exact rxWaitEof_keeps (h.rx (by rw [hs]; decide) (by rw [hs]; decide)) (hb (by decide)) hs
  all_goals cases hr

theorem spin_keeps (n : Nat) {s : State} (h : ExchangeInv s) : GivesSafely (fun t => Continues s t ∧ t.txrxState =
    .idle) (spinExchange n s) := by
  induction n generalizing s with
  | zero =>
    unfold spinExchange
    split
    · next hi => exact ⟨⟨h, SameExchange.refl s⟩, hi⟩
    · exact ⟨by decide, by decide⟩
  | succ n ih =>
    unfold spinExchange
    split
    · next hi => exact ⟨⟨h, SameExchange.refl s⟩, hi⟩
    · have := txrxStep_keeps h
      split
      · next t ht => rw [ht] at this; exact (ih this.1).mono fun _ hu => ⟨Continues.trans this.2 hu.1, hu.2⟩
      · next e he => rw [he] at this; exact this

end Sys2Proof.Machine
end

