-- ==== Sys2Proof/Machine/Assembler.lean ====
section
/-! DEFINITION. The textual syntax of an operation (`30_encoding.md` R84): the mnemonic followed by `name=value` operands
in the order of R72, values in C notation, buffer addresses prefixed `@`. -/

namespace Sys2Proof.Machine

/-- A value in decimal. -/
def showNat (name : String) (n : Nat) : String := " " ++ name ++ "=" ++ toString n

/-- A value in hexadecimal. -/
def showHex (name : String) (n : Nat) : String := " " ++ name ++ "=0x" ++ String.ofList (Nat.toDigits 16 n)

/-- A buffer address. -/
def showAddr (name : String) (a : Word) : String := " " ++ name ++ "=@0x" ++ String.ofList (Nat.toDigits 16 a.toNat)

/-- The line of an operation (R84). -/
def assembly : Instr → String
  | .initialise => "INITIALIZE"
  | .setMode m t r =>
    "SET_MODE" ++ showNat "mode" (modeCode m).toNat ++ showNat "txbr" (bitRateCode t).toNat ++
      showNat "rxbr" (bitRateCode r).toNat
  | .setBitrate t r =>
    "SET_BITRATE" ++ showNat "txbr" (bitRateCode t).toNat ++ showNat "rxbr" (bitRateCode r).toNat
  | .setFdtPoll v => "SET_FDT_POLL" ++ showNat "value" v.toNat
  | .setFdtListen v => "SET_FDT_LISTEN" ++ showNat "value" v.toNat
  | .setGt v => "SET_GT" ++ showNat "value" v.toNat
  | .setErrorHandling p => "SET_ERROR_HANDLING" ++ showNat "policy" (policyCode p).toNat
  | .fieldOnAndStartGt => "FIELD_ON_AND_START_GT"
  | .fieldOff => "FIELD_OFF"
  | .startTransceive tx txLen rx rxLen flags fwt =>
    "START_TRANSCEIVE" ++ showAddr "tx" tx ++ showNat "txlen" txLen.toNat ++ showAddr "rx" rx ++
      showNat "rxlen" rxLen.toNat ++ showNat "flags" flags.toNat ++ showNat "fwt" fwt.toNat
  | .worker => "WORKER"
  | .getStatus => "GET_STATUS"
  | .shortFrameTransceive c rx rxLen fwt =>
    "SHORT_FRAME_TRANSCEIVE" ++ showHex "cmd" c.toNat ++ showAddr "rx" rx ++ showNat "rxlen" rxLen.toNat ++
      showNat "fwt" fwt.toNat
  | .anticollisionTransceive b bytes bits fwt =>
    "ANTICOLLISION_TRANSCEIVE" ++ showAddr "buf" b ++ showNat "bytes" bytes.toNat ++ showNat "bits" bits.toNat ++
      showNat "fwt" fwt.toNat
  | .listenStart m rx rxLen =>
    "LISTEN_START" ++ showHex "mask" m.toNat ++ showAddr "rx" rx ++ showNat "rxlen" rxLen.toNat
  | .listenStop => "LISTEN_STOP"
  | .wakeupStart a p c =>
    "WAKEUP_START" ++ showHex "amp" (channelWord a).toNat ++ showHex "pha" (channelWord p).toNat ++
      showHex "cap" (channelWord c).toNat
  | .wakeupStop => "WAKEUP_STOP"

end Sys2Proof.Machine
end

