-- ==== Sys2Proof/Machine/Blocking.lean ====
section
/-! DEFINITION. The host-side pseudo-operations of `30_encoding.md` R85: "pure convenience: they call `Worker()` in a
tight loop until the relevant phase ends". Their loops are unbounded; here they run for a number of WORKER operations the
caller gives. -/

namespace Sys2Proof.Machine

/-- How a pseudo-operation ends. -/
inductive Blocked where
  /-- It returned this result in this state. -/
  | returned (r : Status) (s : State)
  /-- Its loop is not over after the WORKER operations it was given. -/
  | looping (s : State)
  /-- One of its operations faulted. -/
  | faulted (f : Fault)
deriving DecidableEq, Repr

/-- The state is in the tx-phase group (R78). -/
def inTxPhase (s : State) : Bool := txrxGroup s.txrxState = 1

/-- The state is in the rx-phase group (R78). -/
def inRxPhase (s : State) : Bool := txrxGroup s.txrxState = 2

/-- The loop of `BLOCKING_TX`: WORKER until the state is not in the tx-phase group; `None` in the rx-phase group, else
`status` (R85). -/
def blockingTxLoop : Nat → State → Blocked
  | 0, s => .looping s
  | n + 1, s =>
    match exec .worker s with
    | .next s =>
      if inTxPhase s then blockingTxLoop n s
      else .returned (if inRxPhase s then .none else s.status) s
    | .fault f => .faulted f
    | .refused _ => .looping s

/-- `BLOCKING_TX ctx` (R85): `i` is the START_TRANSCEIVE of the context. -/
def blockingTx (n : Nat) (i : Instr) (s : State) : Blocked :=
  match exec i s with
  | .next s => if s.result = .none then blockingTxLoop n s else .returned s.result s
  | .fault f => .faulted f
  | .refused _ => .looping s

/-- `BLOCKING_RX` (R85): WORKER until GET_STATUS is not `Busy`. -/
def blockingRx : Nat → State → Blocked
  | 0, s => .looping s
  | n + 1, s =>
    match exec .worker s with
    | .next s =>
      match exec .getStatus s with
      | .next s => if s.result = .busy then blockingRx n s else .returned s.result s
      | .fault f => .faulted f
      | .refused _ => .looping s
    | .fault f => .faulted f
    | .refused _ => .looping s

/-- `BLOCKING_TXRX ctx` (R85): `BLOCKING_TX`, and where its result is `None`, `BLOCKING_RX`. -/
def blockingTxRx (n : Nat) (i : Instr) (s : State) : Blocked :=
  match blockingTx n i s with
  | .returned .none s => blockingRx n s
  | b => b

end Sys2Proof.Machine
end

