-- ==== Sys2Proof/Tests/Slice0.lean ====
section
/-! SUPPORT. Tests: every operation's words decode (the words written out from `30_encoding.md` R70 to R72), ill-formed words
are refused, one step of each operation against the vectors of `95_test_vectors.md`, and for every obligation with hypotheses
a concrete state that meets them. -/

namespace Sys2Proof.Tests

open Sys2Proof Sys2Proof.Machine

/-! ## Decoding: words from R71 and R72 -/

theorem test_decode_initialise : decode ⟨0x01, ⟨0, 0, 0, 0, 0, 0⟩⟩ = .ok .initialise := by decide

/-- P2: `ARG0 <- 0x00010103` is PollNfcF with 212 kbit/s both ways. -/
theorem test_decode_setMode : decode ⟨0x02, ⟨0x00010103, 0, 0, 0, 0, 0⟩⟩ = .ok (.setMode .pollNfcF .br212 .br212) := by
  decide

/-- VC7: `txbr=0xFF` in bits 7..0, `rxbr=2` in bits 15..8. -/
theorem test_decode_setBitrate : decode ⟨0x03, ⟨0x000002FF, 0, 0, 0, 0, 0⟩⟩ = .ok (.setBitrate .keep .br424) := by decide

theorem test_decode_setFdtPoll : decode ⟨0x04, ⟨0x80000001, 0, 0, 0, 0, 0⟩⟩ = .ok (.setFdtPoll 0x80000001) := by decide

theorem test_decode_setFdtListen : decode ⟨0x05, ⟨1172, 0, 0, 0, 0, 0⟩⟩ = .ok (.setFdtListen 1172) := by decide

theorem test_decode_setGt : decode ⟨0x06, ⟨5, 0, 0, 0, 0, 0⟩⟩ = .ok (.setGt 5) := by decide

theorem test_decode_setErrorHandling :
    decode ⟨0x07, ⟨1, 0, 0, 0, 0, 0⟩⟩ = .ok (.setErrorHandling .policyEMVCo) := by decide

theorem test_decode_fieldOnAndStartGt : decode ⟨0x08, ⟨0, 0, 0, 0, 0, 0⟩⟩ = .ok .fieldOnAndStartGt := by decide

theorem test_decode_fieldOff : decode ⟨0x09, ⟨0, 0, 0, 0, 0, 0⟩⟩ = .ok .fieldOff := by decide

/-- P2, step 4, with all five flags set. -/
theorem test_decode_startTransceive :
    decode ⟨0x0A, ⟨0x400, 0x640, 0x800, 0x200, 0x1F, 0xFFFFFFFF⟩⟩ =
      .ok (.startTransceive 0x400 1600 0x800 512 0b11111 0xFFFFFFFF) := by decide

theorem test_decode_worker : decode ⟨0x0B, ⟨0, 0, 0, 0, 0, 0⟩⟩ = .ok .worker := by decide

theorem test_decode_getStatus : decode ⟨0x0C, ⟨0, 0, 0, 0, 0, 0⟩⟩ = .ok .getStatus := by decide

/-- VA1; `ARG1` and `ARG4` are not of the format. -/
theorem test_decode_shortFrame :
    decode ⟨0x0D, ⟨0x26, 7, 0x200, 16, 7, 1236⟩⟩ = .ok (.shortFrameTransceive 0x26 0x200 16 1236) := by decide

theorem test_decode_anticollision :
    decode ⟨0x0E, ⟨0x100, 0x00000502, 0, 0, 0, 1236⟩⟩ = .ok (.anticollisionTransceive 0x100 2 5 1236) := by decide

/-- P4, step 2. -/
theorem test_decode_listenStart :
    decode ⟨0x10, ⟨8, 0, 0x300, 0x800, 0, 0⟩⟩ = .ok (.listenStart 0b1000 0x300 2048) := by decide

theorem test_decode_listenStop : decode ⟨0x11, ⟨0, 0, 0, 0, 0, 0⟩⟩ = .ok .listenStop := by decide

/-- VW3 and V10: enabled with reference 0x55; enabled and automatic with delta 10. -/
theorem test_decode_wakeupStart :
    decode ⟨0x12, ⟨0x00550A01, 0x00000A03, 0, 0, 0, 0⟩⟩ =
      .ok (.wakeupStart ⟨true, false, false, 10, 0x55⟩ ⟨true, true, false, 10, 0⟩ ⟨false, false, false, 0, 0⟩) := by decide

theorem test_decode_wakeupStop : decode ⟨0x13, ⟨0, 0, 0, 0, 0, 0⟩⟩ = .ok .wakeupStop := by decide

/-! ## Ill-formed words (R82; VE1 to VE13): each check refuses a word that breaks it alone -/

theorem test_illegal_cmd :
    (OpWords.wellFormed ⟨0x0000010B, ⟨0, 0, 0, 0, 0, 0⟩⟩ = false) ∧ OpWords.wellFormed ⟨0x0F, ⟨0, 0, 0, 0, 0, 0⟩⟩ = false ∧
    OpWords.wellFormed ⟨0x00, ⟨0, 0, 0, 0, 0, 0⟩⟩ = false ∧ OpWords.wellFormed ⟨0x14, ⟨0, 0, 0, 0, 0, 0⟩⟩ = false := by
  decide

theorem test_illegal_setMode :
    OpWords.wellFormed ⟨0x02, ⟨0x0000000A, 0, 0, 0, 0, 0⟩⟩ = false ∧
    OpWords.wellFormed ⟨0x02, ⟨0x01000001, 0, 0, 0, 0, 0⟩⟩ = false ∧
    OpWords.wellFormed ⟨0x02, ⟨0x00040001, 0, 0, 0, 0, 0⟩⟩ = false ∧
    OpWords.wellFormed ⟨0x02, ⟨0x00000401, 0, 0, 0, 0, 0⟩⟩ = false ∧
    OpWords.wellFormed ⟨0x02, ⟨0x00FFFF01, 0, 0, 0, 0, 0⟩⟩ = true := by decide

theorem test_illegal_setBitrate :
    OpWords.wellFormed ⟨0x03, ⟨0x00010000, 0, 0, 0, 0, 0⟩⟩ = false ∧
    OpWords.wellFormed ⟨0x03, ⟨0x00000004, 0, 0, 0, 0, 0⟩⟩ = false ∧
    OpWords.wellFormed ⟨0x03, ⟨0x0000FE00, 0, 0, 0, 0, 0⟩⟩ = false := by decide

theorem test_illegal_startTransceive :
    OpWords.wellFormed ⟨0x07, ⟨2, 0, 0, 0, 0, 0⟩⟩ = false ∧ OpWords.wellFormed ⟨0x0A, ⟨0, 0x10000, 0, 0, 0, 0⟩⟩ = false ∧
    OpWords.wellFormed ⟨0x0A, ⟨0, 0, 0, 0x10000, 0, 0⟩⟩ = false ∧
    OpWords.wellFormed ⟨0x0A, ⟨0, 0, 0, 0, 0x20, 0⟩⟩ = false := by decide

theorem test_illegal_primitives :
    OpWords.wellFormed ⟨0x0D, ⟨0x80, 0, 0, 0, 0, 0⟩⟩ = false ∧ OpWords.wellFormed ⟨0x0D, ⟨0, 0, 0, 0x10000, 0, 0⟩⟩ = false ∧
    OpWords.wellFormed ⟨0x0E, ⟨0, 0x800, 0, 0, 0, 0⟩⟩ = false := by decide

theorem test_illegal_listen_wakeup :
    OpWords.wellFormed ⟨0x10, ⟨0x10, 0, 0, 0, 0, 0⟩⟩ = false ∧ OpWords.wellFormed ⟨0x10, ⟨0, 0, 0, 0x10000, 0, 0⟩⟩ = false ∧
    OpWords.wellFormed ⟨0x12, ⟨8, 0, 0, 0, 0, 0⟩⟩ = false ∧ OpWords.wellFormed ⟨0x12, ⟨0, 0x80, 0, 0, 0, 0⟩⟩ = false ∧
    OpWords.wellFormed ⟨0x12, ⟨0, 0, 0x01000000, 0, 0, 0⟩⟩ = false := by decide

/-- The decoder refuses illegal words by name. -/
theorem test_decode_refuses :
    decode ⟨0x0000010B, ⟨0, 0, 0, 0, 0, 0⟩⟩ = .error .cmdUpperBits ∧
    decode ⟨0x14, ⟨0, 0, 0, 0, 0, 0⟩⟩ = .error .unknownOpcode ∧
    decode ⟨0x02, ⟨0x0A, 0, 0, 0, 0, 0⟩⟩ = .error .illegalEnum ∧
    decode ⟨0x12, ⟨8, 0, 0, 0, 0, 0⟩⟩ = .error .reservedOperand := by decide

/-! ## States of the tests -/

/-- The test configuration T of `95_test_vectors.md`, but for the OPEN functions, which have no value here. -/
def cfg : Params := ⟨96, 64, 64, 0x00FFFFFF, 1000000, 1000000, 1000000, 512, 4096⟩

/-- After the prologue `PRO(m)` of `95_test_vectors.md`, with an empty trace. -/
def ready (m : Mode) : State := { State.reset with params := cfg, topState := .modeSet, mode := m, fieldOn := true }

/-- The front end of a state, changed. -/
def fe (f : FrontEnd → FrontEnd) (s : State) : State := { s with env := { s.env with fe := f s.env.fe } }

/-- Flags are pending. -/
def pending (w : Word) (s : State) : State := fe (fun f => { f with irqPending := w }) s

/-- Bytes are in the FIFO. -/
def inFifo (bytes : List Byte) (s : State) : State := fe (fun f => { f with fifo := bytes }) s

/-- What the environment will do. -/
def scripted (l : List (List EnvEvent)) (s : State) : State := { s with env := { s.env with script := l } }

/-- The exchange of V8 in the state `t`: 56 bits from `0x100`, up to 64 bytes to `0x200`. -/
def exchange (m : Mode) (t : TxrxState) : State :=
  { ready m with
    topState := .txRx, txrxState := t, status := .busy
    ctx := ⟨0x100, 56, 0x200, 512, 0, 1000, none, false⟩ }

/-- A reception under way, `n` bytes counted and copied, the guard armed. -/
def receiving (m : Mode) (n : Len) : State :=
  { exchange m .rxWaitRxe with fifo := ⟨n, n, 64⟩, sw := ⟨false, true, false⟩ }

/-- Listening with a buffer of 256 bytes at `0x300` (VL5). -/
def listening (l : LmState) : State :=
  { ready .modeNone with topState := .listen, lmState := l, lm := ⟨0x300, 2048, 0, .keep, false⟩, fieldOn := false }

/-- In Wake-Up with the amplitude channel enabled (P5). -/
def sleeping (w : WuState) : State :=
  { ready .modeNone with
    topState := .wakeUp, wuState := w, fieldOn := false, wu := ⟨⟨true, true, false, 10, 0x55⟩, channelZero, channelZero⟩ }

/-- The result is a next state with this property. -/
def gives (r : Result) (p : State → Bool) : Bool :=
  match r with
  | .next t => p t
  | .fault _ | .refused _ => false

/-! ## One step of each operation (the vectors of `95_test_vectors.md`) -/

/-- VC2, on the machine right after reset, through the step. -/
theorem test_initialise_from_reset :
    gives (step (State.reset.withFetchWord 32 0x01)) (fun t => t.topState == .init && t.result == .none && stateWord t == 0x100) =
      true := by decide

/-- VC21: one `POST_TXRX` when an exchange is abandoned. -/
theorem test_initialise_busy :
    gives (exec .initialise (exchange .pollNfcA .rxWaitRxs))
      (fun t => t.status == .none && t.txrxState == .idle && postHooks t.env.trace == 1) = true := by decide

/-- VC4. -/
theorem test_setMode_unsupported :
    gives (exec (.setMode .listenNfcA .br106 .br106) (ready .pollNfcB))
      (fun t => t == { ready .pollNfcB with result := .notSupported }) = true := by decide

/-- VC5. -/
theorem test_setMode_accepts :
    gives (exec (.setMode .listenActiveP2P .br424 .br424) { ready .modeNone with topState := .init, fieldOn := false })
      (fun t => t.mode == .listenActiveP2P && t.txBR == .br424 && stateWord t == 0x200 &&
        t.env.trace == [.feConfig (.mode .listenActiveP2P), .applyAnalogConfig ⟨true, .activeP2P, none, .common⟩,
          .feConfig (.bitrate .br424 .br424), .applyAnalogConfig ⟨true, .activeP2P, some .br424, .tx⟩,
          .applyAnalogConfig ⟨true, .activeP2P, some .br424, .rx⟩]) = true := by decide

/-- VC7. -/
theorem test_setBitrate_keep :
    gives (exec (.setBitrate .keep .br424) { ready .pollNfcF with txBR := .br212, rxBR := .br212 })
      (fun t => t.txBR == .br212 && t.rxBR == .br424 &&
        t.env.trace == [.feConfig (.bitrate .br212 .br424), .applyAnalogConfig ⟨false, .nfcF, some .br212, .tx⟩,
          .applyAnalogConfig ⟨false, .nfcF, some .br424, .rx⟩]) = true := by decide

/-- VC8: the NFC-V stream comes last. -/
theorem test_setBitrate_nfcv :
    gives (exec (.setBitrate .br106 .br106) (ready .pollNfcV))
      (fun t => t.env.trace.getLast? == some (.feConfig (.nfcvStream .br106 .br106))) = true := by decide

/-- VC10 for each setter (R64(d)): a value beyond the maximum is clamped. -/
theorem test_setters_clamp :
    gives (exec (.setGt 2000000) (ready .pollNfcA)) (fun t => t.timing.gt == 1000000) = true ∧
    gives (exec (.setFdtPoll 1000001) (ready .pollNfcA)) (fun t => t.timing.fdtPoll == 1000000) = true ∧
    gives (exec (.setFdtListen 1172) (ready .pollNfcA)) (fun t => t.timing.fdtListen == 1172) = true := by decide

/-- VC12. -/
theorem test_setErrorHandling :
    gives (exec (.setErrorHandling .policyEMVCo) (ready .pollNfcB))
      (fun t => t.policy == .policyEMVCo && t.env.trace == [.feConfig (.nrtEmvMode true)]) = true := by decide

/-- VC15: with `CAC` and `CAT` together the collision counts. -/
theorem test_fieldOn_collision :
    gives (exec .fieldOnAndStartGt
        (scripted [[], [], [], [], [.raise (irqCAC ||| irqCAT)]] { ready .pollNfcA with fieldOn := false }))
      (fun t => t.result == .rfCollision && t.fieldOn == false && t.sw.gt == false && t.env.trace.length == 6) = true := by
  decide

/-- `PRO`: on `CAT` the field is on, and the last call enables transmitter and receiver. -/
theorem test_fieldOn_completes :
    gives (exec .fieldOnAndStartGt (scripted [[], [], [], [.raise irqCAT]] { ready .pollNfcA with fieldOn := false }))
      (fun t => t.result == .none && stateWord t == 0x00100200 &&
        t.env.trace.getLast? == some (.feConfig (.txrxEnable true))) = true := by decide

/-- VC18. -/
theorem test_fieldOff_busy :
    gives (exec .fieldOff (exchange .pollNfcA .rxWaitRxs))
      (fun t => t.txrxState == .idle && t.status == .io && t.fieldOn == false &&
        t.env.trace == [.feConfig (.flags 0), .feIrqDisable txrxIrqs, .postTxRx, .feConfig (.txrxEnable false)]) = true := by
  decide

/-- VS4 and VS3: the last buffer that fits, and the first that does not. -/
theorem test_start_bounds :
    gives (exec (.startTransceive 0xFFE 16 0 0 0 0) (ready .pollNfcV)) (fun t => t.result == .none && t.txrxState == .txIdle) =
      true ∧
    gives (exec (.startTransceive 0xFFF 16 0 0 0 0) (ready .pollNfcV))
      (fun t => t == { ready .pollNfcV with result := .param }) = true := by decide

/-- VS12 (in a mode whose `FWT_ADJ` is 0) and V2: the no-response timer saturates; without a tx buffer the rx-phase starts. -/
theorem test_start_timers :
    gives (exec (.startTransceive 0x100 0 0x200 512 0 0x01000000) (ready .pollNfcV))
      (fun t => t.timing.nrtValue == 0x00FFFFFF && t.ctx.txBuf == 0 && stateWord t == 0x00100320) = true := by decide

/-- V8, WORKER #1. -/
theorem test_worker_transmits :
    gives (exec .worker { exchange .pollNfcA .txIdle with buf := writeBytes [] 0x100 [0xA0, 0xA1, 0xA2, 0xA3, 0xA4, 0xA5, 0xA6] })
      (fun t => t.txrxState == .txWaitTxe && t.fifo.bytesTotal == 7 && t.fifo.bytesWritten == 7 &&
        t.env.trace == [.preTxRx, .feCmd .clearFifo, .feConfig (.txLengthBits 56),
          .feFifoWrite [0xA0, 0xA1, 0xA2, 0xA3, 0xA4, 0xA5, 0xA6], .feCmd .txWithCrc]) = true := by decide

/-- V8, WORKER #5: three of five bytes are delivered, 24 bits reported, the CRC left in the FIFO. -/
theorem test_worker_receives :
    gives (exec .worker (inFifo [0x11, 0x22, 0x33, 0xC1, 0xC2] (pending irqRXE (receiving .pollNfcA 0))))
      (fun t => t.txrxState == .idle && t.status == .none && t.rxRcvdLen == 24 && t.fifo.bytesTotal == 5 &&
        t.fifo.bytesWritten == 3 && t.env.fe.fifo == [0xC1, 0xC2] && readBytes t.buf 0x200 4 == [0x11, 0x22, 0x33, 0]) =
      true := by decide

/-- V9, reported by GET_STATUS; VS16: `Busy` while the exchange runs. -/
theorem test_getStatus :
    gives (exec .getStatus { ready .pollNfcA with status := .framing, rxRcvdLen := 24 })
      (fun t => t.result == .framing && t.ret0 == 24) = true ∧
    gives (exec .getStatus (exchange .pollNfcA .rxWaitRxs)) (fun t => t.result == .busy && t.ret0 == 0) = true := by decide

/-- VA3 (in the words of R122): the short frame 26 is answered with 04 00. -/
theorem test_shortFrame :
    gives (exec (.shortFrameTransceive 0x26 0x200 16 1236)
        (scripted (idleTurns 11 ++ [[.drain 1, .raise irqTXE], [.receive [0x04, 0x00], .raise irqRXS], [.raise irqRXE]])
          (ready .pollNfcA)))
      (fun t => t.result == .none && t.ret0 == 16 && readBytes t.buf 0x200 2 == [0x04, 0x00] &&
        t.env.trace.contains (.feFifoWrite [0x26]) && t.env.trace.contains (.feCmd .txWithoutCrc)) = true := by decide

/-- VA1, VA2: the mode and the field are checked. -/
theorem test_shortFrame_rejects :
    gives (exec (.shortFrameTransceive 0x26 0x200 16 1236) (ready .pollNfcB))
      (fun t => t == { ready .pollNfcB with result := .wrongState }) = true ∧
    gives (exec (.shortFrameTransceive 0x26 0x200 16 1236) { ready .pollNfcA with fieldOn := false })
      (fun t => t.result == .wrongState) = true := by decide

/-- VA7: two bytes sent from `0x100`, five received after them. -/
theorem test_anticollision :
    gives (exec (.anticollisionTransceive 0x100 2 0 1236)
        { scripted (idleTurns 10 ++
            [[.drain 2, .raise irqTXE], [.receive [1, 2, 3, 4, 5], .raise irqRXS], [.raise irqRXE]]) (ready .pollNfcA) with
          buf := writeBytes [] 0x100 [0x93, 0x20] })
      (fun t => t.result == .none && t.ret0 == 40 && readBytes t.buf 0x100 8 == [0x93, 0x20, 1, 2, 3, 4, 5, 0]) = true := by
  decide

/-- R123: four bits of the byte `0x0A` were sent; the received byte is OR-ed into it, and the collision is reported. -/
theorem test_anticollision_split :
    gives (exec (.anticollisionTransceive 0x100 0 4 1236)
        { fe (fun f => { f with collisionBytes := 1, collisionBits := 3 })
            (scripted (idleTurns 10 ++ [[.drain 1, .raise irqTXE], [.receive [0x50, 7], .raise irqRXS],
              [.raise (irqRXE ||| irqCOL)]]) (ready .pollNfcA)) with
          buf := writeBytes [] 0x100 [0x0A] })
      (fun t => t.result == .rfCollision && t.ret1 == 0x301 && readBytes t.buf 0x100 3 == [0x5A, 7, 0]) = true := by decide

/-- VL5; VL3. -/
theorem test_listenStart :
    gives (exec (.listenStart 8 0x300 2048) { ready .modeNone with topState := .init, fieldOn := false })
      (fun t => t.result == .none && stateWord t == 0x1400 &&
        t.env.trace == [.feGetIrq lmIrqs 0, .feIrqEnable lmIrqs, .feConfig (.listenAp2p true)]) = true ∧
    gives (exec (.listenStart 9 0x300 2048) (ready .modeNone)) (fun t => t.result == .notSupported && t.env.trace == []) =
      true := by decide

/-- VL17; VL18. -/
theorem test_listenStop :
    gives (exec .listenStop (listening .idle))
      (fun t => stateWord t == 0x100 && t.env.trace == [.feConfig (.listenAp2p false), .feIrqDisable lmIrqs]) = true ∧
    gives (exec .listenStop (ready .pollNfcA)) (fun t => t.topState == .modeSet && t.env.trace == []) = true := by decide

/-- V10, with the amplitude measured as 0x55. -/
theorem test_wakeupStart :
    gives (exec (.wakeupStart ⟨true, true, false, 10, 0⟩ channelZero channelZero)
        (fe (fun f => { f with measuredAmp := 0x55 }) { ready .modeNone with topState := .init }))
      (fun t => t.wu.amp.reference == 0x55 && stateWord t == 0x00010500 &&
        t.env.trace.head? == some (.feMeasure .amp 0x55)) = true := by decide

/-- V10: capacitive with amplitude, and capacitive alone. -/
theorem test_wakeupStart_rejects :
    gives (exec (.wakeupStart ⟨true, true, false, 10, 0⟩ channelZero ⟨true, false, false, 10, 0⟩) (ready .modeNone))
      (fun t => t.result == .param && t.env.trace == []) = true ∧
    gives (exec (.wakeupStart channelZero channelZero ⟨true, false, false, 10, 0⟩) (ready .modeNone))
      (fun t => t.result == .notImplemented) = true := by decide

/-- VW7. -/
theorem test_wakeupStop :
    gives (exec .wakeupStop (sleeping .enabledWoke))
      (fun t => stateWord t == 0x100 && t.wu.amp.enabled == false &&
        t.env.trace == [.feConfig (.wakeup none), .feIrqDisable (irqWAM ||| irqWPH ||| irqWCAP)]) = true := by decide

/-! ## Witnesses: for every obligation with hypotheses, a state and operands that meet them -/

theorem cfg_wf : cfg.wf := by unfold Params.wf; decide

/-- The invariant holds of a machine with no exchange, with `GT` running out. -/
theorem inv_ready : Inv { ready .pollNfcA with sw := ⟨true, false, false⟩, buf := [(0x100, 0xA0)] } := by
  refine ⟨cfg_wf, ?_, ?_, ?_, ?_, ?_, ?_, ?_, ?_, ?_, ?_, ?_, ?_, ?_, ?_, ?_, ?_, ?_⟩ <;> first | decide | (unfold ctxInBounds; decide)

/-- In the middle of a transmission of 200 bytes (P2). -/
def sending : State :=
  { exchange .pollNfcF .txWaitWl with ctx := ⟨0x400, 1600, 0x800, 512, 1, 0, none, false⟩, fifo := ⟨200, 96, 64⟩ }

/-- The invariant holds there. -/
theorem inv_sending : Inv sending := by
  refine ⟨cfg_wf, ?_, ?_, ?_, ?_, ?_, ?_, ?_, ?_, ?_, ?_, ?_, ?_, ?_, ?_, ?_, ?_, ?_⟩ <;> first | decide | (unfold ctxInBounds; decide)

/-- The invariant holds in a reception whose buffer is full (V3 b). -/
theorem inv_receiving : Inv (receiving .pollNfcA 64) := by
  refine ⟨cfg_wf, ?_, ?_, ?_, ?_, ?_, ?_, ?_, ?_, ?_, ?_, ?_, ?_, ?_, ?_, ?_, ?_, ?_⟩ <;> first | decide | (unfold ctxInBounds; decide)

/-- The invariant holds while listening. -/
theorem inv_listening : Inv (listening .idle) := by
  refine ⟨cfg_wf, ?_, ?_, ?_, ?_, ?_, ?_, ?_, ?_, ?_, ?_, ?_, ?_, ?_, ?_, ?_, ?_, ?_⟩ <;> first | decide | (unfold ctxInBounds; decide)

/-- The invariant says nothing of the agenda. -/
theorem inv_agenda {s : State} (h : Inv s) (l : List Move) : Inv { s with agenda := l } :=
  ⟨h.params, h.buf, h.scratch, h.feFifo, h.feFlags, h.rests, h.txCounters, h.rxCounters, h.rxDrained, h.top, h.busy, h.ctx,
    h.ordinary, h.txSource, h.guard, h.listen, h.listenStates, h.modeSupported⟩

/-- Registers outside the format hold anything. -/
theorem witness_DecodeInvertsEncode :
    listedArgs (.shortFrameTransceive 0x26 0x200 16 9) ⟨0x26, 7, 0x200, 16, 7, 9⟩ =
      listedArgs (.shortFrameTransceive 0x26 0x200 16 9) (encodeArgs (.shortFrameTransceive 0x26 0x200 16 9)) := by decide

theorem witness_DecodedWordsAreTheEncoding :
    decode ⟨0x10, ⟨8, 7, 0x300, 0x800, 7, 7⟩⟩ = .ok (.listenStart 0b1000 0x300 2048) := by decide

theorem witness_IllegalOperationReturnsParam :
    { ready .pollNfcA with agenda := [.host (.regWrite 0 .word 0x10B)] }.agenda = [.host (.regWrite 0 .word 0x10B)] ∧
      OpWords.wellFormed ⟨0x10B, (ready .pollNfcA).arg⟩ = false := ⟨rfl, by decide⟩

theorem witness_StepRunsDecodedOperation :
    (placeOperation ⟨0x0B, ⟨1, 2, 3, 4, 5, 6⟩⟩ (ready .pollNfcA)).agenda = [.host (.regWrite 0 .word 0x0B)] ∧
      decode ⟨0x0B, (placeOperation ⟨0x0B, ⟨1, 2, 3, 4, 5, 6⟩⟩ (ready .pollNfcA)).arg⟩ = .ok .worker := ⟨rfl, by decide⟩

/-- Each clause of the access has an offset: a byte access, an offset that is no multiple of 4, the first offset beyond the
map, `CMD`, and the registers of the map. -/
theorem witness_RegisterReads :
    ({ ready .pollNfcA with agenda := [.host (.regRead 0x24 .byte)] }.agenda = [.host (.regRead 0x24 .byte)]) ∧
      (0x3A : Word).toNat % 4 ≠ 0 ∧ 0x3C ≤ (0x3C : Word).toNat ∧
      ∀ off ∈ [(0 : Word), 0x04, 0x08, 0x0C, 0x10, 0x14, 0x18, 0x1C, 0x20, 0x24, 0x28, 0x2C, 0x30, 0x34, 0x38],
        { ready .pollNfcA with agenda := [.host (.regRead off .word)] }.agenda = [.host (.regRead off .word)] := ⟨rfl, by decide, by decide, fun _ _ => rfl⟩

theorem witness_RegisterWrites :
    { ready .pollNfcA with agenda := [.host (.regWrite 0x08 .word 5)] }.agenda = [.host (.regWrite 0x08 .word 5)] ∧
      ((0x08 : Word) ≠ 0 ∨ AccessSize.word ≠ .word) ∧ ((0 : Word) ≠ 0 ∨ AccessSize.half ≠ .word) := ⟨rfl, by decide, by decide⟩

/-- The last address of BUF, and the first beyond it, written and read. -/
theorem witness_BufReadsWhatWasWritten :
    (ready .pollNfcA).buf.wf = true ∧ (0xFFF : Word).toNat < (ready .pollNfcA).params.bufSize ∧
      (ready .pollNfcA).params.bufSize ≤ (0x1000 : Word).toNat ∧
      { ready .pollNfcA with agenda := [.host (.bufWrite 0xFFF 1), .host (.bufRead 0xFFF)] }.agenda =
        [.host (.bufWrite 0xFFF 1), .host (.bufRead 0xFFF)] ∧
      { ready .pollNfcA with agenda := [.host (.bufRead 0x1000)] }.agenda = [.host (.bufRead 0x1000)] :=
  ⟨by decide, by decide, by decide, rfl, rfl⟩

theorem witness_OnlyEnabledFlagsAreLatched :
    Inv { sending with agenda := [.env (.raise irqWL)] } ∧
      { sending with agenda := [.env (.raise irqWL)] }.agenda = [.env (.raise irqWL)] := ⟨inv_agenda inv_sending _, rfl⟩

theorem witness_StepKeepsInv :
    Inv { sending with agenda := [.host (.regWrite 0 .word 0x0B)] } ∧
      ∃ t, step { sending with agenda := [.host (.regWrite 0 .word 0x0B)] } = .next t := ⟨inv_agenda inv_sending _, _, rfl⟩

theorem witness_NoOperationLeavesItsBuffers :
    Inv (receiving .pollNfcA 64) ∧ (receiving .pollNfcA 64).topState = .txRx ∧
      rxPhase (receiving .pollNfcA 64).txrxState = true ∧ noDrain (receiving .pollNfcA 64) := ⟨inv_receiving, rfl, by decide, fun _ h => nomatch h⟩

theorem witness_SiblingsStayExclusive :
    siblingsExclusive (listening .idle) ∧ opcode .listenStop ∉ [(0x02 : Word), 0x0A, 0x0D, 0x0E] ∧
      ∃ t, exec .listenStop (listening .idle) = .next t := ⟨by unfold siblingsExclusive; decide, by decide, _, rfl⟩

theorem witness_OnlyTheNamedOperationsWrite :
    ∃ t, exec .worker (receiving .pollNfcA 64) = .next t := ⟨_, rfl⟩

/-- A peer answers the short frame (VA3). -/
def answered : State :=
  scripted (idleTurns 11 ++ [[.drain 1, .raise irqTXE], [.receive [4, 0], .raise irqRXS], [.raise irqRXE]]) (ready .pollNfcA)

/-- The invariant holds before it. -/
theorem inv_answered : Inv answered := by
  refine ⟨cfg_wf, ?_, ?_, ?_, ?_, ?_, ?_, ?_, ?_, ?_, ?_, ?_, ?_, ?_, ?_, ?_, ?_, ?_⟩ <;> first | decide | (unfold ctxInBounds; decide)

/-- Each of the three clauses, at the first address beyond the buffer. -/
theorem witness_StoresStayInTheBuffer :
    (Inv (receiving .pollNfcA 64) ∧ (∃ t, exec .worker (receiving .pollNfcA 64) = .next t) ∧ outside 0x200 (ceil8 512) 0x240) ∧
      (Inv answered ∧ (∃ t, exec (.shortFrameTransceive 0x26 0x200 16 9) answered = .next t) ∧ outside 0x200 (ceil8 16) 0x202) ∧
      (∃ t, exec (.anticollisionTransceive 0x100 1 0 9) answered = .next t) ∧ outside (0x100 + 1) 5 0x106 :=
  ⟨⟨inv_receiving, ⟨_, rfl⟩, .inr (by decide)⟩, ⟨inv_answered, ⟨_, rfl⟩, .inr (by decide)⟩, ⟨_, rfl⟩, .inr (by decide)⟩

theorem witness_StoresStayInTheBuffer_listen :
    Inv (listening .idle) ∧ (∃ t, exec .worker (listening .idle) = .next t) ∧ outside 0x300 (ceil8 2048) 0x2FF := ⟨inv_listening, ⟨_, rfl⟩, .inl (by decide)⟩

/-- FIELD_OFF ends an exchange; SHORT_FRAME_TRANSCEIVE is turned away. -/
theorem witness_CleanupRunsOncePerExchange :
    (∃ t, exec .fieldOff (exchange .pollNfcA .rxWaitRxs) = .next t) ∧ opcode .fieldOff ∉ [(0x0D : Word), 0x0E] ∧
      (∃ t, exec (.shortFrameTransceive 0x26 0x200 16 9) (ready .pollNfcB) = .next t) ∧
      opcode (.shortFrameTransceive 0x26 0x200 16 9) ∈ [(0x0D : Word), 0x0E] := ⟨⟨_, rfl⟩, by decide, ⟨_, rfl⟩, by decide⟩

theorem witness_PreHookBeforeTransmitOrReceiveOnly :
    (exchange .pollNfcA .txIdle).topState = .txRx ∧ gives (exec .worker (exchange .pollNfcA .txIdle)) (fun _ => true) = true := by decide

/-- Each of the three clauses. -/
theorem witness_TransmissionPrecedesReception :
    gives (exec .worker (ready .pollNfcA)) (fun _ => true) = true ∧ (ready .pollNfcA).txrxState = .idle ∧
      gives (exec .worker (receiving .pollNfcA 0)) (fun _ => true) = true ∧ rxPhase (receiving .pollNfcA 0).txrxState = true ∧
      gives (exec .worker sending) (fun _ => true) = true ∧ txPhase sending.txrxState = true := by decide

/-- Each clause: accepted; not initialised; `MODE_NONE`; a passive listen mode; an exchange running. -/
theorem witness_SetModeAcceptsOrRejects :
    ((ready .pollNfcA).topState ≠ .notInit ∧ Mode.pollNfcV ≠ .modeNone ∧
        Mode.pollNfcV ∉ [Mode.listenNfcA, .listenNfcB, .listenNfcF] ∧ (ready .pollNfcA).txrxState = .idle) ∧
      State.reset.topState = .notInit ∧ Mode.listenNfcB ∈ [Mode.listenNfcA, .listenNfcB, .listenNfcF] ∧
      (exchange .pollNfcA .txIdle).topState ≠ .notInit ∧
      Mode.listenActiveP2P ∉ [Mode.modeNone, .listenNfcA, .listenNfcB, .listenNfcF] ∧
      (exchange .pollNfcA .txIdle).txrxState ≠ .idle := by decide

theorem witness_SetBitrateCompletes :
    ((ready .pollNfcV).topState ∉ [TopState.notInit, .init] ∧ (ready .pollNfcV).txrxState = .idle) ∧
      State.reset.topState ∈ [TopState.notInit, .init] ∧ (exchange .pollNfcA .txIdle).txrxState ≠ .idle := by decide

/-- The front end answers `CAC` after one empty poll; and it has answered `CAT` by the first poll. -/
theorem witness_FieldOnAndStartGuardTime :
    let s := scripted [[], [], [], [], [.raise irqCAC]] { ready .pollNfcA with fieldOn := false }
    let g := scripted [[], [], [.raise irqCAT]] { ready .pollNfcA with fieldOn := false }
    (s.topState ∉ [TopState.notInit, .init] ∧ s.fieldOn = false ∧ s.env.script.drop 3 = idleTurns 1 ++ [.raise irqCAC] :: [] ∧
      pendingIn (irqCAC ||| irqCAT) (fieldOnRequest s) = 0 ∧ irqCAC &&& (irqCAC ||| irqCAT) ≠ 0) ∧
      g.topState ∉ [TopState.notInit, .init] ∧ g.fieldOn = false ∧
      polled (irqCAC ||| irqCAT) (fieldOnRequest g) = irqCAT ∧ irqCAT ≠ 0 := by decide

/-- The field on; not initialised; the field off and a front end that never answers. -/
theorem witness_FieldOnAndStartGuardTime_other :
    ((ready .pollNfcA).topState ∉ [TopState.notInit, .init] ∧ (ready .pollNfcA).fieldOn = true) ∧
      State.reset.topState ∈ [TopState.notInit, .init] ∧
      { ready .pollNfcA with fieldOn := false }.topState ∉ [TopState.notInit, .init] ∧
      { ready .pollNfcA with fieldOn := false }.fieldOn = false ∧ quietEnv { ready .pollNfcA with fieldOn := false } := ⟨by decide, by decide, by decide, rfl, rfl⟩

/-- The last tx buffer that fits (VS4), and a receive-only exchange. -/
theorem witness_StartTransceiveCompletes :
    (ready .pollNfcB).topState ∉ [TopState.notInit, .init] ∧ (ready .pollNfcB).txrxState = .idle ∧
      ((0xFFE : Word) ≠ 0 ∧ (16 : Len) ≠ 0 ∨ (0 : Word) ≠ 0) ∧ inBounds cfg 0xFFE 16 = true ∧
      inBounds cfg 0x200 512 = true ∧ (ready .pollNfcB).fieldOn = true := by decide

/-- Each clause: VS6, VS3, VS8. -/
theorem witness_StartTransceiveRejects :
    { ready .pollNfcB with topState := .init }.topState ∈ [TopState.notInit, .init] ∧
      inBounds cfg 0xFFF 16 = false ∧
      { ready .pollNfcB with fieldOn := false }.topState ∉ [TopState.notInit, .init] ∧
      { ready .pollNfcB with fieldOn := false }.txrxState = .idle ∧ inBounds cfg 0x200 64 = true ∧
      isListen .pollNfcB = false ∧ { ready .pollNfcB with fieldOn := false }.fieldOn = false := by decide

/-- Each of the five clauses. -/
theorem witness_WorkerSkipsWithNothingActive :
    (ready .pollNfcA).topState ∈ [TopState.notInit, .init, .modeSet] ∧
      (({ ready .pollNfcA with topState := .txRx }).topState = .txRx ∧ (ready .pollNfcA).txrxState = .idle) ∧
      (listening .notInit).lmState ∉ [LmState.powerOff, .idle] ∧
      ({ listening .idle with lm := ⟨0x300, 2048, 0, .keep, true⟩ }).lm.dataFlag = true ∧ (sleeping .enabledWoke).wuState ≠ .enabled := by decide

theorem witness_GetStatusReturnsStatus :
    (exchange .pollNfcA .txIdle).txrxState ≠ .idle ∧ (ready .pollNfcA).txrxState = .idle := by decide

/-- V6: three WORKER operations before the guard time is over, while the front end raises a flag. -/
theorem witness_GuardTimeAndFrameDelayGateTransmission :
    let s := scripted [[], [.raise irqNRE], [.swExpire .apFwt], [.swExpire .gt]]
      { exchange .pollNfcA .txWaitGt with sw := ⟨true, false, false⟩ }
    s.topState = .txRx ∧ s.txrxState ∈ [TxrxState.txIdle, .txWaitGt] ∧ s.sw.gt = true ∧ s.env.swGt.expired = false ∧
      ∀ es ∈ s.env.script.take 3, EnvEvent.swExpire .gt ∉ es := by decide

/-- An exchange of V8 with GPT in a state and FDT-Poll set. -/
def delayed (t : TxrxState) (g : HwTimerState) : State :=
  fe (fun f => { f with gpt := ⟨g, 6780⟩ }) { exchange .pollNfcA t with timing := ⟨0, 0, 6780, 0, true, 0⟩ }

/-- An exchange of V8 in `TX_WAIT_GT` whose guard time is over when it is asked for (VT17). -/
def guarded (s : State) : State :=
  scripted [[.swExpire .gt]] { s with txrxState := .txWaitGt, sw := ⟨true, false, false⟩ }

/-- VT15: GPT running, in `TX_WAIT_FDT` and behind an expired guard time. -/
theorem witness_GuardTimeAndFrameDelayGateTransmission_frameDelay :
    let s := delayed .txWaitFdt .running
    (s.topState = .txRx ∧ s.txrxState ∈ [TxrxState.txIdle, .txWaitGt, .txWaitFdt] ∧ guardOver s ∧ asksDelay s = true ∧
      delayAnswer s = .running) ∧
      asksGuard (guarded s) = true ∧ guardOver (guarded s) ∧ asksDelay (guarded s) = true ∧
      delayAnswer (guarded s) = .running := by
  unfold guardOver; decide

/-- Past no gate; past an expired guard time; past GPT stopped, armed and expired (VT15, VT17). -/
theorem witness_TransmitLoadsTheFifo :
    let ok (s : State) := (s.topState = .txRx ∧ s.txrxState ∈ [TxrxState.txIdle, .txWaitGt, .txWaitFdt, .txTransmit] ∧
      s.mode ≠ .pollNfcV ∧ s.ctx.sfByte = none ∧ inBounds s.params s.ctx.txBuf s.ctx.txBufLen.toNat = true ∧
      s.ctx.txBufLen ≠ 0 ∧ 1 ≤ s.params.fifoDepth) ∧ guardOver s ∧ delayOver s
    ok (exchange .pollNfcA .txIdle) ∧ ok (guarded (exchange .pollNfcA .txWaitGt)) ∧
      ok (guarded (delayed .txWaitGt .expired)) ∧ ok (delayed .txWaitFdt .stopped) ∧ ok (delayed .txWaitFdt .armed) ∧
      asksGuard (guarded (delayed .txWaitGt .expired)) = true ∧ asksDelay (guarded (delayed .txWaitGt .expired)) = true := by
  unfold guardOver delayOver; dsimp only
  refine ⟨?_, ?_, ?_, ?_, ?_, ?_, ?_⟩ <;> decide

/-- Nothing is received in any of them. -/
theorem witness_TransmitLoadsTheFifo_noReceive :
    noReceive (exchange .pollNfcA .txIdle) ∧ noReceive (delayed .txWaitFdt .armed) ∧
      noReceive (guarded (delayed .txWaitGt .expired)) := by
  simp [noReceive, guarded, delayed, scripted, fe, exchange, ready, State.reset, Env.powerOn]

/-- From `TX_IDLE` and past an expired guard time. The conclusion says what happens for every length of the stream, of which
nothing is known. -/
theorem witness_NfcvTransmitsTheEncodedStream :
    let ok (s : State) := (s.topState = .txRx ∧ s.txrxState ∈ [TxrxState.txIdle, .txWaitGt, .txWaitFdt, .txTransmit] ∧
      s.mode = .pollNfcV ∧ s.nfcvScratch.wf = true ∧ inBounds s.params s.ctx.txBuf s.ctx.txBufLen.toNat = true) ∧
      guardOver s ∧ delayOver s
    ok (exchange .pollNfcV .txIdle) ∧ ok (guarded (exchange .pollNfcV .txWaitGt)) := by
  unfold guardOver delayOver; decide

theorem witness_NfcvTransmitsTheEncodedStream_noReceive :
    noReceive (exchange .pollNfcV .txIdle) ∧ noReceive (guarded (exchange .pollNfcV .txWaitGt)) := by
  simp [noReceive, guarded, scripted, exchange, ready, State.reset, Env.powerOn]

/-- VT8, VT6. -/
theorem witness_WatermarkWaitsReloadsOrFails :
    sending.topState = .txRx ∧ sending.txrxState = .txWaitWl ∧ polled (irqWL ||| irqTXE) sending = 0 ∧
      has (polled (irqWL ||| irqTXE) (pending irqTXE sending)) irqTXE = true := by decide

/-- VT5: 64 of the last 104 bytes, with room for them; and without. VT14: the same from the scratch buffer. -/
theorem witness_WatermarkWaitsReloadsOrFails_reload :
    let s := pending irqWL sending
    let ok (s : State) := s.topState = .txRx ∧ s.txrxState = .txWaitWl ∧ s.fifo.bytesTotal.toNat ≤ txSourceLen s ∧
      s.fifo.bytesWritten.toNat < s.fifo.bytesTotal.toNat ∧ s.fifo.expectedWaterLevel ≠ 0 ∧
      polled (irqWL ||| irqTXE) s = irqWL ∧
      64 = min (s.fifo.bytesTotal.toNat - s.fifo.bytesWritten.toNat) s.fifo.expectedWaterLevel.toNat
    let room (s : State) := s.params.fifoDepth - (atCall (feGetIrq (irqWL ||| irqTXE) s).2).env.fe.fifo.length
    (ok s ∧ s.mode ≠ .pollNfcV ∧ s.ctx.sfByte = none ∧ inBounds s.params s.ctx.txBuf s.ctx.txBufLen.toNat = true ∧
      64 ≤ room s ∧ room (inFifo (List.replicate 33 0) s) < 64) ∧
      ok { s with mode := .pollNfcV } ∧ 64 ≤ room { s with mode := .pollNfcV } := by decide

/-- VT9; VT11; V8, WORKER #2. -/
theorem witness_TransmitEndCompletesOrReceives :
    let s := exchange .pollNfcA .txWaitTxe
    let c : Ctx := ⟨0x100, 56, 0, 0, 0, 0, none, false⟩
    s.topState = .txRx ∧ s.txrxState = .txWaitTxe ∧ has (polled (irqWL ||| irqTXE) (pending irqWL s)) irqTXE = false ∧
      has (polled (irqWL ||| irqTXE) (pending irqTXE s)) irqTXE = true ∧ s.ctx.rxBuf ≠ 0 ∧ { s with ctx := c }.ctx.rxBuf = 0 := by decide

theorem witness_ReceptionStarts :
    (exchange .pollNfcA .rxIdle).topState = .txRx ∧ (exchange .pollNfcA .rxIdle).txrxState = .rxIdle ∧
      isActive (exchange .pollActiveP2P .rxIdle).mode = true ∧
      { exchange .pollActiveP2P .rxIdle with timing := ⟨0, 0, 0, 5, false, 0⟩ }.timing.nrtDisabled = false := by decide

/-- VX11, VX9, VX10, and the wait. -/
theorem witness_ExternalFieldOnBeforeTimeout :
    let s := exchange .pollActiveP2P .rxWaitEon
    let g := scripted [[], [.swExpire .apFwt]] { s with sw := ⟨false, false, true⟩ }
    s.topState = .txRx ∧ s.txrxState = .rxWaitEon ∧ 8 * s.fifo.bytesWritten.toNat < 65536 ∧
      has (polled (irqEON ||| irqNRE) (pending (irqEON ||| irqNRE) s)) irqEON = true ∧
      has (polled (irqEON ||| irqNRE) (pending irqNRE s)) irqEON = false ∧
      has (polled (irqEON ||| irqNRE) (pending irqNRE s)) irqNRE = true ∧
      (g.sw.apFwt = true ∧ (swExpired .apFwt (feGetIrq (irqEON ||| irqNRE) g).2).1 = true) ∧
      polled (irqEON ||| irqNRE) s = 0 ∧ ¬(s.sw.apFwt = true) := by decide

/-- VX3; VX13; VX1; and `RXS` with `EOF` (VX14). -/
theorem witness_StartOfFrameTimeoutOrLinkLoss :
    let s := exchange .pollActiveP2P .rxWaitRxs
    let m := irqRXS ||| irqNRE ||| irqEOF
    s.topState = .txRx ∧ s.txrxState = .rxWaitRxs ∧ m = irqRXS ||| irqNRE ||| (if isActive s.mode then irqEOF else 0) ∧
      polled m s = 0 ∧ has (polled m (pending (irqEOF ||| irqNRE) s)) irqRXS = false ∧
      polled m (pending (irqEOF ||| irqNRE) s) ≠ 0 ∧ 8 * s.fifo.bytesWritten.toNat < 65536 ∧
      has (polled m (pending (irqRXS ||| irqEOF) s)) irqRXS = true := by decide

/-- VX2, passive; VX14, active with the field gone. In the same WORKER a frame may already be over (VD4). -/
theorem witness_StartOfFrameTimeoutOrLinkLoss_start :
    let ok (s : State) := s.topState = .txRx ∧ s.txrxState = .rxWaitRxs ∧ s.env.script.tail = [] ∧
      has (atCall s).env.fe.irqPending irqRXS = true ∧ (atCall s).env.fe.irqPending &&& (irqRXE ||| irqWL) = 0 ∧
      8 * s.fifo.bytesWritten.toNat < 65536
    let s := pending (irqRXS ||| irqNRE) (exchange .pollNfcA .rxWaitRxs)
    let g := pending (irqRXS ||| irqEOF) (exchange .pollActiveP2P .rxWaitRxs)
    let d := inFifo [1, 2, 3] (pending (irqRXS ||| irqRXE) (exchange .pollNfcA .rxWaitRxs))
    ok s ∧ (atCall s).env.fe.irqPending &&& (if isActive s.mode then irqEOF else 0) = 0 ∧
      ok g ∧ (atCall g).env.fe.irqPending &&& (if isActive g.mode then irqEOF else 0) ≠ 0 ∧
      gives (exec .worker d) (fun t => t.txrxState == .idle && t.status == .none && t.rxRcvdLen == 8) = true := by decide

/-- VX15; VX4; the wait. -/
theorem witness_EndOfFrameLinkLossOrGuard :
    let s := receiving .pollActiveP2P 64
    let m := irqRXE ||| irqWL ||| irqEOF
    let g := scripted [[], [.swExpire .rxeGuard]] s
    s.topState = .txRx ∧ s.txrxState = .rxWaitRxe ∧ m = irqRXE ||| irqWL ||| (if isActive s.mode then irqEOF else 0) ∧
      8 * s.fifo.bytesWritten.toNat < 65536 ∧ has (polled m (pending irqEOF s)) irqRXE = false ∧
      has (polled m (pending irqEOF s)) irqEOF = true ∧
      (has (polled m g) irqWL = false ∧ (swExpired .rxeGuard (feGetIrq m g).2).1 = true) ∧
      s.eofSeen = false ∧ polled m s = 0 ∧ (swExpired .rxeGuard (feGetIrq m s).2).1 = false := by decide

/-- V3 c: 64 bytes present, capacity 60. -/
theorem witness_PartialDrainCopiesUpToCapacity :
    let s := inFifo (List.replicate 64 1) (pending irqWL { receiving .pollNfcA 0 with
      ctx := ⟨0x100, 56, 0x200, 480, 0, 1000, none, false⟩ })
    s.topState = .txRx ∧ s.txrxState = .rxWaitRxe ∧ s.mode ≠ .pollNfcV ∧ s.env.script = [] ∧ s.buf.wf = true ∧
      inBounds s.params s.ctx.rxBuf s.ctx.rxBufLen.toNat = true ∧ s.ctx.splitByte = false ∧ s.eofSeen = false ∧
      s.env.fe.irqPending &&& (irqRXE ||| irqWL ||| (if isActive s.mode then irqEOF else 0)) = irqWL ∧
      64 = s.env.fe.fifo.length ∧ 60 = (s.ctx.rxBufLen.toNat + 7) / 8 ∧ s.fifo.bytesWritten.toNat ≤ 60 ∧
      s.fifo.bytesWritten.toNat ≤ s.fifo.bytesTotal.toNat ∧ s.fifo.bytesTotal.toNat + 64 < 65536 ∧ 8 * 60 < 65536 ∧
      60 = min 64 (60 - s.fifo.bytesWritten.toNat) := by decide

/-- VM1; VK3; VK5; VK13; VK8; VK9; VK12; VK11; VK1. -/
theorem witness_ErrorCheckPriority :
    classify .policyNone .pollNfcA 0 irqPAR 1 4 false = .nfcaIncomplete ∧
      classify .policyNone .pollNfcA 0 (irqERR1 ||| irqCRC ||| irqPAR) 5 0 false = .error .framing ∧
      classify .policyEMVCo .pollNfcA 0 irqERR2 5 0 false = .error .framing ∧
      classify .policyNone .pollNfcA 0 irqPAR 5 3 false = .error .parity ∧
      classify .policyNone .pollNfcA 0 (irqCRC ||| irqCOL) 5 0 false = .error .crc ∧
      classify .policyNone .pollNfcA 0 irqCOL 5 0 false = .error .rfCollision ∧
      classify .policyNone .pollNfcA 0 0 5 3 true = .error .incompleteByte ∧
      classify .policyNone .pollNfcA 0 0 5 0 true = .error .framing ∧
      classify .policyNone .pollNfcA 0 irqERR2 5 0 false = .noError := by decide

/-- V3 b: the last 2 bytes of a frame of 66 in a buffer of 64; V9, with an error; in active communication with the field
still on, gone with the frame, and gone before (VX16, VX17). -/
theorem witness_FrameIsDeliveredAndReported :
    let s := inFifo [7, 8] (pending irqRXE (receiving .pollNfcA 64))
    let g := inFifo [1, 2, 3, 4, 5] (pending (irqRXE ||| irqERR1) (receiving .pollNfcA 0))
    let a := inFifo [1, 2, 3, 4, 5] (pending irqRXE (receiving .pollActiveP2P 0))
    let b := pending (irqRXE ||| irqEOF) a
    let ok (s : State) := s.topState = .txRx ∧ s.txrxState = .rxWaitRxe ∧ s.mode ≠ .pollNfcV ∧ s.env.script = [] ∧
      s.buf.wf = true ∧ inBounds s.params s.ctx.rxBuf s.ctx.rxBufLen.toNat = true ∧ s.ctx.splitByte = false ∧
      s.status = .busy ∧ has s.env.fe.irqPending irqRXE = true ∧ s.fifo.bytesWritten = s.fifo.bytesTotal ∧
      s.fifo.bytesWritten.toNat ≤ (s.ctx.rxBufLen.toNat + 7) / 8 ∧
      8 * (s.fifo.bytesTotal.toNat + s.env.fe.fifo.length) < 65536 ∧ s.policy = .policyNone
    let verdict (s : State) := classify s.policy s.mode s.fifo.bytesTotal.toNat
      (s.env.fe.irqPending &&& (irqERR1 ||| irqERR2 ||| irqPAR ||| irqCRC ||| irqCOL)) s.env.fe.fifo.length
      s.env.fe.incompleteBits s.env.fe.missingParity
    (ok s ∧ verdict s = .noError) ∧ (ok g ∧ verdict g = .error .framing) ∧
      (ok a ∧ verdict a = .noError ∧ isActive a.mode = true ∧ a.eofSeen = false) ∧
      (ok b ∧ verdict b = .noError ∧ has b.env.fe.irqPending irqEOF = true) ∧ ok { a with eofSeen := true } := by
  dsimp only
  refine ⟨?_, ?_, ?_, ?_, ?_⟩ <;> decide

/-- VM1. -/
theorem witness_ShortReplyBecomesIncompleteByte :
    let s := fe (fun f => { f with incompleteBits := 4 }) (inFifo [0x0A] (pending (irqRXE ||| irqPAR) (receiving .pollNfcA 0)))
    s.topState = .txRx ∧ s.txrxState = .rxWaitRxe ∧ s.mode = .pollNfcA ∧ s.policy = .policyNone ∧ s.env.script = [] ∧
      s.buf.wf = true ∧ inBounds s.params s.ctx.rxBuf s.ctx.rxBufLen.toNat = true ∧ s.ctx.splitByte = false ∧
      has s.env.fe.irqPending irqRXE = true ∧ has s.env.fe.irqPending irqERR1 = false ∧
      has s.env.fe.irqPending (irqPAR ||| irqCRC) = true ∧ s.env.fe.fifo = [0x0A] ∧ s.env.fe.incompleteBits ≠ 0 ∧
      s.fifo.bytesTotal = 0 ∧ s.fifo.bytesWritten = 0 := by decide

/-- V5: three bytes; and in active communication, with the field gone. -/
theorem witness_EmvcoDiscardsShortErroneousFrames :
    let ok (s : State) := s.topState = .txRx ∧ s.txrxState = .rxWaitRxe ∧ s.policy = .policyEMVCo ∧ s.env.script = [] ∧
      has s.env.fe.irqPending irqRXE = true ∧ 3 = s.env.fe.fifo.length ∧ s.fifo.bytesTotal.toNat + 3 < 4 ∧
      classify s.policy s.mode s.fifo.bytesTotal.toNat
        (s.env.fe.irqPending &&& (irqERR1 ||| irqERR2 ||| irqPAR ||| irqCRC ||| irqCOL)) 3 s.env.fe.incompleteBits
        s.env.fe.missingParity = .error .crc
    ok (inFifo [1, 2, 3] (pending (irqRXE ||| irqCRC) { receiving .pollNfcB 0 with policy := .policyEMVCo })) ∧
      ok (inFifo [1, 2, 3]
        (pending (irqRXE ||| irqCRC ||| irqEOF) { receiving .pollActiveP2P 0 with policy := .policyEMVCo })) := by decide

/-- Two more bytes fill the scratch buffer; one more goes beyond it; and a frame with an error. -/
theorem witness_NfcvDecodeOverridesTheStatus :
    let ok (s : State) (k : Nat) := s.topState = .txRx ∧ s.txrxState = .rxWaitRxe ∧ s.mode = .pollNfcV ∧ s.env.script = [] ∧
      s.buf.wf = true ∧ s.nfcvScratch.wf = true ∧ inBounds s.params s.ctx.rxBuf s.ctx.rxBufLen.toNat = true ∧
      has s.env.fe.irqPending irqRXE = true ∧ s.fifo.bytesTotal = s.fifo.bytesWritten ∧
      s.fifo.bytesWritten.toNat ≤ s.params.nfcvScratchSize ∧
      k = min (s.fifo.bytesWritten.toNat + s.env.fe.fifo.length) s.params.nfcvScratchSize - s.fifo.bytesWritten.toNat ∧
      s.policy ≠ .policyEMVCo
    ok (inFifo [1, 2] (pending irqRXE (receiving .pollNfcV 510))) 2 ∧
      ok (inFifo [1, 2, 3] (pending irqRXE (receiving .pollNfcV 510))) 2 ∧
      ok (inFifo [1, 2] (pending (irqRXE ||| irqCRC) (receiving .pollNfcV 0))) 2 := by decide

/-- VX16, VX17. -/
theorem witness_FrameEndWaitsForFieldOff :
    let s := exchange .pollActiveP2P .rxWaitEof
    s.topState = .txRx ∧ s.txrxState = .rxWaitEof ∧ { s with eofSeen := true }.eofSeen = true ∧
      has (polled irqEOF (pending irqEOF s)) irqEOF = true ∧ s.eofSeen = false ∧ has (polled irqEOF s) irqEOF = false := by decide

theorem witness_ListenStartCompletes :
    let s := { ready .modeNone with topState := .init }
    s.topState ∉ [TopState.notInit, .wakeUp] ∧ s.txrxState = .idle ∧ inBounds s.params 0xF00 2048 = true := by decide

/-- VL6, VL1, VL3, VL4; VW2 and V10. -/
theorem witness_ListenAndWakeupStartReject :
    (¬((sleeping .enabled).topState ∉ [TopState.notInit, .wakeUp])) ∧
      ((ready .modeNone).topState ∉ [TopState.notInit, .wakeUp] ∧ (ready .modeNone).txrxState = .idle) ∧
      (9 : BitVec 4).getLsbD 0 = true ∧ inBounds cfg 0 2048 = false ∧
      (¬((listening .idle).topState ∉ [TopState.notInit, .listen])) ∧
      (ready .modeNone).topState ∉ [TopState.notInit, .listen] := by decide

theorem witness_ListenAndWakeupStop :
    (listening .idle).topState = .listen ∧ (ready .pollNfcA).topState ≠ .listen ∧
      (sleeping .enabledWoke).topState = .wakeUp ∧ (ready .pollNfcA).topState ≠ .wakeUp := by decide

/-- VL8, VL9, VL10. -/
theorem witness_ListenFollowsTheField :
    ((listening .powerOff).topState = .listen ∧ (listening .powerOff).lmState = .powerOff) ∧
      (listening .idle).topState = .listen ∧ (listening .idle).lmState = .idle ∧ (listening .idle).lm.dataFlag = false ∧
      has (polled (irqNFCT ||| irqRXE ||| irqEOF ||| irqPAR ||| irqCRC ||| irqERR1)
        (pending (irqNFCT ||| irqEOF) (listening .idle))) irqRXE = false := by decide

/-- VL11 with `EOF` (VL16); VL12; each also with a bit rate detected. -/
theorem witness_ListenFrameIsHeldOrDropped :
    let s := inFifo (List.replicate 19 5) (pending (irqRXE ||| irqEOF) (listening .idle))
    let g := inFifo (List.replicate 19 5) (pending (irqRXE ||| irqCRC) (listening .idle))
    let ok (s : State) := s.topState = .listen ∧ s.lmState = .idle ∧ s.lm.dataFlag = false ∧ s.env.script = [] ∧
      s.buf.wf = true ∧ inBounds s.params s.lm.rxBuf s.lm.rxBufLen.toNat = true ∧ has s.env.fe.irqPending irqRXE = true ∧
      19 = s.env.fe.fifo.length ∧ 17 = min (if 2 < 19 then 19 - 2 else 19) ((s.lm.rxBufLen.toNat + 7) / 8) ∧ 8 * 17 < 65536
    (ok s ∧ has s.env.fe.irqPending irqNFCT = false ∧ has s.env.fe.irqPending (irqPAR ||| irqCRC ||| irqERR1) = false) ∧
      (ok g ∧ has g.env.fe.irqPending (irqPAR ||| irqCRC ||| irqERR1) = true) ∧
      ok (pending (irqRXE ||| irqNFCT) s) ∧ ok (pending (irqRXE ||| irqCRC ||| irqNFCT) s) := by decide

theorem witness_WakeupStartCompletes :
    let s := fe (fun f => { f with measuredAmp := 0x55 }) (ready .modeNone)
    s.topState ∉ [TopState.notInit, .listen] ∧ s.txrxState = .idle ∧ channelZero.enabled = false ∧ s.env.script = [] ∧
      (⟨true, true, false, 10, 0⟩ : Channel).enabled = true ∧ (0x55 : Byte) = s.env.fe.measuredAmp := by decide

/-- VW5, VW6. -/
theorem witness_WakeupLatchesWoke :
    (sleeping .enabled).topState = .wakeUp ∧ (sleeping .enabled).wuState = .enabled ∧
      irqWAM = (if (sleeping .enabled).wu.amp.enabled then irqWAM else 0) ||| (if (sleeping .enabled).wu.pha.enabled then irqWPH else 0) ∧
      polled irqWAM (pending irqWAM (sleeping .enabled)) ≠ 0 ∧ (sleeping .enabledWoke).wuState = .enabledWoke := by decide

/-- VA3: two bytes in a buffer of two; VA4. -/
theorem witness_ShortFrameCompletes :
    let s := scripted (idleTurns 11 ++ [[.drain 1, .raise irqTXE], [.receive [4, 0], .raise irqRXS], [.raise irqRXE]])
      (ready .pollNfcA)
    let g := scripted (idleTurns 11 ++ [[.raise irqTXE], [.raise irqNRE]]) (ready .pollNfcA)
    (1 ≤ s.params.fifoDepth ∧ s.topState ∉ [TopState.notInit, .init] ∧ s.txrxState = .idle ∧ s.mode = .pollNfcA ∧
      s.fieldOn = true ∧ inBounds s.params 0x200 16 = true ∧ s.sw.gt = false ∧ s.timing.fdtPoll = 0 ∧ s.buf.wf = true ∧
      2 ≤ s.params.fifoDepth ∧ 2 ≤ ((16 : Len).toNat + 7) / 8 ∧ 8 * 2 < 65536 ∧ s.env.fe.incompleteBits = 0 ∧
      s.env.fe.missingParity = false ∧
      s.env.script = idleTurns 11 ++ [[.drain 1, .raise irqTXE], [.receive [4, 0], .raise irqRXS], [.raise irqRXE]]) ∧
      g.env.script = idleTurns 11 ++ [[.raise irqTXE], [.raise irqNRE]] ∧ g.mode = .pollNfcA ∧ g.fieldOn = true := by decide

/-- VA1; a buffer out of bounds; VA2; VA6 and the last buffer that does not fit. -/
theorem witness_SynchronousPrimitivesReject :
    (ready .pollNfcB).mode ≠ .pollNfcA ∧
      ((ready .pollNfcA).topState ∉ [TopState.notInit, .init] ∧ (ready .pollNfcA).txrxState = .idle ∧
        (ready .pollNfcA).mode = .pollNfcA) ∧
      inBounds cfg 0xFFF 16 = false ∧ inBounds cfg 0x200 16 = true ∧
      { ready .pollNfcA with fieldOn := false }.fieldOn = false ∧
      cfg.bufSize < (0xFF9 : Word).toNat + (2 : Byte).toNat + 6 := by decide

/-- A split byte, a collision, the last buffer that fits. -/
theorem witness_AnticollisionCompletes :
    let s := scripted (idleTurns 10 ++
      [[.drain 3, .raise irqTXE], [.receive [1, 2], .raise irqRXS], [.raise (irqRXE ||| irqCOL)]]) (ready .pollNfcA)
    s.params.bufSize ≤ 2 ^ 32 ∧ s.topState ∉ [TopState.notInit, .init] ∧ s.txrxState = .idle ∧ s.mode = .pollNfcA ∧
      (0xFF8 : Word) ≠ 0 ∧ (0xFF8 : Word).toNat + (2 : Byte).toNat + 6 ≤ s.params.bufSize ∧ s.sw.gt = false ∧
      s.timing.fdtPoll = 0 ∧ s.policy = .policyNone ∧ s.buf.wf = true ∧ 2 ≤ 5 ∧ 2 ≤ s.params.fifoDepth ∧
      s.env.fe.incompleteBits = 0 ∧ s.env.fe.missingParity = false ∧
      3 = (2 : Byte).toNat + (if (4 : BitVec 3) = 0 then 0 else 1) ∧ 3 ≤ s.params.fifoDepth ∧
      s.env.script = idleTurns 10 ++
        [[.drain 3, .raise irqTXE], [.receive [1, 2], .raise irqRXS], [.raise (irqRXE ||| irqCOL)]] := by decide

/-- One step ends the exchange; a reception that overflows the counter stops it; the front end answers `CAC`. -/
theorem witness_SpinResultDoesNotDependOnFuel :
    (∃ t, spinExchange 1 (inFifo [4, 0] (pending irqRXE (receiving .pollNfcA 0))) = .ok t) ∧
      spinExchange 1 (pending irqNRE { receiving .pollNfcA 8192 with txrxState := .rxWaitRxs }) = .error .counterOverflow ∧
      (∃ r, spinCollisionAvoidance 1 (pending irqCAC (ready .pollNfcA)) = .ok r) := ⟨⟨_, rfl⟩, rfl, _, rfl⟩

/-- Below the size of the scratch buffer, and beyond it. -/
theorem witness_NfcvPartialDrainFillsTheScratchBuffer :
    let ok (s : State) (total k : Nat) := s.topState = .txRx ∧ s.txrxState = .rxWaitRxe ∧ s.mode = .pollNfcV ∧
      s.env.script = [] ∧ s.buf.wf = true ∧ s.nfcvScratch.wf = true ∧
      inBounds s.params s.ctx.rxBuf s.ctx.rxBufLen.toNat = true ∧ s.eofSeen = false ∧
      s.env.fe.irqPending &&& (irqRXE ||| irqWL) = irqWL ∧ s.fifo.bytesTotal = s.fifo.bytesWritten ∧
      s.fifo.bytesWritten.toNat ≤ s.params.nfcvScratchSize ∧ total = s.fifo.bytesWritten.toNat + s.env.fe.fifo.length ∧
      total < 65536 ∧ k = min s.env.fe.fifo.length (s.params.nfcvScratchSize - s.fifo.bytesWritten.toNat)
    ok (inFifo (List.replicate 64 1) (pending irqWL (receiving .pollNfcV 448))) 512 64 ∧
      ok (inFifo (List.replicate 64 1) (pending irqWL (receiving .pollNfcV 449))) 513 63 := by decide

/-- Nobody answers: each spin goes on for ever. -/
theorem witness_SpinStepsAreEnough :
    spinExchange (spinSteps (receiving .pollNfcA 0)) (receiving .pollNfcA 0) = .error .spinNeverEnds ∧
      spinCollisionAvoidance (spinPolls (ready .pollNfcA)) (ready .pollNfcA) = .error .spinNeverEnds := ⟨rfl, rfl⟩

end Sys2Proof.Tests
end

/-! # The invariant, operation by operation

`Inv` is taken apart into what an exchange maintains (`ExchangeInv`, kept by every WORKER step) and what is said of the
Listen context and of the host's own settings. Each operation then either leaves an exchange as it was (`SameRun`) or ends
with none running (`Inv.of_idle`); WORKER and the two synchronous primitives go through `txrxStep_keeps`. -/

namespace Sys2Proof.Machine

/-! ## Parts of an operation that may stop -/

/-- Whatever a part of an operation answers has `P`; where it stops nothing is said. -/
def Answers {α : Type} (P : α → Prop) (r : Except Fault α) : Prop := ∀ a, r = .ok a → P a

theorem Answers.ok {α : Type} {P : α → Prop} {a : α} (h : P a) : Answers P (.ok a) := by
  rintro b ⟨⟩
  exact h

theorem Answers.bind {α β : Type} {P : α → Prop} {Q : β → Prop} {x : Except Fault α} {f : α → Except Fault β}
    (hx : Answers P x) (hf : ∀ a, P a → Answers Q (f a)) : Answers Q (x >>= f) := by
  cases x with
  | ok a => exact hf a (hx a rfl)
  | error e => rintro b ⟨⟩

theorem Answers.mono {α : Type} {P Q : α → Prop} {r : Except Fault α} (h : Answers P r) (hpq : ∀ a, P a → Q a) :
    Answers Q r := fun a ha => hpq a (h a ha)

theorem answers_true {α : Type} (r : Except Fault α) : Answers (fun _ => True) r := fun _ _ => trivial

/-! ## The parts of the invariant -/

/-- What `Inv` says of the Listen context (R190, R192, R198). -/
structure ListenOk (s : State) : Prop where
  inBounds : s.lmState ≠ .notInit → inBounds s.params s.lm.rxBuf s.lm.rxBufLen.toNat = true
  states : s.lmState = .notInit ∨ s.lmState = .powerOff ∨ s.lmState = .idle

/-- The Listen context is judged by its buffer and its state alone. -/
theorem ListenOk.of {s t : State} (h : ListenOk s) (hp : t.params = s.params) (hb : t.lm.rxBuf = s.lm.rxBuf)
    (hn : t.lm.rxBufLen = s.lm.rxBufLen) (hl : t.lmState = s.lmState) : ListenOk t :=
  ⟨by rw [hp, hb, hn, hl]; exact h.inBounds, by rw [hl]; exact h.states⟩

/-- With Listen off nothing is asked of its context. -/
theorem listenOk_of_notInit {s : State} (h : s.lmState = .notInit) : ListenOk s :=
  ⟨fun hn => absurd h hn, .inl h⟩

theorem Inv.sound {s : State} (h : Inv s) : Sound s := ⟨h.params, h.buf, h.scratch, h.feFifo, h.feFlags⟩

theorem Inv.listenOk {s : State} (h : Inv s) : ListenOk s := ⟨h.listen, h.listenStates⟩

/-- The exchange's part of the invariant. -/
theorem Inv.exchange {s : State} (h : Inv s) : ExchangeInv s where
  base := h.sound
  rests := h.rests
  txCounters := h.txCounters
  rxCounters := h.rxCounters
  top := h.top
  busy := h.busy
  ctx := h.ctx
  txSource ht := by
    obtain ⟨hbuf, hlen, htot⟩ := h.txSource ht
    exact ⟨.inl hbuf, hlen, htot⟩
  drained := h.rxDrained
  guard := h.guard

theorem ne_idle_of_txPhase {t : TxrxState} (h : txPhase t = true) : t ≠ .idle := by
  rintro rfl
  exact absurd h (by decide)

theorem ne_idle_of_rxPhase {t : TxrxState} (h : rxPhase t = true) : t ≠ .idle := by
  rintro rfl
  exact absurd h (by decide)

/-- The invariant from its parts: the internal source of R122 is excluded by the exchange being an ordinary one. -/
theorem ExchangeInv.inv {s : State} (h : ExchangeInv s) (l : ListenOk s) (hm : isPassiveListen s.mode = false)
    (ho : s.txrxState ≠ .idle → s.ctx.sfByte = none ∧ s.ctx.splitByte = false) : Inv s where
  params := h.base.params
  buf := h.base.buf
  scratch := h.base.scratch
  feFifo := h.base.feFifo
  feFlags := h.base.feFlags
  rests := h.rests
  txCounters := h.txCounters
  rxCounters := h.rxCounters
  rxDrained := h.drained
  top := h.top
  busy := h.busy
  ctx := h.ctx
  ordinary := ho
  txSource ht := by
    obtain ⟨hsrc, hlen, htot⟩ := h.txSource ht
    exact ⟨hsrc.resolve_right (by simp [(ho (ne_idle_of_txPhase ht)).1]), hlen, htot⟩
  guard := h.guard
  listen := l.inBounds
  listenStates := l.states
  modeSupported := hm

/-- No exchange runs, and what R118 and R14 then ask holds. -/
structure AtRest (s : State) : Prop where
  idle : s.txrxState = .idle
  status : s.status ≠ .busy
  rxeGuard : s.sw.rxeGuard = false
  apFwt : s.sw.apFwt = false

theorem atRest_endExchange {s : State} {st : Status} (h : st ≠ .busy) : AtRest (endExchange st s) :=
  ⟨by simp, by simpa using h, by simp, by simp⟩

theorem ExchangeInv.atRest {s : State} (h : ExchangeInv s) (hi : s.txrxState = .idle) : AtRest s :=
  ⟨hi, fun hb => h.busy.1 hb hi, (h.guard.2 hi).1, (h.guard.2 hi).2⟩

theorem Inv.atRest {s : State} (h : Inv s) (hi : s.txrxState = .idle) : AtRest s := h.exchange.atRest hi

theorem AtRest.of {s t : State} (h : AtRest s) (hx : t.txrxState = s.txrxState) (hs : t.status = s.status)
    (hr : t.sw.rxeGuard = s.sw.rxeGuard) (ha : t.sw.apFwt = s.sw.apFwt) : AtRest t :=
  ⟨hx.trans h.idle, hs ▸ h.status, hr.trans h.rxeGuard, ha.trans h.apFwt⟩

/-- Without an exchange the invariant asks only for sound memories, a usable Listen context and a supported mode. -/
theorem AtRest.inv {s : State} (r : AtRest s) (b : Sound s) (l : ListenOk s) (hm : isPassiveListen s.mode = false) :
    Inv s := by
  have hn : ¬ s.txrxState ≠ .idle := not_not.2 r.idle
  refine ExchangeInv.inv ?_ l hm (fun h => absurd h hn)
  exact {
    base := b
    rests := by rw [r.idle]; rfl
    txCounters := fun h => absurd (ne_idle_of_txPhase h) hn
    rxCounters := fun h => absurd (ne_idle_of_rxPhase h) hn
    top := fun h => absurd h hn
    busy := ⟨fun h => absurd h r.status, fun h => absurd h hn⟩
    ctx := fun h => absurd h hn
    txSource := fun h => absurd (ne_idle_of_txPhase h) hn
    drained := by simp [r.idle]
    guard := ⟨by simp [r.idle], fun _ => ⟨r.rxeGuard, r.apFwt⟩⟩ }

/-- `t` has the exchange of `s`, as it stood: what the invariant reads of it is unchanged. -/
structure SameRun (s t : State) : Prop where
  params : t.params = s.params
  mode : t.mode = s.mode
  ctx : t.ctx = s.ctx
  txrxState : t.txrxState = s.txrxState
  status : t.status = s.status
  fifo : t.fifo = s.fifo
  rxeGuard : t.sw.rxeGuard = s.sw.rxeGuard
  apFwt : t.sw.apFwt = s.sw.apFwt
  top : s.txrxState ≠ .idle → t.topState = s.topState

/-- An operation that leaves the exchange as it was keeps the invariant if the memories stay sound and the Listen context
usable. -/
theorem Inv.of_sameRun {s t : State} (h : Inv s) (r : SameRun s t) (b : Sound t) (l : ListenOk t) : Inv t := by
  obtain ⟨hp, hm, hc, hx, hs, hf, hr, ha, htop⟩ := r
  refine ExchangeInv.inv ?_ l (hm ▸ h.modeSupported) (by rw [hx, hc]; exact h.ordinary)
  have e := h.exchange
  exact {
    base := b
    rests := by rw [hx]; exact e.rests
    txCounters := by rw [hx, hf]; exact e.txCounters
    rxCounters := by unfold rxCap; rw [hx, hf, hm, hp, hc]; exact e.rxCounters
    top := by rw [hx]; exact fun hn => (htop hn).trans (e.top hn)
    busy := by rw [hx, hs]; exact e.busy
    ctx := by unfold ctxInBounds; rw [hx, hp, hc]; exact e.ctx
    txSource := by unfold txSourceLen; rw [hx, hf, hm, hp, hc]; exact e.txSource
    drained := by rw [hx, hf]; exact e.drained
    guard := by rw [hx, hr, ha]; exact e.guard }

/-- A change of nothing that the invariant reads. -/
theorem Inv.of_unread {s t : State} (h : Inv s) (ht : t = { s with
    wuState := t.wuState, fieldOn := t.fieldOn, eofSeen := t.eofSeen, arg := t.arg, result := t.result, ret0 := t.ret0,
    ret1 := t.ret1, rxRcvdLen := t.rxRcvdLen, cache := t.cache, timing := t.timing, txBR := t.txBR, rxBR := t.rxBR,
    policy := t.policy, wu := t.wu, agenda := t.agenda, hostData := t.hostData, initCount := t.initCount }) : Inv t := by
  rw [ht]
  exact h.of_sameRun ⟨rfl, rfl, rfl, rfl, rfl, rfl, rfl, rfl, fun _ => rfl⟩ (h.sound.of rfl rfl rfl h.sound.fe)
    (h.listenOk.of rfl rfl rfl rfl)

/-- A change of the environment alone. -/
theorem Inv.of_env {s t : State} (h : Inv s) (ht : t = { s with env := t.env }) (b : Sound t) : Inv t := by
  rw [ht] at b ⊢
  exact h.of_sameRun ⟨rfl, rfl, rfl, rfl, rfl, rfl, rfl, rfl, fun _ => rfl⟩ b (h.listenOk.of rfl rfl rfl rfl)

theorem Inv.feCmd {s : State} (h : Inv s) (c : FeCommand) : Inv (feCmd c s) := h.of_env rfl (h.sound.feCmd c)

theorem Inv.feConfig {s : State} (h : Inv s) (c : FeSetting) : Inv (feConfig c s) := h.of_env rfl (h.sound.feConfig c)

theorem Inv.applyAnalogConfig {s : State} (h : Inv s) (i : AnalogId) : Inv (applyAnalogConfig i s) :=
  h.of_env rfl (h.sound.applyAnalogConfig i)

theorem Inv.feIrqDisable {s : State} (h : Inv s) (m : Word) : Inv (feIrqDisable m s) :=
  h.of_env rfl h.sound.feIrqDisable

theorem Inv.feIrqEnable {s : State} (h : Inv s) {m : Word} (hm : m &&& ~~~irqAll = 0) : Inv (feIrqEnable m s) :=
  h.of_env rfl (h.sound.feIrqEnable hm)

theorem Inv.feDiscardIrq {s : State} (h : Inv s) (m : Word) : Inv (feDiscardIrq m s) :=
  h.of_env rfl h.sound.feDiscardIrq

theorem Inv.feGetIrq {s : State} (h : Inv s) (m : Word) : Inv (feGetIrq m s).2 := h.of_env rfl h.sound.feGetIrq

theorem Inv.with_fieldOn {s : State} (h : Inv s) (b : Bool) : Inv { s with fieldOn := b } := h.of_unread rfl

/-- With no exchange the top-level state is free. -/
theorem Inv.with_topState {s : State} (h : Inv s) (hi : s.txrxState = .idle) (top : TopState) :
    Inv { s with topState := top } :=
  h.of_sameRun ⟨rfl, rfl, rfl, rfl, rfl, rfl, rfl, rfl, fun hn => absurd hi hn⟩ (h.sound.of rfl rfl rfl h.sound.fe)
    (h.listenOk.of rfl rfl rfl rfl)

/-! ## Results of operations -/

/-- An operation that answers a next state answers one with the invariant; it does not leave its buffers and is not
refused. -/
def KeepsInv (r : Result) : Prop :=
  match r with
  | .next t => Inv t
  | .fault f => f ≠ .bufOutOfRange ∧ f ≠ .scratchOutOfRange
  | .refused _ => False

theorem keepsInv_finish {s : State} (code : Status) (h : Inv s) : KeepsInv (finish code s) :=
  h.of_unread (t := { s with result := code }) rfl

theorem keepsInv_andThen {r : Run} {k : State → Result} {P : State → Prop} (h : GivesSafely P r)
    (hk : ∀ t, P t → KeepsInv (k t)) : KeepsInv (andThen r k) := by
  cases r with
  | ok t => exact hk t h
  | error f => exact h

/-! ## Configuration and field control -/

theorem sound_initialValues {s : State} (h : Sound s) : Sound (initialValues s) where
  params := h.params
  buf := h.buf
  scratch := ⟨wf_writeBytes 0 _ rfl, below_writeBytes 0 _ (by simp) (.inr (by simp [initialValues]))⟩
  feFifo := h.feFifo
  feFlags := h.feFlags

theorem Sound.initFrontEnd {s : State} (h : Sound s) : Sound (initFrontEnd s) :=
  (((((h.feCmd _).feIrqDisable).feDiscardIrq).feTimerStop _).feTimerStop _).feTimerStop _

theorem keepsInv_initialise {s : State} (h : Inv s) : KeepsInv (execInitialise s) := by
  have hc : Sound (if s.txrxState = .idle then s else cleanup s) := by
    split
    · exact h.sound
    · exact h.sound.cleanup
  unfold execInitialise
  generalize (if s.txrxState = .idle then s else cleanup s) = u at hc ⊢
  have b := (sound_initialValues hc).initFrontEnd
  refine keepsInv_finish _ (AtRest.inv ⟨?_, ?_, ?_, ?_⟩ (b.of rfl rfl rfl b.fe) (listenOk_of_notInit ?_) ?_) <;>
    simp [initialValues, isPassiveListen]

theorem Sound.applyBitrate {s : State} (h : Sound s) (tx rx : BitRate) : Sound (applyBitrate tx rx s) := by
  have h0 : Sound { s with txBR := newRate tx s.txBR, rxBR := newRate rx s.rxBR } := h.of rfl rfl rfl h.fe
  have h1 := ((h0.feConfig (.bitrate (newRate tx s.txBR) (newRate rx s.rxBR))).applyAnalogConfig
    (rateId s.mode (newRate tx s.txBR) .tx)).applyAnalogConfig (rateId s.mode (newRate rx s.rxBR) .rx)
  unfold Machine.applyBitrate
  dsimp only
  split
  · exact h1.feConfig _
  · exact h1

theorem keepsInv_performSetBitrate {s : State} (h : Inv s) (tx rx : BitRate) : KeepsInv (performSetBitrate tx rx s) := by
  unfold performSetBitrate
  split
  · exact keepsInv_finish _ h
  · split
    · exact keepsInv_finish _ h
    · exact keepsInv_finish _ (h.of_sameRun ⟨by simp, by simp, by simp, by simp, by simp, by simp, by simp, by simp, by simp⟩
        (h.sound.applyBitrate tx rx) (h.listenOk.of (by simp) (by simp) (by simp) (by simp)))

/-- SET_MODE goes on only from rest and with a mode that is neither absent nor a passive listen mode. -/
theorem setModeError_none {m : Mode} {s : State} (h : setModeError m s = none) :
    below s.topState .init = false ∧ m ≠ .modeNone ∧ isPassiveListen m = false ∧ s.txrxState = .idle := by
  unfold setModeError at h
  split_ifs at h with h1 h2 h3 h4
  exact ⟨by simpa using h1, h2, by simpa using h3, not_not.1 h4⟩

theorem keepsInv_setMode {s : State} (h : Inv s) (m : Mode) (tx rx : BitRate) : KeepsInv (execSetMode m tx rx s) := by
  unfold execSetMode
  split
  · exact keepsInv_finish _ h
  · next he =>
    obtain ⟨-, -, hm, hi⟩ := setModeError_none he
    have h1 : Inv { s with mode := m } := AtRest.inv (s := { s with mode := m })
      ((h.atRest hi).of rfl rfl rfl rfl) (h.sound.of rfl rfl rfl h.sound.fe) (h.listenOk.of rfl rfl rfl rfl) hm
    exact keepsInv_performSetBitrate
      (((h1.feConfig _).applyAnalogConfig _).with_topState (by simpa using hi) .modeSet) tx rx

theorem keepsInv_setErrorHandling {s : State} (h : Inv s) (p : Policy) : KeepsInv (execSetErrorHandling p s) :=
  keepsInv_finish _ ((h.of_unread (t := { s with policy := p }) rfl).feConfig _)

/-- The spin of R98 changes nothing but the environment. -/
theorem spinCollisionAvoidance_env (n : Nat) (s : State) :
    Answers (fun r => ∃ v, r.2 = { s with env := v }) (spinCollisionAvoidance n s) := by
  induction n generalizing s with
  | zero => rintro r ⟨⟩
  | succ n ih =>
    unfold spinCollisionAvoidance
    dsimp only
    split
    · refine (ih _).mono fun r hr => ?_
      obtain ⟨v, hv⟩ := hr
      exact ⟨v, by simpa using hv⟩
    · exact .ok ⟨_, rfl⟩

theorem spinCollisionAvoidance_sound (n : Nat) {s : State} (h : Sound s) :
    GivesSafely (fun r => Sound r.2) (spinCollisionAvoidance n s) := by
  induction n generalizing s with
  | zero => exact ⟨by decide, by decide⟩
  | succ n ih =>
    unfold spinCollisionAvoidance
    dsimp only
    split
    · exact ih h.feGetIrq
    · exact h.feGetIrq

theorem Sound.startGuardTime {s : State} (h : Sound s) : Sound (startGuardTime s) := by
  unfold Machine.startGuardTime
  split
  · exact h
  · exact h.swArm _ _

/-- Arming the guard time leaves the timers of a reception alone. -/
theorem startGuardTime_sw (s : State) :
    (startGuardTime s).sw.rxeGuard = s.sw.rxeGuard ∧ (startGuardTime s).sw.apFwt = s.sw.apFwt := by
  unfold startGuardTime
  split <;> simp

theorem Inv.startGuardTime {s : State} (h : Inv s) : Inv (startGuardTime s) :=
  h.of_sameRun ⟨by simp, by simp, by simp, by simp, by simp, by simp, (startGuardTime_sw s).1, (startGuardTime_sw s).2,
    by simp⟩ h.sound.startGuardTime (h.listenOk.of (by simp) (by simp) (by simp) (by simp))

theorem keepsInv_fieldOnProcedure {s : State} (h : Inv s) : KeepsInv (fieldOnProcedure s) := by
  have hm : (irqCAC ||| irqCAT) &&& ~~~irqAll = 0 := by decide
  have hreq : Inv (fieldOnRequest s) := ((h.feDiscardIrq _).feIrqEnable hm).feCmd _
  have hspin := spinCollisionAvoidance_sound (spinPolls (fieldOnRequest s)) hreq.sound
  unfold fieldOnProcedure
  dsimp only
  split
  · next f hf => rw [hf] at hspin; exact hspin
  · next r hr =>
    rw [hr] at hspin
    obtain ⟨v, hv⟩ := spinCollisionAvoidance_env _ _ r hr
    have hr2 : Inv r.2 := hreq.of_env (by rw [hv]) hspin
    have hd := hr2.feIrqDisable (irqCAC ||| irqCAT)
    split
    · exact keepsInv_finish _ hd
    · exact keepsInv_finish _ ((hd.feConfig _).with_fieldOn true).startGuardTime

theorem keepsInv_fieldOnAndStartGt {s : State} (h : Inv s) : KeepsInv (execFieldOnAndStartGt s) := by
  unfold execFieldOnAndStartGt
  split
  · exact keepsInv_finish _ h
  · split
    · exact keepsInv_finish _ h.startGuardTime
    · exact keepsInv_fieldOnProcedure h

/-- Ending an exchange from outside (R99, R230) keeps the invariant. -/
theorem Inv.endExchange {s : State} (h : Inv s) {st : Status} (hst : st ≠ .busy) : Inv (endExchange st s) :=
  (atRest_endExchange hst).inv (h.sound.endExchange st) (h.listenOk.of (by simp) (by simp) (by simp) (by simp))
    (by simpa using h.modeSupported)

theorem keepsInv_fieldOff {s : State} (h : Inv s) : KeepsInv (execFieldOff s) := by
  have hu : Inv (if s.txrxState = .idle then s else endExchange .io s) := by
    split
    · exact h
    · exact h.endExchange (by decide)
  unfold execFieldOff
  generalize (if s.txrxState = .idle then s else endExchange .io s) = u at hu ⊢
  have hc := (hu.feConfig (.txrxEnable false)).with_fieldOn false
  exact keepsInv_finish _ (hc.of_sameRun ⟨rfl, rfl, rfl, rfl, rfl, rfl, rfl, rfl, fun _ => rfl⟩ (hc.sound.swDisarm _)
    (hc.listenOk.of rfl rfl rfl rfl))

end Sys2Proof.Machine

namespace Sys2Proof.Machine

/-! ## Transceive control -/

theorem Sound.ite {c : Prop} [Decidable c] {s t : State} (hs : Sound s) (ht : Sound t) : Sound (if c then s else t) := by
  split
  · exact hs
  · exact ht

theorem Sound.prepare {s : State} (h : Sound s) : Sound (prepare s) := by
  have hm : txrxIrqs &&& ~~~irqAll = 0 := by decide
  have h1 := ((h.feDiscardIrq (m := txrxIrqs)).feIrqEnable hm).feConfig (.flags s.ctx.flags)
  unfold Machine.prepare
  dsimp only
  exact Sound.ite
    (Sound.feTimerStop (Sound.ite (h1.feTimerStop .nrt) (h1.feTimerStart .nrt _)) .mrt)
    (Sound.feTimerStart (Sound.ite (h1.feTimerStop .nrt) (h1.feTimerStart .nrt _)) .mrt _)

theorem Sound.prepareExchange {s : State} (h : Sound s) (c : Ctx) :
    Sound (Machine.prepare (computeTimers (loadExchange c s))) := by
  have hl : Sound (loadExchange c s) := h.of (by simp) (by simp) (by simp) (by simpa using h.fe)
  have ht : Sound (computeTimers (loadExchange c s)) := hl.of rfl rfl rfl hl.fe
  exact ht.prepare

/-- The buffers a context names are absent or in bounds (R51), on parameters instead of a state. -/
def Ctx.fits (c : Ctx) (p : Params) : Prop :=
  (c.txBuf = nullAddr ∨ inBounds p c.txBuf c.txBufLen.toNat = true) ∧
  (c.rxBuf = nullAddr ∨ inBounds p c.rxBuf c.rxBufLen.toNat = true)

/-- The internal byte of R122 is a source only outside NFC-V (R122), a source has a length, and a reception without one has
a destination (R110). -/
structure Ctx.Complete (c : Ctx) (m : Mode) : Prop where
  internal : c.sfByte.isSome = true → m ≠ .pollNfcV
  length : c.txAbsent = false → c.txBufLen ≠ 0
  destination : c.txAbsent = true → c.rxBuf ≠ nullAddr

/-- An exchange that starts on a complete context with its buffers in bounds has the exchange's invariant. -/
theorem beginExchange_inv {s : State} {c : Ctx} (b : Sound s) (hf : c.fits s.params) (hc : c.Complete s.mode) :
    ExchangeInv (beginExchange c s) := by
  have bt : Sound (prepare (computeTimers (loadExchange c s))) := b.prepareExchange c
  have hctx : ctxInBounds (prepare (computeTimers (loadExchange c s))) := by simpa [ctxInBounds, Ctx.fits] using hf
  unfold beginExchange
  split
  · next ha =>
    exact wait_keeps .rxIdle bt rfl (by simp) (by simp) hctx (fun _ => by simpa using hc.destination ha) (by decide)
      (fun h => absurd h (by decide)) (fun _ h => absurd rfl h) (by simp) (by simp)
  · next ha =>
    have hsrc : c.txBuf ≠ nullAddr ∨ (c.sfByte.isSome = true ∧ s.mode ≠ .pollNfcV) := by
      by_cases hb : c.txBuf = nullAddr
      · have hs : c.sfByte.isSome = true := by
          cases hs : c.sfByte with
          | none => exact absurd (by simp [Ctx.txAbsent, hb, hs]) ha
          | some x => rfl
        exact .inr ⟨hs, hc.internal hs⟩
      · exact .inl hb
    exact wait_keeps .txIdle bt rfl (by simp) (by simp) hctx (fun h => absurd h (by decide)) (by decide)
      (fun _ => ⟨by simp, by simpa using hsrc, by simpa using hc.length (by simpa using ha), by simp⟩)
      (fun h => absurd h (by decide)) (by simp) (by simp)

/-- START_TRANSCEIVE goes on with its buffers absent or in bounds, and with one of them present. -/
theorem startError_none {tx : Word} {txLen : Len} {rx : Word} {rxLen : Len} {s : State}
    (h : startError tx txLen rx rxLen s = none) :
    ¬ ((tx = nullAddr ∨ txLen = 0) ∧ rx = nullAddr) ∧ (tx = nullAddr ∨ inBounds s.params tx txLen.toNat = true) ∧
      (rx = nullAddr ∨ inBounds s.params rx rxLen.toNat = true) := by
  unfold startError at h
  split_ifs at h with h1 h2 h3 h4 h5 h6
  refine ⟨h3, ?_, ?_⟩
  · simpa [imp_iff_not_or] using h4
  · simpa [imp_iff_not_or] using h5

theorem loadedCtx_txAbsent {tx : Word} {txLen : Len} {rx : Word} {rxLen : Len} {fl : BitVec 5} {fwt : Time} :
    (loadedCtx tx txLen rx rxLen fl fwt).txAbsent = true ↔ tx = nullAddr ∨ txLen = 0 := by
  simp only [loadedCtx, Ctx.txAbsent, Option.isNone_none, Bool.and_true, beq_iff_eq, ite_eq_right_iff]
  tauto

theorem keepsInv_startTransceive {s : State} (h : Inv s) (tx : Word) (txLen : Len) (rx : Word) (rxLen : Len)
    (fl : BitVec 5) (fwt : Time) : KeepsInv (execStartTransceive tx txLen rx rxLen fl fwt s) := by
  unfold execStartTransceive
  split
  · exact keepsInv_finish _ h
  · next he =>
    obtain ⟨hone, htx, hrx⟩ := startError_none he
    refine keepsInv_finish _ (ExchangeInv.inv (beginExchange_inv h.sound ⟨?_, hrx⟩ ⟨by simp [loadedCtx], ?_, ?_⟩)
      (h.listenOk.of (by simp) (by simp) (by simp) (by simp)) (by simpa using h.modeSupported) (by simp [loadedCtx]))
    · by_cases hp : tx ≠ nullAddr ∧ txLen ≠ 0
      · exact .inr (by simpa only [loadedCtx, if_pos hp] using htx.resolve_left hp.1)
      · exact .inl (by simp only [loadedCtx, if_neg hp])
    · intro ha hz
      exact Bool.eq_false_iff.1 ha (loadedCtx_txAbsent.2 (.inr (show txLen = 0 from hz)))
    · exact fun ha hz => hone ⟨loadedCtx_txAbsent.1 ha, hz⟩

theorem keepsInv_getStatus {s : State} (h : Inv s) : KeepsInv (execGetStatus s) :=
  keepsInv_finish _ (h.of_unread (t := { s with ret0 := s.rxRcvdLen.setWidth 32 }) rfl)

/-- The spin of a synchronous primitive, started on a complete context, ends at rest with the settings it found. -/
theorem spin_inv {s u : State} (h : Inv s) (hu : ExchangeInv u) (hp : u.params = s.params) (hm : u.mode = s.mode)
    (hl : u.lm = s.lm) (hs : u.lmState = s.lmState) (n : Nat) : GivesSafely Inv (spinExchange n u) := by
  refine (spin_keeps n hu).mono fun t ht => ?_
  obtain ⟨⟨hx, hsame⟩, hi⟩ := ht
  refine (hx.atRest hi).inv hx.base (h.listenOk.of (hsame.params.trans hp) ?_ ?_ (hsame.lmState.trans hs)) ?_
  · rw [hsame.lm, hl]
  · rw [hsame.lm, hl]
  · rw [hsame.mode, hm]; exact h.modeSupported

theorem ExchangeInv.feConfig {s : State} (h : ExchangeInv s) (c : FeSetting) : ExchangeInv (feConfig c s) where
  base := h.base.feConfig c
  rests := by simpa using h.rests
  txCounters := by simpa using h.txCounters
  rxCounters := by simpa [rxCap] using h.rxCounters
  top := by simpa using h.top
  busy := by simpa using h.busy
  ctx := by simpa [ctxInBounds] using h.ctx
  txSource := by simpa [txSourceLen] using h.txSource
  drained := by simpa using h.drained
  guard := by simpa using h.guard

/-- SHORT_FRAME_TRANSCEIVE goes on in mode NFC-A with its buffer in bounds. -/
theorem shortFrameError_none {rx : Word} {rxLen : Len} {s : State} (h : shortFrameError rx rxLen s = none) :
    s.mode = .pollNfcA ∧ inBounds s.params rx rxLen.toNat = true := by
  unfold shortFrameError at h
  split_ifs at h with h1 h2 h3 h4
  exact ⟨not_not.1 h2, by simpa using h3⟩

theorem keepsInv_shortFrameTransceive {s : State} (h : Inv s) (x : BitVec 7) (rx : Word) (rxLen : Len) (fwt : Time) :
    KeepsInv (execShortFrameTransceive x rx rxLen fwt s) := by
  unfold execShortFrameTransceive
  split
  · exact keepsInv_finish _ h
  · next he =>
    obtain ⟨hm, hrx⟩ := shortFrameError_none he
    have hu : ExchangeInv (shortFrameStart (shortFrameCtx x rx rxLen fwt) s) :=
      ((beginExchange_inv h.sound ⟨.inl rfl, .inr hrx⟩
        ⟨by simp [hm], by simp [shortFrameCtx], by simp [shortFrameCtx, Ctx.txAbsent]⟩).feConfig _).feConfig _
    refine keepsInv_andThen (spin_inv h hu ?_ ?_ ?_ ?_ _) fun t ht => ?_
    · simp [shortFrameStart]
    · simp [shortFrameStart]
    · simp [shortFrameStart]
    · simp [shortFrameStart]
    · exact keepsInv_finish _ (((ht.feConfig _).feConfig _).of_unread rfl)

/-- ANTICOLLISION_TRANSCEIVE goes on with room for five bytes behind what it sends, and with something to send. -/
theorem anticollisionError_none {buf : Word} {n : Byte} {k : BitVec 3} {s : State}
    (h : anticollisionError buf n k s = none) :
    s.mode = .pollNfcA ∧ buf ≠ nullAddr ∧ buf.toNat + n.toNat + 6 ≤ s.params.bufSize ∧ (n ≠ 0 ∨ k ≠ 0) := by
  unfold anticollisionError at h
  split_ifs at h with h1 h2 h3 h4
  obtain ⟨hb, hs⟩ := not_or.1 h3
  exact ⟨not_not.1 h2, hb, by omega, not_and_or.1 h4⟩

theorem toNat_anticollision_txBufLen (buf : Word) (n : Byte) (k : BitVec 3) (fwt : Time) :
    (anticollisionCtx buf n k fwt).txBufLen.toNat = 8 * n.toNat + k.toNat := by
  have hn := n.isLt
  have hk := k.isLt
  simp only [anticollisionCtx, BitVec.toNat_ofNat]
  omega

/-- The context of R123 has both its buffers within BUF. -/
theorem anticollisionCtx_fits {buf : Word} {n : Byte} {k : BitVec 3} {fwt : Time} {p : Params} (hp : p.wf)
    (hb : buf ≠ nullAddr) (hs : buf.toNat + n.toNat + 6 ≤ p.bufSize) : (anticollisionCtx buf n k fwt).fits p := by
  obtain ⟨-, -, -, -, -, -, hmax⟩ := hp
  have hk := k.isLt
  have hpos : buf.toNat ≠ 0 := fun h0 => hb (BitVec.eq_of_toNat_eq h0)
  have hrx : (anticollisionCtx buf n k fwt).rxBuf.toNat = buf.toNat + n.toNat := by
    simp only [anticollisionCtx, BitVec.toNat_ofNat]; omega
  refine ⟨.inr ?_, .inr ?_⟩
  · rw [inBounds, toNat_anticollision_txBufLen]
    have hlen : buf.toNat + ceil8 (8 * n.toNat + k.toNat) ≤ p.bufSize := by unfold ceil8; omega
    simp [anticollisionCtx, hb, hlen]
  · rw [inBounds, hrx]
    have hne : (anticollisionCtx buf n k fwt).rxBuf ≠ nullAddr := fun h0 => by
      rw [h0] at hrx
      have : (nullAddr).toNat = 0 := rfl
      omega
    have hlen : ceil8 (anticollisionCtx buf n k fwt).rxBufLen.toNat = 5 := by simp [anticollisionCtx, ceil8]
    rw [hlen]
    simp [hne]
    omega

theorem anticollisionCtx_complete {buf : Word} {n : Byte} {k : BitVec 3} {fwt : Time} {m : Mode} (hb : buf ≠ nullAddr)
    (hx : n ≠ 0 ∨ k ≠ 0) : (anticollisionCtx buf n k fwt).Complete m where
  internal h := by simp [anticollisionCtx] at h
  length _ hz := by
    have h0 := congrArg BitVec.toNat hz
    rw [toNat_anticollision_txBufLen] at h0
    have hzero : (0 : Len).toNat = 0 := rfl
    rcases hx with hx | hx
    · exact hx (BitVec.eq_of_toNat_eq (show n.toNat = 0 by omega))
    · exact hx (BitVec.eq_of_toNat_eq (show k.toNat = 0 by omega))
  destination h := absurd h (by simp [anticollisionCtx, Ctx.txAbsent, hb])

theorem Inv.readCollisionPos {s : State} (h : Inv s) : Inv (readCollisionPos s) := by
  unfold Machine.readCollisionPos
  split
  · have hp : Inv (feCollisionPos s).2 := h.of_env rfl h.sound.feCollisionPos
    exact hp.of_unread rfl
  · exact h

theorem keepsInv_anticollisionTransceive {s : State} (h : Inv s) (buf : Word) (n : Byte) (k : BitVec 3) (fwt : Time) :
    KeepsInv (execAnticollisionTransceive buf n k fwt s) := by
  unfold execAnticollisionTransceive
  split
  · exact keepsInv_finish _ h
  · next he =>
    obtain ⟨-, hb, hroom, hx⟩ := anticollisionError_none he
    have hu : ExchangeInv (beginExchange (anticollisionCtx buf n k fwt) (feConfig (.antcl true) s)) :=
      beginExchange_inv (h.sound.feConfig _) (by simpa using anticollisionCtx_fits h.params hb hroom)
        (anticollisionCtx_complete hb hx)
    refine keepsInv_andThen (spin_inv h hu ?_ ?_ ?_ ?_ _) fun t ht => ?_
    · simp
    · simp
    · simp
    · simp
    · have hc : Inv { feConfig (.antcl false) t with ret0 := (feConfig (.antcl false) t).rxRcvdLen.setWidth 32 } :=
        (ht.feConfig (.antcl false)).of_unread rfl
      exact keepsInv_finish _ hc.readCollisionPos

end Sys2Proof.Machine

namespace Sys2Proof.Machine

/-! ## WORKER, Listen and Wake-Up -/

/-- A Listen context that stays in use with the same buffer keeps the invariant, whatever else is recorded in it. -/
theorem Inv.with_listen {s : State} (h : Inv s) (hl : s.lmState ≠ .notInit) {l : LmState}
    (hn : l = .powerOff ∨ l = .idle) (len : Len) (br : BitRate) (df : Bool) :
    Inv { s with lmState := l, lm := { s.lm with rxLen := len, bitRate := br, dataFlag := df } } :=
  h.of_sameRun ⟨rfl, rfl, rfl, rfl, rfl, rfl, rfl, rfl, fun _ => rfl⟩ (h.sound.of rfl rfl rfl h.sound.fe)
    ⟨fun _ => h.listen hl, .inr hn⟩

theorem Inv.with_buf {s : State} (h : Inv s) {m : Memory} (b : Sound { s with buf := m }) : Inv { s with buf := m } :=
  h.of_sameRun ⟨rfl, rfl, rfl, rfl, rfl, rfl, rfl, rfl, fun _ => rfl⟩ b (h.listenOk.of rfl rfl rfl rfl)

theorem Inv.fifoStatus {s : State} (h : Inv s) : Inv (fifoStatus s) :=
  h.of_sameRun ⟨by simp, by simp, by simp, by simp, by simp, by simp, by simp, by simp, by simp⟩ h.sound.fifoStatus
    (h.listenOk.of (by simp) (by simp) (by simp) (by simp))

theorem lmPowerOff_inv {s : State} (h : Inv s) (hl : s.lmState = .powerOff) : GivesSafely Inv (lmPowerOff s) := by
  have hq := h.feGetIrq irqEON
  have hn : (feGetIrq irqEON s).2.lmState ≠ .notInit := by simp [hl]
  refine GivesSafely.ok ?_
  split
  · exact hq.with_listen hn (.inr rfl) _ _ _
  · exact hq

/-- A good frame is stored within the Listen buffer (R197). -/
theorem listenGoodFrame_inv {s : State} (h : Inv s) (hl : s.lmState = .idle) : GivesSafely Inv (listenGoodFrame s) := by
  have hu : Inv (fifoStatus (cacheInvalidate s)) := (h.of_unread (t := cacheInvalidate s) rfl).fifoStatus
  have hul : (fifoStatus (cacheInvalidate s)).lmState = .idle := by simp [hl]
  unfold listenGoodFrame
  generalize fifoStatus (cacheInvalidate s) = u at hu hul ⊢
  obtain ⟨hpos, hroom⟩ := ceil8_le (hu.listen (by simp [hul]))
  refine (feFifoRead_safe hu.sound _).bind fun r hr => ?_
  obtain ⟨hlen, v, hv, hb⟩ := hr
  obtain ⟨bytes, x⟩ := r
  dsimp only at hlen hv hb ⊢
  subst hv
  have hx : Inv { u with env := v } := hu.of_env rfl hb
  refine (bufWrite_safe hb (a := u.lm.rxBuf.toNat) (b := bytes)
    ⟨by omega, by rw [hlen]; show _ ≤ u.params.bufSize; omega⟩).bind fun t ht => ?_
  obtain ⟨rfl, hs⟩ := ht
  have ht := hx.with_buf hs
  refine (toLen_safe _).bind fun l _ => ?_
  have h1 := ht.with_listen (by simp [hul]) (.inr hul) l u.lm.bitRate u.lm.dataFlag
  have h2 := h1.feCmd .clearFifo
  exact h2.with_listen (by simp [hul]) (.inr (by simp [hul])) _ _ true

theorem listenBitRate_inv {s : State} (h : Inv s) (hl : s.lmState = .idle) (i : Word) :
    Inv (listenBitRate i s) ∧ (listenBitRate i s).lmState = .idle := by
  unfold listenBitRate
  split
  · have hr : Inv (feDetectedBitRate s).2 := h.of_env rfl h.sound.feDetectedBitRate
    exact ⟨hr.with_listen (by simp [hl]) (.inr (by simp [hl])) _ _ _, by simp [hl]⟩
  · exact ⟨h, hl⟩

theorem lmIdle_inv {s : State} (h : Inv s) (hl : s.lmState = .idle) : GivesSafely Inv (lmIdle s) := by
  unfold lmIdle
  split
  · exact h
  · dsimp only
    generalize irqNFCT ||| irqRXE ||| irqEOF ||| irqPAR ||| irqCRC ||| irqERR1 = m
    obtain ⟨hu, hul⟩ := listenBitRate_inv (h.feGetIrq m) (by simp [hl]) (feGetIrq m s).1
    generalize listenBitRate (feGetIrq m s).1 (feGetIrq m s).2 = u at hu hul ⊢
    split
    · unfold listenFrame
      split
      · exact ((hu.feCmd _).feCmd _).feCmd _
      · exact listenGoodFrame_inv hu hul
    · split
      · exact hu.with_listen (by simp [hul]) (.inl rfl) _ _ _
      · exact hu

theorem listenStep_inv {s : State} (h : Inv s) : GivesSafely Inv (listenStep s) := by
  unfold listenStep
  split
  · next hl => exact lmPowerOff_inv h hl
  · next hl => exact lmIdle_inv h hl
  all_goals exact h

theorem wakeUpStep_inv {s : State} (h : Inv s) : GivesSafely Inv (wakeUpStep s) := by
  unfold wakeUpStep
  split
  · refine GivesSafely.ok ?_
    split
    · exact (h.feGetIrq _).of_unread rfl
    · exact h.feGetIrq _
  all_goals exact h

/-- A WORKER step of an exchange: its part is `txrxStep_keeps`, and it starts no exchange. -/
theorem txrxStep_inv {s : State} (h : Inv s) : GivesSafely Inv (txrxStep s) := by
  by_cases hi : s.txrxState = .idle
  · rw [show txrxStep s = .ok s by simp [txrxStep, hi]]
    exact h
  · refine (txrxStep_keeps h.exchange).mono fun t ht => ?_
    obtain ⟨hx, hs⟩ := ht
    refine hx.inv (h.listenOk.of hs.params ?_ ?_ hs.lmState) (by rw [hs.mode]; exact h.modeSupported) (fun _ => ?_)
    · rw [hs.lm]
    · rw [hs.lm]
    · rw [hs.ctx]; exact h.ordinary hi

theorem workerStep_inv {s : State} (h : Inv s) : GivesSafely Inv (workerStep s) := by
  unfold workerStep
  split
  · exact txrxStep_inv h
  · exact listenStep_inv h
  · exact wakeUpStep_inv h
  all_goals exact h

theorem keepsInv_worker {s : State} (h : Inv s) : KeepsInv (execWorker s) :=
  keepsInv_andThen (workerStep_inv h) fun _ ht => keepsInv_finish _ ht

/-- LISTEN_START goes on from rest with its buffer in bounds. -/
theorem listenStartError_none {m : BitVec 4} {rx : Word} {rxLen : Len} {s : State}
    (h : listenStartError m rx rxLen s = none) :
    s.txrxState = .idle ∧ s.topState ≠ .wakeUp ∧ inBounds s.params rx rxLen.toNat = true := by
  unfold listenStartError at h
  split_ifs at h with h1 h2 h3 h4 h5
  obtain ⟨hi, hw⟩ := not_or.1 h2
  exact ⟨not_not.1 hi, hw, h5⟩

theorem keepsInv_listenStart {s : State} (h : Inv s) (m : BitVec 4) (rx : Word) (rxLen : Len) :
    KeepsInv (execListenStart m rx rxLen s) := by
  unfold execListenStart
  split
  · exact keepsInv_finish _ h
  · next he =>
    obtain ⟨hi, -, hb⟩ := listenStartError_none he
    have hm : lmIrqs &&& ~~~irqAll = 0 := by decide
    have h0 : Inv { s with lm := ⟨rx, rxLen, 0, .keep, false⟩, lmState := .powerOff } :=
      h.of_sameRun ⟨rfl, rfl, rfl, rfl, rfl, rfl, rfl, rfl, fun _ => rfl⟩ (h.sound.of rfl rfl rfl h.sound.fe)
        ⟨fun _ => hb, .inr (.inl rfl)⟩
    have h1 := (((h0.feDiscardIrq lmIrqs).feIrqEnable hm).feConfig (.listenAp2p true))
    exact keepsInv_finish _ (h1.with_topState (by simpa using hi) .listen)

/-- Where another machine is current no exchange runs (R30(d)). -/
theorem Inv.idle_of_top {s : State} (h : Inv s) (ht : s.topState ≠ .txRx) : s.txrxState = .idle := by
  by_contra hn
  exact ht (h.top hn)

theorem keepsInv_listenStop {s : State} (h : Inv s) : KeepsInv (execListenStop s) := by
  have hu : Inv (if s.topState = .listen then
      { feIrqDisable lmIrqs (feConfig (.listenAp2p false) s) with topState := .init } else s) := by
    split
    · next ht =>
      exact ((h.feConfig _).feIrqDisable _).with_topState (by simpa using h.idle_of_top (by simp [ht])) .init
    · exact h
  unfold execListenStop
  generalize (if s.topState = .listen then
    { feIrqDisable lmIrqs (feConfig (.listenAp2p false) s) with topState := .init } else s) = u at hu ⊢
  exact keepsInv_finish _ (hu.of_sameRun ⟨rfl, rfl, rfl, rfl, rfl, rfl, rfl, rfl, fun _ => rfl⟩
    (hu.sound.of rfl rfl rfl hu.sound.fe) (listenOk_of_notInit rfl))

theorem wakeMask_valid (w : WakeCtx) : wakeMask w &&& ~~~irqAll = 0 := by
  unfold wakeMask
  split <;> split <;> decide

/-- WAKEUP_START goes on from rest, and not while Listen is current. -/
theorem wakeupStartError_none {a p c : Channel} {s : State} (h : wakeupStartError a p c s = none) :
    s.txrxState = .idle ∧ s.topState ≠ .listen := by
  unfold wakeupStartError at h
  split_ifs at h with h1 h2 h3 h4 h5
  obtain ⟨hi, hl⟩ := not_or.1 h2
  exact ⟨not_not.1 hi, hl⟩

theorem measuredChannel_inv {s : State} (h : Inv s) (ch : MeasureChannel) (c : Channel) :
    Inv (measuredChannel ch c s).2 ∧ (measuredChannel ch c s).2.txrxState = s.txrxState := by
  unfold measuredChannel
  split
  · exact ⟨h.of_env rfl (h.sound.feMeasure ch), by simp⟩
  · exact ⟨h, rfl⟩

theorem wakeupContext_inv {s : State} (h : Inv s) (a p c : Channel) :
    Inv (wakeupContext a p c s) ∧ (wakeupContext a p c s).txrxState = s.txrxState := by
  obtain ⟨ha, hax⟩ := measuredChannel_inv h .amp a
  obtain ⟨hp, hpx⟩ := measuredChannel_inv ha .pha p
  exact ⟨hp.of_unread rfl, hpx.trans hax⟩

theorem wakeupConfigure_inv {s : State} (h : Inv s) : Inv (wakeupConfigure s) := by
  have h1 : Inv { feConfig (.txrxEnable false) s with fieldOn := false } := (h.feConfig (.txrxEnable false)).of_unread rfl
  exact ((h1.feConfig _).feDiscardIrq _).feIrqEnable (wakeMask_valid s.wu)

theorem keepsInv_wakeupStart {s : State} (h : Inv s) (a p c : Channel) : KeepsInv (execWakeupStart a p c s) := by
  unfold execWakeupStart
  split
  · exact keepsInv_finish _ h
  · next he =>
    obtain ⟨hi, -⟩ := wakeupStartError_none he
    obtain ⟨hc, hx⟩ := wakeupContext_inv h a p c
    have h1 := (wakeupConfigure_inv hc).with_topState (by simp [wakeupConfigure, hx, hi]) .wakeUp
    exact keepsInv_finish _ (h1.of_unread rfl)

theorem keepsInv_wakeupStop {s : State} (h : Inv s) : KeepsInv (execWakeupStop s) := by
  have hu : Inv (if s.topState = .wakeUp then
      { feIrqDisable (irqWAM ||| irqWPH ||| irqWCAP) (feConfig (.wakeup none) s) with topState := .init } else s) := by
    split
    · next ht =>
      exact ((h.feConfig _).feIrqDisable _).with_topState (by simpa using h.idle_of_top (by simp [ht])) .init
    · exact h
  unfold execWakeupStop
  exact keepsInv_finish _ (hu.of_unread rfl)

/-! ## Every operation, every step -/

/-- Every operation keeps the invariant, stays within its buffers and is not refused. -/
theorem exec_keepsInv (i : Instr) {s : State} (h : Inv s) : KeepsInv (exec i s) := by
  cases i with
  | initialise => exact keepsInv_initialise h
  | setMode m tx rx => exact keepsInv_setMode h m tx rx
  | setBitrate tx rx => exact keepsInv_performSetBitrate h tx rx
  | setFdtPoll v => exact keepsInv_finish _ (h.of_unread rfl)
  | setFdtListen v => exact keepsInv_finish _ (h.of_unread rfl)
  | setGt v => exact keepsInv_finish _ (h.of_unread rfl)
  | setErrorHandling p => exact keepsInv_setErrorHandling h p
  | fieldOnAndStartGt => exact keepsInv_fieldOnAndStartGt h
  | fieldOff => exact keepsInv_fieldOff h
  | startTransceive tx txLen rx rxLen fl fwt => exact keepsInv_startTransceive h tx txLen rx rxLen fl fwt
  | worker => exact keepsInv_worker h
  | getStatus => exact keepsInv_getStatus h
  | shortFrameTransceive c rx rxLen fwt => exact keepsInv_shortFrameTransceive h c rx rxLen fwt
  | anticollisionTransceive b n k fwt => exact keepsInv_anticollisionTransceive h b n k fwt
  | listenStart m rx rxLen => exact keepsInv_listenStart h m rx rxLen
  | listenStop => exact keepsInv_listenStop h
  | wakeupStart a p c => exact keepsInv_wakeupStart h a p c
  | wakeupStop => exact keepsInv_wakeupStop h

/-- A write of the host to one byte of BUF that exists. -/
theorem Inv.hostWrite {s : State} (h : Inv s) {a : Nat} (b : Byte) (ha : a < s.params.bufSize) :
    Inv { s with buf := writeByte s.buf a b } :=
  h.with_buf ⟨h.params, ⟨wf_writeByte a b h.buf.1, below_writeBytes a [b] h.buf.2 (.inr ha)⟩, h.scratch, h.feFifo,
    h.feFlags⟩

/-- What comes of the next move has the invariant: the state after it, or the state its operation starts in. -/
def FetchedInv (f : Fetched) : Prop :=
  match f with
  | .quiet r => ∀ t, r = .next t → Inv t
  | .command _ t => Inv t

/-- A register write changes the operand registers and nothing else (R29). -/
theorem writeRegister_only_arg (off : Word) (size : AccessSize) (v : Word) (s : State) :
    writeRegister off size v s = { s with arg := (writeRegister off size v s).arg } := by
  unfold writeRegister
  split
  · split <;> rfl
  · rfl

theorem hostRequest_inv {s : State} (h : Inv s) (r : HostRequest) : FetchedInv (hostRequest r s) := by
  cases r with
  | regWrite off size v =>
    unfold hostRequest
    dsimp only
    split
    · exact h
    · rintro t ⟨⟩
      exact h.of_unread (by rw [writeRegister_only_arg])
  | regRead off size =>
    rintro t ⟨⟩
    exact h.of_unread rfl
  | bufWrite a b =>
    intro t ht
    split at ht
    · next ha => cases ht; exact h.hostWrite b ha
    · cases ht
  | bufRead a =>
    intro t ht
    split at ht
    · cases ht; exact h.of_unread rfl
    · cases ht

/-- A step of the environment between two operations. -/
theorem Inv.applyEvent {s : State} (h : Inv s) (e : EnvEvent) :
    Inv { s with env := applyEvent s.params.fifoDepth e s.env } :=
  h.of_env rfl (h.sound.of rfl rfl rfl (applyEvent_ok h.sound.fe))

/-- The next move keeps the invariant as far as it goes before an operation. -/
theorem fetch_inv {s : State} (h : Inv s) : FetchedInv (fetch s) := by
  unfold fetch
  cases hl : s.agenda with
  | nil => rintro t ⟨⟩; exact h
  | cons m rest =>
    have hr : Inv { s with agenda := rest } := h.of_unread rfl
    cases m with
    | env e => rintro t ⟨⟩; exact hr.applyEvent e
    | host r => exact hostRequest_inv hr r

/-- Settles O13: the next move keeps the invariant, and so does the operation it issues. -/
theorem stepKeepsInv : Obligations.StepKeepsInv := by
  intro s t h hstep
  have hf := fetch_inv h
  unfold step at hstep
  split at hstep
  · next hq => rw [hq] at hf; exact hf t hstep
  · next w u hq =>
    rw [hq] at hf
    split at hstep
    · next i _ =>
      have hk := exec_keepsInv i hf
      rw [hstep] at hk
      exact hk
    · have hk := keepsInv_finish .param hf
      unfold illegalOperation at hstep
      rw [hstep] at hk
      exact hk

end Sys2Proof.Machine

/-! # Reset and the register block -/

namespace Sys2Proof.Machine

/-! ## Reset -/

/-- Settles O11: each field is that of `State.reset`, whose agenda is empty. -/
theorem resetValues : Obligations.ResetValues := by
  refine ⟨?_, rfl, rfl⟩
  constructor <;> rfl

/-- The numbers of a block are within the bounds of R4 for every choice of the OPEN ones. -/
theorem config_params_wf : Config.params.wf := by
  have clamp : ∀ n d : Nat, (BitVec.ofNat 16 (n % min (d + 1) 0xFFFF + 1)).toNat = n % min (d + 1) 0xFFFF + 1 ∧
      n % min (d + 1) 0xFFFF + 1 ≤ d + 1 := by
    intro n d
    have := Nat.mod_lt n (show 0 < min (d + 1) 0xFFFF by omega)
    rw [BitVec.toNat_ofNat]
    omega
  obtain ⟨hrefill, hrefillLe⟩ := clamp (Config.openNumber 1) (Config.openNumber 0)
  obtain ⟨hwl, hwlLe⟩ := clamp (Config.openNumber 2) (Config.openNumber 0)
  unfold Params.wf Config.params
  dsimp only
  rw [hrefill, hwl]
  omega

theorem sound_reset : Sound State.reset where
  params := config_params_wf
  buf := ⟨rfl, by simp [State.reset]⟩
  scratch := ⟨rfl, by simp [State.reset]⟩
  feFifo := Nat.zero_le _
  feFlags := ⟨rfl, rfl⟩

/-- Settles O12: at reset no exchange runs and Listen is off. -/
theorem resetInv : Obligations.ResetInv :=
  AtRest.inv ⟨rfl, by decide, rfl, rfl⟩ sound_reset (listenOk_of_notInit rfl) rfl

/-! ## Registers -/

/-- The agenda's next move is a register read. -/
theorem step_regRead {s : State} {rest : List Move} {off : Word} {size : AccessSize}
    (h : s.agenda = .host (.regRead off size) :: rest) :
    step s = .next { s with agenda := rest, hostData := readRegister off size s } := by
  simp only [step, fetch, h, hostRequest]
  rfl

/-- An offset that is no multiple of 4, beyond the map, or that of `CMD`, reads 0 (R29, R55). -/
theorem registerValue_eq_zero {n : Nat} (s : State) (h : n % 4 ≠ 0 ∨ 0x3C ≤ n ∨ n = 0) : registerValue n s = 0 := by
  unfold registerValue
  split <;> first | omega | rfl

/-- The fields of the `STATE` register (R29), and 0 between them. -/
theorem stateWord_fields (s : State) :
    (stateWord s).extractLsb' 0 8 = txrxStateCode s.txrxState ∧ (stateWord s).extractLsb' 8 3 = topStateCode s.topState ∧
    (stateWord s).extractLsb' 12 4 = lmStateCode s.lmState ∧ (stateWord s).extractLsb' 16 2 = wuStateCode s.wuState ∧
    (stateWord s).getLsbD 20 = s.fieldOn ∧ (stateWord s).getLsbD 21 = s.lm.dataFlag ∧
    (stateWord s).getLsbD 11 = false ∧ (stateWord s).extractLsb' 18 2 = 0 ∧ (stateWord s).extractLsb' 22 10 = 0 := by
  unfold stateWord
  refine ⟨?_, ?_, ?_, ?_, ?_, ?_, ?_, ?_, ?_⟩
  case refine_5 => simp only [BitVec.getLsbD_append]; simp
  case refine_6 => simp only [BitVec.getLsbD_append]; simp
  case refine_7 => simp only [BitVec.getLsbD_append]; simp
  all_goals
    ext i hi
    simp only [BitVec.getElem_extractLsb', BitVec.getLsbD_append]
    interval_cases i <;> simp

/-- Settles O7: the read gives `readRegister`, and each clause is one offset of the map or lies outside it. -/
theorem registerReads : Obligations.RegisterReads := by
  intro s rest off size h
  refine ⟨readRegister off size s, step_regRead h, ?_, ?_⟩
  · intro hoff
    unfold readRegister
    split
    · next hw =>
      refine registerValue_eq_zero s ?_
      rcases hoff with hs | hm | hm | hm
      · exact absurd hw hs
      · exact .inl hm
      · exact .inr (.inl hm)
      · exact .inr (.inr (by rw [hm]; rfl))
    · rfl
  · rintro rfl
    refine ⟨?_, ?_, ?_, ?_, ?_, ?_, ?_, ?_, ?_, ?_, ?_, ?_, ?_, ?_⟩ <;> rintro rfl
    case refine_9 => exact stateWord_fields s
    case refine_10 => exact BitVec.toNat_setWidth_of_le (show 16 ≤ 32 by decide)
    case refine_11 => exact BitVec.toNat_setWidth_of_le (show 16 ≤ 32 by decide)
    all_goals rfl

/-- The agenda's next move is a register write that issues no operation. -/
theorem step_regWrite {s : State} {rest : List Move} {off : Word} {size : AccessSize} {v : Word}
    (h : s.agenda = .host (.regWrite off size v) :: rest) (hc : off ≠ 0 ∨ size ≠ .word) :
    step s = .next (writeRegister off size v { s with agenda := rest }) := by
  have hn : ¬ (off = 0 ∧ size = .word) := fun ⟨h0, hw⟩ => hc.elim (absurd h0) (absurd hw)
  simp only [step, fetch, h, hostRequest, if_neg hn]

/-- Settles O8: such a write is `writeRegister`, which goes by the offset. -/
theorem registerWrites : Obligations.RegisterWrites := by
  intro s rest off size v h hc
  refine ⟨(writeRegister off size v { s with agenda := rest }).arg, ?_, ?_⟩
  · rw [step_regWrite h hc, writeRegister_only_arg]
  · simp only [← BitVec.toNat_inj]
    unfold writeRegister
    split
    · next hw =>
      split <;> simp_all
    · next hw => simp [hw]

end Sys2Proof.Machine

/-! # What an exchange may change, and where its steps lead

A WORKER step of an exchange writes the bookkeeping of the exchange, the memories and the environment, and nothing else
(`settings`). A step of the tx-phase answers in the tx-phase, in `RX_IDLE` or at rest (`Sends`), a step of the rx-phase in
the rx-phase or at rest (`Receives`). Both hold in every state, with the invariant or without it. -/

namespace Sys2Proof.Machine

/-! ## The settings -/

/-- The state with everything blanked that a running exchange may write: what two states agree on if only an exchange lies
between them. -/
def settings (s : State) : State :=
  { s with
    txrxState := .idle, status := .none, eofSeen := false, rxRcvdLen := 0, fifo := ⟨0, 0, 0⟩, cache := ⟨false, 0, 0, false⟩,
    sw := ⟨false, false, false⟩, nfcvScratch := [], buf := [], env := Env.powerOn }

@[simp] theorem settings_calls (s : State) :
    (∀ c, settings (feCmd c s) = settings s) ∧ (∀ c, settings (feConfig c s) = settings s) ∧
    (∀ m, settings (feGetIrq m s).2 = settings s) ∧ (∀ t v, settings (feTimerStart t v s) = settings s) ∧
    (∀ t, settings (feTimerCheck t s).2 = settings s) ∧ (∀ t, settings (swExpired t s).2 = settings s) ∧
    (∀ e, settings (emit e s) = settings s) := by
  refine ⟨?_, ?_, ?_, ?_, ?_, ?_, ?_⟩ <;> intros <;> simp [settings]

@[simp] theorem settings_bookkeeping (s : State) :
    (∀ t, settings (swDisarm t s) = settings s) ∧ (∀ t d, settings (swArm t d s) = settings s) ∧
    settings (cacheInvalidate s) = settings s ∧ settings (fifoStatus s) = settings s ∧
    (∀ e, settings (endExchange e s) = settings s) ∧ settings (discardAndRearm s) = settings s ∧
    settings (rxIdleReset s) = settings s ∧ settings (rxIdleTimers s) = settings s ∧
    settings (txAfterHandOver s) = settings s := by
  refine ⟨fun t => ?_, fun t d => ?_, ?_, ?_, fun e => ?_, ?_, ?_, ?_, ?_⟩ <;> simp [settings, txAfterHandOver]

theorem feFifoRead_settings (n : Nat) (s : State) :
    Answers (fun r => settings r.2 = settings s) (feFifoRead n s) := by
  intro r h
  rcases feFifoRead_spec h with ⟨-, rfl⟩ | ⟨-, -, -, hr⟩
  · rfl
  · simp [hr, settings]

theorem feFifoWrite_settings (bytes : List Byte) (s : State) :
    Answers (fun t => settings t = settings s) (feFifoWrite bytes s) := by
  intro t h
  rcases feFifoWrite_spec h with ⟨-, rfl⟩ | ⟨-, -, rfl⟩
  · rfl
  · simp [settings]

theorem bufWrite_settings (a : Nat) (bytes : List Byte) (s : State) :
    Answers (fun t => settings t = settings s) (bufWrite a bytes s) := by
  intro t h
  obtain ⟨-, rfl⟩ := bufWrite_spec h
  rfl

theorem scratchWrite_settings (i : Nat) (bytes : List Byte) (s : State) :
    Answers (fun t => settings t = settings s) (scratchWrite i bytes s) := by
  intro t h
  obtain ⟨-, rfl⟩ := scratchWrite_spec h
  rfl

/-! ## The tx-phase -/

/-- `t` is where a step of the tx-phase may answer from `s` (R138, R139). -/
structure Sends (s t : State) : Prop where
  settings : settings t = settings s
  leads : txPhase t.txrxState = true ∨ t.txrxState = .rxIdle ∨ t.txrxState = .idle

theorem Sends.of_settings {s u t : State} (h : Sends u t) (hu : Machine.settings u = Machine.settings s) : Sends s t :=
  ⟨h.settings.trans hu, h.leads⟩

theorem Sends.via {s u : State} {r : Run} (h : Answers (Sends u) r) (hu : Machine.settings u = Machine.settings s) :
    Answers (Sends s) r := h.mono fun _ ht => ht.of_settings hu

theorem sends_endExchange (e : Status) (s : State) : Sends s (endExchange e s) := ⟨by simp, by simp⟩

theorem txFailWith_sends (e : Status) (s : State) : Answers (Sends s) (txFailWith e s) :=
  .ok ((sends_endExchange _ _).of_settings (by simp [settings]))

theorem txDone_sends (s : State) : Answers (Sends s) (txDone s) := by
  unfold txDone
  split
  · exact .ok (sends_endExchange _ _)
  · exact .ok ⟨rfl, .inr (.inl rfl)⟩

theorem txWaitTxe_sends {s : State} (hs : txPhase s.txrxState = true) : Answers (Sends s) (txWaitTxe s) := by
  unfold txWaitTxe
  dsimp only
  split
  · exact Sends.via (txDone_sends _) (by simp [settings])
  · exact .ok ⟨by simp, .inl (by simpa using hs)⟩

theorem txHandOver_settings (k : Nat) (s : State) : Answers (fun t => settings t = settings s) (txHandOver k s) := by
  unfold txHandOver
  refine (answers_true _).bind fun bytes _ => (feFifoWrite_settings bytes s).bind fun t ht => ?_
  exact (answers_true _).bind fun w _ => .ok ht

theorem sends_txAfterHandOver (s : State) : Sends s (txAfterHandOver s) := by
  refine ⟨by simp, .inl ?_⟩
  unfold txAfterHandOver
  dsimp only
  split <;> rfl

theorem txReloadFifo_sends (s : State) : Answers (Sends s) (txReloadFifo s) := by
  unfold txReloadFifo
  exact (txHandOver_settings _ s).bind fun t ht => .ok ((sends_txAfterHandOver t).of_settings ht)

theorem txWaitWl_sends {s : State} (hs : txPhase s.txrxState = true) : Answers (Sends s) (txWaitWl s) := by
  unfold txWaitWl
  dsimp only
  split
  · exact .ok ⟨by simp, .inl (by simpa using hs)⟩
  · split
    · exact Sends.via (txReloadFifo_sends _) (by simp [settings])
    · exact Sends.via (txFailWith_sends _ _) (by simp)

theorem txFire_sends (total n : Nat) (c : Bool) (s : State) : Answers (Sends s) (txFire total n c s) := by
  unfold txFire
  refine (answers_true _).bind fun l _ => ?_
  refine (txHandOver_settings _ _).bind fun t ht => .ok ?_
  exact (sends_txAfterHandOver _).of_settings (by simp only [settings_calls, ht]; rfl)

theorem txTransmitNfcv_sends (s : State) : Answers (Sends s) (txTransmitNfcv s) := by
  unfold txTransmitNfcv
  refine (answers_true _).bind fun payload _ => ?_
  dsimp only
  split
  · exact txFailWith_sends _ s
  · exact (scratchWrite_settings _ _ s).bind fun t ht => Sends.via (txFire_sends _ _ _ t) ht

theorem txTransmit_sends (s : State) : Answers (Sends s) (txTransmit s) := by
  have hu : settings (feCmd .clearFifo (emit .preTxRx s)) = settings s := by simp
  unfold txTransmit
  dsimp only
  split
  · exact Sends.via (txTransmitNfcv_sends _) hu
  · exact Sends.via (txFire_sends _ _ _ _) hu

theorem txWaitFdt_sends {s : State} (hs : txPhase s.txrxState = true) : Answers (Sends s) (txWaitFdt s) := by
  unfold txWaitFdt
  dsimp only
  split
  · exact Sends.via (txTransmit_sends _) (by simp [settings])
  · split
    · exact .ok ⟨by simp, .inl (by simpa using hs)⟩
    · exact Sends.via (txTransmit_sends _) (by simp [settings])

theorem txWaitGt_sends {s : State} (hs : txPhase s.txrxState = true) : Answers (Sends s) (txWaitGt s) := by
  unfold txWaitGt
  dsimp only
  split
  · split
    · exact Sends.via (txWaitFdt_sends (show txPhase .txWaitFdt = true by decide)) (by simp [settings])
    · exact .ok ⟨by simp, .inl (by simpa using hs)⟩
  · exact Sends.via (txWaitFdt_sends (show txPhase .txWaitFdt = true by decide)) (by simp [settings])

/-! ## The rx-phase -/

/-- `t` is where a step of the rx-phase may answer from `s` (R166, R167). -/
structure Receives (s t : State) : Prop where
  settings : settings t = settings s
  leads : rxPhase t.txrxState = true ∨ t.txrxState = .idle

theorem Receives.of_settings {s u t : State} (h : Receives u t) (hu : Machine.settings u = Machine.settings s) : Receives s t :=
  ⟨h.settings.trans hu, h.leads⟩

theorem Receives.via {s u : State} {r : Run} (h : Answers (Receives u) r)
    (hu : Machine.settings u = Machine.settings s) : Answers (Receives s) r := h.mono fun _ ht => ht.of_settings hu

theorem receives_endExchange (e : Status) (s : State) : Receives s (endExchange e s) := ⟨by simp, by simp⟩

theorem rxFail_receives (s : State) : Answers (Receives s) (rxFail s) := .ok (receives_endExchange _ _)

theorem rxDone_receives (s : State) : Answers (Receives s) (rxDone s) := .ok (receives_endExchange _ _)

theorem rxFailWith_receives (e : Status) (s : State) : Answers (Receives s) (rxFailWith e s) :=
  (answers_true _).bind fun _ _ => Receives.via (rxFail_receives _) (by simp [settings])

theorem rxWaitEof_receives {s : State} (hs : rxPhase s.txrxState = true) : Answers (Receives s) (rxWaitEof s) := by
  unfold rxWaitEof
  dsimp only
  split
  · exact Receives.via (rxDone_receives _) (by simp [settings])
  · split
    · exact Receives.via (rxDone_receives _) (by simp [settings])
    · exact .ok ⟨by simp, .inl (by simpa using hs)⟩

theorem rxDeliver_settings (i : Nat) (bytes : List Byte) (s : State) :
    Answers (fun t => settings t = settings s) (rxDeliver i bytes s) := by
  unfold rxDeliver
  split
  · exact scratchWrite_settings i bytes s
  · exact bufWrite_settings _ _ s

theorem rxCopy_settings (k : Nat) (s : State) : Answers (fun t => settings t = settings s) (rxCopy k s) := by
  unfold rxCopy
  refine (feFifoRead_settings k s).bind fun r hr => (rxDeliver_settings _ r.1 r.2).bind fun t ht => ?_
  exact (answers_true _).bind fun w _ => .ok (ht.trans hr)

theorem nfcvDecodeStep_settings (s : State) : Answers (fun t => settings t = settings s) (nfcvDecodeStep s) := by
  unfold nfcvDecodeStep
  refine (answers_true _).bind fun raw _ => (bufWrite_settings _ _ s).bind fun t ht => ?_
  exact (answers_true _).bind fun l _ => .ok ht

theorem rxAfterData_receives (s : State) : Answers (Receives s) (rxAfterData s) := by
  unfold rxAfterData
  split
  · exact Receives.via (rxFail_receives _) (by simp [settings])
  · split
    · exact Receives.via (rxWaitEof_receives (show rxPhase .rxWaitEof = true by decide)) (by simp [settings])
    · exact Receives.via (rxDone_receives _) (by simp [settings])

theorem rxReadData_receives (s : State) : Answers (Receives s) (rxReadData s) := by
  unfold rxReadData
  refine (rxCopy_settings _ _).bind fun t ht => (answers_true _).bind fun total _ => (answers_true _).bind fun len _ => ?_
  have ht' : settings t = settings s := ht.trans (by simp)
  dsimp only
  split
  · refine (nfcvDecodeStep_settings _).bind fun u hu => ?_
    exact Receives.via (rxAfterData_receives u) (hu.trans ht')
  · exact Receives.via (rxAfterData_receives _) ht'

theorem rxShortReply_receives (s : State) : Answers (Receives s) (rxShortReply s) := by
  unfold rxShortReply
  refine (feFifoRead_settings _ s).bind fun r hr => (rxDeliver_settings _ r.1 r.2).bind fun t ht => ?_
  exact Receives.via (rxFail_receives _) (ht.trans hr)

theorem rxOnVerdict_receives (v : Verdict) (s : State) : Answers (Receives s) (rxOnVerdict v s) := by
  cases v with
  | nfcaIncomplete => exact rxShortReply_receives s
  | noError => exact Receives.via (rxReadData_receives _) (by simp [settings])
  | error e =>
    unfold rxOnVerdict
    dsimp only
    split
    · exact .ok ⟨by simp, .inl (by simp; rfl)⟩
    · exact Receives.via (rxReadData_receives _) (by simp [settings])

theorem rxErrCheck_receives (s : State) : Answers (Receives s) (rxErrCheck s) :=
  Receives.via (rxOnVerdict_receives _ _) (by simp)

theorem rxBeyondCapacity_receives (s : State) : Answers (Receives s) (rxBeyondCapacity s) := by
  unfold rxBeyondCapacity
  split
  · exact (nfcvDecodeStep_settings _).bind fun u hu => Receives.via (rxAfterData_receives u) hu
  · exact rxFailWith_receives _ s

theorem rxReadFifo_receives (s : State) : Answers (Receives s) (rxReadFifo s) := by
  unfold rxReadFifo
  refine (answers_true _).bind fun total _ => (rxCopy_settings _ _).bind fun t ht => ?_
  have ht' : settings t = settings s := ht.trans (show settings (fifoStatus (cacheInvalidate s)) = settings s by simp)
  split
  · exact Receives.via (rxBeyondCapacity_receives t) ht'
  · exact .ok ⟨ht', .inl (show rxPhase .rxWaitRxe = true by decide)⟩

theorem rxWaitRxe_receives {s : State} (hs : rxPhase s.txrxState = true) : Answers (Receives s) (rxWaitRxe s) := by
  unfold rxWaitRxe
  dsimp only
  generalize irqRXE ||| irqWL ||| eofIfActive s.mode = m
  have hu : settings (if has (feGetIrq m s).1 irqEOF then { (feGetIrq m s).2 with eofSeen := true } else (feGetIrq m s).2) =
      settings s ∧ rxPhase (if has (feGetIrq m s).1 irqEOF then { (feGetIrq m s).2 with eofSeen := true }
        else (feGetIrq m s).2).txrxState = true := by
    split
    · exact ⟨by simp [settings], by simpa using hs⟩
    · exact ⟨by simp, by simpa using hs⟩
  generalize (if has (feGetIrq m s).1 irqEOF then { (feGetIrq m s).2 with eofSeen := true } else (feGetIrq m s).2) = u
    at hu ⊢
  obtain ⟨hu, hx⟩ := hu
  split
  · exact Receives.via (rxErrCheck_receives _) hu
  · split
    · exact Receives.via (rxFailWith_receives _ _) hu
    · split
      · exact Receives.via (rxReadFifo_receives _) hu
      · split
        · exact Receives.via (rxFailWith_receives _ _) hu
        · exact .ok ⟨hu, .inl (by simpa using hx)⟩

theorem rxWaitRxs_receives {s : State} (hs : rxPhase s.txrxState = true) : Answers (Receives s) (rxWaitRxs s) := by
  unfold rxWaitRxs
  dsimp only
  generalize irqRXS ||| irqNRE ||| eofIfActive s.mode = m
  split
  · exact .ok ⟨by simp, .inl (by simpa using hs)⟩
  · split
    · exact Receives.via (rxWaitRxe_receives (show rxPhase .rxWaitRxe = true by decide)) (by simp [settings])
    · split
      · exact Receives.via (rxFailWith_receives _ _) (by simp)
      · exact Receives.via (rxFailWith_receives _ _) (by simp)

theorem rxWaitEon_receives {s : State} (hs : rxPhase s.txrxState = true) : Answers (Receives s) (rxWaitEon s) := by
  unfold rxWaitEon
  dsimp only
  generalize irqEON ||| irqNRE = m
  split
  · exact .ok ⟨by simp [settings], .inl (show rxPhase .rxWaitRxs = true by decide)⟩
  · split
    · exact Receives.via (rxFailWith_receives _ _) (by simp)
    · split
      · split
        · exact Receives.via (rxFailWith_receives _ _) (by simp)
        · exact .ok ⟨by simp, .inl (by simpa using hs)⟩
      · exact .ok ⟨by simp, .inl (by simpa using hs)⟩

theorem rxIdle_receives (s : State) : Answers (Receives s) (rxIdle s) := by
  refine .ok ⟨?_, .inl ?_⟩
  · show settings (rxIdleTimers _) = settings s
    simp only [settings_bookkeeping]
    split <;> simp
  · dsimp only
    split
    · split <;> decide
    · split <;> decide

/-! ## A WORKER step of an exchange -/

/-- A step from the tx-phase. -/
theorem txrxStep_sends {s : State} (hs : txPhase s.txrxState = true) : Answers (Sends s) (txrxStep s) := by
  unfold txrxStep
  cases hx : s.txrxState with
  | txIdle => exact Sends.via (txWaitGt_sends (show txPhase .txWaitGt = true by decide)) (by simp [settings])
  | txWaitGt => exact txWaitGt_sends hs
  | txWaitFdt => exact txWaitFdt_sends hs
  | txTransmit => exact txTransmit_sends s
  | txWaitWl => exact txWaitWl_sends hs
  | txReloadFifo => exact txReloadFifo_sends s
  | txWaitTxe => exact txWaitTxe_sends hs
  | txDone => exact txDone_sends s
  | txFail => exact .ok (sends_endExchange _ s)
  | _ => rw [hx] at hs; exact absurd hs (by decide)

/-- A step from the rx-phase. -/
theorem txrxStep_receives {s : State} (hs : rxPhase s.txrxState = true) : Answers (Receives s) (txrxStep s) := by
  unfold txrxStep
  cases hx : s.txrxState with
  | rxIdle => exact rxIdle_receives s
  | rxWaitEon => exact rxWaitEon_receives hs
  | rxWaitRxs => exact rxWaitRxs_receives hs
  | rxWaitRxe => exact rxWaitRxe_receives hs
  | rxReadFifo => exact rxReadFifo_receives s
  | rxErrCheck => exact rxErrCheck_receives s
  | rxReadData => exact rxReadData_receives s
  | rxWaitEof => exact rxWaitEof_receives hs
  | rxDone => exact rxDone_receives s
  | rxFail => exact rxFail_receives s
  | _ => rw [hx] at hs; exact absurd hs (by decide)

/-- No exchange, nothing to do (R115). -/
theorem txrxStep_of_idle {s : State} (h : s.txrxState = .idle) : txrxStep s = .ok s := by
  simp [txrxStep, h]

/-- Every Transceive State is `IDLE`, in the tx-phase or in the rx-phase (R78). -/
theorem txrxState_groups (t : TxrxState) : t = .idle ∨ txPhase t = true ∨ rxPhase t = true := by
  cases t <;> decide

theorem not_txPhase_of_rxPhase {t : TxrxState} (h : rxPhase t = true) : txPhase t = false := by
  revert h
  cases t <;> decide

/-- A WORKER step of an exchange leaves the settings alone. -/
theorem txrxStep_settings (s : State) : Answers (fun t => settings t = settings s) (txrxStep s) := by
  rcases txrxState_groups s.txrxState with h | h | h
  · rw [txrxStep_of_idle h]; exact .ok rfl
  · exact (txrxStep_sends h).mono fun _ ht => ht.settings
  · exact (txrxStep_receives h).mono fun _ ht => ht.settings

end Sys2Proof.Machine

/-! # What each operation may change

Per operation, what it can answer (`_next`); from these the frame of every operation and the exclusion of the siblings. -/

namespace Sys2Proof.Machine

/-! ## WORKER -/

/-- The state with everything blanked that a Listen step may write (R195 to R197). -/
def besideListen (s : State) : State :=
  { s with buf := [], env := Env.powerOn, cache := ⟨false, 0, 0, false⟩, lm := ⟨0, 0, 0, .keep, false⟩, lmState := .notInit }

theorem listenGoodFrame_frame (s : State) : Answers (fun t => besideListen t = besideListen s) (listenGoodFrame s) := by
  have hu : besideListen (fifoStatus (cacheInvalidate s)) = besideListen s := by simp [besideListen]
  unfold listenGoodFrame
  generalize fifoStatus (cacheInvalidate s) = u at hu ⊢
  have hread : Answers (fun r => besideListen r.2 = besideListen u)
      (feFifoRead (min (strip u.cache.numBytes) (ceil8 u.lm.rxBufLen.toNat)) u) := by
    intro r hr
    rcases feFifoRead_spec hr with ⟨-, rfl⟩ | ⟨-, -, -, hr⟩
    · rfl
    · simp [hr, besideListen]
  refine hread.bind fun r hr => Answers.bind (P := fun t => besideListen t = besideListen r.2) ?_ fun t ht => ?_
  · intro t ht
    obtain ⟨-, rfl⟩ := bufWrite_spec ht
    rfl
  · refine (answers_true _).bind fun l _ => .ok ?_
    calc besideListen _ = besideListen t := by simp [besideListen]
      _ = besideListen r.2 := ht
      _ = besideListen u := hr
      _ = besideListen s := hu

theorem listenBitRate_frame (i : Word) (s : State) : besideListen (listenBitRate i s) = besideListen s := by
  unfold listenBitRate
  split <;> simp [besideListen]

/-- A Listen step writes the Listen context, its state, BUF, the FIFO status cache and the environment. -/
theorem listenStep_frame (s : State) : Answers (fun t => besideListen t = besideListen s) (listenStep s) := by
  have hpoll : ∀ m, besideListen (feGetIrq m s).2 = besideListen s := fun m => by simp [besideListen]
  unfold listenStep
  split
  · refine .ok ?_
    split <;> simp [besideListen]
  · unfold lmIdle
    split
    · exact .ok rfl
    · dsimp only
      generalize irqNFCT ||| irqRXE ||| irqEOF ||| irqPAR ||| irqCRC ||| irqERR1 = m
      have hu := (listenBitRate_frame (feGetIrq m s).1 (feGetIrq m s).2).trans (hpoll m)
      generalize listenBitRate (feGetIrq m s).1 (feGetIrq m s).2 = u at hu ⊢
      split
      · unfold listenFrame
        split
        · exact .ok (Eq.trans (by simp [besideListen, listenBadFrame]) hu)
        · exact (listenGoodFrame_frame u).mono fun _ ht => ht.trans hu
      · split
        · exact .ok (Eq.trans (by simp [besideListen]) hu)
        · exact .ok hu
  all_goals exact .ok rfl

/-- A Wake-Up step writes its state and the environment (R208). -/
theorem wakeUpStep_next {s t : State} (h : wakeUpStep s = .ok t) : ∃ w v, t = { s with wuState := w, env := v } := by
  refine ⟨t.wuState, t.env, ?_⟩
  unfold wakeUpStep at h
  split at h
  · cases h
    dsimp only
    split
    · simp
    · rfl
  all_goals cases h; rfl

/-- What WORKER can answer. -/
theorem worker_next {s t : State} (h : exec .worker s = .next t) :
    ∃ u, workerStep s = .ok u ∧ t = { u with result := .none } := by
  obtain ⟨u, hu, ht⟩ := andThen_next h
  cases ht
  exact ⟨u, hu, rfl⟩

/-- WORKER is the step of the machine that is current (R115). -/
theorem workerStep_cases {s t : State} (h : workerStep s = .ok t) :
    (s.topState = .txRx ∧ txrxStep s = .ok t) ∨
    (s.topState = .listen ∧ besideListen t = besideListen s) ∨
    (s.topState = .wakeUp ∧ ∃ w v, t = { s with wuState := w, env := v }) ∨ t = s := by
  unfold workerStep at h
  split at h
  · next ht => exact .inl ⟨ht, h⟩
  · next ht => exact .inr (.inl ⟨ht, listenStep_frame s t h⟩)
  · next ht => exact .inr (.inr (.inl ⟨ht, wakeUpStep_next h⟩))
  all_goals cases h; exact .inr (.inr (.inr rfl))

/-- Settles O20: outside an exchange WORKER leaves the Transceive State alone; inside, its step is `Sends` or `Receives`. -/
theorem transmissionPrecedesReception : Obligations.TransmissionPrecedesReception := by
  intro s t h
  obtain ⟨u, hu, rfl⟩ := worker_next h
  show (s.txrxState = .idle → u.txrxState = .idle) ∧ (rxPhase s.txrxState = true → txPhase u.txrxState = false) ∧
    (txPhase s.txrxState = true → txPhase u.txrxState = true ∨ u.txrxState = .rxIdle ∨ u.txrxState = .idle)
  have same (e : u.txrxState = s.txrxState) : (s.txrxState = .idle → u.txrxState = .idle) ∧
      (rxPhase s.txrxState = true → txPhase u.txrxState = false) ∧
      (txPhase s.txrxState = true → txPhase u.txrxState = true ∨ u.txrxState = .rxIdle ∨ u.txrxState = .idle) := by
    rw [e]
    exact ⟨id, not_txPhase_of_rxPhase, .inl⟩
  rcases workerStep_cases hu with ⟨-, hx⟩ | ⟨-, hl⟩ | ⟨-, w, v, rfl⟩ | rfl
  · refine ⟨fun hi => ?_, fun hr => ?_, fun ht => (txrxStep_sends ht u hx).leads⟩
    · rw [txrxStep_of_idle hi] at hx
      cases hx
      exact hi
    · rcases (txrxStep_receives hr u hx).leads with hp | hp
      · exact not_txPhase_of_rxPhase hp
      · rw [hp]; decide
  · exact same (congrArg State.txrxState hl :)
  · exact same rfl
  · exact same rfl

/-- What WORKER leaves alone, whichever machine is current: all but the exchange's own state, the Listen and Wake-Up states,
the Listen context and `RESULT`. -/
def beyondWorker (s : State) : State :=
  { settings s with lm := ⟨0, 0, 0, .keep, false⟩, lmState := .notInit, wuState := .notInit, result := .none }

theorem worker_frame {s t : State} (h : exec .worker s = .next t) : beyondWorker t = beyondWorker s := by
  obtain ⟨u, hu, rfl⟩ := worker_next h
  show beyondWorker u = beyondWorker s
  rcases workerStep_cases hu with ⟨-, hx⟩ | ⟨-, hl⟩ | ⟨-, w, v, rfl⟩ | rfl
  · simp only [beyondWorker, txrxStep_settings s u hx]
  · exact (congrArg beyondWorker hl :)
  · rfl
  · rfl

/-! ## The other operations -/

/-- What SET_BITRATE can answer, as an operation and as the end of SET_MODE. -/
theorem performSetBitrate_next {tx rx : BitRate} {s t : State} (h : performSetBitrate tx rx s = .next t) :
    (∃ e, t = { s with result := e }) ∨ t = { applyBitrate tx rx s with result := .none } := by
  unfold performSetBitrate at h
  split at h
  · cases h; exact .inl ⟨_, rfl⟩
  · split at h
    · cases h; exact .inl ⟨_, rfl⟩
    · cases h; exact .inr rfl

/-- What SET_MODE can answer: an error, or what SET_BITRATE answers in the mode just set. -/
theorem setMode_next {m : Mode} {tx rx : BitRate} {s t : State} (h : execSetMode m tx rx s = .next t) :
    (∃ e, t = { s with result := e }) ∨ performSetBitrate tx rx
      { applyAnalogConfig (commonId m) (feConfig (.mode m) { s with mode := m }) with topState := .modeSet } = .next t := by
  unfold execSetMode at h
  split at h
  · cases h; exact .inl ⟨_, rfl⟩
  · exact .inr h

/-- What FIELD_ON_AND_START_GT can answer: an error or a collision; the guard time restarted; the field switched on. -/
theorem fieldOnAndStartGt_next {s t : State} (h : execFieldOnAndStartGt s = .next t) :
    (∃ v e, t = { s with env := v, result := e }) ∨ t = { startGuardTime s with result := .none } ∨
    ∃ v, t = { startGuardTime { s with env := v, fieldOn := true } with result := .none } := by
  unfold execFieldOnAndStartGt at h
  split at h
  · cases h; exact .inl ⟨s.env, _, rfl⟩
  · split at h
    · cases h; exact .inr (.inl rfl)
    · have hspin := spinCollisionAvoidance_env (spinPolls (fieldOnRequest s)) (fieldOnRequest s)
      unfold fieldOnProcedure at h
      dsimp only at h
      split at h
      · cases h
      · next r hr =>
        obtain ⟨v, hv⟩ := hspin r hr
        split at h
        · refine .inl ⟨t.env, .rfCollision, ?_⟩
          cases h
          simp [hv]
        · refine .inr (.inr ⟨(feConfig (.txrxEnable true) (feIrqDisable (irqCAC ||| irqCAT) r.2)).env, ?_⟩)
          cases h
          simp [hv]

/-- What START_TRANSCEIVE can answer. -/
theorem startTransceive_next {tx : Word} {txLen : Len} {rx : Word} {rxLen : Len} {fl : BitVec 5} {fwt : Time}
    {s t : State} (h : execStartTransceive tx txLen rx rxLen fl fwt s = .next t) :
    ∃ e, t = { s with result := e } ∨
      t = { beginExchange (loadedCtx tx txLen rx rxLen fl fwt) s with result := e } := by
  unfold execStartTransceive at h
  split at h <;> cases h
  · exact ⟨_, .inl rfl⟩
  · exact ⟨_, .inr rfl⟩

/-- The spin of a synchronous primitive leaves the settings alone. -/
theorem spinExchange_settings (n : Nat) (s : State) : Answers (fun t => settings t = settings s) (spinExchange n s) := by
  induction n generalizing s with
  | zero =>
    unfold spinExchange
    split
    · exact .ok rfl
    · rintro t ⟨⟩
  | succ n ih =>
    unfold spinExchange
    split
    · exact .ok rfl
    · split
      · next u hu => exact (ih u).mono fun _ ht => ht.trans (txrxStep_settings s u hu)
      · rintro t ⟨⟩

/-- What SHORT_FRAME_TRANSCEIVE can answer: an error, or the end of an exchange on its own context. -/
theorem shortFrameTransceive_next {x : BitVec 7} {rx : Word} {rxLen : Len} {fwt : Time} {s t : State}
    (h : execShortFrameTransceive x rx rxLen fwt s = .next t) :
    (∃ e, t = { s with result := e }) ∨ ∃ e r, settings t =
      { settings (beginExchange (shortFrameCtx x rx rxLen fwt) s) with result := e, ret0 := r } := by
  unfold execShortFrameTransceive at h
  split at h
  · cases h; exact .inl ⟨_, rfl⟩
  · obtain ⟨u, hu, ht⟩ := andThen_next h
    have hs := spinExchange_settings _ _ u hu
    rw [show settings (shortFrameStart (shortFrameCtx x rx rxLen fwt) s) =
      settings (beginExchange (shortFrameCtx x rx rxLen fwt) s) by simp [shortFrameStart]] at hs
    cases ht
    refine .inr ⟨u.status, u.rxRcvdLen.setWidth 32, ?_⟩
    rw [← hs]
    simp [settings]

/-- What ANTICOLLISION_TRANSCEIVE can answer: an error, or the end of an exchange on its own context. -/
theorem anticollisionTransceive_next {b : Word} {n : Byte} {k : BitVec 3} {fwt : Time} {s t : State}
    (h : execAnticollisionTransceive b n k fwt s = .next t) :
    (∃ e, t = { s with result := e }) ∨ ∃ e r q, settings t =
      { settings (beginExchange (anticollisionCtx b n k fwt) (feConfig (.antcl true) s)) with
        result := e, ret0 := r, ret1 := q } := by
  unfold execAnticollisionTransceive at h
  split at h
  · cases h; exact .inl ⟨_, rfl⟩
  · obtain ⟨u, hu, ht⟩ := andThen_next h
    have hs := spinExchange_settings _ _ u hu
    cases ht
    refine .inr ⟨u.status, u.rxRcvdLen.setWidth 32, (readCollisionPos { feConfig (.antcl false) u with
      ret0 := (feConfig (.antcl false) u).rxRcvdLen.setWidth 32 }).ret1, ?_⟩
    rw [← hs]
    simp [settings]

/-- What LISTEN_START can answer. -/
theorem listenStart_next {m : BitVec 4} {rx : Word} {rxLen : Len} {s t : State}
    (h : execListenStart m rx rxLen s = .next t) :
    (∃ e, t = { s with result := e }) ∨ (s.topState ≠ .wakeUp ∧ ∃ v, t = { s with
      lm := ⟨rx, rxLen, 0, .keep, false⟩, lmState := .powerOff, topState := .listen, env := v, result := .none }) := by
  unfold execListenStart at h
  split at h
  · cases h; exact .inl ⟨_, rfl⟩
  · next he =>
    obtain ⟨-, hw, -⟩ := listenStartError_none he
    refine .inr ⟨hw, t.env, ?_⟩
    cases h
    simp

/-- What LISTEN_STOP answers. -/
theorem listenStop_next {s t : State} (h : execListenStop s = .next t) :
    ∃ v, t = { s with
      topState := if s.topState = .listen then .init else s.topState, env := v, lmState := .notInit
      lm := { s.lm with dataFlag := false, rxLen := 0, bitRate := .keep }, result := .none } := by
  refine ⟨t.env, ?_⟩
  unfold execListenStop at h
  cases h
  by_cases ht : s.topState = .listen <;> simp [ht]

theorem measuredChannel_env (ch : MeasureChannel) (c : Channel) (s : State) :
    ∃ v, (measuredChannel ch c s).2 = { s with env := v } := by
  unfold measuredChannel
  split <;> exact ⟨_, rfl⟩

theorem wakeupContext_writes (a p c : Channel) (s : State) :
    ∃ w v, wakeupContext a p c s = { s with wu := w, env := v } := by
  obtain ⟨v1, h1⟩ := measuredChannel_env .amp a s
  obtain ⟨v2, h2⟩ := measuredChannel_env .pha p (measuredChannel .amp a s).2
  exact ⟨_, v2, by simp only [wakeupContext, h2]; rw [h1]⟩

/-- What WAKEUP_START can answer. -/
theorem wakeupStart_next {a p c : Channel} {s t : State} (h : execWakeupStart a p c s = .next t) :
    (∃ e, t = { s with result := e }) ∨ (s.topState ≠ .listen ∧ ∃ w v, t = { s with
      wu := w, wuState := .enabled, topState := .wakeUp, fieldOn := false, env := v, result := .none }) := by
  unfold execWakeupStart at h
  split at h
  · cases h; exact .inl ⟨_, rfl⟩
  · next he =>
    obtain ⟨-, hl⟩ := wakeupStartError_none he
    obtain ⟨w, v, hc⟩ := wakeupContext_writes a p c s
    refine .inr ⟨hl, w, t.env, ?_⟩
    cases h
    simp [wakeupConfigure, hc]

/-- What WAKEUP_STOP answers. -/
theorem wakeupStop_next {s t : State} (h : execWakeupStop s = .next t) :
    ∃ w v, t = { s with
      topState := if s.topState = .wakeUp then .init else s.topState, env := v, wuState := .notInit, wu := w
      result := .none } := by
  refine ⟨t.wu, t.env, ?_⟩
  unfold execWakeupStop at h
  cases h
  by_cases ht : s.topState = .wakeUp <;> simp [ht]

/-- `ComputeTimers` writes the computed timer values only (R112). -/
theorem beginExchange_timing (c : Ctx) (s : State) :
    (beginExchange c s).timing.gt = s.timing.gt ∧ (beginExchange c s).timing.fdtListen = s.timing.fdtListen ∧
    (beginExchange c s).timing.fdtPoll = s.timing.fdtPoll := by
  simp only [beginExchange, prepare_fields, computeTimers, loadExchange_fields]
  split <;> split <;> simp

/-- Settles O16: every operation answers one of the states its `_next` lemma gives, which name the fields it writes; a WORKER
step is `worker_frame`, a synchronous primitive has the settings its exchange started with. -/
theorem onlyTheNamedOperationsWrite : Obligations.OnlyTheNamedOperationsWrite := by
  intro i s t h
  cases i with
  | initialise =>
    cases h
    by_cases hi : s.txrxState = .idle <;> simp [opcode, initialValues, hi]
  | setMode m tx rx =>
    rcases setMode_next h with ⟨e, rfl⟩ | hp
    · simp
    · rcases performSetBitrate_next hp with ⟨e, rfl⟩ | rfl <;> simp [opcode]
  | setBitrate tx rx => rcases performSetBitrate_next h with ⟨e, rfl⟩ | rfl <;> simp [opcode]
  | setFdtPoll v => cases h; simp [opcode]
  | setFdtListen v => cases h; simp [opcode]
  | setGt v => cases h; simp [opcode]
  | setErrorHandling p => cases h; simp [opcode]
  | fieldOnAndStartGt => rcases fieldOnAndStartGt_next h with ⟨v, e, rfl⟩ | rfl | ⟨v, rfl⟩ <;> simp [opcode]
  | fieldOff =>
    cases h
    by_cases hi : s.txrxState = .idle <;> simp [opcode, hi]
  | startTransceive tx txLen rx rxLen fl fwt =>
    obtain ⟨e, rfl | rfl⟩ := startTransceive_next h <;> simp [opcode, beginExchange_timing]
  | worker =>
    have hf := worker_frame h
    simp only [beyondWorker, settings, State.mk.injEq] at hf
    simp [opcode, hf]
  | getStatus => cases h; simp [opcode]
  | shortFrameTransceive x rx rxLen fwt =>
    rcases shortFrameTransceive_next h with ⟨e, rfl⟩ | ⟨e, r, hf⟩
    · simp
    · simp only [settings, State.mk.injEq] at hf
      simp [opcode, hf, beginExchange_timing]
  | anticollisionTransceive b n k fwt =>
    rcases anticollisionTransceive_next h with ⟨e, rfl⟩ | ⟨e, r, q, hf⟩
    · simp
    · simp only [settings, State.mk.injEq] at hf
      simp [opcode, hf, beginExchange_timing]
  | listenStart m rx rxLen => rcases listenStart_next h with ⟨e, rfl⟩ | ⟨-, v, rfl⟩ <;> simp [opcode]
  | listenStop => obtain ⟨v, rfl⟩ := listenStop_next h; simp [opcode]
  | wakeupStart a p c => rcases wakeupStart_next h with ⟨e, rfl⟩ | ⟨-, w, v, rfl⟩ <;> simp [opcode]
  | wakeupStop => obtain ⟨w, v, rfl⟩ := wakeupStop_next h; simp [opcode]

/-- Settles O15: an operation that starts Listen or Wake-Up is turned away while the other is current, and INITIALIZE, the stop
operations and a WORKER step leave no machine running beside the current one. -/
theorem siblingsStayExclusive : Obligations.SiblingsStayExclusive := by
  refine ⟨⟨fun h => absurd rfl h, fun h => absurd rfl h⟩, fun i s t hs hop h => ?_⟩
  have frame := onlyTheNamedOperationsWrite i s t h
  obtain ⟨-, -, -, -, htop, -, -, -, -, -, -, -, -, -, -, -, hlm, hwu, -⟩ := frame
  obtain ⟨hl, hw⟩ := hs
  cases i with
  | setMode | startTransceive | shortFrameTransceive | anticollisionTransceive => simp [opcode] at hop
  | initialise =>
    cases h
    simp [siblingsExclusive, initialValues]
  | worker =>
    obtain ⟨u, hu, rfl⟩ := worker_next h
    rcases workerStep_cases hu with ⟨-, hx⟩ | ⟨ht, hx⟩ | ⟨ht, w, v, rfl⟩ | rfl
    · have hx := txrxStep_settings s u hx
      simp only [settings, State.mk.injEq] at hx
      simpa [siblingsExclusive, hx] using ⟨hl, hw⟩
    · simp only [besideListen, State.mk.injEq] at hx
      exact ⟨fun _ => by simp [hx, ht], fun hn => by simpa [hx] using hw (by simpa [hx] using hn)⟩
    · exact ⟨hl, fun _ => ht⟩
    · exact ⟨hl, hw⟩
  | listenStart =>
    rcases listenStart_next h with ⟨e, rfl⟩ | ⟨hnw, v, rfl⟩
    · exact ⟨hl, hw⟩
    · exact ⟨fun _ => rfl, fun hn => absurd (hw hn) hnw⟩
  | listenStop =>
    obtain ⟨v, rfl⟩ := listenStop_next h
    exact ⟨fun hn => absurd rfl hn, fun hn => by simp [hw hn]⟩
  | wakeupStart =>
    rcases wakeupStart_next h with ⟨e, rfl⟩ | ⟨hnl, w, v, rfl⟩
    · exact ⟨hl, hw⟩
    · exact ⟨fun hn => absurd (hl hn) hnl, fun _ => rfl⟩
  | wakeupStop =>
    obtain ⟨w, v, rfl⟩ := wakeupStop_next h
    exact ⟨fun hn => by simp [hl hn], fun hn => absurd rfl hn⟩
  | _ =>
    unfold siblingsExclusive
    rw [htop (by simp [opcode]), (hlm (by simp [opcode])).1, hwu (by simp [opcode])]
    exact ⟨hl, hw⟩

end Sys2Proof.Machine

/-! # A reception never empties the FIFO below what it reads

While the front end takes nothing out (`noDrain`), a snapshot of the FIFO status stays a lower bound of what the FIFO holds,
and every read of the rx-phase asks for no more than the last snapshot counted: `RX_READ_FIFO` for part of it, `RX_READ_DATA`
for what is left of the frame, of which all that was counted before has been copied (`Inv.rxDrained`). -/

namespace Sys2Proof.Machine

/-! ## The FIFO while nothing is taken out -/

theorem noDrain.of_script {s t : State} (h : noDrain s) (ht : t.env.script = s.env.script) : noDrain t := by
  unfold noDrain
  rw [ht]
  exact h

theorem noDrain.of_tail {s t : State} (h : noDrain s) (ht : t.env.script = s.env.script.tail) : noDrain t := by
  unfold noDrain
  rw [ht]
  exact fun es hes => h es (List.mem_of_mem_tail hes)

/-- Only `drain` shortens the FIFO among the steps of the environment. -/
theorem applyEvent_fifo_ge {d : Nat} {e : EnvEvent} (he : ∀ n, e ≠ .drain n) (v : Env) :
    v.fe.fifo.length ≤ (applyEvent d e v).fe.fifo.length := by
  cases e with
  | drain n => exact absurd rfl (he n)
  | receive bs => simp [applyEvent, receiveBytes]
  | timerRun t => cases t <;> simp only [applyEvent, moveHwClock] <;> split <;> simp [setHwClock]
  | timerExpire t => cases t <;> simp only [applyEvent, moveHwClock] <;> split <;> simp [setHwClock]
  | swExpire t => simp [applyEvent]
  | setMeasured ch x => cases ch <;> simp [applyEvent]
  | _ => simp [applyEvent, raiseFlags]

theorem applyEvents_fifo_ge {d : Nat} {es : List EnvEvent} (h : ∀ e ∈ es, ∀ n, e ≠ .drain n) (v : Env) :
    v.fe.fifo.length ≤ (applyEvents d es v).fe.fifo.length := by
  induction es generalizing v with
  | nil => exact Nat.le_refl _
  | cons e es ih =>
    exact (applyEvent_fifo_ge (h e List.mem_cons_self) v).trans (ih (fun e' he => h e' (List.mem_cons_of_mem _ he)) _)

/-- What a call finds in the FIFO is at least what was there before the environment's turn. -/
theorem noDrain.atCall_fifo_ge {s : State} (h : noDrain s) :
    s.env.fe.fifo.length ≤ (atCall s).env.fe.fifo.length := by
  unfold noDrain at h
  unfold atCall envTurn
  dsimp only
  split
  · exact Nat.le_refl _
  · next es rest hs =>
    exact applyEvents_fifo_ge (h es (by rw [hs]; exact List.mem_cons_self)) { s.env with script := rest }

/-! ## Parts of an operation that read no more than is present -/

/-- This part of an operation does not stop by reading bytes that are not there (R56). -/
def NoUnderflow {α : Type} (r : Except Fault α) : Prop := r ≠ .error .fifoUnderflow

theorem NoUnderflow.ok {α : Type} (a : α) : NoUnderflow (.ok a) := fun h => by cases h

theorem NoUnderflow.bind {α β : Type} {x : Except Fault α} {f : α → Except Fault β} (hx : NoUnderflow x)
    (hf : ∀ a, x = .ok a → NoUnderflow (f a)) : NoUnderflow (x >>= f) := by
  cases x with
  | ok a => exact hf a rfl
  | error e => exact fun h => hx (by cases h; rfl)

/-- Nothing but `FeFifoRead` underflows. -/
theorem noUnderflow_accesses (s : State) :
    (∀ n, NoUnderflow (toLen n)) ∧ (∀ a bs, NoUnderflow (bufWrite a bs s)) ∧
    (∀ i bs, NoUnderflow (scratchWrite i bs s)) ∧ (∀ i n, NoUnderflow (scratchRead i n s)) := by
  refine ⟨fun n => ?_, fun a bs => ?_, fun i bs => ?_, fun i n => ?_⟩
  · unfold toLen NoUnderflow; split <;> simp
  · unfold bufWrite NoUnderflow; split <;> simp
  · unfold scratchWrite NoUnderflow; split <;> simp
  · unfold scratchRead NoUnderflow; split <;> simp

/-- `FeFifoRead` of no more than the FIFO holds, while nothing is taken out before the call. -/
theorem feFifoRead_noUnderflow {s : State} {n : Nat} (h : noDrain s) (hn : n ≤ s.env.fe.fifo.length) :
    NoUnderflow (feFifoRead n s) := by
  unfold feFifoRead
  split
  · exact .ok _
  · dsimp only
    rw [if_pos (hn.trans h.atCall_fifo_ge)]
    exact .ok _

theorem rxDeliver_noUnderflow (i : Nat) (bs : List Byte) (s : State) : NoUnderflow (rxDeliver i bs s) := by
  obtain ⟨-, hbuf, hscratch, -⟩ := noUnderflow_accesses s
  unfold rxDeliver
  split
  · exact hscratch _ _
  · exact hbuf _ _

theorem rxCopy_noUnderflow {s : State} {k : Nat} (h : noDrain s) (hk : k ≤ s.env.fe.fifo.length) :
    NoUnderflow (rxCopy k s) :=
  (feFifoRead_noUnderflow h hk).bind fun _ _ => (rxDeliver_noUnderflow _ _ _).bind fun t _ =>
    ((noUnderflow_accesses t).1 _).bind fun _ _ => .ok _

theorem nfcvDecodeStep_noUnderflow (s : State) : NoUnderflow (nfcvDecodeStep s) := by
  obtain ⟨hlen, hbuf, -, hread⟩ := noUnderflow_accesses s
  exact (hread _ _).bind fun _ _ => (hbuf _ _).bind fun _ _ => (hlen _).bind fun _ _ => .ok _

theorem rxFailWith_noUnderflow (e : Status) (s : State) : NoUnderflow (rxFailWith e s) :=
  ((noUnderflow_accesses s).1 _).bind fun _ _ => .ok _

theorem rxWaitEof_noUnderflow (s : State) : NoUnderflow (rxWaitEof s) := by
  unfold rxWaitEof
  dsimp only
  split
  · exact .ok _
  · split <;> exact .ok _

theorem rxAfterData_noUnderflow (s : State) : NoUnderflow (rxAfterData s) := by
  unfold rxAfterData
  split
  · exact .ok _
  · split
    · exact rxWaitEof_noUnderflow _
    · exact .ok _

theorem rxBeyondCapacity_noUnderflow (s : State) : NoUnderflow (rxBeyondCapacity s) := by
  unfold rxBeyondCapacity
  split
  · exact (nfcvDecodeStep_noUnderflow _).bind fun t _ => rxAfterData_noUnderflow t
  · exact rxFailWith_noUnderflow _ s

/-! ## Snapshots of the FIFO -/

/-- The FIFO status cache holds a snapshot, and at least as many bytes as it counted are there. -/
structure Snapshot (s : State) : Prop where
  noDrain : noDrain s
  valid : s.cache.valid = true
  present : s.cache.numBytes ≤ s.env.fe.fifo.length

theorem snapshot_fifoStatus {s : State} (h : noDrain s) (hc : s.cache.valid = false) : Snapshot (fifoStatus s) := by
  rcases fifoStatus_spec s with ⟨hv, -⟩ | ⟨-, hcache, hfe, hscript⟩
  · rw [hc] at hv; cases hv
  · exact ⟨h.of_tail hscript, by rw [hcache], by rw [hcache, hfe]⟩

theorem rxReadData_noUnderflow {s : State} (h : Snapshot s) (hd : s.fifo.bytesWritten = s.fifo.bytesTotal) :
    NoUnderflow (rxReadData s) := by
  have hs : fifoStatus s = s := by simp [fifoStatus, h.valid]
  have hle := reported_le s (s.fifo.bytesTotal.toNat + s.cache.numBytes)
  have hpresent := h.present
  have hw := congrArg BitVec.toNat hd
  unfold rxReadData
  rw [hs]
  refine (rxCopy_noUnderflow h.noDrain (by omega)).bind fun t _ => ((noUnderflow_accesses t).1 _).bind fun total _ => ?_
  have hbits : ∀ l, NoUnderflow (reportedBits t l) := fun l => by
    unfold reportedBits
    split
    · exact .ok _
    · exact (noUnderflow_accesses t).1 _
  refine (hbits _).bind fun len _ => ?_
  dsimp only
  split
  · exact (nfcvDecodeStep_noUnderflow _).bind fun u _ => rxAfterData_noUnderflow u
  · exact rxAfterData_noUnderflow _

theorem rxShortReply_noUnderflow {s : State} (h : Snapshot s) (hn : 1 ≤ s.cache.numBytes) :
    NoUnderflow (rxShortReply s) := by
  have hpresent := h.present
  exact (feFifoRead_noUnderflow h.noDrain (by omega)).bind fun _ _ => (rxDeliver_noUnderflow _ _ _).bind fun _ _ => .ok _

/-- The short-reply path is taken only with one byte in the FIFO (R181). -/
theorem classify_nfcaIncomplete {p : Policy} {m : Mode} {total n : Nat} {e : Word} {ib : BitVec 3} {mp : Bool}
    (h : classify p m total e n ib mp = .nfcaIncomplete) : n = 1 := by
  unfold classify at h
  split_ifs at h with h1 h2
  simp only [nfcaShortReply, Bool.and_eq_true, beq_iff_eq] at h2
  exact h2.1.2

theorem rxErrCheck_noUnderflow {s : State} (h : noDrain s) (hd : s.fifo.bytesWritten = s.fifo.bytesTotal) :
    NoUnderflow (rxErrCheck s) := by
  have hu : Snapshot (fifoStatus (feGetIrq errIrqs (cacheInvalidate s)).2) :=
    snapshot_fifoStatus (h.of_tail (by simp [cacheInvalidate])) (by simp)
  have hdu : (fifoStatus (feGetIrq errIrqs (cacheInvalidate s)).2).fifo.bytesWritten =
      (fifoStatus (feGetIrq errIrqs (cacheInvalidate s)).2).fifo.bytesTotal := by simpa using hd
  unfold rxErrCheck
  dsimp only
  generalize fifoStatus (feGetIrq errIrqs (cacheInvalidate s)).2 = u at hu hdu ⊢
  have hdata : ∀ st, NoUnderflow (rxReadData { u with status := st, txrxState := .rxReadData }) :=
    fun st => rxReadData_noUnderflow ⟨hu.noDrain, hu.valid, hu.present⟩ hdu
  unfold rxOnVerdict
  split
  · next hv => exact rxShortReply_noUnderflow hu (classify_nfcaIncomplete hv).ge
  · exact hdata u.status
  · split
    · exact .ok _
    · exact hdata _

theorem rxReadFifo_noUnderflow {s : State} (h : noDrain s) : NoUnderflow (rxReadFifo s) := by
  have hu : Snapshot (fifoStatus (cacheInvalidate s)) :=
    snapshot_fifoStatus (h.of_script (by simp [cacheInvalidate])) (by simp)
  have hpresent := hu.present
  unfold rxReadFifo
  generalize fifoStatus (cacheInvalidate s) = u at hu hpresent ⊢
  refine ((noUnderflow_accesses u).1 _).bind fun total _ => ?_
  refine NoUnderflow.bind
    (rxCopy_noUnderflow (hu.noDrain.of_script rfl) ((Nat.min_le_left _ _).trans hpresent)) fun t _ => ?_
  split
  · exact rxBeyondCapacity_noUnderflow t
  · exact .ok _

/-! ## The waiting states -/

theorem rxWaitRxe_noUnderflow {s : State} (h : noDrain s) (hd : s.fifo.bytesWritten = s.fifo.bytesTotal) :
    NoUnderflow (rxWaitRxe s) := by
  unfold rxWaitRxe
  dsimp only
  generalize irqRXE ||| irqWL ||| eofIfActive s.mode = m
  have hu : noDrain (if has (feGetIrq m s).1 irqEOF then { (feGetIrq m s).2 with eofSeen := true } else (feGetIrq m s).2) ∧
      (if has (feGetIrq m s).1 irqEOF then { (feGetIrq m s).2 with eofSeen := true }
        else (feGetIrq m s).2).fifo = s.fifo := by
    split
    · exact ⟨h.of_tail (by simp), by simp⟩
    · exact ⟨h.of_tail (by simp), by simp⟩
  generalize (if has (feGetIrq m s).1 irqEOF then { (feGetIrq m s).2 with eofSeen := true } else (feGetIrq m s).2) = u
    at hu ⊢
  obtain ⟨hn, hf⟩ := hu
  split
  · exact rxErrCheck_noUnderflow (hn.of_script rfl) (show u.fifo.bytesWritten = u.fifo.bytesTotal by rw [hf, hd])
  · split
    · exact rxFailWith_noUnderflow _ _
    · split
      · exact rxReadFifo_noUnderflow (hn.of_script rfl)
      · split
        · exact rxFailWith_noUnderflow _ _
        · exact .ok _

theorem rxWaitRxs_noUnderflow {s : State} (h : noDrain s) (hd : s.fifo.bytesWritten = s.fifo.bytesTotal) :
    NoUnderflow (rxWaitRxs s) := by
  unfold rxWaitRxs
  dsimp only
  split
  · exact .ok _
  · split
    · exact rxWaitRxe_noUnderflow (h.of_tail (by simp)) (by simpa using hd)
    · split <;> exact rxFailWith_noUnderflow _ _

theorem rxWaitEon_noUnderflow (s : State) : NoUnderflow (rxWaitEon s) := by
  unfold rxWaitEon
  dsimp only
  split
  · exact .ok _
  · split
    · exact rxFailWith_noUnderflow _ _
    · split
      · split
        · exact rxFailWith_noUnderflow _ _
        · exact .ok _
      · exact .ok _

/-- A step of the rx-phase reads no more bytes than are there, while the front end takes none out. -/
theorem txrxStep_noUnderflow {s : State} (h : Inv s) (hr : rxPhase s.txrxState = true) (hn : noDrain s) :
    NoUnderflow (txrxStep s) := by
  have hrest := h.rests
  have hdrained := h.rxDrained
  unfold txrxStep
  cases hx : s.txrxState with
  | rxIdle => exact .ok _
  | rxWaitEon => exact rxWaitEon_noUnderflow s
  | rxWaitRxs => exact rxWaitRxs_noUnderflow hn (hdrained (.inr (.inl hx)))
  | rxWaitRxe => exact rxWaitRxe_noUnderflow hn (hdrained (.inr (.inr hx)))
  | rxWaitEof => exact rxWaitEof_noUnderflow s
  | rxReadFifo | rxErrCheck | rxReadData | rxDone | rxFail => rw [hx] at hrest; cases hrest
  | _ => rw [hx] at hr; exact absurd hr (by decide)

/-- Settles O14: the first part is what `KeepsInv` says of the operations that do not answer, the second is
`txrxStep_noUnderflow`. -/
theorem noOperationLeavesItsBuffers : Obligations.NoOperationLeavesItsBuffers := by
  refine ⟨fun i s h => ?_, fun s h ht hr hn hf => ?_⟩
  · have hk := exec_keepsInv i h
    cases he : exec i s with
    | next t => simp
    | fault f => rw [he] at hk; simpa [KeepsInv] using hk
    | refused r => rw [he] at hk; exact hk.elim
  · have hstep : workerStep s = txrxStep s := by simp [workerStep, ht]
    have hno := txrxStep_noUnderflow h hr hn
    have hw : andThen (txrxStep s) (finish .none) = .fault .fifoUnderflow := hstep ▸ hf
    cases hq : txrxStep s with
    | ok t => rw [hq] at hw; cases hw
    | error e => rw [hq] at hw hno; exact hno (by cases hw; rfl)

end Sys2Proof.Machine

/-! # BUF: the host's accesses, the flags of the front end, and where the block stores

The host's accesses and the front end's flags are one step each. For the stores of the block, `Confined` is what every part
of an exchange keeps: the context, and a BUF that differs from an earlier one only inside the context's reception buffer. It
asks nothing of the counters: what is copied is cut to the capacity that is left, and is nothing where none is left. -/

namespace Sys2Proof.Machine

/-! ## The host's accesses to BUF -/

/-- The agenda's next move writes a byte of BUF that exists. -/
theorem step_bufWrite {s : State} {rest : List Move} {a : Word} {b : Byte}
    (h : s.agenda = .host (.bufWrite a b) :: rest) (ha : a.toNat < s.params.bufSize) :
    step s = .next { s with agenda := rest, buf := writeByte s.buf a.toNat b } := by
  simp [step, fetch, h, hostRequest, ha]

/-- The agenda's next move reads a byte of BUF that exists. -/
theorem step_bufRead {s : State} {rest : List Move} {a : Word} (h : s.agenda = .host (.bufRead a) :: rest)
    (ha : a.toNat < s.params.bufSize) :
    step s = .next { s with agenda := rest, hostData := (readByte s.buf a.toNat).setWidth 32 } := by
  simp [step, fetch, h, hostRequest, ha]

/-- A host's write beyond BUF stops the machine (log entry 10). -/
theorem step_bufWrite_beyond {s : State} {rest : List Move} {a : Word} {b : Byte}
    (h : s.agenda = .host (.bufWrite a b) :: rest) (ha : s.params.bufSize ≤ a.toNat) : step s = .fault .bufOutOfRange := by
  simp [step, fetch, h, hostRequest, Nat.not_lt.2 ha]

/-- A host's read beyond BUF stops the machine (log entry 10). -/
theorem step_bufRead_beyond {s : State} {rest : List Move} {a : Word} (h : s.agenda = .host (.bufRead a) :: rest)
    (ha : s.params.bufSize ≤ a.toNat) : step s = .fault .bufOutOfRange := by
  simp [step, fetch, h, hostRequest, Nat.not_lt.2 ha]

/-- Settles O9: the memory after the write is `writeByte`, and the read is that of a byte after such a write. -/
theorem bufReadsWhatWasWritten : Obligations.BufReadsWhatWasWritten := by
  refine ⟨fun s a c b rest hwf h => ⟨fun ha hc => ?_, step_bufWrite_beyond h⟩, fun _ _ _ h => step_bufRead_beyond h⟩
  refine ⟨writeByte s.buf a.toNat b, step_bufWrite h ha, wf_writeByte _ _ hwf, ?_⟩
  have hread : readByte (writeByte s.buf a.toNat b) c.toNat = if c = a then b else readByte s.buf c.toNat := by
    rw [readByte_writeByte_of_wfFrom hwf]
    simp only [BitVec.toNat_inj]
  rw [← hread]
  exact step_bufRead rfl hc

/-! ## The flags of the front end -/

/-- The agenda's next move is the front end raising flags. -/
theorem step_raise {s : State} {rest : List Move} {f : Word} (h : s.agenda = .env (.raise f) :: rest) :
    step s = .next { s with agenda := rest, env := { s.env with fe := raiseFlags f s.env.fe } } := by
  simp [step, fetch, h, applyEvent]

/-- A bit of a word within a mask is a bit of the mask. -/
theorem getLsbD_and_of_within {e m : Word} (h : e &&& ~~~m = 0) (k : Nat) : (e.getLsbD k && m.getLsbD k) = e.getLsbD k := by
  have hk : (e &&& ~~~m).getLsbD k = false := by rw [h]; exact BitVec.getLsbD_zero
  by_cases hlt : k < 32
  · simp only [BitVec.getLsbD_and, BitVec.getLsbD_not, hlt, decide_true, Bool.true_and] at hk
    revert hk
    cases e.getLsbD k <;> cases m.getLsbD k <;> decide
  · simp [BitVec.getLsbD_of_ge e k (by omega)]

/-- Settles O10: the flags latched are those of `raiseFlags`; the mask of R226 takes none away, for only flags of R226 are
enabled. -/
theorem onlyEnabledFlagsAreLatched : Obligations.OnlyEnabledFlagsAreLatched := by
  intro s f rest hinv h
  refine ⟨(raiseFlags f s.env.fe).irqPending, step_raise h, fun k _ => ?_⟩
  obtain ⟨-, hen⟩ := hinv.feFlags
  simp only [raiseFlags, BitVec.getLsbD_or, BitVec.getLsbD_and]
  rw [Bool.and_assoc, getLsbD_and_of_within hen]

/-! ## Memories that differ inside one range -/

/-- `m` is in canonical form and reads as `old` outside `[a, a + n)`. -/
structure StoredWithin (a n : Nat) (old m : Memory) : Prop where
  wf : m.wf = true
  frame : ∀ x, outside a n x → readByte m x = readByte old x

theorem storedWithin_refl {m : Memory} (h : m.wf = true) (a n : Nat) : StoredWithin a n m m := ⟨h, fun _ _ => rfl⟩

/-- Bytes written inside the range, or none at all, wherever that would be. -/
theorem StoredWithin.writeBytes {a n p : Nat} {old m : Memory} {bs : List Byte} (h : StoredWithin a n old m)
    (hbs : bs.length = 0 ∨ (a ≤ p ∧ p + bs.length ≤ a + n)) : StoredWithin a n old (writeBytes m p bs) := by
  rcases hbs with h0 | ⟨hlo, hhi⟩
  · rw [List.eq_nil_of_length_eq_zero h0]
    exact h
  · refine ⟨wf_writeBytes p bs h.wf, fun x hx => ?_⟩
    have hout : x < p ∨ p + bs.length ≤ x := by unfold outside at hx; omega
    exact (readByte_writeBytes_outside h.wf p bs hout).trans (h.frame x hx)

/-! ## What every part of an exchange keeps -/

/-- The context is `c`, and BUF differs from `old` only inside the reception buffer of `c`. -/
structure Confined (c : Ctx) (old : Memory) (s : State) : Prop where
  ctx : s.ctx = c
  buf : StoredWithin c.rxBuf.toNat (ceil8 c.rxBufLen.toNat) old s.buf

section
variable {c : Ctx} {old : Memory} {s t : State}

theorem Confined.of (h : Confined c old s) (hc : t.ctx = s.ctx) (hb : t.buf = s.buf) : Confined c old t :=
  ⟨hc.trans h.ctx, hb ▸ h.buf⟩

/-- A state is confined with respect to itself. -/
theorem confined_self (h : s.buf.wf = true) : Confined s.ctx s.buf s := ⟨rfl, storedWithin_refl h _ _⟩

theorem Confined.endExchange (h : Confined c old s) (e : Status) : Confined c old (endExchange e s) :=
  h.of (by simp) (by simp)

theorem Confined.feGetIrq (h : Confined c old s) (m : Word) : Confined c old (feGetIrq m s).2 := h.of (by simp) (by simp)

theorem Confined.swExpired (h : Confined c old s) (t : SwTimer) : Confined c old (swExpired t s).2 :=
  h.of (by simp) (by simp)

theorem Confined.feCmd (h : Confined c old s) (x : FeCommand) : Confined c old (feCmd x s) := h.of (by simp) (by simp)

theorem Confined.fifoStatus (h : Confined c old s) : Confined c old (fifoStatus s) := h.of (by simp) (by simp)

/-- A block write inside the reception buffer. -/
theorem bufWrite_confined (h : Confined c old s) {a : Nat} {bs : List Byte}
    (hbs : bs.length = 0 ∨ (c.rxBuf.toNat ≤ a ∧ a + bs.length ≤ c.rxBuf.toNat + ceil8 c.rxBufLen.toNat)) :
    Answers (Confined c old) (bufWrite a bs s) := by
  intro t ht
  obtain ⟨-, rfl⟩ := bufWrite_spec ht
  exact ⟨h.ctx, h.buf.writeBytes hbs⟩

theorem scratchWrite_confined (h : Confined c old s) (i : Nat) (bs : List Byte) :
    Answers (Confined c old) (scratchWrite i bs s) := by
  intro t ht
  obtain ⟨-, rfl⟩ := scratchWrite_spec ht
  exact h.of rfl rfl

theorem feFifoWrite_confined (h : Confined c old s) (bs : List Byte) : Answers (Confined c old) (feFifoWrite bs s) := by
  intro t ht
  rcases feFifoWrite_spec ht with ⟨-, rfl⟩ | ⟨-, -, rfl⟩
  · exact h
  · exact h.of (by simp) (by simp)

/-- A read of the FIFO changes the environment alone and gives the bytes it was asked for. -/
theorem feFifoRead_env (n : Nat) (s : State) :
    Answers (fun r => r.1.length = n ∧ ∃ v, r.2 = { s with env := v }) (feFifoRead n s) := by
  intro r hr
  refine ⟨feFifoRead_length hr, r.2.env, ?_⟩
  rcases feFifoRead_spec hr with ⟨-, rfl⟩ | ⟨-, -, -, h2⟩
  · rfl
  · rw [h2]; rfl

/-! ## The tx-phase -/

theorem txFailWith_confined (h : Confined c old s) (e : Status) : Answers (Confined c old) (txFailWith e s) :=
  .ok ((h.of (t := { s with status := e, txrxState := .txFail }) rfl rfl).endExchange e)

theorem txDone_confined (h : Confined c old s) : Answers (Confined c old) (txDone s) := by
  unfold txDone
  split
  · exact .ok (h.endExchange .none)
  · exact .ok (h.of rfl rfl)

theorem txWaitTxe_confined (h : Confined c old s) : Answers (Confined c old) (txWaitTxe s) := by
  unfold txWaitTxe
  have hq := h.feGetIrq (irqWL ||| irqTXE)
  dsimp only
  split
  · exact txDone_confined (hq.of rfl rfl)
  · exact .ok hq

theorem txHandOver_confined (h : Confined c old s) (k : Nat) : Answers (Confined c old) (txHandOver k s) := by
  unfold txHandOver
  refine (answers_true _).bind fun bytes _ => (feFifoWrite_confined h bytes).bind fun t ht => ?_
  exact (answers_true _).bind fun w _ => .ok (ht.of rfl rfl)

theorem Confined.txAfterHandOver (h : Confined c old s) : Confined c old (txAfterHandOver s) := h.of rfl rfl

theorem txReloadFifo_confined (h : Confined c old s) : Answers (Confined c old) (txReloadFifo s) :=
  (txHandOver_confined h _).bind fun _ ht => .ok ht.txAfterHandOver

theorem txWaitWl_confined (h : Confined c old s) : Answers (Confined c old) (txWaitWl s) := by
  unfold txWaitWl
  have hq := h.feGetIrq (irqWL ||| irqTXE)
  dsimp only
  split
  · exact .ok hq
  · split
    · exact txReloadFifo_confined (hq.of rfl rfl)
    · exact txFailWith_confined hq .io

theorem txFire_confined (h : Confined c old s) (total n : Nat) (crc : Bool) :
    Answers (Confined c old) (txFire total n crc s) := by
  unfold txFire
  refine (answers_true _).bind fun l _ => ?_
  refine (txHandOver_confined (h.of (by simp) (by simp)) _).bind fun t ht => ?_
  exact .ok (ht.feCmd _).txAfterHandOver

/-- An NFC-V transmission writes the scratch buffer, not BUF (R134). -/
theorem txTransmitNfcv_confined (h : Confined c old s) : Answers (Confined c old) (txTransmitNfcv s) := by
  unfold txTransmitNfcv
  refine (answers_true _).bind fun payload _ => ?_
  dsimp only
  split
  · exact txFailWith_confined h .noMem
  · exact (scratchWrite_confined h 0 _).bind fun t ht => txFire_confined ht _ _ false

theorem txTransmit_confined (h : Confined c old s) : Answers (Confined c old) (txTransmit s) := by
  unfold txTransmit
  have hf : Confined c old (feCmd .clearFifo (emit .preTxRx s)) := h.of (by simp) (by simp)
  dsimp only
  split
  · exact txTransmitNfcv_confined hf
  · exact txFire_confined hf _ _ _

theorem txWaitFdt_confined (h : Confined c old s) : Answers (Confined c old) (txWaitFdt s) := by
  unfold txWaitFdt
  have hq : Confined c old (feTimerCheck .gpt s).2 := h.of (by simp) (by simp)
  dsimp only
  split
  · exact txTransmit_confined (h.of rfl rfl)
  · split
    · exact .ok hq
    · exact txTransmit_confined (hq.of rfl rfl)

theorem txWaitGt_confined (h : Confined c old s) : Answers (Confined c old) (txWaitGt s) := by
  unfold txWaitGt
  have hq := h.swExpired .gt
  dsimp only
  split
  · split
    · exact txWaitFdt_confined (hq.of rfl rfl)
    · exact .ok hq
  · exact txWaitFdt_confined (h.of rfl rfl)

/-! ## The rx-phase -/

theorem rxFail_confined (h : Confined c old s) : Answers (Confined c old) (rxFail s) := .ok (h.endExchange _)

theorem rxDone_confined (h : Confined c old s) : Answers (Confined c old) (rxDone s) := .ok (h.endExchange _)

theorem rxFailWith_confined (h : Confined c old s) (e : Status) : Answers (Confined c old) (rxFailWith e s) :=
  (answers_true _).bind fun _ _ => rxFail_confined (h.of rfl rfl)

theorem rxWaitEof_confined (h : Confined c old s) : Answers (Confined c old) (rxWaitEof s) := by
  unfold rxWaitEof
  have hq := h.feGetIrq irqEOF
  dsimp only
  split
  · exact rxDone_confined (h.of rfl rfl)
  · split
    · exact rxDone_confined (hq.of rfl rfl)
    · exact .ok hq

/-- Received bytes that fit the capacity left stay inside the reception buffer (R151, R168(a)). -/
theorem rxDeliver_confined (h : Confined c old s) {i : Nat} {bs : List Byte} (hbs : bs.length ≤ rxCap s - i) :
    Answers (Confined c old) (rxDeliver i bs s) := by
  unfold rxDeliver
  split
  · exact scratchWrite_confined h i bs
  · next hm =>
    have hcap : rxCap s = ceil8 c.rxBufLen.toNat := by rw [rxCap, if_neg hm, h.ctx]
    have hlen : ∀ b : Byte, (if s.ctx.splitByte && i == 0 then mergeFirst b bs else bs).length = bs.length := by
      intro b
      split
      · exact mergeFirst_length b bs
      · rfl
    refine bufWrite_confined h ?_
    rw [hlen, h.ctx]
    omega

theorem rxCopy_confined (h : Confined c old s) {k : Nat} (hk : k ≤ rxCap s - s.fifo.bytesWritten.toNat) :
    Answers (Confined c old) (rxCopy k s) := by
  unfold rxCopy
  refine (feFifoRead_env k s).bind fun r hr => ?_
  obtain ⟨bs, u⟩ := r
  obtain ⟨hlen, v, hv⟩ := hr
  dsimp only at hlen hv ⊢
  subst hv
  have hu : Confined c old { s with env := v } := h.of rfl rfl
  refine (rxDeliver_confined hu (hlen.trans_le hk)).bind fun t ht => ?_
  exact (answers_true _).bind fun w _ => .ok (ht.of rfl rfl)

/-- The decoder's payload fits the reception buffer (R164). -/
theorem nfcvDecodeStep_confined (h : Confined c old s) : Answers (Confined c old) (nfcvDecodeStep s) := by
  unfold nfcvDecodeStep
  refine (answers_true _).bind fun raw _ => ?_
  have hfit : (nfcvDecode raw (crcRxKeep s.ctx.flags) (ceil8 s.ctx.rxBufLen.toNat)).bytes.length ≤
      ceil8 c.rxBufLen.toNat := by
    rw [h.ctx]
    exact List.length_take_le _ _
  refine (bufWrite_confined h (.inr ⟨?_, ?_⟩)).bind fun t ht => ?_
  · rw [h.ctx]
  · rw [h.ctx] at hfit ⊢; omega
  · exact (answers_true _).bind fun l _ => .ok (ht.of rfl rfl)

theorem rxAfterData_confined (h : Confined c old s) : Answers (Confined c old) (rxAfterData s) := by
  unfold rxAfterData
  split
  · exact rxFail_confined (h.of rfl rfl)
  · split
    · exact rxWaitEof_confined (h.of rfl rfl)
    · exact rxDone_confined (h.of rfl rfl)

theorem rxReadData_confined (h : Confined c old s) : Answers (Confined c old) (rxReadData s) := by
  unfold rxReadData
  refine (rxCopy_confined h.fifoStatus (by omega)).bind fun t ht => ?_
  refine (answers_true _).bind fun total _ => (answers_true _).bind fun len _ => ?_
  dsimp only
  split
  · refine (nfcvDecodeStep_confined ?_).bind fun u hu => rxAfterData_confined hu
    exact ht.of rfl rfl
  · exact rxAfterData_confined (ht.of rfl rfl)

theorem rxShortReply_confined (h : Confined c old s) : Answers (Confined c old) (rxShortReply s) := by
  unfold rxShortReply
  refine (feFifoRead_env _ s).bind fun r hr => ?_
  obtain ⟨bs, u⟩ := r
  obtain ⟨hlen, v, hv⟩ := hr
  dsimp only at hlen hv ⊢
  subst hv
  have hu : Confined c old { s with env := v } := h.of rfl rfl
  have hfit : bs.length ≤ rxCap { s with env := v } - 0 := by
    show bs.length ≤ rxCap s
    omega
  exact (rxDeliver_confined hu hfit).bind fun t ht => rxFail_confined (ht.of rfl rfl)

theorem rxOnVerdict_confined (h : Confined c old s) (v : Verdict) : Answers (Confined c old) (rxOnVerdict v s) := by
  cases v with
  | nfcaIncomplete => exact rxShortReply_confined h
  | noError => exact rxReadData_confined (h.of rfl rfl)
  | error e =>
    unfold rxOnVerdict
    dsimp only
    split
    · exact .ok (h.of (by simp) (by simp))
    · exact rxReadData_confined (h.of rfl rfl)

theorem rxErrCheck_confined (h : Confined c old s) : Answers (Confined c old) (rxErrCheck s) :=
  rxOnVerdict_confined (h.of (by simp) (by simp)) _

theorem rxBeyondCapacity_confined (h : Confined c old s) : Answers (Confined c old) (rxBeyondCapacity s) := by
  unfold rxBeyondCapacity
  split
  · refine (nfcvDecodeStep_confined ?_).bind fun u hu => rxAfterData_confined hu
    exact h.of rfl rfl
  · exact rxFailWith_confined h .noMem

theorem rxReadFifo_confined (h : Confined c old s) : Answers (Confined c old) (rxReadFifo s) := by
  unfold rxReadFifo
  have hu : Confined c old (fifoStatus (cacheInvalidate s)) := h.of (by simp) (by simp)
  refine (answers_true _).bind fun total _ => ?_
  refine Answers.bind (P := Confined c old) (rxCopy_confined ?_ ?_) fun t ht => ?_
  · exact hu.of rfl rfl
  · exact Nat.min_le_right _ _
  · split
    · exact rxBeyondCapacity_confined ht
    · exact .ok (ht.of rfl rfl)

theorem rxWaitRxe_confined (h : Confined c old s) : Answers (Confined c old) (rxWaitRxe s) := by
  unfold rxWaitRxe
  dsimp only
  generalize irqRXE ||| irqWL ||| eofIfActive s.mode = m
  have hu : Confined c old (if has (feGetIrq m s).1 irqEOF then { (feGetIrq m s).2 with eofSeen := true }
      else (feGetIrq m s).2) := by
    split
    · exact (h.feGetIrq m).of rfl rfl
    · exact h.feGetIrq m
  generalize (if has (feGetIrq m s).1 irqEOF then { (feGetIrq m s).2 with eofSeen := true } else (feGetIrq m s).2) = u
    at hu ⊢
  split
  · exact rxErrCheck_confined (hu.of rfl rfl)
  · split
    · exact rxFailWith_confined hu .linkLoss
    · split
      · exact rxReadFifo_confined (hu.of rfl rfl)
      · split
        · exact rxFailWith_confined (hu.swExpired .rxeGuard) .framing
        · exact .ok (hu.swExpired .rxeGuard)

theorem rxWaitRxs_confined (h : Confined c old s) : Answers (Confined c old) (rxWaitRxs s) := by
  unfold rxWaitRxs
  have hq := h.feGetIrq (irqRXS ||| irqNRE ||| eofIfActive s.mode)
  dsimp only
  split
  · exact .ok hq
  · split
    · exact rxWaitRxe_confined (hq.of rfl rfl)
    · split
      · exact rxFailWith_confined hq .linkLoss
      · exact rxFailWith_confined hq .timeout

theorem rxWaitEon_confined (h : Confined c old s) : Answers (Confined c old) (rxWaitEon s) := by
  unfold rxWaitEon
  have hq := h.feGetIrq (irqEON ||| irqNRE)
  dsimp only
  split
  · exact .ok (hq.of rfl rfl)
  · split
    · exact rxFailWith_confined hq .timeout
    · split
      · split
        · exact rxFailWith_confined (hq.swExpired .apFwt) .timeout
        · exact .ok (hq.swExpired .apFwt)
      · exact .ok hq

theorem rxIdle_confined (h : Confined c old s) : Answers (Confined c old) (rxIdle s) := by
  refine .ok (h.of ?_ ?_)
  · show (rxIdleTimers _).ctx = s.ctx
    simp only [rxIdleTimers_fields]
    split <;> simp
  · show (rxIdleTimers _).buf = s.buf
    simp only [rxIdleTimers_fields]
    split <;> simp

/-! ## A whole step, a whole exchange -/

/-- A WORKER step of an exchange stores only into its reception buffer. -/
theorem txrxStep_confined (h : Confined c old s) : Answers (Confined c old) (txrxStep s) := by
  unfold txrxStep
  cases s.txrxState with
  | idle => exact .ok h
  | txIdle => exact txWaitGt_confined (h.of rfl rfl)
  | txWaitGt => exact txWaitGt_confined h
  | txWaitFdt => exact txWaitFdt_confined h
  | txTransmit => exact txTransmit_confined h
  | txWaitWl => exact txWaitWl_confined h
  | txReloadFifo => exact txReloadFifo_confined h
  | txWaitTxe => exact txWaitTxe_confined h
  | txDone => exact txDone_confined h
  | txFail => exact .ok (h.endExchange _)
  | rxIdle => exact rxIdle_confined h
  | rxWaitEon => exact rxWaitEon_confined h
  | rxWaitRxs => exact rxWaitRxs_confined h
  | rxWaitRxe => exact rxWaitRxe_confined h
  | rxReadFifo => exact rxReadFifo_confined h
  | rxErrCheck => exact rxErrCheck_confined h
  | rxReadData => exact rxReadData_confined h
  | rxWaitEof => exact rxWaitEof_confined h
  | rxDone => exact rxDone_confined h
  | rxFail => exact rxFail_confined h

/-- The spin of a synchronous primitive stores only into its reception buffer. -/
theorem spinExchange_confined (n : Nat) (h : Confined c old s) : Answers (Confined c old) (spinExchange n s) := by
  induction n generalizing s with
  | zero =>
    unfold spinExchange
    split
    · exact .ok h
    · rintro t ⟨⟩
  | succ n ih =>
    unfold spinExchange
    split
    · exact .ok h
    · split
      · next u hu => exact ih (txrxStep_confined h u hu)
      · rintro t ⟨⟩

end

/-! ## Listen -/

/-- BUF in canonical form, changed only inside the Listen buffer of `s`. -/
def ListenStored (s t : State) : Prop := StoredWithin s.lm.rxBuf.toNat (ceil8 s.lm.rxBufLen.toNat) s.buf t.buf

/-- A part that leaves BUF alone. -/
theorem listenStored_of_buf {s t : State} (h : s.buf.wf = true) (hb : t.buf = s.buf) : ListenStored s t := by
  unfold ListenStored
  rw [hb]
  exact storedWithin_refl h _ _

/-- A good frame is cut to the capacity of the Listen buffer (R197). -/
theorem listenGoodFrame_stored {s : State} (h : s.buf.wf = true) : Answers (ListenStored s) (listenGoodFrame s) := by
  have hu : (fifoStatus (cacheInvalidate s)).buf = s.buf ∧ (fifoStatus (cacheInvalidate s)).lm = s.lm :=
    ⟨by simp, by simp⟩
  unfold listenGoodFrame
  generalize fifoStatus (cacheInvalidate s) = u at hu ⊢
  obtain ⟨hbuf, hlm⟩ := hu
  refine (feFifoRead_env _ u).bind fun r hr => ?_
  obtain ⟨bs, x⟩ := r
  obtain ⟨hlen, v, hv⟩ := hr
  dsimp only at hlen hv ⊢
  subst hv
  have hwrite : Answers (ListenStored s) (bufWrite u.lm.rxBuf.toNat bs { u with env := v }) := by
    intro t ht
    obtain ⟨-, rfl⟩ := bufWrite_spec ht
    show StoredWithin _ _ _ (writeBytes u.buf _ bs)
    rw [hlm] at hlen ⊢
    rw [hbuf]
    exact (storedWithin_refl h _ _).writeBytes (.inr ⟨le_rfl, by omega⟩)
  refine hwrite.bind fun t ht => (answers_true _).bind fun l _ => .ok ?_
  unfold ListenStored at ht ⊢
  simpa using ht

/-- Recording the peer's bit rate leaves BUF and the Listen buffer alone (R196). -/
theorem listenBitRate_buffers (i : Word) (s : State) :
    (listenBitRate i s).buf = s.buf ∧ (listenBitRate i s).lm.rxBuf = s.lm.rxBuf ∧
      (listenBitRate i s).lm.rxBufLen = s.lm.rxBufLen := by
  unfold listenBitRate
  split <;> simp

theorem lmIdle_stored {s : State} (h : s.buf.wf = true) : Answers (ListenStored s) (lmIdle s) := by
  unfold lmIdle
  split
  · exact .ok (listenStored_of_buf h rfl)
  · dsimp only
    generalize irqNFCT ||| irqRXE ||| irqEOF ||| irqPAR ||| irqCRC ||| irqERR1 = m
    have hu := listenBitRate_buffers (feGetIrq m s).1 (feGetIrq m s).2
    generalize listenBitRate (feGetIrq m s).1 (feGetIrq m s).2 = u at hu ⊢
    simp only [feGetIrq_fields] at hu
    obtain ⟨hb, ha, hn⟩ := hu
    split
    · unfold listenFrame
      split
      · exact .ok (listenStored_of_buf h (by simp [listenBadFrame, hb]))
      · refine (listenGoodFrame_stored (s := u) (hb ▸ h)).mono fun t ht => ?_
        unfold ListenStored at ht ⊢
        rwa [hb, ha, hn] at ht
    · split
      · exact .ok (listenStored_of_buf h hb)
      · exact .ok (listenStored_of_buf h hb)

/-- A Listen step stores only into the Listen buffer. -/
theorem listenStep_stored {s : State} (h : s.buf.wf = true) : Answers (ListenStored s) (listenStep s) := by
  unfold listenStep
  split
  · refine .ok (listenStored_of_buf h ?_)
    split <;> simp
  · exact lmIdle_stored h
  all_goals exact .ok (listenStored_of_buf h rfl)

/-! ## The operations that store -/

/-- WORKER stores into the buffer of the machine that is current, and nowhere where that has none. -/
theorem worker_stores {s t : State} (h : Inv s) (hw : exec .worker s = .next t) {x : Nat}
    (hrx : s.topState = .txRx → outside s.ctx.rxBuf.toNat (ceil8 s.ctx.rxBufLen.toNat) x)
    (hlm : s.topState = .listen → outside s.lm.rxBuf.toNat (ceil8 s.lm.rxBufLen.toNat) x) :
    readByte t.buf x = readByte s.buf x := by
  obtain ⟨hwf, -⟩ := h.buf
  obtain ⟨u, hu, rfl⟩ := worker_next hw
  show readByte u.buf x = readByte s.buf x
  unfold workerStep at hu
  split at hu
  · next ht => exact (txrxStep_confined (confined_self hwf) u hu).buf.frame x (hrx ht)
  · next ht => exact (listenStep_stored hwf u hu).frame x (hlm ht)
  · obtain ⟨w, v, rfl⟩ := wakeUpStep_next hu
    rfl
  all_goals cases hu; rfl

/-- SHORT_FRAME_TRANSCEIVE stores into `rxBuf` (R122). -/
theorem shortFrameTransceive_stores {s t : State} {x7 : BitVec 7} {rx : Word} {len : Len} {fwt : Time} (h : Inv s)
    (hx : exec (.shortFrameTransceive x7 rx len fwt) s = .next t) {x : Nat} (hout : outside rx.toNat (ceil8 len.toNat) x) :
    readByte t.buf x = readByte s.buf x := by
  obtain ⟨hwf, -⟩ := h.buf
  change execShortFrameTransceive x7 rx len fwt s = .next t at hx
  unfold execShortFrameTransceive at hx
  split at hx
  · cases hx; rfl
  · obtain ⟨u, hu, ht⟩ := andThen_next hx
    have hstart : Confined (shortFrameCtx x7 rx len fwt) s.buf (shortFrameStart (shortFrameCtx x7 rx len fwt) s) :=
      ⟨by simp [shortFrameStart], by simpa [shortFrameStart] using storedWithin_refl hwf _ _⟩
    have hend := (spinExchange_confined _ hstart u hu).buf.frame x hout
    cases ht
    simpa using hend

/-- The reception buffer of R123 is the five bytes behind what is sent, without wrapping round. -/
theorem anticollisionCtx_rxBuf {b : Word} {n : Byte} {k : BitVec 3} {fwt : Time}
    (hroom : b.toNat + n.toNat < 2 ^ 32) : (anticollisionCtx b n k fwt).rxBuf.toNat = b.toNat + n.toNat ∧
      ceil8 (anticollisionCtx b n k fwt).rxBufLen.toNat = 5 :=
  ⟨(BitVec.toNat_ofNat _ 32).trans (Nat.mod_eq_of_lt hroom), by simp [anticollisionCtx, ceil8]⟩

/-- ANTICOLLISION_TRANSCEIVE stores into the five bytes behind what it sends (R123). -/
theorem anticollisionTransceive_stores {s t : State} {b : Word} {n : Byte} {k : BitVec 3} {fwt : Time} (h : Inv s)
    (hx : exec (.anticollisionTransceive b n k fwt) s = .next t) {x : Nat} (hout : outside (b.toNat + n.toNat) 5 x) :
    readByte t.buf x = readByte s.buf x := by
  obtain ⟨hwf, -⟩ := h.buf
  obtain ⟨-, -, -, -, -, -, hmax⟩ := h.params
  change execAnticollisionTransceive b n k fwt s = .next t at hx
  unfold execAnticollisionTransceive at hx
  split at hx
  · cases hx; rfl
  · next he =>
    obtain ⟨-, -, hroom, -⟩ := anticollisionError_none he
    obtain ⟨ha, hn⟩ := anticollisionCtx_rxBuf (b := b) (n := n) (k := k) (fwt := fwt) (by omega)
    obtain ⟨u, hu, ht⟩ := andThen_next hx
    have hstart : Confined (anticollisionCtx b n k fwt) s.buf
        (beginExchange (anticollisionCtx b n k fwt) (feConfig (.antcl true) s)) :=
      ⟨by simp, by simpa using storedWithin_refl hwf _ _⟩
    have hend := (spinExchange_confined _ hstart u hu).buf.frame x (by rwa [ha, hn])
    cases ht
    simpa using hend

/-- Settles O17: a conjunct for each operation that stores. -/
theorem storesStayInTheBuffer : Obligations.StoresStayInTheBuffer :=
  ⟨fun _ _ h hw _ => worker_stores h hw, fun _ _ _ _ _ _ h hx _ => shortFrameTransceive_stores h hx,
    fun _ _ _ _ _ _ h hx _ => anticollisionTransceive_stores h hx⟩

end Sys2Proof.Machine

/-! # The encoding of operations (`30_encoding.md`)

A legal word is its reserved bits, which are 0, put before its fields. So the decoder, which cuts a word into fields, undoes
the encoder, which puts fields together, and the other way round; and what the decoder asks of a field is what the masks of
`OpWords.wellFormed` ask of the word. Each is said once per format (R72) and put together over the opcode map (R71). -/

namespace Sys2Proof

/-! ## Fields of a word -/

/-- A word whose upper field is 0 is its lower field under zeros. -/
theorem zero_append_low {m n : Nat} {w : BitVec (m + n)} (h : w.extractLsb' n m = 0#m) :
    0#m ++ w.extractLsb' 0 n = w := by
  rw [← h]
  exact BitVec.extractLsb'_append_extractLsb'

/-- Two fields put together are 0 when both are. -/
theorem append_eq_zero_iff {m n : Nat} {x : BitVec m} {y : BitVec n} : x ++ y = 0#(m + n) ↔ x = 0#m ∧ y = 0#n := by
  constructor
  · intro h
    have hx := congrArg (BitVec.extractLsb' n m) h
    have hy := congrArg (BitVec.extractLsb' 0 n) h
    rw [BitVec.extractLsb'_append_eq_left, BitVec.extractLsb'_zero] at hx
    rw [BitVec.extractLsb'_append_eq_right, BitVec.extractLsb'_zero] at hy
    exact ⟨hx, hy⟩
  · rintro ⟨rfl, rfl⟩
    exact BitVec.zero_append_zero

/-- The upper field is 0 when a mask over it finds no bit. -/
theorem upperField_zero_iff {m n : Nat} (w : BitVec (m + n)) :
    w.extractLsb' n m = 0#m ↔ (w &&& (BitVec.allOnes m ++ 0#n) == 0#(m + n)) = true := by
  have hand : w &&& (BitVec.allOnes m ++ 0#n) = w.extractLsb' n m ++ 0#n := by
    calc w &&& (BitVec.allOnes m ++ 0#n)
      _ = (w.extractLsb' n m ++ w.extractLsb' 0 n) &&& (BitVec.allOnes m ++ 0#n) := by
        rw [BitVec.extractLsb'_append_extractLsb']
      _ = w.extractLsb' n m ++ 0#n := by rw [BitVec.and_append, BitVec.and_allOnes, BitVec.and_zero]
  rw [hand, beq_iff_eq, append_eq_zero_iff, and_iff_left rfl]

/-- The byte that the masks look at is the field that the decoder cuts out. -/
theorem byteAt_eq_toNat (w : Word) (lo : Nat) : byteAt w lo = (w.extractLsb' lo 8).toNat := by
  rw [BitVec.extractLsb'_toNat, Nat.shiftRight_eq_div_pow, byteAt]

/-! ## Enumerations (R74, R75, R79) -/

@[simp] theorem modeOfCode_modeCode (m : Mode) : modeOfCode (modeCode m) = some m := by
  cases m <;> rfl

@[simp] theorem bitRateOfCode_bitRateCode (r : BitRate) : bitRateOfCode (bitRateCode r) = some r := by
  cases r <;> rfl

@[simp] theorem policyOfCode_policyCode (p : Policy) : policyOfCode (policyCode p) = p := by
  cases p <;> rfl

theorem modeCode_of_modeOfCode {c : BitVec 8} {m : Mode} (h : modeOfCode c = some m) : modeCode m = c := by
  apply BitVec.eq_of_toNat_eq
  unfold modeOfCode at h
  split at h
  case h_11 => cases h
  all_goals next hc => cases h; exact hc.symm

theorem bitRateCode_of_bitRateOfCode {c : BitVec 8} {r : BitRate} (h : bitRateOfCode c = some r) : bitRateCode r = c := by
  apply BitVec.eq_of_toNat_eq
  unfold bitRateOfCode at h
  split at h
  case h_6 => cases h
  all_goals next hc => cases h; exact hc.symm

theorem policyCode_policyOfCode (c : BitVec 1) : policyCode (policyOfCode c) = c := by
  obtain rfl | rfl := BitVec.eq_zero_or_eq_one c <;> rfl

theorem legalMode_iff (c : BitVec 8) : legalMode c.toNat = true ↔ ∃ m, modeOfCode c = some m := by
  constructor
  · intro h
    have hle : c.toNat ≤ 9 := by simpa [legalMode] using h
    unfold modeOfCode
    split
    case h_11 => grind
    all_goals exact ⟨_, rfl⟩
  · rintro ⟨m, h⟩
    rw [← modeCode_of_modeOfCode h]
    cases m <;> rfl

theorem legalBitRate_iff (c : BitVec 8) : legalBitRate c.toNat = true ↔ ∃ r, bitRateOfCode c = some r := by
  constructor
  · intro h
    have hc : c.toNat ≤ 3 ∨ c.toNat = 0xFF := by simpa [legalBitRate] using h
    unfold bitRateOfCode
    split
    case h_6 => grind
    all_goals exact ⟨_, rfl⟩
  · rintro ⟨r, h⟩
    rw [← bitRateCode_of_bitRateOfCode h]
    cases r <;> rfl

/-! ## Channel words (R72, format W) -/

/-- A channel word is its two reserved fields and the two fields of operand bits between and below them. -/
theorem channel_fields (w : Word) :
    w.extractLsb' 24 8 ++ w.extractLsb' 8 16 ++ w.extractLsb' 3 5 ++ w.extractLsb' 0 3 = w := by
  rw [BitVec.extractLsb'_append_extractLsb'_eq_extractLsb' (start₂ := 24) rfl,
    BitVec.extractLsb'_append_extractLsb'_eq_extractLsb' (start₂ := 8) rfl]
  exact BitVec.extractLsb'_append_extractLsb'

theorem channelReservedOk_iff (w : Word) :
    channelReservedOk w = true ↔ w.extractLsb' 3 5 = 0#5 ∧ w.extractLsb' 24 8 = 0#8 := by
  simp [channelReservedOk]

/-- The mask of a channel word covers its two reserved fields. -/
theorem reservedZero_channel (w : Word) : reservedZero w 0xFF0000F8#32 = channelReservedOk w := by
  have hand : w &&& 0xFF0000F8#32 = w.extractLsb' 24 8 ++ 0#16 ++ w.extractLsb' 3 5 ++ 0#3 := by
    calc w &&& 0xFF0000F8#32
      _ = (w.extractLsb' 24 8 ++ w.extractLsb' 8 16 ++ w.extractLsb' 3 5 ++ w.extractLsb' 0 3) &&&
          (BitVec.allOnes 8 ++ 0#16 ++ BitVec.allOnes 5 ++ 0#3) := by rw [channel_fields]; rfl
      _ = w.extractLsb' 24 8 ++ 0#16 ++ w.extractLsb' 3 5 ++ 0#3 := by
        simp only [BitVec.and_append, BitVec.and_allOnes, BitVec.and_zero]
  have hzero : w.extractLsb' 24 8 ++ 0#16 ++ w.extractLsb' 3 5 ++ 0#3 = 0#(8 + 16 + 5 + 3) ↔
      w.extractLsb' 24 8 = 0#8 ∧ w.extractLsb' 3 5 = 0#5 := by
    simp only [append_eq_zero_iff, and_true]
  rw [Bool.eq_iff_iff, reservedZero, beq_iff_eq, hand, channelReservedOk_iff, and_comm]
  exact hzero

/-- The encoder writes 0 in the reserved fields of a channel word. -/
@[simp] theorem channelReservedOk_channelWord (c : Channel) : channelReservedOk (channelWord c) = true :=
  reservedZero_channel (channelWord c) ▸ Laws.reservedZero_channelWord c

/-- Each field of a channel record is read where it was written. -/
@[simp] theorem channelOfWord_channelWord (c : Channel) : channelOfWord (channelWord c) = c := by
  have hbit0 : (channelWord c).getLsbD 0 = c.enabled := by simp only [channelWord, BitVec.getLsbD_append]; simp
  have hbit1 : (channelWord c).getLsbD 1 = c.refAuto := by simp only [channelWord, BitVec.getLsbD_append]; simp
  have hbit2 : (channelWord c).getLsbD 2 = c.autoAvg := by simp only [channelWord, BitVec.getLsbD_append]; simp
  have hdelta : (channelWord c).extractLsb' 8 8 = c.delta := by
    simp only [channelWord, BitVec.extractLsb'_append_eq_ite]; simp
  have href : (channelWord c).extractLsb' 16 8 = c.reference := by
    simp only [channelWord, BitVec.extractLsb'_append_eq_ite]; simp
  simp only [channelOfWord, hbit0, hbit1, hbit2, hdelta, href]

/-- A word whose reserved fields are 0 is the channel word of the record it reads as. -/
theorem channelWord_channelOfWord {w : Word} (h : channelReservedOk w = true) : channelWord (channelOfWord w) = w := by
  obtain ⟨h5, h8⟩ := (channelReservedOk_iff w).1 h
  have hbit (i : Nat) : BitVec.ofBool (w.getLsbD i) = w.extractLsb' i 1 := by
    rw [BitVec.getLsbD_eq_extractLsb']
    obtain hb | hb := BitVec.eq_zero_or_eq_one (w.extractLsb' i 1) <;> rw [hb] <;> rfl
  simp only [channelWord, channelOfWord, hbit]
  rw [← h5, ← h8, BitVec.extractLsb'_append_extractLsb'_eq_extractLsb' (start₂ := 24) rfl,
    BitVec.extractLsb'_append_extractLsb'_eq_extractLsb' (start₂ := 16) rfl,
    BitVec.extractLsb'_append_extractLsb'_eq_extractLsb' (start₂ := 8) rfl,
    BitVec.extractLsb'_append_extractLsb'_eq_extractLsb' (start₂ := 3) rfl,
    BitVec.extractLsb'_append_extractLsb'_eq_extractLsb' (start₂ := 2) rfl]
  exact BitVec.extractLsb'_append_extractLsb'

/-! ## The words of an operation decode to it -/

/-- The operand registers that the operation's format lists hold what the encoder writes there. -/
def HoldsOperands (i : Instr) (a : Args) : Prop := listedArgs i a = listedArgs i (encodeArgs i)

theorem decodeM_of_holds {a : Args} {m : Mode} {t r : BitRate} (h : HoldsOperands (.setMode m t r) a) :
    decodeM a = .ok (.setMode m t r) := by
  simp only [HoldsOperands, listedArgs, encodeArgs, List.cons.injEq, and_true] at h
  simp only [decodeM, h, BitVec.extractLsb'_append_eq_ite]
  simp

theorem decodeB_of_holds {a : Args} {t r : BitRate} (h : HoldsOperands (.setBitrate t r) a) :
    decodeB a = .ok (.setBitrate t r) := by
  simp only [HoldsOperands, listedArgs, encodeArgs, List.cons.injEq, and_true] at h
  simp only [decodeB, h, BitVec.extractLsb'_append_eq_ite]
  simp

theorem decodeP_of_holds {a : Args} {p : Policy} (h : HoldsOperands (.setErrorHandling p) a) :
    decodeP a = .ok (.setErrorHandling p) := by
  simp only [HoldsOperands, listedArgs, encodeArgs, List.cons.injEq, and_true] at h
  simp only [decodeP, h, BitVec.extractLsb'_append_eq_ite]
  simp

theorem decodeX_of_holds {a : Args} {tx rx : Word} {txLen rxLen : Len} {flags : BitVec 5} {fwt : Time}
    (h : HoldsOperands (.startTransceive tx txLen rx rxLen flags fwt) a) :
    decodeX a = .ok (.startTransceive tx txLen rx rxLen flags fwt) := by
  simp only [HoldsOperands, listedArgs, encodeArgs, List.cons.injEq, and_true] at h
  simp only [decodeX, h, BitVec.extractLsb'_append_eq_ite]
  simp

theorem decodeS_of_holds {a : Args} {c : BitVec 7} {rx : Word} {rxLen : Len} {fwt : Time}
    (h : HoldsOperands (.shortFrameTransceive c rx rxLen fwt) a) :
    decodeS a = .ok (.shortFrameTransceive c rx rxLen fwt) := by
  simp only [HoldsOperands, listedArgs, encodeArgs, List.cons.injEq, and_true] at h
  simp only [decodeS, h, BitVec.extractLsb'_append_eq_ite]
  simp

theorem decodeA_of_holds {a : Args} {b : Word} {bytes : Byte} {bits : BitVec 3} {fwt : Time}
    (h : HoldsOperands (.anticollisionTransceive b bytes bits fwt) a) :
    decodeA a = .ok (.anticollisionTransceive b bytes bits fwt) := by
  simp only [HoldsOperands, listedArgs, encodeArgs, List.cons.injEq, and_true] at h
  simp only [decodeA, h, BitVec.extractLsb'_append_eq_ite]
  simp

theorem decodeL_of_holds {a : Args} {m : BitVec 4} {rx : Word} {rxLen : Len}
    (h : HoldsOperands (.listenStart m rx rxLen) a) : decodeL a = .ok (.listenStart m rx rxLen) := by
  simp only [HoldsOperands, listedArgs, encodeArgs, List.cons.injEq, and_true] at h
  simp only [decodeL, h, BitVec.extractLsb'_append_eq_ite]
  simp

theorem decodeW_of_holds {a : Args} {amp pha cap : Channel} (h : HoldsOperands (.wakeupStart amp pha cap) a) :
    decodeW a = .ok (.wakeupStart amp pha cap) := by
  simp only [HoldsOperands, listedArgs, encodeArgs, List.cons.injEq, and_true] at h
  simp [decodeW, h]

theorem opcode_upperBits (i : Instr) : (opcode i).extractLsb' 8 24 = 0 := by
  cases i <;> simp [opcode]

/-- Settles O1: the opcode selects the format of the operation, and the format's decoder undoes the encoder. -/
theorem decodeInvertsEncode : Obligations.DecodeInvertsEncode := by
  intro i a h
  unfold decode
  rw [if_neg (not_not.2 (opcode_upperBits i))]
  cases i with
  | setMode => exact decodeM_of_holds h
  | setBitrate => exact decodeB_of_holds h
  | setErrorHandling => exact decodeP_of_holds h
  | startTransceive => exact decodeX_of_holds h
  | shortFrameTransceive => exact decodeS_of_holds h
  | anticollisionTransceive => exact decodeA_of_holds h
  | listenStart => exact decodeL_of_holds h
  | wakeupStart => exact decodeW_of_holds h
  | setFdtPoll => exact congrArg (Except.ok ∘ Instr.setFdtPoll) (List.head_eq_of_cons_eq h)
  | setFdtListen => exact congrArg (Except.ok ∘ Instr.setFdtListen) (List.head_eq_of_cons_eq h)
  | setGt => exact congrArg (Except.ok ∘ Instr.setGt) (List.head_eq_of_cons_eq h)
  | initialise | fieldOnAndStartGt | fieldOff | worker | getStatus | listenStop | wakeupStop => rfl

/-! ## Words that decode are the words of what they decode to -/

/-- These words are those of the operation. -/
def WordsOf (i : Instr) (cmd : Word) (a : Args) : Prop := cmd = opcode i ∧ HoldsOperands i a

theorem decodeM_wordsOf {a : Args} {i : Instr} (h : decodeM a = .ok i) : WordsOf i 0x02 a := by
  unfold decodeM at h
  split at h
  case isTrue => cases h
  case isFalse hres =>
    split at h
    case h_2 => cases h
    case h_1 m t r hm ht hr =>
      have h0 : a.a0.extractLsb' 24 8 = 0#8 := not_not.1 hres
      have hword : 0#8 ++ bitRateCode r ++ bitRateCode t ++ modeCode m = a.a0 := by
        rw [modeCode_of_modeOfCode hm, bitRateCode_of_bitRateOfCode ht, bitRateCode_of_bitRateOfCode hr, ← h0,
          BitVec.extractLsb'_append_extractLsb'_eq_extractLsb' (start₂ := 24) rfl,
          BitVec.extractLsb'_append_extractLsb'_eq_extractLsb' (start₂ := 16) rfl]
        exact BitVec.extractLsb'_append_extractLsb'
      cases h
      exact ⟨rfl, congrArg ([·]) hword.symm⟩

theorem decodeB_wordsOf {a : Args} {i : Instr} (h : decodeB a = .ok i) : WordsOf i 0x03 a := by
  unfold decodeB at h
  split at h
  case isTrue => cases h
  case isFalse hres =>
    split at h
    case h_2 => cases h
    case h_1 t r ht hr =>
      have h0 : a.a0.extractLsb' 16 16 = 0#16 := not_not.1 hres
      have hword : 0#16 ++ bitRateCode r ++ bitRateCode t = a.a0 := by
        rw [bitRateCode_of_bitRateOfCode ht, bitRateCode_of_bitRateOfCode hr, ← h0,
          BitVec.extractLsb'_append_extractLsb'_eq_extractLsb' (start₂ := 16) rfl]
        exact BitVec.extractLsb'_append_extractLsb'
      cases h
      exact ⟨rfl, congrArg ([·]) hword.symm⟩

theorem decodeP_wordsOf {a : Args} {i : Instr} (h : decodeP a = .ok i) : WordsOf i 0x07 a := by
  unfold decodeP at h
  split at h
  case isTrue => cases h
  case isFalse hres =>
    have h0 := not_not.1 hres
    cases h
    refine ⟨rfl, ?_⟩
    simp only [HoldsOperands, listedArgs, encodeArgs, policyCode_policyOfCode, zero_append_low h0]

theorem decodeX_wordsOf {a : Args} {i : Instr} (h : decodeX a = .ok i) : WordsOf i 0x0A a := by
  unfold decodeX at h
  split at h
  case isTrue => cases h
  case isFalse hres =>
    push Not at hres
    obtain ⟨h1, h3, h4⟩ := hres
    cases h
    refine ⟨rfl, ?_⟩
    simp only [HoldsOperands, listedArgs, encodeArgs, zero_append_low h1, zero_append_low h3, zero_append_low h4]

theorem decodeS_wordsOf {a : Args} {i : Instr} (h : decodeS a = .ok i) : WordsOf i 0x0D a := by
  unfold decodeS at h
  split at h
  case isTrue => cases h
  case isFalse hres =>
    push Not at hres
    obtain ⟨h0, h3⟩ := hres
    cases h
    refine ⟨rfl, ?_⟩
    simp only [HoldsOperands, listedArgs, encodeArgs, zero_append_low h0, zero_append_low h3]

theorem decodeA_wordsOf {a : Args} {i : Instr} (h : decodeA a = .ok i) : WordsOf i 0x0E a := by
  unfold decodeA at h
  split at h
  case isTrue => cases h
  case isFalse hres =>
    have h1 : a.a1.extractLsb' 11 21 = 0#21 := not_not.1 hres
    have hword : 0#21 ++ a.a1.extractLsb' 8 3 ++ a.a1.extractLsb' 0 8 = a.a1 := by
      rw [← h1, BitVec.extractLsb'_append_extractLsb'_eq_extractLsb' (start₂ := 11) rfl]
      exact BitVec.extractLsb'_append_extractLsb'
    cases h
    refine ⟨rfl, ?_⟩
    simp only [HoldsOperands, listedArgs, encodeArgs, hword]

theorem decodeL_wordsOf {a : Args} {i : Instr} (h : decodeL a = .ok i) : WordsOf i 0x10 a := by
  unfold decodeL at h
  split at h
  case isTrue => cases h
  case isFalse hres =>
    push Not at hres
    obtain ⟨h0, h3⟩ := hres
    cases h
    refine ⟨rfl, ?_⟩
    simp only [HoldsOperands, listedArgs, encodeArgs, zero_append_low h0, zero_append_low h3]

theorem decodeW_wordsOf {a : Args} {i : Instr} (h : decodeW a = .ok i) : WordsOf i 0x12 a := by
  unfold decodeW at h
  split at h
  case isFalse => cases h
  case isTrue hok =>
    simp only [Bool.and_eq_true] at hok
    obtain ⟨⟨h0, h1⟩, h2⟩ := hok
    cases h
    refine ⟨rfl, ?_⟩
    simp only [HoldsOperands, listedArgs, encodeArgs, channelWord_channelOfWord h0, channelWord_channelOfWord h1,
      channelWord_channelOfWord h2]

/-- A command whose upper bits are 0 is its opcode byte. -/
theorem eq_ofNat_of_upperBits {w : Word} (h : w.extractLsb' 8 24 = 0#24) :
    w = BitVec.ofNat 32 (w.extractLsb' 0 8).toNat := by
  have hupper : w.toNat / 2 ^ 8 % 2 ^ 24 = 0 := by
    rw [← Nat.shiftRight_eq_div_pow, ← BitVec.extractLsb'_toNat, h]
    rfl
  apply BitVec.eq_of_toNat_eq
  rw [BitVec.toNat_ofNat, BitVec.extractLsb'_toNat, Nat.shiftRight_zero]
  omega

/-- Settles O2: the opcode byte is that of the operation's format, whose decoder reads every bit of the registers it lists. -/
theorem decodedWordsAreTheEncoding : Obligations.DecodedWordsAreTheEncoding := by
  intro w i h
  change WordsOf i w.cmd w.arg
  unfold decode at h
  split at h
  case isTrue => cases h
  case isFalse hres =>
    rw [eq_ofNat_of_upperBits (not_not.1 hres)]
    split at h
    case h_2 hop => rw [hop]; exact decodeM_wordsOf h
    case h_3 hop => rw [hop]; exact decodeB_wordsOf h
    case h_7 hop => rw [hop]; exact decodeP_wordsOf h
    case h_10 hop => rw [hop]; exact decodeX_wordsOf h
    case h_13 hop => rw [hop]; exact decodeS_wordsOf h
    case h_14 hop => rw [hop]; exact decodeA_wordsOf h
    case h_15 hop => rw [hop]; exact decodeL_wordsOf h
    case h_17 hop => rw [hop]; exact decodeW_wordsOf h
    case h_19 => cases h
    all_goals next hop => cases h; rw [hop]; exact ⟨rfl, rfl⟩

/-! ## The decoder accepts exactly the legal words -/

/-- A decoder whose only check is that reserved fields are 0 accepts exactly when they are. -/
theorem accepts_ite_iff {p : Prop} [Decidable p] {e : DecodeError} {i : Instr} :
    (∃ j, (if p then .error e else .ok i : Except DecodeError Instr) = .ok j) ↔ ¬ p := by
  split
  case isTrue hp => exact ⟨fun ⟨_, h⟩ => (nomatch h), fun h => absurd hp h⟩
  case isFalse hp => exact ⟨fun _ => hp, fun _ => ⟨i, rfl⟩⟩

theorem decodeM_accepts_iff (a : Args) : (∃ i, decodeM a = .ok i) ↔ operandsLegal 0x02 a = true := by
  simp only [operandsLegal, Bool.and_eq_true, byteAt_eq_toNat, legalMode_iff, legalBitRate_iff]
  unfold decodeM
  split
  case isTrue hres => exact ⟨fun ⟨_, h⟩ => (nomatch h), fun h => absurd ((upperField_zero_iff _).2 h.1.1.1) hres⟩
  case isFalse hres =>
    have hzero := (upperField_zero_iff (m := 8) (n := 24) a.a0).1 (not_not.1 hres)
    split
    case h_1 m t r hm ht hr => exact ⟨fun _ => ⟨⟨⟨hzero, m, hm⟩, t, ht⟩, r, hr⟩, fun _ => ⟨_, rfl⟩⟩
    case h_2 hno => exact ⟨fun ⟨_, h⟩ => (nomatch h), fun ⟨⟨⟨_, m, hm⟩, t, ht⟩, r, hr⟩ => (hno m t r hm ht hr).elim⟩

theorem decodeB_accepts_iff (a : Args) : (∃ i, decodeB a = .ok i) ↔ operandsLegal 0x03 a = true := by
  simp only [operandsLegal, Bool.and_eq_true, byteAt_eq_toNat, legalBitRate_iff]
  unfold decodeB
  split
  case isTrue hres => exact ⟨fun ⟨_, h⟩ => (nomatch h), fun h => absurd ((upperField_zero_iff _).2 h.1.1) hres⟩
  case isFalse hres =>
    have hzero := (upperField_zero_iff (m := 16) (n := 16) a.a0).1 (not_not.1 hres)
    split
    case h_1 t r ht hr => exact ⟨fun _ => ⟨⟨hzero, t, ht⟩, r, hr⟩, fun _ => ⟨_, rfl⟩⟩
    case h_2 hno => exact ⟨fun ⟨_, h⟩ => (nomatch h), fun ⟨⟨_, t, ht⟩, r, hr⟩ => (hno t r ht hr).elim⟩

theorem decodeP_accepts_iff (a : Args) : (∃ i, decodeP a = .ok i) ↔ operandsLegal 0x07 a = true := by
  rw [decodeP, accepts_ite_iff, not_not]
  exact upperField_zero_iff _

theorem decodeX_accepts_iff (a : Args) : (∃ i, decodeX a = .ok i) ↔ operandsLegal 0x0A a = true := by
  simp only [decodeX, accepts_ite_iff, operandsLegal, Bool.and_eq_true, not_or, not_not, ne_eq, and_assoc]
  exact and_congr (upperField_zero_iff _) (and_congr (upperField_zero_iff _) (upperField_zero_iff _))

theorem decodeS_accepts_iff (a : Args) : (∃ i, decodeS a = .ok i) ↔ operandsLegal 0x0D a = true := by
  simp only [decodeS, accepts_ite_iff, operandsLegal, Bool.and_eq_true, not_or, not_not, ne_eq]
  exact and_congr (upperField_zero_iff _) (upperField_zero_iff _)

theorem decodeA_accepts_iff (a : Args) : (∃ i, decodeA a = .ok i) ↔ operandsLegal 0x0E a = true := by
  rw [decodeA, accepts_ite_iff, not_not]
  exact upperField_zero_iff _

theorem decodeL_accepts_iff (a : Args) : (∃ i, decodeL a = .ok i) ↔ operandsLegal 0x10 a = true := by
  simp only [decodeL, accepts_ite_iff, operandsLegal, Bool.and_eq_true, not_or, not_not, ne_eq]
  exact and_congr (upperField_zero_iff _) (upperField_zero_iff _)

theorem decodeW_accepts_iff (a : Args) : (∃ i, decodeW a = .ok i) ↔ operandsLegal 0x12 a = true := by
  simp only [operandsLegal, reservedZero_channel]
  unfold decodeW
  split
  case isTrue hok => exact ⟨fun _ => hok, fun _ => ⟨_, rfl⟩⟩
  case isFalse hno => exact ⟨fun ⟨_, h⟩ => (nomatch h), fun h => absurd h hno⟩

/-- Settles O3: the upper bits of `CMD`, then the opcode, then the format of the operation. -/
theorem decodeAcceptsExactlyLegalWords : Obligations.DecodeAcceptsExactlyLegalWords := by
  intro w
  have hupper : w.cmd.extractLsb' 8 24 = 0#24 ↔ reservedZero w.cmd 0xFFFFFF00#32 = true := upperField_zero_iff _
  unfold decode OpWords.wellFormed
  rw [byteAt_eq_toNat]
  split
  case isTrue hres =>
    rw [Bool.eq_false_of_not_eq_true (mt hupper.2 hres)]
    exact ⟨fun ⟨_, h⟩ => (nomatch h), fun h => (nomatch h)⟩
  case isFalse hres =>
    rw [hupper.1 (not_not.1 hres)]
    split
    case h_2 hop => rw [hop]; exact decodeM_accepts_iff _
    case h_3 hop => rw [hop]; exact decodeB_accepts_iff _
    case h_7 hop => rw [hop]; exact decodeP_accepts_iff _
    case h_10 hop => rw [hop]; exact decodeX_accepts_iff _
    case h_13 hop => rw [hop]; exact decodeS_accepts_iff _
    case h_14 hop => rw [hop]; exact decodeA_accepts_iff _
    case h_15 hop => rw [hop]; exact decodeL_accepts_iff _
    case h_17 hop => rw [hop]; exact decodeW_accepts_iff _
    case h_19 =>
      refine ⟨fun ⟨_, h⟩ => (nomatch h), fun h => ?_⟩
      obtain ⟨⟨-, hop⟩, -⟩ := by simpa only [Bool.and_eq_true] using h
      grind [legalOpcode]
    all_goals next hop => rw [hop]; exact ⟨fun _ => rfl, fun _ => ⟨_, rfl⟩⟩

/-- Settles O4: the decoder, run on each of the words. -/
theorem sampleWordsDecode : Obligations.SampleWordsDecode :=
  ⟨by decide, by decide, by decide, by decide, by decide, by decide⟩

end Sys2Proof

namespace Sys2Proof.Machine

/-! ## The step on a write to `CMD` (R70, R82) -/

/-- A word written to `CMD` is decoded with the operands that `ARG` holds. -/
theorem step_of_decode_ok {s : State} {w : Word} {rest : List Move} {i : Instr}
    (h : s.agenda = .host (.regWrite 0 .word w) :: rest) (hd : decode ⟨w, s.arg⟩ = .ok i) :
    step s = exec i { s with agenda := rest } := by
  have hf : fetch s = .command w { s with agenda := rest } := by simp [fetch, h, hostRequest]
  simp [step, hf, hd]

theorem step_of_decode_error {s : State} {w : Word} {rest : List Move} {e : DecodeError}
    (h : s.agenda = .host (.regWrite 0 .word w) :: rest) (hd : decode ⟨w, s.arg⟩ = .error e) :
    step s = illegalOperation { s with agenda := rest } := by
  have hf : fetch s = .command w { s with agenda := rest } := by simp [fetch, h, hostRequest]
  simp [step, hf, hd]

/-- Settles O5: words that are not legal do not decode. -/
theorem illegalOperationReturnsParam : Obligations.IllegalOperationReturnsParam := by
  intro s w rest h hillegal
  cases hd : decode ⟨w, s.arg⟩ with
  | ok i =>
    have hlegal := (decodeAcceptsExactlyLegalWords ⟨w, s.arg⟩).1 ⟨i, hd⟩
    rw [hillegal] at hlegal
    cases hlegal
  | error e => exact step_of_decode_error h hd

/-- Settles O6: the words placed are those of the operation, which decode to it. -/
theorem stepRunsDecodedOperation : Obligations.StepRunsDecodedOperation :=
  ⟨fun _ _ _ _ => step_of_decode_ok, fun _ i => step_of_decode_ok rfl (decodeInvertsEncode i (encodeArgs i) rfl)⟩

end Sys2Proof.Machine

/-! # Configuration and field control (`40_config_ops.md`)

What each Chip-Driver call does to the flags and the configuration of the front end, in a layer of its own; then the
operations, each assembled from these rules. -/

namespace Sys2Proof.Machine

/-! ## The flags and the configuration after a call -/

/-- Of the calls, `FeIrqEnable` and `FeIrqDisable` alone change which flags are enabled (R226). -/
@[simp] theorem calls_irqEnable (s : State) :
    (∀ c, (feCmd c s).env.fe.irqEnable = s.env.fe.irqEnable) ∧
    (∀ c, (feConfig c s).env.fe.irqEnable = s.env.fe.irqEnable) ∧
    (∀ i, (applyAnalogConfig i s).env.fe.irqEnable = s.env.fe.irqEnable) ∧
    (∀ m, (feIrqEnable m s).env.fe.irqEnable = s.env.fe.irqEnable ||| m) ∧
    (∀ m, (feIrqDisable m s).env.fe.irqEnable = s.env.fe.irqEnable &&& ~~~m) ∧
    (∀ m, (feDiscardIrq m s).env.fe.irqEnable = s.env.fe.irqEnable) ∧
    (∀ t, (feTimerStop t s).env.fe.irqEnable = s.env.fe.irqEnable) := by
  refine ⟨fun c => ?_, fun c => ?_, fun i => ?_, fun m => ?_, fun m => ?_, fun m => ?_, fun t => ?_⟩
  · cases c <;> simp [feCmd, commandEffect]
  · simp [feConfig]
  · simp [applyAnalogConfig]
  · simp [feIrqEnable]
  · simp [feIrqDisable]
  · simp [feDiscardIrq]
  · cases t <;> simp [feTimerStop, setHwClock]

/-- `FeConfig` writes its item; an analog configuration is not one of the items (R93, R237). -/
@[simp] theorem calls_config (s : State) :
    (∀ c, (feConfig c s).env.fe.config = putSetting c s.env.fe.config) ∧
    (∀ i, (applyAnalogConfig i s).env.fe.config = s.env.fe.config) := by
  simp [feConfig, applyAnalogConfig]

/-! ## What holds of the front end whatever it does -/

/-- What every step of the environment keeps holds after its turn. -/
theorem envTurn_keeps_of {P : FrontEnd → Prop} (hP : ∀ d e v, P v.fe → P (applyEvent d e v).fe) {d : Nat} {v : Env}
    (h : P v.fe) : P (envTurn d v).fe := by
  have go : ∀ (es : List EnvEvent) (v : Env), P v.fe → P (applyEvents d es v).fe := by
    intro es
    induction es with
    | nil => exact fun _ h => h
    | cons e es ih => exact fun v h => ih _ (hP d e v h)
  unfold envTurn
  split
  · exact h
  · exact go _ _ h

/-- No flag of the mask is enabled, and none is pending. -/
structure Silent (m : Word) (f : FrontEnd) : Prop where
  enabled : f.irqEnable &&& m = 0
  pending : f.irqPending &&& m = 0

/-- Only enabled flags are latched, so what is silent stays so (R225, R226). -/
theorem Silent.raise {m : Word} {f : FrontEnd} (h : Silent m f) (flags : Word) : Silent m (raiseFlags flags f) := by
  obtain ⟨he, hp⟩ := h
  refine ⟨he, ?_⟩
  calc (f.irqPending ||| (flags &&& f.irqEnable &&& irqAll)) &&& m
      = (f.irqPending &&& m) ||| (flags &&& (f.irqEnable &&& m) &&& irqAll) := by
        ext i
        simp only [BitVec.getElem_and, BitVec.getElem_or]
        grind
    _ = 0 := by rw [he, hp]; simp

theorem Silent.applyEvent {m : Word} (d : Nat) (e : EnvEvent) (v : Env) (h : Silent m v.fe) :
    Silent m (applyEvent d e v).fe := by
  cases e with
  | raise flags => exact h.raise flags
  | timerRun t => cases t <;> simp only [Machine.applyEvent, moveHwClock] <;> split <;> exact ⟨h.enabled, h.pending⟩
  | timerExpire t => cases t <;> simp only [Machine.applyEvent, moveHwClock] <;> split <;> exact ⟨h.enabled, h.pending⟩
  | swExpire t => simpa [Machine.applyEvent] using h
  | setMeasured ch x => cases ch <;> exact ⟨h.enabled, h.pending⟩
  | _ => exact ⟨h.enabled, h.pending⟩

theorem Silent.atCall {m : Word} {s : State} (h : Silent m s.env.fe) : Silent m (atCall s).env.fe :=
  envTurn_keeps_of Silent.applyEvent h

/-- A poll of flags that are not enabled leaves them silent. -/
theorem silent_feDiscardIrq {m : Word} {s : State} (h : s.env.fe.irqEnable &&& m = 0) :
    Silent m (feDiscardIrq m s).env.fe :=
  ⟨by simpa using h, by ext i; simp [feDiscardIrq]⟩

theorem Silent.feTimerStop {m : Word} {s : State} (h : Silent m s.env.fe) (t : HwTimer) :
    Silent m (feTimerStop t s).env.fe := by
  obtain ⟨he, hp⟩ := h.atCall
  cases t <;> exact ⟨he, hp⟩

/-- The hardware timer is `Stopped`. -/
def Stopped (t : HwTimer) (f : FrontEnd) : Prop := (hwClock t f).state = .stopped

@[simp] theorem hwClock_setHwClock_same (t : HwTimer) (c : HwClock) (f : FrontEnd) : hwClock t (setHwClock t c f) = c := by
  cases t <;> rfl

theorem hwClock_setHwClock_other {t u : HwTimer} (h : t ≠ u) (c : HwClock) (f : FrontEnd) :
    hwClock t (setHwClock u c f) = hwClock t f := by
  revert h
  cases t <;> cases u <;> simp [hwClock, setHwClock]

/-- The front end moves `Armed` and `Running` timers only (R58, R233). -/
theorem Stopped.moveHwClock {t : HwTimer} {f : FrontEnd} (h : Stopped t f) (u : HwTimer) {old new : HwTimerState}
    (hold : old ≠ .stopped) : Stopped t (moveHwClock u old new f) := by
  unfold Machine.moveHwClock
  split
  · next hu =>
    have hne : t ≠ u := by
      rintro rfl
      exact hold (hu.symm.trans h)
    unfold Stopped
    rw [hwClock_setHwClock_other hne]
    exact h
  · exact h

theorem Stopped.applyEvent {t : HwTimer} (d : Nat) (e : EnvEvent) (v : Env) (h : Stopped t v.fe) :
    Stopped t (applyEvent d e v).fe := by
  cases e with
  | timerRun u => exact h.moveHwClock u (by decide)
  | timerExpire u => exact h.moveHwClock u (by decide)
  | swExpire u => simpa [Machine.applyEvent] using h
  | setMeasured ch x => cases ch <;> cases t <;> exact h
  | _ => cases t <;> exact h

theorem Stopped.atCall {t : HwTimer} {s : State} (h : Stopped t s.env.fe) : Stopped t (atCall s).env.fe :=
  envTurn_keeps_of Stopped.applyEvent h

/-- `FeTimerStop` stops its timer (R233) … -/
theorem stopped_feTimerStop (t : HwTimer) (s : State) : Stopped t (feTimerStop t s).env.fe := by
  simp [Stopped, feTimerStop]

/-- … and none starts by stopping another. -/
theorem Stopped.feTimerStop {t : HwTimer} {s : State} (h : Stopped t s.env.fe) (u : HwTimer) :
    Stopped t (feTimerStop u s).env.fe := by
  by_cases hu : t = u
  · exact hu ▸ stopped_feTimerStop t s
  · have ha := h.atCall
    simp only [Stopped, Machine.feTimerStop, feCall_env] at ha ⊢
    rw [hwClock_setHwClock_other hu]
    exact ha

/-! ## INITIALIZE (R90) -/

/-- Cleanup restores the option defaults, disables the flags of the exchange and runs the hook (R118). -/
@[simp] theorem cleanup_trace (s : State) : (cleanup s).env.trace = s.env.trace ++ cleanupEvents := by
  simp [cleanup, cleanupEvents]

@[simp] theorem endExchange_trace (e : Status) (s : State) :
    (endExchange e s).env.trace = s.env.trace ++ cleanupEvents := cleanup_trace s

/-- After the front-end calls of INITIALIZE every flag is silent and every hardware timer stopped. -/
theorem initFrontEnd_frontEnd (s : State) :
    Silent irqAll (initFrontEnd s).env.fe ∧ Stopped .nrt (initFrontEnd s).env.fe ∧
    Stopped .mrt (initFrontEnd s).env.fe ∧ Stopped .gpt (initFrontEnd s).env.fe := by
  have hdis : (feIrqDisable irqAll (feCmd .setDefault s)).env.fe.irqEnable &&& irqAll = 0 := by
    ext i
    simp
  exact ⟨(((silent_feDiscardIrq hdis).feTimerStop .nrt).feTimerStop .mrt).feTimerStop .gpt,
    ((stopped_feTimerStop .nrt _).feTimerStop .mrt).feTimerStop .gpt,
    (stopped_feTimerStop .mrt _).feTimerStop .gpt, stopped_feTimerStop .gpt _⟩

/-- The front-end calls of INITIALIZE, with what the discarded poll answered. -/
theorem initFrontEnd_trace (s : State) : ∃ ans : Word, (initFrontEnd s).env.trace = s.env.trace ++
    [.feCmd .setDefault, .feIrqDisable irqAll, .feGetIrq irqAll ans, .feTimerStop .nrt, .feTimerStop .mrt,
      .feTimerStop .gpt] := by
  refine ⟨pendingIn irqAll (atCall (feIrqDisable irqAll (feCmd .setDefault s))), ?_⟩
  simp [initFrontEnd]

theorem restored_initialise (s : State) :
    Restored { initFrontEnd (initialValues s) with topState := .init, result := .none } .init := by
  constructor <;> simp [initialValues, unspecifiedChannel]

/-- Cleaning a running exchange up costs the calls of Cleanup and touches nothing INITIALIZE keeps. -/
theorem cleanedUp_keeps (s : State) :
    let u := if s.txrxState = .idle then s else cleanup s
    u.params = s.params ∧ u.arg = s.arg ∧ u.buf = s.buf ∧ u.agenda = s.agenda ∧ u.hostData = s.hostData ∧
      u.env.trace = s.env.trace ++ (if running s then cleanupEvents else []) := by
  by_cases hi : s.txrxState = .idle <;> simp [hi, running]

/-- Settles O21: the values of R31 are written first, and no step of the front end between the calls brings a flag or a
timer back. -/
theorem initializeCompletes : Obligations.InitializeCompletes := by
  refine ⟨fun a => decodeInvertsEncode .initialise a rfl, fun s => ?_⟩
  have hexec : exec .initialise s = .next { initFrontEnd (initialValues (if s.txrxState = .idle then s else cleanup s)) with
      topState := .init, result := .none } := rfl
  have hu := cleanedUp_keeps s
  generalize (if s.txrxState = .idle then s else cleanup s) = u at hexec hu
  obtain ⟨hparams, harg, hbuf, hagenda, hdata, htrace⟩ := hu
  obtain ⟨ans, hcalls⟩ := initFrontEnd_trace (initialValues u)
  obtain ⟨⟨hen, hpend⟩, hnrt, hmrt, hgpt⟩ := initFrontEnd_frontEnd (initialValues u)
  refine ⟨_, ans, hexec, restored_initialise u, ?_, ?_, ?_, ?_, ?_, ?_, hen, hpend, hnrt, hmrt, hgpt⟩
  · simpa [initialValues] using hparams
  · simpa [initialValues] using harg
  · simpa [initialValues] using hbuf
  · simpa [initialValues] using hagenda
  · simpa [initialValues] using hdata
  · rw [← htrace]
    exact hcalls

/-! ## SET_MODE, SET_BITRATE (R91, R92, R93) -/

theorem below_init_iff (t : TopState) : below t .init = true ↔ t = .notInit := by
  cases t <;> decide

theorem below_modeSet_iff (t : TopState) : below t .modeSet = true ↔ t ∈ [TopState.notInit, .init] := by
  cases t <;> decide

theorem isPassiveListen_iff (m : Mode) : isPassiveListen m = true ↔ m ∈ [Mode.listenNfcA, .listenNfcB, .listenNfcF] := by
  cases m <;> decide

/-- What SET_BITRATE does once it is accepted: the rates, and three or four calls (R92, R93). -/
theorem applyBitrate_spec (tx rx : BitRate) (s : State) {t r : BitRate} (ht : t = newRate tx s.txBR)
    (hr : r = newRate rx s.rxBR) :
    ∃ v : Env, finish .none (applyBitrate tx rx s) =
        .next { s with txBR := t, rxBR := r, env := v, result := .none } ∧
      v.trace = s.env.trace ++ ([.feConfig (.bitrate t r), .applyAnalogConfig ⟨isListen s.mode, techOf s.mode, some t, .tx⟩,
          .applyAnalogConfig ⟨isListen s.mode, techOf s.mode, some r, .rx⟩] ++
        (if s.mode = .pollNfcV then [.feConfig (.nfcvStream t r)] else [])) ∧
      v.fe.config.mode = s.env.fe.config.mode ∧ v.fe.config.bitrate = some (t, r) ∧
      v.fe.irqEnable = s.env.fe.irqEnable := by
  subst ht hr
  refine ⟨(applyBitrate tx rx s).env, ?_, ?_⟩
  · by_cases hm : s.mode = .pollNfcV <;> simp [finish, applyBitrate, hm]
  · by_cases hm : s.mode = .pollNfcV <;> simp [applyBitrate, hm, putSetting, rateId]

theorem performSetBitrate_accepts {s : State} (htop : s.topState ∉ [TopState.notInit, .init]) (hi : s.txrxState = .idle)
    (tx rx : BitRate) : performSetBitrate tx rx s = finish .none (applyBitrate tx rx s) := by
  have hb : ¬ below s.topState .modeSet = true := by rwa [below_modeSet_iff]
  rw [performSetBitrate, if_neg hb, if_neg (not_not.2 hi)]

/-- Settles O23: what SET_BITRATE checks, and then its calls. -/
theorem setBitrateCompletes : Obligations.SetBitrateCompletes := by
  intro s tx rx
  refine ⟨fun htop hi => ?_, fun h => ?_⟩
  · obtain ⟨v, hv, htrace, -, hrates, hen⟩ := applyBitrate_spec tx rx s rfl rfl
    refine ⟨v, _, _, rfl, rfl, ?_, ?_, hrates, hen⟩
    · show performSetBitrate tx rx s = _
      rw [performSetBitrate_accepts htop hi]
      exact hv
    · rw [htrace, List.append_assoc]
      rfl
  · show performSetBitrate tx rx s = _
    unfold performSetBitrate
    split
    · rfl
    · next hb => rw [if_pos (h.resolve_left fun htop => hb ((below_modeSet_iff _).2 htop))]; rfl

/-- SET_MODE goes on where the block is initialised, the mode is one it supports and no exchange runs (R91). -/
theorem setModeError_eq_none {m : Mode} {s : State} (htop : s.topState ≠ .notInit) (hm : m ≠ .modeNone)
    (hl : m ∉ [Mode.listenNfcA, .listenNfcB, .listenNfcF]) (hi : s.txrxState = .idle) : setModeError m s = none := by
  have hb : ¬ below s.topState .init = true := by simpa [below_init_iff] using htop
  have hp : ¬ isPassiveListen m = true := by rwa [isPassiveListen_iff]
  rw [setModeError, if_neg hb, if_neg hm, if_neg hp, if_neg (not_not.2 hi)]

/-- Where SET_MODE returns an error, and which: the first that applies in the order of R91. -/
theorem setModeError_eq_some {m : Mode} {s : State} {code : Status}
    (h : s.topState = .notInit ∧ code = .wrongState ∨ s.topState ≠ .notInit ∧ m = .modeNone ∧ code = .param ∨
      s.topState ≠ .notInit ∧ m ∈ [Mode.listenNfcA, .listenNfcB, .listenNfcF] ∧ code = .notSupported ∨
      s.topState ≠ .notInit ∧ m ∉ [Mode.modeNone, .listenNfcA, .listenNfcB, .listenNfcF] ∧ s.txrxState ≠ .idle ∧
        code = .wrongState) : setModeError m s = some code := by
  simp only [setModeError, below_init_iff, isPassiveListen_iff]
  rcases h with ⟨htop, rfl⟩ | ⟨htop, rfl, rfl⟩ | ⟨htop, hl, rfl⟩ | ⟨htop, hm, hi, rfl⟩
  · rw [if_pos htop]
  · rw [if_neg htop, if_pos rfl]
  · have hm : m ≠ .modeNone := by
      rintro rfl
      exact absurd hl (by decide)
    rw [if_neg htop, if_neg hm, if_pos hl]
  · rw [List.mem_cons, not_or] at hm
    rw [if_neg htop, if_neg hm.1, if_neg hm.2, if_pos hi]

/-- Settles O22: an accepted SET_MODE is two calls and then an accepted SET_BITRATE in the mode just set. -/
theorem setModeAcceptsOrRejects : Obligations.SetModeAcceptsOrRejects := by
  refine ⟨fun s m tx rx htop hm hl hi => ?_, fun s m tx rx code h => ?_⟩
  · let u : State :=
      { applyAnalogConfig (commonId m) (feConfig (.mode m) { s with mode := m }) with topState := .modeSet }
    obtain ⟨v, hv, htrace, hmode, hrates, hen⟩ :=
      applyBitrate_spec tx rx u (t := newRate tx s.txBR) (r := newRate rx s.rxBR) (by simp [u]) (by simp [u])
    refine ⟨v, _, _, rfl, rfl, ?_, ?_, ?_, hrates, ?_⟩
    · have he : exec (.setMode m tx rx) s = performSetBitrate tx rx u := by
        simp only [exec, execSetMode, setModeError_eq_none htop hm hl hi, u]
      rw [he, performSetBitrate_accepts (s := u) (by simp [u]) (by simpa [u] using hi), hv]
      simp [u, newRate]
    · rw [htrace]
      simp [u, commonId, newRate]
    · rw [hmode]
      simp [u, putSetting]
    · rw [hen]
      simp [u]
  · simp only [exec, execSetMode, setModeError_eq_some h, finish]

/-! ## The timing setters and SET_ERROR_HANDLING (R94 to R97) -/

theorem clampTime_toNat (v m : Time) : (clampTime v m).toNat = min v.toNat m.toNat := by
  unfold clampTime
  split <;> omega

/-- Settles O24: each setter stores the clamped value. -/
theorem timingSettersClamp : Obligations.TimingSettersClamp :=
  ⟨fun a => ⟨decodeInvertsEncode (.setFdtPoll a.a0) a rfl, decodeInvertsEncode (.setFdtListen a.a0) a rfl,
      decodeInvertsEncode (.setGt a.a0) a rfl⟩, fun s value =>
    ⟨clampTime value s.params.fdtPollMax, clampTime value s.params.fdtListenMax, clampTime value s.params.gtMax,
      rfl, clampTime_toNat _ _, rfl, clampTime_toNat _ _, rfl, clampTime_toNat _ _⟩⟩

/-- Settles O25: the policy is stored, and the front end is told by one call. -/
theorem setErrorHandlingCompletes : Obligations.SetErrorHandlingCompletes := by
  intro s p
  have hp : (p == .policyEMVCo) = decide (p = .policyEMVCo) := rfl
  exact ⟨(feConfig (.nrtEmvMode (p == .policyEMVCo)) { s with policy := p }).env, rfl, by simp [hp],
    by simp [hp, putSetting], by simp⟩

/-! ## FIELD_OFF (R99) -/

/-- Settles O27: a running exchange is ended first; then one call switches the field off. -/
theorem fieldOffCompletes : Obligations.FieldOffCompletes := by
  refine ⟨fun a => decodeInvertsEncode .fieldOff a rfl, fun s => ?_⟩
  let u := if s.txrxState = .idle then s else endExchange .io s
  refine ⟨(feConfig (.txrxEnable false) u).env, ?_, ?_, by simp [putSetting]⟩
  · simp only [exec, execFieldOff, finish]
    by_cases hi : s.txrxState = .idle <;> simp [u, hi]
  · by_cases hi : s.txrxState = .idle <;> simp [u, hi]

end Sys2Proof.Machine

/-! # FIELD_ON_AND_START_GT and its spin (`40_config_ops.md` R98; R262) -/

namespace Sys2Proof.Machine

/-! ## The polls of the spin -/

/-- A poll that finds a flag ends the spin with it. -/
theorem spinCollisionAvoidance_answered {s : State} (h : polled (irqCAC ||| irqCAT) s ≠ 0) (k : Nat) :
    spinCollisionAvoidance (k + 1) s = .ok (feGetIrq (irqCAC ||| irqCAT) s) := if_neg h

/-- A poll that finds none is repeated. -/
theorem spinCollisionAvoidance_empty {s : State} (h : polled (irqCAC ||| irqCAT) s = 0) (k : Nat) :
    spinCollisionAvoidance (k + 1) s = spinCollisionAvoidance k (feGetIrq (irqCAC ||| irqCAT) s).2 := if_pos h

/-- A poll leaves nothing of its mask pending (R56). -/
@[simp] theorem pendingIn_feGetIrq (m : Word) (s : State) : pendingIn m (feGetIrq m s).2 = 0 := by
  ext i
  simp [pendingIn]

@[simp] theorem pendingIn_feDiscardIrq (m : Word) (s : State) : pendingIn m (feDiscardIrq m s) = 0 := pendingIn_feGetIrq m s

/-- An idle turn takes its entry of the script and nothing else happens. -/
theorem atCall_idleTurn {s : State} {rest : List (List EnvEvent)} (h : s.env.script = [] :: rest) :
    atCall s = { s with env := { s.env with script := rest } } := by
  simp [atCall, envTurn, h, applyEvents]

/-- After a turn that raises `g`, a poll of enabled flags none of which was pending finds those of `g`. -/
theorem polled_raise {m g : Word} {s : State} {rest : List (List EnvEvent)} (hs : s.env.script = [.raise g] :: rest)
    (hp : pendingIn m s = 0) (he : s.env.fe.irqEnable &&& m = m) (hm : irqAll &&& m = m) : polled m s = g &&& m := by
  have hturn : polled m s = (s.env.fe.irqPending ||| (g &&& s.env.fe.irqEnable &&& irqAll)) &&& m := by
    simp [polled, pendingIn, atCall, envTurn, hs, applyEvents, applyEvent, raiseFlags]
  calc polled m s
      = (s.env.fe.irqPending ||| (g &&& s.env.fe.irqEnable &&& irqAll)) &&& m := hturn
    _ = (s.env.fe.irqPending &&& m) ||| (g &&& (s.env.fe.irqEnable &&& m) &&& (irqAll &&& m)) := by
        ext i
        simp only [BitVec.getElem_and, BitVec.getElem_or]
        grind
    _ = g &&& m := by
        rw [show s.env.fe.irqPending &&& m = 0 from hp, he, hm]
        simp [BitVec.and_assoc]

/-- The spin from `s` ends in `r` with the answer `f`, after `n` polls that found nothing. -/
structure SpinEnds (s : State) (n : Nat) (f : Word) (r : Word × State) : Prop where
  answer : r.1 = f
  state : r.2 = { s with env := r.2.env }
  trace : r.2.env.trace = s.env.trace ++ List.replicate n (.feGetIrq (irqCAC ||| irqCAT) 0) ++
    [.feGetIrq (irqCAC ||| irqCAT) f]
  enabled : r.2.env.fe.irqEnable = s.env.fe.irqEnable

theorem spinEnds_firstPoll (s : State) :
    SpinEnds s 0 (polled (irqCAC ||| irqCAT) s) (feGetIrq (irqCAC ||| irqCAT) s) :=
  ⟨rfl, rfl, by simp [polled], by simp⟩

/-- One more empty poll before the spin ends. -/
theorem SpinEnds.afterEmptyPoll {s : State} {n : Nat} {f : Word} {r : Word × State}
    (h : SpinEnds (feGetIrq (irqCAC ||| irqCAT) s).2 n f r) (hp : polled (irqCAC ||| irqCAT) s = 0) :
    SpinEnds s (n + 1) f r where
  answer := h.answer
  state := h.state
  trace := by
    have hp' : pendingIn (irqCAC ||| irqCAT) (atCall s) = 0 := hp
    rw [h.trace]
    simp [hp', List.replicate_succ]
  enabled := by simpa using h.enabled

/-- The spin through any number of empty polls to the turn that raises one of its flags. -/
theorem spinCollisionAvoidance_idleTurns {g : Word} {rest : List (List EnvEvent)} (hg : g &&& (irqCAC ||| irqCAT) ≠ 0)
    {n k : Nat} {s : State} (hs : s.env.script = idleTurns n ++ [.raise g] :: rest)
    (hp : pendingIn (irqCAC ||| irqCAT) s = 0) (he : s.env.fe.irqEnable &&& (irqCAC ||| irqCAT) = irqCAC ||| irqCAT) :
    ∃ r, spinCollisionAvoidance (n + k + 1) s = .ok r ∧ SpinEnds s n (g &&& (irqCAC ||| irqCAT)) r := by
  induction n generalizing s with
  | zero =>
    have hpoll : polled (irqCAC ||| irqCAT) s = g &&& (irqCAC ||| irqCAT) := polled_raise hs hp he (by decide)
    exact ⟨_, spinCollisionAvoidance_answered (hpoll ▸ hg) _, hpoll ▸ spinEnds_firstPoll s⟩
  | succ n ih =>
    have hpoll : polled (irqCAC ||| irqCAT) s = 0 := by
      rw [polled, atCall_idleTurn hs]
      exact hp
    obtain ⟨r, hr, hends⟩ := ih (s := (feGetIrq (irqCAC ||| irqCAT) s).2) (by simp [hs, idleTurns, List.replicate_succ])
      (pendingIn_feGetIrq _ s) (by simpa using he)
    refine ⟨r, ?_, hends.afterEmptyPoll hpoll⟩
    rw [show n + 1 + k + 1 = (n + k + 1) + 1 by omega, spinCollisionAvoidance_empty hpoll, hr]

/-- With nothing pending and no further step of the environment the spin never ends (R262). -/
theorem spinCollisionAvoidance_quiet {s : State} (hq : s.env.script = []) (hp : pendingIn (irqCAC ||| irqCAT) s = 0)
    (k : Nat) : spinCollisionAvoidance k s = .error .spinNeverEnds := by
  induction k generalizing s with
  | zero => rfl
  | succ k ih =>
    have hpoll : polled (irqCAC ||| irqCAT) s = 0 := by rwa [polled, atCall_quiet hq]
    rw [spinCollisionAvoidance_empty hpoll]
    exact ih (by simp [hq]) (by simp)

/-! ## The operation -/

/-- The three calls before the spin: their script, their trace, and the flags they enable. -/
theorem fieldOnRequest_env (s : State) :
    (fieldOnRequest s).env.script = s.env.script.drop 3 ∧
    (fieldOnRequest s).env.trace = s.env.trace ++
      [.feGetIrq (irqCAC ||| irqCAT) (polled (irqCAC ||| irqCAT) s), .feIrqEnable (irqCAC ||| irqCAT), .feCmd .fieldOnCa] ∧
    (fieldOnRequest s).env.fe.irqEnable = s.env.fe.irqEnable ||| (irqCAC ||| irqCAT) := by
  simp [fieldOnRequest, polled, ← List.drop_one]

/-- The request writes the environment alone. -/
theorem fieldOnRequest_withEnv (s : State) (v : Env) : { fieldOnRequest s with env := v } = { s with env := v } := by
  simp

/-- The request leaves neither flag pending where the environment does nothing meanwhile. -/
theorem fieldOnRequest_quiet {s : State} (h : quietEnv s) :
    (fieldOnRequest s).env.script = [] ∧ pendingIn (irqCAC ||| irqCAT) (fieldOnRequest s) = 0 := by
  have hs : s.env.script = [] := h
  refine ⟨by simp [fieldOnRequest, hs], ?_⟩
  have hd : (feDiscardIrq (irqCAC ||| irqCAT) s).env.script = [] := by simp [hs]
  have he : (feIrqEnable (irqCAC ||| irqCAT) (feDiscardIrq (irqCAC ||| irqCAT) s)).env.script = [] := by simp [hs]
  calc pendingIn (irqCAC ||| irqCAT) (fieldOnRequest s)
      = pendingIn (irqCAC ||| irqCAT) (feIrqEnable (irqCAC ||| irqCAT) (feDiscardIrq (irqCAC ||| irqCAT) s)) := by
        simp only [pendingIn, fieldOnRequest, feCmd, feCall_env, atCall_quiet he, commandEffect]
    _ = pendingIn (irqCAC ||| irqCAT) (feDiscardIrq (irqCAC ||| irqCAT) s) := by
        simp only [pendingIn, feIrqEnable, feCall_env, atCall_quiet hd]
    _ = 0 := pendingIn_feDiscardIrq _ s

/-- What the first clause of FIELD_ON_AND_START_GT assumes of the front end makes the spin end with that flag. -/
theorem spinCollisionAvoidance_fieldOnRequest {s : State} {n : Nat} {f : Word}
    (h : n = 0 ∧ f = polled (irqCAC ||| irqCAT) (fieldOnRequest s) ∨
      ∃ (g : Word) (rest : List (List EnvEvent)), s.env.script.drop 3 = idleTurns n ++ [.raise g] :: rest ∧
        pendingIn (irqCAC ||| irqCAT) (fieldOnRequest s) = 0 ∧ f = g &&& (irqCAC ||| irqCAT)) (hf : f ≠ 0) :
    ∃ r, spinCollisionAvoidance (spinPolls (fieldOnRequest s)) (fieldOnRequest s) = .ok r ∧
      SpinEnds (fieldOnRequest s) n f r := by
  obtain ⟨hscript, -, hen⟩ := fieldOnRequest_env s
  rcases h with ⟨rfl, rfl⟩ | ⟨g, rest, hs, hp, rfl⟩
  · exact ⟨_, spinCollisionAvoidance_answered hf _, spinEnds_firstPoll _⟩
  · have hall : (fieldOnRequest s).env.fe.irqEnable &&& (irqCAC ||| irqCAT) = irqCAC ||| irqCAT := by
      rw [hen]
      ext i
      simp only [BitVec.getElem_and, BitVec.getElem_or]
      grind
    have hpolls : spinPolls (fieldOnRequest s) = n + (rest.length + 1) + 1 := by simp [spinPolls, hscript, hs, idleTurns]
    rw [hpolls]
    exact spinCollisionAvoidance_idleTurns hf (hscript.trans hs) hp hall

/-- `swGT` is armed anew where `GT` is set, and left as it is where it is not (R98). -/
theorem finish_startGuardTime (s : State) : finish .none (startGuardTime s) = .next
    (if s.timing.gt = 0 then { s with result := .none }
    else { s with
      result := .none, sw := { s.sw with gt := true }
      env := { s.env with swGt := ⟨swTicks s.timing.gt, false⟩ } }) := by
  unfold startGuardTime
  split <;> rfl

/-- Switching the field on: one call, and the guard time where `GT` is set. -/
theorem switchFieldOn (s : State) :
    ∃ v : Env, finish .none (startGuardTime { feConfig (.txrxEnable true) s with fieldOn := true }) =
        .next { s with env := v, fieldOn := true, result := .none, sw := { s.sw with gt := s.sw.gt || s.timing.gt != 0 } } ∧
      v.trace = s.env.trace ++ [.feConfig (.txrxEnable true)] ∧
      (s.timing.gt ≠ 0 → v.swGt = ⟨swTicks s.timing.gt, false⟩) ∧ v.fe.irqEnable = s.env.fe.irqEnable := by
  rw [finish_startGuardTime]
  by_cases hgt : s.timing.gt = 0
  · exact ⟨(feConfig (.txrxEnable true) s).env, by simp [hgt], by simp, fun h => absurd hgt h, by simp⟩
  · have hgt' : s.timing.gt ≠ 0#32 := hgt
    exact ⟨{ (feConfig (.txrxEnable true) s).env with swGt := ⟨swTicks s.timing.gt, false⟩ }, by simp [hgt'], by simp,
      fun _ => rfl, by simp⟩

/-- Disabling flags is one event, and writes the environment alone. -/
theorem feIrqDisable_writes (m : Word) {s u : State} {v : Env} (h : u = { s with env := v }) :
    ∃ w, feIrqDisable m u = { s with env := w } ∧ w.trace = v.trace ++ [.feIrqDisable m] ∧
      w.fe.irqEnable = v.fe.irqEnable &&& ~~~m := by
  subst h
  exact ⟨(feIrqDisable m { s with env := v }).env, rfl, by simp, by simp⟩

/-- With the field off the operation is the procedure of R98, and what its spin answers decides the outcome. -/
theorem fieldOnProcedure_of_spinEnds {s : State} {n : Nat} {f : Word} {r : Word × State}
    (hr : spinCollisionAvoidance (spinPolls (fieldOnRequest s)) (fieldOnRequest s) = .ok r)
    (h : SpinEnds (fieldOnRequest s) n f r) :
    ∃ v : Env, fieldOnProcedure s = .next
        (if has f irqCAC then { s with env := v, result := .rfCollision }
        else { s with env := v, fieldOn := true, result := .none, sw := { s.sw with gt := s.sw.gt || s.timing.gt != 0 } }) ∧
      v.trace = r.2.env.trace ++ [.feIrqDisable (irqCAC ||| irqCAT)] ++
        (if has f irqCAC then [] else [.feConfig (.txrxEnable true)]) ∧
      (has f irqCAC = false → s.timing.gt ≠ 0 → v.swGt = ⟨swTicks s.timing.gt, false⟩) ∧
      v.fe.irqEnable = r.2.env.fe.irqEnable &&& ~~~(irqCAC ||| irqCAT) := by
  have hproc : fieldOnProcedure s = if has f irqCAC then finish .rfCollision (feIrqDisable (irqCAC ||| irqCAT) r.2)
      else finish .none
        (startGuardTime { feConfig (.txrxEnable true) (feIrqDisable (irqCAC ||| irqCAT) r.2) with fieldOn := true }) := by
    simp only [fieldOnProcedure, hr, h.answer]
  obtain ⟨w, hw, htrace, hen⟩ :=
    feIrqDisable_writes (irqCAC ||| irqCAT) (h.state.trans (fieldOnRequest_withEnv s _))
  rw [hproc, hw, ← htrace, ← hen]
  cases hc : has f irqCAC with
  | true => exact ⟨w, rfl, by simp, by simp, rfl⟩
  | false =>
    obtain ⟨v, hv, hvt, hgt, hve⟩ := switchFieldOn { s with env := w }
    exact ⟨v, hv, hvt, fun _ => hgt, hve⟩

/-- Settles O26: the spin ends where the front end answers, and never where it is quiet. -/
theorem fieldOnAndStartGuardTime : Obligations.FieldOnAndStartGuardTime := by
  have hbelow (s : State) (h : s.topState ∉ [TopState.notInit, .init]) : ¬ below s.topState .modeSet = true := by
    rwa [below_modeSet_iff]
  refine ⟨fun s n f htop hfield hends hf => ?_, fun s => ⟨fun htop hfield => ?_, fun htop => ?_, fun htop hfield hq => ?_⟩⟩
  · obtain ⟨r, hr, hr'⟩ := spinCollisionAvoidance_fieldOnRequest hends hf
    obtain ⟨v, hv, htrace, hgt, hen⟩ := fieldOnProcedure_of_spinEnds hr hr'
    obtain ⟨-, hrequest, -⟩ := fieldOnRequest_env s
    refine ⟨v, ?_, ?_, hgt, ?_⟩
    · rw [← hv]
      simp [exec, execFieldOnAndStartGt, hbelow s htop, hfield]
    · rw [htrace, hr'.trace, hrequest]
      simp
    · rw [hen]
      ext i
      simp
  · rw [← finish_startGuardTime]
    simp only [exec, execFieldOnAndStartGt, if_neg (hbelow s htop), if_pos hfield]
  · simp only [exec, execFieldOnAndStartGt, if_pos ((below_modeSet_iff _).2 htop), finish]
  · obtain ⟨hs, hp⟩ := fieldOnRequest_quiet hq
    simp [exec, execFieldOnAndStartGt, hbelow s htop, hfield, fieldOnProcedure, spinCollisionAvoidance_quiet hs hp]

end Sys2Proof.Machine

/-! # How long a synchronous spin lasts (R98, R122, R123, R262)

The number of steps the model gives a spin does not show in the result of a spin that ends. One that has not ended after
them has reached a state that waits for something no further step of the environment will bring. -/

namespace Sys2Proof.Machine

/-! ## More steps than a spin needs -/

/-- A spin that has ended stays as it is (R122). -/
theorem spinExchange_of_idle {s : State} (h : s.txrxState = .idle) (n : Nat) : spinExchange n s = .ok s := by
  cases n <;> simp [spinExchange, h]

/-- One step of a spin that has not ended (R122). -/
theorem spinExchange_succ {s : State} (h : s.txrxState ≠ .idle) (n : Nat) :
    spinExchange (n + 1) s = txrxStep s >>= spinExchange n := by
  rw [spinExchange, if_neg h]
  cases txrxStep s <;> rfl

/-- Whatever a spin answers but "never ends", it answers with more steps as well. -/
theorem spinExchange_add {n : Nat} {s : State} (h : spinExchange n s ≠ .error .spinNeverEnds) (k : Nat) :
    spinExchange (n + k) s = spinExchange n s := by
  induction n generalizing s with
  | zero =>
    by_cases hi : s.txrxState = .idle
    · simp only [spinExchange_of_idle hi]
    · exact absurd (if_neg hi) h
  | succ n ih =>
    by_cases hi : s.txrxState = .idle
    · simp only [spinExchange_of_idle hi]
    · rw [Nat.add_right_comm]
      rw [spinExchange_succ hi] at h ⊢
      rw [spinExchange_succ hi]
      cases hstep : txrxStep s with
      | ok t =>
        rw [hstep] at h
        exact ih h
      | error f => rfl

/-- A spin ends at rest. -/
theorem spinExchange_idle (n : Nat) (s : State) : Answers (fun t => t.txrxState = .idle) (spinExchange n s) := by
  induction n generalizing s with
  | zero =>
    unfold spinExchange
    split
    · next hi => exact .ok hi
    · rintro t ⟨⟩
  | succ n ih =>
    by_cases hi : s.txrxState = .idle
    · rw [spinExchange_of_idle hi]
      exact .ok hi
    · rw [spinExchange_succ hi]
      exact (answers_true _).bind fun t _ => ih t

/-- The spin of R98 ends on a flag, at the same poll however many it is given. -/
theorem spinCollisionAvoidance_add {n : Nat} {s : State} {r : Word × State} (h : spinCollisionAvoidance n s = .ok r)
    (k : Nat) : r.1 ≠ 0 ∧ spinCollisionAvoidance (n + k) s = .ok r := by
  induction n generalizing s with
  | zero => cases h
  | succ n ih =>
    rw [Nat.add_right_comm]
    by_cases hp : polled (irqCAC ||| irqCAT) s = 0
    · rw [spinCollisionAvoidance_empty hp] at h ⊢
      exact ih h
    · rw [spinCollisionAvoidance_answered hp] at h ⊢
      cases h
      exact ⟨hp, rfl⟩

/-- Settles O58: a spin that ends, or stops for another reason, does so at the same step however many it is given. -/
theorem spinResultDoesNotDependOnFuel : Obligations.SpinResultDoesNotDependOnFuel := by
  refine ⟨fun n k s t h => ⟨spinExchange_idle n s t h, ?_⟩, fun n k s f h hf => ?_,
    fun n k s r h => spinCollisionAvoidance_add h k⟩
  · rw [spinExchange_add (by simp [h]), h]
  · rw [spinExchange_add (by simpa [h] using hf), h]

/-! ## Enough polls for the spin of R98 -/

/-- Every poll takes one entry of the script; past the script nothing is raised any more (R58, R262). -/
theorem spinCollisionAvoidance_enough {n : Nat} {s : State} (hn : s.env.script.length < n)
    (h : spinCollisionAvoidance n s = .error .spinNeverEnds) (k : Nat) :
    spinCollisionAvoidance k s = .error .spinNeverEnds := by
  induction n generalizing s k with
  | zero => omega
  | succ n ih =>
    by_cases hp : polled (irqCAC ||| irqCAT) s = 0
    · rw [spinCollisionAvoidance_empty hp] at h
      cases k with
      | zero => rfl
      | succ k =>
        rw [spinCollisionAvoidance_empty hp]
        by_cases hs : s.env.script = []
        · exact spinCollisionAvoidance_quiet (by simp [hs]) (pendingIn_feGetIrq _ s) k
        · have hpos := List.length_pos_iff.2 hs
          exact ih (by simp; omega) h k
    · rw [spinCollisionAvoidance_answered hp] at h
      cases h

/-! ## What bounds the spin of an exchange

Every step of an exchange takes an entry of the script, or moves on to a later state, or uses up one of the flags `WL`,
`RXE` and `RXS`, on which alone an exchange comes back to a state it has been in; or else it waits, and then for ever. -/

/-- How far an exchange in this state is from its end: a step leads to a lower stage, or comes back (R116, R137). -/
def stage : TxrxState → Nat
  | .idle => 0
  | .txFail | .rxDone | .rxFail | .rxWaitEof => 1
  | .rxWaitRxs | .rxWaitRxe => 2
  | .rxReadFifo | .rxErrCheck | .rxReadData | .rxWaitEon => 3
  | .rxIdle => 4
  | .txDone => 5
  | .txWaitTxe => 6
  | .txWaitWl => 7
  | .txTransmit | .txReloadFifo => 8
  | .txWaitFdt => 9
  | .txWaitGt => 10
  | .txIdle => 11

/-- The flags on which an exchange comes back to a state (R136, R156, R183), as many of them as are raised. -/
def returns (w : Word) : Nat := (has w irqWL).toNat + (has w irqRXE).toNat + (has w irqRXS).toNat

/-- What the environment still holds that can keep an exchange going: the script, which may raise those flags, and, past it,
those that are pending. -/
def budget (v : Env) : Nat := v.script.length + if v.script = [] then returns v.fe.irqPending else 3

/-- A bound on the steps of an exchange until it ends or waits. -/
def spinMeasure (s : State) : Nat := stage s.txrxState + budget s.env

/-! ## The flags -/

theorem has_twoPow (w : Word) (k : Nat) : has w (BitVec.twoPow 32 k) = w.getLsbD k := by
  rw [has, BitVec.and_twoPow]
  cases hk : w.getLsbD k with
  | false => rfl
  | true =>
    have hlt := BitVec.lt_of_getLsbD hk
    have hne : BitVec.twoPow 32 k ≠ 0 := fun h => by
      have := congrArg (·.getLsbD k) h
      simp [hlt] at this
    simpa using hne

theorem has_irqWL (w : Word) : has w irqWL = w.getLsbD 0 := has_twoPow w 0
theorem has_irqRXE (w : Word) : has w irqRXE = w.getLsbD 1 := has_twoPow w 1
theorem has_irqRXS (w : Word) : has w irqRXS = w.getLsbD 2 := has_twoPow w 2

@[simp] theorem has_zero (m : Word) : has 0#32 m = false := by simp [has]

theorem returns_le (w : Word) : returns w ≤ 3 := by
  have := Bool.toNat_le (has w irqWL)
  have := Bool.toNat_le (has w irqRXE)
  have := Bool.toNat_le (has w irqRXS)
  unfold returns
  omega

/-- Clearing flags raises none. -/
theorem returns_and_le (w m : Word) : returns (w &&& m) ≤ returns w := by
  simp only [returns, has_irqWL, has_irqRXE, has_irqRXS, BitVec.getLsbD_and]
  generalize w.getLsbD 0 = a, w.getLsbD 1 = b, w.getLsbD 2 = c, m.getLsbD 0 = d, m.getLsbD 1 = e, m.getLsbD 2 = f
  revert a b c d e f
  decide

/-- A poll that answers one of the three clears it. -/
theorem returns_poll_lt {w m : Word} (h : has (w &&& m) irqWL = true ∨ has (w &&& m) irqRXE = true ∨
    has (w &&& m) irqRXS = true) : returns (w &&& ~~~m) < returns w := by
  simp only [returns, has_irqWL, has_irqRXE, has_irqRXS, BitVec.getLsbD_and, BitVec.getLsbD_not] at h ⊢
  revert h
  generalize w.getLsbD 0 = a, w.getLsbD 1 = b, w.getLsbD 2 = c, m.getLsbD 0 = d, m.getLsbD 1 = e, m.getLsbD 2 = f
  revert a b c d e f
  decide

/-! ## What the calls cost -/

theorem budget_congr {v w : Env} (hs : v.script = w.script) (hp : v.fe.irqPending = w.fe.irqPending) :
    budget v = budget w := by
  simp only [budget, hs, hp]

/-- A turn with a script left costs an entry of it. -/
theorem budget_atCall_lt {s : State} (h : s.env.script ≠ []) : budget (atCall s).env < budget s.env := by
  obtain ⟨es, rest, hs⟩ := List.exists_cons_of_ne_nil h
  have := returns_le (atCall s).env.fe.irqPending
  simp only [budget, atCall_env, hs, List.tail_cons, List.length_cons, reduceCtorEq, if_false]
  split <;> omega

theorem budget_atCall_le (s : State) : budget (atCall s).env ≤ budget s.env := by
  by_cases h : s.env.script = []
  · rw [atCall_quiet h]
  · exact (budget_atCall_lt h).le

/-- A call that clears no flag costs its turn at most. -/
theorem feCall_budget (e : Event) {g : FrontEnd → FrontEnd} (hg : ∀ f, (g f).irqPending = f.irqPending) (s : State) :
    budget (feCall e g s).env ≤ budget s.env :=
  (budget_congr (by simp) (by simp [hg])).trans_le (budget_atCall_le s)

theorem feCmd_budget (c : FeCommand) (s : State) : budget (feCmd c s).env ≤ budget s.env :=
  feCall_budget _ (fun f => by cases c <;> rfl) s

theorem feConfig_budget (c : FeSetting) (s : State) : budget (feConfig c s).env ≤ budget s.env :=
  feCall_budget (.feConfig c) (fun _ => rfl) s

theorem feTimerStart_budget (t : HwTimer) (x : Time) (s : State) : budget (feTimerStart t x s).env ≤ budget s.env :=
  feCall_budget _ (fun f => by cases t <;> rfl) s

@[simp] theorem emit_budget (e : Event) (s : State) : budget (emit e s).env = budget s.env :=
  budget_congr (by simp) (by simp)

@[simp] theorem swArm_budget (t : SwTimer) (d : Nat) (s : State) : budget (swArm t d s).env = budget s.env :=
  budget_congr (by simp) (by simp)

theorem feFifoRead_budget (n : Nat) (s : State) :
    Answers (fun r => budget r.2.env ≤ budget s.env) (feFifoRead n s) := by
  intro r h
  rcases feFifoRead_spec h with ⟨-, rfl⟩ | ⟨-, -, -, hr⟩
  · exact le_rfl
  · rw [hr, emit_budget]
    exact (budget_congr (by simp) (by simp)).trans_le (budget_atCall_le s)

theorem feFifoWrite_budget (bytes : List Byte) (s : State) :
    Answers (fun t => budget t.env ≤ budget s.env) (feFifoWrite bytes s) := by
  intro t h
  rcases feFifoWrite_spec h with ⟨-, rfl⟩ | ⟨-, -, rfl⟩
  · exact le_rfl
  · rw [emit_budget]
    exact (budget_congr (by simp) (by simp)).trans_le (budget_atCall_le s)

theorem fifoStatus_budget (s : State) : budget (fifoStatus s).env ≤ budget s.env := by
  rcases fifoStatus_spec s with ⟨-, h⟩ | ⟨-, -, hfe, hscript⟩
  · rw [h]
  · exact (budget_congr (by simp [hscript]) (by rw [hfe])).trans_le (budget_atCall_le s)

theorem endExchange_budget (e : Status) (s : State) : budget (endExchange e s).env ≤ budget s.env := by
  have hdis : budget (feIrqDisable txrxIrqs (feConfig (.flags 0) s)).env ≤ budget s.env :=
    (feCall_budget (.feIrqDisable txrxIrqs) (fun _ => rfl) _).trans (feConfig_budget _ s)
  have hend : (endExchange e s).env =
      (emit .postTxRx (swDisarm .apFwt (swDisarm .rxeGuard (feIrqDisable txrxIrqs (feConfig (.flags 0) s))))).env := rfl
  rw [hend, emit_budget]
  simpa using hdis

/-- A poll clears what it answers, and costs its turn. -/
theorem feGetIrq_budget_atCall (m : Word) (s : State) : budget (feGetIrq m s).2.env ≤ budget (atCall s).env := by
  have := returns_and_le (atCall s).env.fe.irqPending (~~~m)
  simp only [budget, feGetIrq_env, atCall_env]
  split <;> omega

theorem feGetIrq_budget (m : Word) (s : State) : budget (feGetIrq m s).2.env ≤ budget s.env :=
  (feGetIrq_budget_atCall m s).trans (budget_atCall_le s)

theorem feGetIrq_budget_lt {s : State} (h : s.env.script ≠ []) (m : Word) : budget (feGetIrq m s).2.env < budget s.env :=
  (feGetIrq_budget_atCall m s).trans_lt (budget_atCall_lt h)

/-- A poll that finds a flag on which an exchange comes back uses it up. -/
theorem feGetIrq_budget_lt_of_flag {m : Word} {s : State} (h : has (feGetIrq m s).1 irqWL = true ∨
    has (feGetIrq m s).1 irqRXE = true ∨ has (feGetIrq m s).1 irqRXS = true) :
    budget (feGetIrq m s).2.env < budget s.env := by
  by_cases hs : s.env.script = []
  · rw [(feGetIrq_spec m s).1, atCall_quiet hs] at h
    have := returns_poll_lt h
    simpa [budget, hs, atCall_quiet hs] using this
  · exact feGetIrq_budget_lt hs m

/-! ## States that wait -/

/-- No step of the environment is left, and the exchange waits for one: a timer to expire or a flag to be raised. -/
def Waiting (s : State) : Prop :=
  s.env.script = [] ∧
  match s.txrxState with
  | .txWaitGt => s.sw.gt = true ∧ s.env.swGt.expired = false
  | .txWaitFdt => isActive s.mode = false ∧ s.timing.fdtPoll ≠ 0 ∧ s.env.fe.gpt.state = .running
  | .txWaitWl => pendingIn (irqWL ||| irqTXE) s = 0
  | .txWaitTxe => has (pendingIn (irqWL ||| irqTXE) s) irqTXE = false
  | .rxWaitEon => has (pendingIn (irqEON ||| irqNRE) s) irqEON = false ∧
      has (pendingIn (irqEON ||| irqNRE) s) irqNRE = false ∧ (s.sw.apFwt = true → s.env.swApFwt.expired = false)
  | .rxWaitRxs => pendingIn (irqRXS ||| irqNRE ||| eofIfActive s.mode) s = 0
  | .rxWaitRxe => s.eofSeen = false ∧ s.env.swRxeGuard.expired = false ∧
      ∀ f ∈ [irqRXE, irqWL, irqEOF], has (pendingIn (irqRXE ||| irqWL ||| eofIfActive s.mode) s) f = false
  | .rxWaitEof => s.eofSeen = false ∧ has (pendingIn irqEOF s) irqEOF = false
  | _ => False

/-- With no script left a poll takes the pending flags of its mask and changes nothing else but the trace. -/
theorem feGetIrq_quiet {s : State} (h : s.env.script = []) (m : Word) :
    feGetIrq m s = (pendingIn m s, emit (.feGetIrq m (pendingIn m s))
      (withFe (fun f => { f with irqPending := f.irqPending &&& ~~~m }) s)) := by
  rw [feGetIrq, atCall_quiet h]

theorem swExpired_quiet {s : State} (h : s.env.script = []) (t : SwTimer) :
    swExpired t s = ((swClock t s.env).expired, s) := by
  rw [swExpired, atCall_quiet h]

theorem feTimerCheck_quiet {s : State} (h : s.env.script = []) (t : HwTimer) :
    feTimerCheck t s = ((hwClock t s.env.fe).state, emit (.feTimerCheck t (hwClock t s.env.fe).state) s) := by
  rw [feTimerCheck, atCall_quiet h]

section
variable {s : State} (hs : s.env.script = [])
include hs

theorem quiet_poll (m : Word) : (feGetIrq m s).2.env.script = [] := by simp [hs]

theorem quiet_answer (m : Word) : (feGetIrq m s).1 = pendingIn m s := by rw [feGetIrq_quiet hs]

theorem txWaitGt_waits (hx : s.txrxState = .txWaitGt) (hgt : s.sw.gt = true) (he : s.env.swGt.expired = false) :
    txWaitGt s = .ok s ∧ Waiting s := by
  refine ⟨?_, hs, by rw [hx]; exact ⟨hgt, he⟩⟩
  simp [txWaitGt, hgt, swExpired_quiet hs, swClock, he]

theorem txWaitFdt_waits (hx : s.txrxState = .txWaitFdt) (hm : isActive s.mode = false) (hf : s.timing.fdtPoll ≠ 0#32)
    (hr : s.env.fe.gpt.state = .running) : ∃ t, txWaitFdt s = .ok t ∧ Waiting t := by
  refine ⟨emit (.feTimerCheck .gpt .running) s, ?_, by simpa using hs, by simpa [hx] using ⟨hm, hf, hr⟩⟩
  simp [txWaitFdt, hm, hf, feTimerCheck_quiet hs, hwClock, hr]

theorem txWaitWl_waits (hx : s.txrxState = .txWaitWl) (hp : pendingIn (irqWL ||| irqTXE) s = 0) :
    ∃ t, txWaitWl s = .ok t ∧ Waiting t :=
  ⟨_, if_pos ((quiet_answer hs _).trans hp), quiet_poll hs _, by simp [hx]⟩

theorem txWaitTxe_waits (hx : s.txrxState = .txWaitTxe) (hp : has (pendingIn (irqWL ||| irqTXE) s) irqTXE = false) :
    ∃ t, txWaitTxe s = .ok t ∧ Waiting t := by
  rw [← quiet_answer hs] at hp
  exact ⟨_, if_neg (Bool.eq_false_iff.1 hp), quiet_poll hs _, by simp [hx]⟩

theorem rxWaitEon_waits (hx : s.txrxState = .rxWaitEon) (heon : has (pendingIn (irqEON ||| irqNRE) s) irqEON = false)
    (hnre : has (pendingIn (irqEON ||| irqNRE) s) irqNRE = false)
    (hap : s.sw.apFwt = true → s.env.swApFwt.expired = false) : ∃ t, rxWaitEon s = .ok t ∧ Waiting t := by
  have hclock : (feGetIrq (irqEON ||| irqNRE) s).2.env.swApFwt = s.env.swApFwt := by simp [feGetIrq_quiet hs]
  refine ⟨(feGetIrq (irqEON ||| irqNRE) s).2, ?_, quiet_poll hs _, by simpa [hx, hclock] using hap⟩
  rw [← quiet_answer hs] at heon hnre
  simp only [rxWaitEon, heon, hnre, Bool.false_eq_true, if_false, swExpired_quiet (quiet_poll hs _), swClock, hclock,
    feGetIrq_fields]
  cases ha : s.sw.apFwt with
  | false => simp
  | true => simp [hap ha]

theorem rxWaitRxs_waits (hx : s.txrxState = .rxWaitRxs)
    (hp : pendingIn (irqRXS ||| irqNRE ||| eofIfActive s.mode) s = 0) : ∃ t, rxWaitRxs s = .ok t ∧ Waiting t :=
  ⟨_, if_pos ((quiet_answer hs _).trans hp), quiet_poll hs _, by simp [hx]⟩

theorem rxWaitRxe_waits (hx : s.txrxState = .rxWaitRxe) (heof : s.eofSeen = false)
    (hguard : s.env.swRxeGuard.expired = false)
    (hp : ∀ f ∈ [irqRXE, irqWL, irqEOF], has (pendingIn (irqRXE ||| irqWL ||| eofIfActive s.mode) s) f = false) :
    ∃ t, rxWaitRxe s = .ok t ∧ Waiting t := by
  have hclock (m : Word) : (feGetIrq m s).2.env.swRxeGuard = s.env.swRxeGuard := by simp [feGetIrq_quiet hs]
  refine ⟨(feGetIrq (irqRXE ||| irqWL ||| eofIfActive s.mode) s).2, ?_, quiet_poll hs _,
    by simpa [hx, hclock] using ⟨heof, hguard⟩⟩
  simp only [← quiet_answer hs, List.forall_mem_cons] at hp
  obtain ⟨hrxe, hwl, heofp, -⟩ := hp
  simp [rxWaitRxe, hrxe, hwl, heofp, heof, swExpired_quiet (quiet_poll hs _), swClock, hclock, hguard]

theorem rxWaitEof_waits (hx : s.txrxState = .rxWaitEof) (he : s.eofSeen = false)
    (hp : has (pendingIn irqEOF s) irqEOF = false) : ∃ t, rxWaitEof s = .ok t ∧ Waiting t := by
  rw [← quiet_answer hs] at hp
  exact ⟨(feGetIrq irqEOF s).2, by simp [rxWaitEof, he, hp], quiet_poll hs _, by simp [hx, he]⟩

end

/-- A state that waits does so after one more step. -/
theorem txrxStep_waiting {s : State} (h : Waiting s) : ∃ t, txrxStep s = .ok t ∧ Waiting t := by
  obtain ⟨hs, hw⟩ := h
  unfold txrxStep
  cases hx : s.txrxState <;> rw [hx] at hw
  case txWaitGt =>
    obtain ⟨hgt, he⟩ := hw
    exact ⟨s, txWaitGt_waits hs hx hgt he⟩
  case txWaitFdt =>
    obtain ⟨hm, hf, hr⟩ := hw
    exact txWaitFdt_waits hs hx hm hf hr
  case txWaitWl => exact txWaitWl_waits hs hx hw
  case txWaitTxe => exact txWaitTxe_waits hs hx hw
  case rxWaitEon =>
    obtain ⟨heon, hnre, hap⟩ := hw
    exact rxWaitEon_waits hs hx heon hnre hap
  case rxWaitRxs => exact rxWaitRxs_waits hs hx hw
  case rxWaitRxe =>
    obtain ⟨heof, hguard, hp⟩ := hw
    exact rxWaitRxe_waits hs hx heof hguard hp
  case rxWaitEof =>
    obtain ⟨he, hp⟩ := hw
    exact rxWaitEof_waits hs hx he hp
  all_goals exact hw.elim

/-- Such a state is not at rest, and a spin from it never ends. -/
theorem spinExchange_waiting {s : State} (h : Waiting s) (n : Nat) : spinExchange n s = .error .spinNeverEnds := by
  have hi {u : State} (hu : Waiting u) : u.txrxState ≠ .idle := fun hidle => by
    obtain ⟨-, hw⟩ := hu
    rw [hidle] at hw
    exact hw
  induction n generalizing s with
  | zero => exact if_neg (hi h)
  | succ n ih =>
    obtain ⟨t, ht, hw⟩ := txrxStep_waiting h
    rw [spinExchange_succ (hi h), ht]
    exact ih hw

/-! ## Every other step advances -/

theorem spinMeasure_of_txrxState {s : State} {x : TxrxState} (h : s.txrxState = x) :
    spinMeasure s = stage x + budget s.env := by rw [spinMeasure, h]

/-- A step from `s` to `t` does not lead away from the end, and leads nearer to it unless `s` waits. -/
def Advances (s t : State) : Prop := spinMeasure t ≤ spinMeasure s ∧ (Waiting s ∨ spinMeasure t < spinMeasure s)

theorem Advances.of_lt {s t : State} (h : spinMeasure t < spinMeasure s) : Advances s t := ⟨h.le, .inr h⟩

/-- A step that stays in its state either has a turn of the environment left to take or waits. -/
theorem Advances.stay {s t : State} (hx : t.txrxState = s.txrxState) (hle : budget t.env ≤ budget s.env)
    (hlt : s.env.script ≠ [] → budget t.env < budget s.env) (hw : s.env.script = [] → Waiting s) : Advances s t := by
  unfold Advances spinMeasure
  rw [hx]
  refine ⟨by omega, ?_⟩
  by_cases hs : s.env.script = []
  · exact .inl (hw hs)
  · exact .inr (by have := hlt hs; omega)

/-- A poll that stays in its state. -/
theorem Advances.poll {s : State} (m : Word) (hw : s.env.script = [] → Waiting s) : Advances s (feGetIrq m s).2 :=
  .stay (by simp) (feGetIrq_budget m s) (fun hs => feGetIrq_budget_lt hs m) hw

/-- A poll and then a question for a software timer that stay in their state. -/
theorem Advances.pollAndAsk {s u : State} {m : Word} (hu : u.env = (feGetIrq m s).2.env) (hx : u.txrxState = s.txrxState)
    (t : SwTimer) (hw : s.env.script = [] → Waiting s) : Advances s (swExpired t u).2 := by
  have hle : budget (swExpired t u).2.env ≤ budget (feGetIrq m s).2.env := hu ▸ budget_atCall_le u
  exact .stay (by simpa using hx) (hle.trans (feGetIrq_budget m s)) (fun hs => hle.trans_lt (feGetIrq_budget_lt hs m)) hw

/-- What `s` reaches is nearer to the end than a measure of `n`. -/
def Under (n : Nat) (t : State) : Prop := spinMeasure t < n

theorem under_of_stage {n k : Nat} {t : State} (hx : stage t.txrxState ≤ k) (h : budget t.env + k < n) : Under n t := by
  unfold Under spinMeasure
  omega

theorem Advances.of_under {s : State} {r : Run} (h : Answers (Under (spinMeasure s)) r) : Answers (Advances s) r :=
  h.mono fun _ ht => .of_lt ht

/-- What advances from a state under `n` is under `n`. -/
theorem Under.of_advances {n : Nat} {u : State} {r : Run} (hu : Under n u) (h : Answers (Advances u) r) :
    Answers (Under n) r := h.mono fun _ ht => ht.1.trans_lt hu

theorem Under.endExchange {n : Nat} {s : State} (h : budget s.env < n) (e : Status) : Under n (endExchange e s) := by
  have := endExchange_budget e s
  exact under_of_stage (k := 0) (by simp [stage]) (by omega)

/-! ## The tx-phase -/

theorem txFailWith_under {n : Nat} {s : State} (h : budget s.env < n) (e : Status) :
    Answers (Under n) (txFailWith e s) := .ok (Under.endExchange (by exact h) _)

/-- The reception is yet to come, or there is none (R138). -/
theorem txDone_under {n : Nat} {s : State} (h : budget s.env + 4 < n) : Answers (Under n) (txDone s) := by
  unfold txDone
  split
  · exact .ok (Under.endExchange (by omega) _)
  · exact .ok (under_of_stage (k := 4) le_rfl h)

theorem txWaitTxe_advances {s : State} (hx : s.txrxState = .txWaitTxe) : Answers (Advances s) (txWaitTxe s) := by
  have hle := feGetIrq_budget (irqWL ||| irqTXE) s
  have hm : spinMeasure s = 6 + budget s.env := spinMeasure_of_txrxState hx
  unfold txWaitTxe
  dsimp only
  split
  · exact Advances.of_under (txDone_under (show _ + 4 < _ by dsimp only; omega))
  · next hp => exact .ok (.poll _ fun hs => ⟨hs, by
      rw [hx, ← quiet_answer hs]
      exact Bool.eq_false_iff.2 hp⟩)

theorem txHandOver_budget (k : Nat) (s : State) : Answers (fun t => budget t.env ≤ budget s.env) (txHandOver k s) := by
  unfold txHandOver
  refine (answers_true _).bind fun bytes _ => (feFifoWrite_budget bytes s).bind fun t ht => ?_
  exact (answers_true _).bind fun w _ => .ok ht

theorem txAfterHandOver_under {n : Nat} {s : State} (h : budget s.env + 7 < n) : Under n (txAfterHandOver s) := by
  refine under_of_stage (k := 7) ?_ h
  unfold txAfterHandOver
  dsimp only
  split <;> decide

/-- Back to `TX_WAIT_WL` at the most (R136). -/
theorem txReloadFifo_under {n : Nat} {s : State} (h : budget s.env + 7 < n) : Answers (Under n) (txReloadFifo s) := by
  unfold txReloadFifo
  exact (txHandOver_budget _ s).bind fun t ht => .ok (txAfterHandOver_under (by omega))

theorem txWaitWl_advances {s : State} (hx : s.txrxState = .txWaitWl) : Answers (Advances s) (txWaitWl s) := by
  have hle := feGetIrq_budget (irqWL ||| irqTXE) s
  have hm : spinMeasure s = 7 + budget s.env := spinMeasure_of_txrxState hx
  unfold txWaitWl
  dsimp only
  split
  · next hp => exact .ok (.poll _ fun hs => ⟨hs, by rw [hx]; exact (quiet_answer hs _).symm.trans hp⟩)
  · split
    · next hp =>
      have hlt := feGetIrq_budget_lt_of_flag (.inl (Bool.and_eq_true_iff.1 hp).1)
      exact Advances.of_under (txReloadFifo_under (show _ + 7 < _ by dsimp only; omega))
    · exact Advances.of_under (txFailWith_under (by omega) _)

theorem txFire_under {n : Nat} {s : State} (h : budget s.env + 7 < n) (total bits : Nat) (c : Bool) :
    Answers (Under n) (txFire total bits c s) := by
  unfold txFire
  refine (answers_true _).bind fun l _ => (txHandOver_budget _ _).bind fun t ht => .ok (txAfterHandOver_under ?_)
  have hcfg := feConfig_budget (.txLengthBits bits) { s with fifo := ⟨l, 0, s.params.fifoTxRefill⟩ }
  have hcmd := feCmd_budget (if c then .txWithCrc else .txWithoutCrc) t
  dsimp only at hcfg
  omega

theorem txTransmitNfcv_under {n : Nat} {s : State} (h : budget s.env + 7 < n) : Answers (Under n) (txTransmitNfcv s) := by
  unfold txTransmitNfcv
  refine (answers_true _).bind fun payload _ => ?_
  dsimp only
  split
  · exact txFailWith_under (by omega) _
  · refine Answers.bind (P := fun t => t.env = s.env) ?_ fun t ht => txFire_under (by rw [ht]; exact h) _ _ _
    intro t ht
    obtain ⟨-, rfl⟩ := scratchWrite_spec ht
    rfl

theorem txTransmit_under {n : Nat} {s : State} (h : budget s.env + 7 < n) : Answers (Under n) (txTransmit s) := by
  have hle := feCmd_budget .clearFifo (emit .preTxRx s)
  rw [emit_budget] at hle
  unfold txTransmit
  dsimp only
  split
  · exact txTransmitNfcv_under (by omega)
  · exact txFire_under (by omega) _ _ _

theorem txWaitFdt_advances {s : State} (hx : s.txrxState = .txWaitFdt) : Answers (Advances s) (txWaitFdt s) := by
  have hm : spinMeasure s = 9 + budget s.env := spinMeasure_of_txrxState hx
  have hle : budget (feTimerCheck .gpt s).2.env ≤ budget s.env := (emit_budget _ _).trans_le (budget_atCall_le s)
  unfold txWaitFdt
  dsimp only
  split
  · exact Advances.of_under (txTransmit_under (show _ + 7 < _ by dsimp only; omega))
  · next hf =>
    split
    · next hr =>
      refine .ok (.stay (by simp) hle (fun hs => (emit_budget _ _).trans_lt (budget_atCall_lt hs)) fun hs => ⟨hs, ?_⟩)
      rw [feTimerCheck_quiet hs] at hr
      rw [hx]
      simp only [Bool.or_eq_true, not_or, Bool.not_eq_true, beq_iff_eq] at hf
      exact ⟨hf.1, hf.2, hr⟩
    · exact Advances.of_under (txTransmit_under (show _ + 7 < _ by dsimp only; omega))

theorem txWaitGt_advances {s : State} (hx : s.txrxState = .txWaitGt) : Answers (Advances s) (txWaitGt s) := by
  have hm : spinMeasure s = 10 + budget s.env := spinMeasure_of_txrxState hx
  have hle : budget (swExpired .gt s).2.env ≤ budget s.env := budget_atCall_le s
  have next {u : State} (hu : budget u.env ≤ budget s.env) :
      Answers (Advances s) (txWaitFdt { u with txrxState := .txWaitFdt }) := by
    refine Advances.of_under (Under.of_advances ?_ (txWaitFdt_advances rfl))
    exact under_of_stage (k := 9) le_rfl (by dsimp only; omega)
  unfold txWaitGt
  dsimp only
  split
  · next hgt =>
    split
    · exact next (by simpa using hle)
    · next he =>
      refine .ok (.stay (by simp) hle budget_atCall_lt fun hs => ⟨hs, ?_⟩)
      rw [swExpired_quiet hs] at he
      rw [hx]
      exact ⟨hgt, Bool.eq_false_iff.2 he⟩
  · exact next (by simp)

/-- A step from the tx-phase. -/
theorem txrxStep_advances_tx {s : State} (hs : txPhase s.txrxState = true) : Answers (Advances s) (txrxStep s) := by
  have hm : spinMeasure s = stage s.txrxState + budget s.env := rfl
  unfold txrxStep
  cases hx : s.txrxState with
  | txIdle =>
    refine Advances.of_under (Under.of_advances ?_ (txWaitGt_advances rfl))
    exact under_of_stage (k := 10) le_rfl (by simp only [hm, hx, stage]; omega)
  | txWaitGt => exact txWaitGt_advances hx
  | txWaitFdt => exact txWaitFdt_advances hx
  | txTransmit => exact Advances.of_under (txTransmit_under (by simp only [hm, hx, stage]; omega))
  | txWaitWl => exact txWaitWl_advances hx
  | txReloadFifo => exact Advances.of_under (txReloadFifo_under (by simp only [hm, hx, stage]; omega))
  | txWaitTxe => exact txWaitTxe_advances hx
  | txDone => exact Advances.of_under (txDone_under (by simp only [hm, hx, stage]; omega))
  | txFail => exact .ok (.of_lt (Under.endExchange (by simp only [hm, hx, stage]; omega) _))
  | _ => rw [hx] at hs; exact absurd hs (by decide)

/-! ## The rx-phase -/

theorem rxFail_under {n : Nat} {s : State} (h : budget s.env < n) : Answers (Under n) (rxFail s) :=
  .ok (Under.endExchange h _)

theorem rxDone_under {n : Nat} {s : State} (h : budget s.env < n) : Answers (Under n) (rxDone s) :=
  .ok (Under.endExchange h _)

theorem rxFailWith_under {n : Nat} {s : State} (h : budget s.env < n) (e : Status) : Answers (Under n) (rxFailWith e s) :=
  (answers_true _).bind fun _ _ => rxFail_under (by exact h)

theorem rxWaitEof_advances {s : State} (hx : s.txrxState = .rxWaitEof) : Answers (Advances s) (rxWaitEof s) := by
  have hle := feGetIrq_budget irqEOF s
  have hm : spinMeasure s = 1 + budget s.env := spinMeasure_of_txrxState hx
  unfold rxWaitEof
  dsimp only
  split
  · exact Advances.of_under (rxDone_under (show _ < _ by dsimp only; omega))
  · next he =>
    split
    · exact Advances.of_under (rxDone_under (show _ < _ by dsimp only; omega))
    · next hp =>
      exact .ok (.poll _ fun hs => ⟨hs, by
        rw [quiet_answer hs] at hp
        rw [hx]
        exact ⟨Bool.eq_false_iff.2 he, Bool.eq_false_iff.2 hp⟩⟩)

theorem rxDeliver_env (i : Nat) (bytes : List Byte) (s : State) :
    Answers (fun t => t.env = s.env) (rxDeliver i bytes s) := by
  intro t h
  unfold rxDeliver at h
  split at h
  · obtain ⟨-, rfl⟩ := scratchWrite_spec h
    rfl
  · obtain ⟨-, rfl⟩ := bufWrite_spec h
    rfl

theorem rxCopy_budget (k : Nat) (s : State) : Answers (fun t => budget t.env ≤ budget s.env) (rxCopy k s) := by
  unfold rxCopy
  refine (feFifoRead_budget k s).bind fun r hr => (rxDeliver_env _ r.1 r.2).bind fun t ht => ?_
  exact (answers_true _).bind fun w _ => .ok (show budget t.env ≤ _ by rwa [ht])

theorem nfcvDecodeStep_env (s : State) : Answers (fun t => t.env = s.env) (nfcvDecodeStep s) := by
  unfold nfcvDecodeStep
  refine (answers_true _).bind fun raw _ => Answers.bind (P := fun t => t.env = s.env) ?_ fun t ht => ?_
  · intro t ht
    obtain ⟨-, rfl⟩ := bufWrite_spec ht
    rfl
  · exact (answers_true _).bind fun l _ => .ok ht

theorem rxAfterData_under {n : Nat} {s : State} (h : budget s.env + 1 < n) : Answers (Under n) (rxAfterData s) := by
  unfold rxAfterData
  split
  · exact rxFail_under (show budget s.env < n by omega)
  · split
    · have hu : Under n { s with txrxState := .rxWaitEof } := under_of_stage (k := 1) le_rfl h
      exact hu.of_advances (rxWaitEof_advances rfl)
    · exact rxDone_under (show budget s.env < n by omega)

theorem rxReadData_under {n : Nat} {s : State} (h : budget s.env + 1 < n) : Answers (Under n) (rxReadData s) := by
  have hle := fifoStatus_budget s
  unfold rxReadData
  refine (rxCopy_budget _ _).bind fun t ht => (answers_true _).bind fun total _ => (answers_true _).bind fun len _ => ?_
  dsimp only
  split
  · refine (nfcvDecodeStep_env _).bind fun u hu => rxAfterData_under ?_
    rw [hu]
    show budget t.env + 1 < n
    omega
  · exact rxAfterData_under (show budget t.env + 1 < n by omega)

theorem rxShortReply_under {n : Nat} {s : State} (h : budget s.env < n) : Answers (Under n) (rxShortReply s) := by
  unfold rxShortReply
  refine (feFifoRead_budget _ s).bind fun r hr => (rxDeliver_env _ r.1 r.2).bind fun t ht => rxFail_under ?_
  show budget t.env < n
  rw [ht]
  omega

/-- The reception starts over (R183). -/
theorem discardAndRearm_under {n : Nat} {s : State} (h : budget s.env + 2 < n) : Under n (discardAndRearm s) := by
  refine under_of_stage (k := 2) (by simp [stage]) ?_
  have hle : budget (discardAndRearm s).env ≤ budget s.env := (feCmd_budget _ _).trans (feCmd_budget _ s)
  omega

theorem rxOnVerdict_under {n : Nat} {s : State} (h : budget s.env + 2 < n) (v : Verdict) :
    Answers (Under n) (rxOnVerdict v s) := by
  cases v with
  | nfcaIncomplete => exact rxShortReply_under (by omega)
  | noError => exact rxReadData_under (show budget s.env + 1 < n by omega)
  | error e =>
    unfold rxOnVerdict
    dsimp only
    split
    · exact .ok (discardAndRearm_under h)
    · exact rxReadData_under (show budget s.env + 1 < n by omega)

/-- Back to `RX_WAIT_RXS` at the most, where the EMVCo policy discards the frame (R159, R183). -/
theorem rxErrCheck_under {n : Nat} {s : State} (h : budget s.env + 2 < n) : Answers (Under n) (rxErrCheck s) := by
  refine rxOnVerdict_under ?_ _
  have hle : budget (fifoStatus (feGetIrq errIrqs (cacheInvalidate s)).2).env ≤ budget s.env :=
    (fifoStatus_budget _).trans (feGetIrq_budget errIrqs (cacheInvalidate s))
  omega

theorem rxBeyondCapacity_under {n : Nat} {s : State} (h : budget s.env + 1 < n) :
    Answers (Under n) (rxBeyondCapacity s) := by
  unfold rxBeyondCapacity
  split
  · exact (nfcvDecodeStep_env _).bind fun u hu => rxAfterData_under (by rw [hu]; exact h)
  · exact rxFailWith_under (by omega) _

/-- Back to `RX_WAIT_RXE` at the most (R156). -/
theorem rxReadFifo_under {n : Nat} {s : State} (h : budget s.env + 2 < n) : Answers (Under n) (rxReadFifo s) := by
  have hle : budget (fifoStatus (cacheInvalidate s)).env ≤ budget s.env := fifoStatus_budget (cacheInvalidate s)
  unfold rxReadFifo
  refine (answers_true _).bind fun total _ => (rxCopy_budget _ _).bind fun t ht => ?_
  dsimp only at ht
  split
  · exact rxBeyondCapacity_under (by omega)
  · exact .ok (under_of_stage (k := 2) le_rfl (show budget t.env + 2 < n by omega))

/-- A poll that found `EOF` is remembered, and nothing else changes (R157). -/
theorem rememberEof_spec (r : Word × State) :
    let u := if has r.1 irqEOF then { r.2 with eofSeen := true } else r.2
    u.env = r.2.env ∧ u.txrxState = r.2.txrxState ∧ (u.eofSeen = false → has r.1 irqEOF = false ∧ r.2.eofSeen = false) := by
  cases hp : has r.1 irqEOF <;> simp

theorem rxWaitRxe_advances {s : State} (hx : s.txrxState = .rxWaitRxe) : Answers (Advances s) (rxWaitRxe s) := by
  have hm : spinMeasure s = 2 + budget s.env := spinMeasure_of_txrxState hx
  have hspec := rememberEof_spec (feGetIrq (irqRXE ||| irqWL ||| eofIfActive s.mode) s)
  have hle := feGetIrq_budget (irqRXE ||| irqWL ||| eofIfActive s.mode) s
  unfold rxWaitRxe
  dsimp only at hspec ⊢
  generalize (if has (feGetIrq (irqRXE ||| irqWL ||| eofIfActive s.mode) s).1 irqEOF then
    { (feGetIrq (irqRXE ||| irqWL ||| eofIfActive s.mode) s).2 with eofSeen := true }
    else (feGetIrq (irqRXE ||| irqWL ||| eofIfActive s.mode) s).2) = u at hspec ⊢
  obtain ⟨hu, hux, heof⟩ := hspec
  have hub := congrArg budget hu
  split
  · next hp =>
    have hlt := feGetIrq_budget_lt_of_flag (.inr (.inl hp))
    exact Advances.of_under (rxErrCheck_under (show budget u.env + 2 < _ by omega))
  · next hrxe =>
    split
    · exact Advances.of_under (rxFailWith_under (by omega) _)
    · next he =>
      split
      · next hp =>
        have hlt := feGetIrq_budget_lt_of_flag (.inl hp)
        exact Advances.of_under (rxReadFifo_under (show budget u.env + 2 < _ by omega))
      · next hwl =>
        have hask : budget (swExpired .rxeGuard u).2.env ≤ budget u.env := budget_atCall_le u
        split
        · exact Advances.of_under (rxFailWith_under (by omega) _)
        · next hguard =>
          refine .ok (.pollAndAsk hu (hux.trans (by simp)) _ fun hs => ⟨hs, ?_⟩)
          have hus : u.env.script = [] := by rw [hu]; exact quiet_poll hs _
          rw [swExpired_quiet hus, swClock, hu, feGetIrq_quiet hs] at hguard
          obtain ⟨heofp, heofs⟩ := heof (Bool.eq_false_iff.2 he)
          rw [hx]
          simp only [← quiet_answer hs, List.forall_mem_cons]
          simp only [Bool.not_eq_true] at hrxe hwl hguard
          exact ⟨by simpa using heofs, by simpa using hguard, hrxe, hwl, heofp, by simp⟩

theorem rxWaitRxs_advances {s : State} (hx : s.txrxState = .rxWaitRxs) : Answers (Advances s) (rxWaitRxs s) := by
  have hm : spinMeasure s = 2 + budget s.env := spinMeasure_of_txrxState hx
  have hle := feGetIrq_budget (irqRXS ||| irqNRE ||| eofIfActive s.mode) s
  unfold rxWaitRxs
  dsimp only
  split
  · next hp => exact .ok (.poll _ fun hs => ⟨hs, by rw [hx]; exact (quiet_answer hs _).symm.trans hp⟩)
  · split
    · next hp =>
      have hlt := feGetIrq_budget_lt_of_flag (.inr (.inr hp))
      refine Advances.of_under (Under.of_advances ?_ (rxWaitRxe_advances rfl))
      exact under_of_stage (k := 2) le_rfl (by simp only [swArm_budget]; omega)
    · split
      · exact Advances.of_under (rxFailWith_under (by omega) _)
      · exact Advances.of_under (rxFailWith_under (by omega) _)

theorem rxWaitEon_advances {s : State} (hx : s.txrxState = .rxWaitEon) : Answers (Advances s) (rxWaitEon s) := by
  have hm : spinMeasure s = 3 + budget s.env := spinMeasure_of_txrxState hx
  have hle := feGetIrq_budget (irqEON ||| irqNRE) s
  have hle' : budget (swExpired .apFwt (feGetIrq (irqEON ||| irqNRE) s).2).2.env ≤ budget s.env :=
    (budget_atCall_le _).trans hle
  unfold rxWaitEon
  dsimp only
  split
  · exact .ok (.of_lt (under_of_stage (k := 2) le_rfl (by dsimp only; omega)))
  · next heon =>
    split
    · exact Advances.of_under (rxFailWith_under (by omega) _)
    · next hnre =>
      have hwait (hs : s.env.script = []) (hap : s.sw.apFwt = true → s.env.swApFwt.expired = false) : Waiting s := by
        refine ⟨hs, ?_⟩
        rw [hx]
        rw [quiet_answer hs] at heon hnre
        exact ⟨Bool.eq_false_iff.2 heon, Bool.eq_false_iff.2 hnre, hap⟩
      split
      · split
        · exact Advances.of_under (rxFailWith_under (by omega) _)
        · next hap =>
          refine .ok (.pollAndAsk rfl (by simp) _ fun hs => hwait hs fun _ => ?_)
          rw [swExpired_quiet (quiet_poll hs _), swClock, feGetIrq_quiet hs] at hap
          simpa using hap
      · next hap => exact .ok (.poll _ fun hs => hwait hs fun h => absurd (by simpa using h) hap)

theorem rxIdleReset_budget (s : State) : budget (rxIdleReset s).env = budget s.env := by
  unfold rxIdleReset cacheInvalidate
  dsimp only
  split <;> simp

theorem rxIdleTimers_budget (s : State) : budget (rxIdleTimers s).env ≤ budget s.env := by
  unfold rxIdleTimers
  split
  · split
    · exact le_rfl
    · exact (swArm_budget _ _ _).le
  · split
    · exact le_rfl
    · exact feTimerStart_budget _ _ s

theorem rxIdle_under {n : Nat} {s : State} (h : budget s.env + 3 < n) : Answers (Under n) (rxIdle s) := by
  have hcmd := (feCmd_budget .unmaskRx _).trans (feCmd_budget .clearFifo (rxIdleReset s))
  have hreset := rxIdleReset_budget s
  unfold rxIdle
  refine .ok (under_of_stage (k := 3) ?_ ?_)
  · dsimp only
    split <;> split <;> decide
  · refine Nat.lt_of_le_of_lt (Nat.add_le_add_right (rxIdleTimers_budget _) 3) ?_
    split <;> omega

/-- A step from the rx-phase. -/
theorem txrxStep_advances_rx {s : State} (hs : rxPhase s.txrxState = true) : Answers (Advances s) (txrxStep s) := by
  have hm : spinMeasure s = stage s.txrxState + budget s.env := rfl
  unfold txrxStep
  cases hx : s.txrxState with
  | rxIdle => exact Advances.of_under (rxIdle_under (by simp only [hm, hx, stage]; omega))
  | rxWaitEon => exact rxWaitEon_advances hx
  | rxWaitRxs => exact rxWaitRxs_advances hx
  | rxWaitRxe => exact rxWaitRxe_advances hx
  | rxReadFifo => exact Advances.of_under (rxReadFifo_under (by simp only [hm, hx, stage]; omega))
  | rxErrCheck => exact Advances.of_under (rxErrCheck_under (by simp only [hm, hx, stage]; omega))
  | rxReadData => exact Advances.of_under (rxReadData_under (by simp only [hm, hx, stage]; omega))
  | rxWaitEof => exact rxWaitEof_advances hx
  | rxDone => exact Advances.of_under (rxDone_under (by simp only [hm, hx, stage]; omega))
  | rxFail => exact Advances.of_under (rxFail_under (by simp only [hm, hx, stage]; omega))
  | _ => rw [hx] at hs; exact absurd hs (by decide)

/-- A step of an exchange advances. -/
theorem txrxStep_advances {s : State} (h : s.txrxState ≠ .idle) : Answers (Advances s) (txrxStep s) := by
  rcases txrxState_groups s.txrxState with hi | ht | hr
  · exact absurd hi h
  · exact txrxStep_advances_tx ht
  · exact txrxStep_advances_rx hr

/-! ## Enough steps for the spin of an exchange -/

/-- Only at rest is no step left to take. -/
theorem spinMeasure_pos {s : State} (h : s.txrxState ≠ .idle) : 0 < spinMeasure s := by
  unfold spinMeasure
  revert h
  cases s.txrxState <;> simp [stage]

theorem spinMeasure_le_spinSteps (s : State) : spinMeasure s ≤ spinSteps s := by
  have hstage : stage s.txrxState ≤ 11 := by cases s.txrxState <;> decide
  have := returns_le s.env.fe.irqPending
  unfold spinMeasure budget spinSteps
  split <;> omega

/-- A spin that has used up its measure and not ended never ends. -/
theorem spinExchange_enough {n : Nat} {s : State} (hn : spinMeasure s ≤ n)
    (h : spinExchange n s = .error .spinNeverEnds) (k : Nat) : spinExchange (n + k) s = .error .spinNeverEnds := by
  induction n generalizing s with
  | zero =>
    have hi : s.txrxState = .idle := by
      by_contra hi
      have := spinMeasure_pos hi
      omega
    rw [spinExchange_of_idle hi] at h
    cases h
  | succ n ih =>
    by_cases hi : s.txrxState = .idle
    · rw [spinExchange_of_idle hi] at h
      cases h
    rw [Nat.add_right_comm]
    rw [spinExchange_succ hi] at h ⊢
    cases hstep : txrxStep s with
    | error f =>
      rw [hstep] at h
      exact h
    | ok t =>
      rw [hstep] at h
      obtain ⟨-, hw | hlt⟩ := txrxStep_advances hi t hstep
      · obtain ⟨u, hu, hwu⟩ := txrxStep_waiting hw
        cases hu.symm.trans hstep
        exact spinExchange_waiting hwu _
      · exact ih (by omega) h

/-- Settles O60: the steps the model gives are as many as the measure of the state, at the least. -/
theorem spinStepsAreEnough : Obligations.SpinStepsAreEnough :=
  ⟨fun k s h => spinExchange_enough (spinMeasure_le_spinSteps s) h k,
    fun k _ h => spinCollisionAvoidance_enough (Nat.lt_succ_self _) h (_ + k)⟩

end Sys2Proof.Machine

/-! # Transceive control (`41_transceive_control.md`)

What an operation answers before it starts an exchange, and what START_TRANSCEIVE leaves once it has started one. -/

namespace Sys2Proof.Machine

/-! ## WORKER with nothing to do, GET_STATUS (R115, R117) -/

theorem exec_worker_of_skip {s : State} (h : workerStep s = .ok s) : exec .worker s = .next { s with result := .none } := by
  simp only [exec, execWorker, h, andThen, finish]

/-- Settles O30: in each of the cases the step of the current machine answers the state it was given. -/
theorem workerSkipsWithNothingActive : Obligations.WorkerSkipsWithNothingActive := by
  intro s h
  apply exec_worker_of_skip
  rcases h with htop | ⟨htop, hx⟩ | ⟨htop, hl⟩ | ⟨htop, hl, hd⟩ | ⟨htop, hw⟩
  · simp only [List.mem_cons, List.not_mem_nil, or_false] at htop
    rcases htop with htop | htop | htop <;> simp only [workerStep, htop]
  · simp only [workerStep, htop, txrxStep_of_idle hx]
  · simp only [workerStep, htop, listenStep]
    cases hs : s.lmState <;> simp [hs] at hl ⊢
  · simp only [workerStep, htop, listenStep, hl, lmIdle, hd, if_true]
  · simp only [workerStep, htop, wakeUpStep]
    cases hs : s.wuState <;> simp [hs] at hw ⊢

theorem statusValue_of_idle {s : State} (h : s.txrxState = .idle) : statusValue s = s.status := if_pos h

theorem statusValue_of_running {s : State} (h : s.txrxState ≠ .idle) : statusValue s = .busy := if_neg h

/-- Settles O31: the operation and the register both give `statusValue`. -/
theorem getStatusReturnsStatus : Obligations.GetStatusReturnsStatus := by
  refine ⟨fun a => decodeInvertsEncode .getStatus a rfl, fun s => ⟨s.rxRcvdLen.setWidth 32, ?_, fun hx => ?_, fun hx => ?_⟩⟩
  · rw [BitVec.toNat_setWidth_of_le (by decide)]
  all_goals simp only [exec, execGetStatus, registerValue, statusValue_of_idle, statusValue_of_running, hx, ne_eq,
    not_false_eq_true, finish, and_self]

/-! ## START_TRANSCEIVE refused (R110) -/

section
variable {s : State} {tx rx : Word} {txLen rxLen : Len}

/-- The tx buffer is absent (R110). -/
theorem txBuffer_absent_iff : (tx = nullAddr ∨ txLen = 0) ↔ ¬ (tx ≠ 0 ∧ txLen ≠ 0) := by
  rw [not_and_or, not_not, not_not]
  rfl

theorem startError_unready (h : ¬ (s.topState ∉ [TopState.notInit, .init] ∧ s.txrxState = .idle)) :
    startError tx txLen rx rxLen s = some .wrongState := by
  simp only [startError, below_modeSet_iff]
  by_cases htop : s.topState ∈ [TopState.notInit, .init]
  · rw [if_pos htop]
  · rw [if_neg htop, if_pos fun hi => h ⟨htop, hi⟩]

/-- The buffers an exchange may start on (R110, R51): one is present, and each is absent or in bounds. -/
def legalBuffers (p : Params) (tx : Word) (txLen : Len) (rx : Word) (rxLen : Len) : Prop :=
  (tx ≠ 0 ∧ txLen ≠ 0 ∨ rx ≠ 0) ∧ (tx = 0 ∨ inBounds p tx txLen.toNat = true) ∧
    (rx = 0 ∨ inBounds p rx rxLen.toNat = true)

/-- Past the checks of the state come those of the buffers. -/
theorem startError_illegal (htop : s.topState ∉ [TopState.notInit, .init]) (hi : s.txrxState = .idle)
    (hl : ¬ legalBuffers s.params tx txLen rx rxLen) : startError tx txLen rx rxLen s = some .param := by
  simp only [startError, below_modeSet_iff, txBuffer_absent_iff]
  rw [if_neg htop, if_neg (not_not.2 hi)]
  by_cases hone : tx ≠ 0 ∧ txLen ≠ 0 ∨ rx ≠ 0
  · rw [if_neg fun h => hone.elim h.1 fun hr => hr h.2]
    by_cases htx : tx = 0 ∨ inBounds s.params tx txLen.toNat = true
    · have hrx : ¬ (rx = 0 ∨ inBounds s.params rx rxLen.toNat = true) := fun hrx => hl ⟨hone, htx, hrx⟩
      rw [not_or, Bool.not_eq_true] at hrx
      rw [ite_eq_left_iff, if_pos (show rx ≠ nullAddr ∧ _ from hrx)]
      exact fun _ => rfl
    · rw [not_or, Bool.not_eq_true] at htx
      rw [if_pos (show tx ≠ nullAddr ∧ _ from htx)]
  · rw [if_pos ⟨fun h => hone (.inl h), not_not.1 fun h => hone (.inr h)⟩]

/-- With its buffers legal, START_TRANSCEIVE needs a tx buffer, a listen mode or the field on. -/
theorem startError_legal (htop : s.topState ∉ [TopState.notInit, .init]) (hi : s.txrxState = .idle)
    (hl : legalBuffers s.params tx txLen rx rxLen) : startError tx txLen rx rxLen s =
      if ¬ (tx ≠ 0 ∧ txLen ≠ 0) ∧ isListen s.mode = false ∧ s.fieldOn = false then some .wrongState else none := by
  obtain ⟨hone, htx, hrx⟩ := hl
  simp only [startError, below_modeSet_iff, txBuffer_absent_iff]
  rw [if_neg htop, if_neg (not_not.2 hi), if_neg fun h => hone.elim h.1 fun hr => hr h.2,
    if_neg fun h => htx.elim h.1 fun hb => Bool.false_ne_true (h.2.symm.trans hb),
    if_neg fun h => hrx.elim h.1 fun hb => Bool.false_ne_true (h.2.symm.trans hb)]

end

theorem exec_startTransceive_of_error {s : State} {tx rx : Word} {txLen rxLen : Len} {e : Status}
    (h : startError tx txLen rx rxLen s = some e) (flags : BitVec 5) (fwt : Time) :
    exec (.startTransceive tx txLen rx rxLen flags fwt) s = .next { s with result := e } := by
  simp only [exec, execStartTransceive, h, finish]

/-- Settles O29: the checks in the order of R110. -/
theorem startTransceiveRejects : Obligations.StartTransceiveRejects := by
  intro s tx txLen rx rxLen flags fwt ready present legal
  refine ⟨fun h => ?_, fun ⟨htop, hi⟩ hl => ?_, fun ⟨htop, hi⟩ hl hp hm hf => ?_⟩
  · exact exec_startTransceive_of_error (startError_unready h) flags fwt
  · exact exec_startTransceive_of_error (startError_illegal htop hi hl) flags fwt
  · refine exec_startTransceive_of_error ?_ flags fwt
    rw [startError_legal htop hi hl, if_pos ⟨hp, hm, hf⟩]

/-! ## START_TRANSCEIVE accepted (R110 to R112) -/

/-- `ComputeTimers` after the context is loaded (R112). -/
theorem computeTimers_loadExchange (c : Ctx) (s : State) :
    (computeTimers (loadExchange c s)).timing = startTiming s c.fwt := by
  by_cases hn : c.fwt = fwtNone <;> by_cases hd : s.timing.fdtListen = 0#32 <;>
    simp [computeTimers, startTiming, satadd, hn, hd]

/-- The state an exchange starts in, but for what the five calls of `Prepare` leave outside the block (R110). -/
theorem beginExchange_eq (c : Ctx) (s : State) : beginExchange c s = { s with
    ctx := c, status := .busy, topState := .txRx, fifo := ⟨0, 0, 0⟩, cache := { s.cache with valid := false }
    eofSeen := false, rxRcvdLen := 0, sw := { s.sw with rxeGuard := false, apFwt := false }
    timing := startTiming s c.fwt, txrxState := if c.txAbsent then .rxIdle else .txIdle
    env := (beginExchange c s).env } := by
  simp [beginExchange, computeTimers_loadExchange]

/-- The five calls of `Prepare` (R111). -/
theorem prepare_trace (s : State) : (prepare s).env.trace = s.env.trace ++
    [.feGetIrq txrxIrqs (polled txrxIrqs s), .feIrqEnable txrxIrqs, .feConfig (.flags s.ctx.flags),
      if s.timing.nrtDisabled then .feTimerStop .nrt else .feTimerStart .nrt s.timing.nrtValue,
      if s.timing.fdtListen = 0 then .feTimerStop .mrt else .feTimerStart .mrt s.timing.mrtValue] := by
  by_cases hn : s.timing.nrtDisabled = true <;> by_cases hd : s.timing.fdtListen = 0#32 <;>
    simp [prepare, polled, hn, hd]

@[simp] theorem setHwClock_keeps (t : HwTimer) (x : HwClock) (f : FrontEnd) :
    (setHwClock t x f).irqPending = f.irqPending ∧ (setHwClock t x f).irqEnable = f.irqEnable ∧
    (setHwClock t x f).fifo = f.fifo ∧ (setHwClock t x f).incompleteBits = f.incompleteBits ∧
    (setHwClock t x f).missingParity = f.missingParity ∧ (setHwClock t x f).config = f.config ∧
    (setHwClock t x f).collisionBytes = f.collisionBytes ∧ (setHwClock t x f).collisionBits = f.collisionBits := by
  cases t <;> simp [setHwClock]

/-- The front end after a call: what the call found, with its own effect (R236). -/
theorem calls_frontEnd (s : State) :
    (∀ c, (feCmd c s).env.fe = commandEffect c (atCall s).env.fe) ∧
    (∀ c, (feConfig c s).env.fe = { (atCall s).env.fe with config := putSetting c (atCall s).env.fe.config }) ∧
    (∀ m, (feIrqEnable m s).env.fe = { (atCall s).env.fe with irqEnable := (atCall s).env.fe.irqEnable ||| m }) ∧
    (∀ m, (feIrqDisable m s).env.fe = { (atCall s).env.fe with irqEnable := (atCall s).env.fe.irqEnable &&& ~~~m }) ∧
    (∀ m, (feDiscardIrq m s).env.fe = { (atCall s).env.fe with irqPending := (atCall s).env.fe.irqPending &&& ~~~m }) ∧
    (∀ t v, (feTimerStart t v s).env.fe = setHwClock t ⟨.armed, v⟩ (atCall s).env.fe) ∧
    (∀ t, (feTimerStop t s).env.fe =
      setHwClock t { hwClock t (atCall s).env.fe with state := .stopped } (atCall s).env.fe) := by
  simp [feCmd, feConfig, feIrqEnable, feIrqDisable, feDiscardIrq, feTimerStart, feTimerStop]

/-- What `Prepare` leaves of the configuration and of the enabled flags (R111). -/
theorem prepare_frontEnd (s : State) :
    (prepare s).env.fe.config = { s.env.fe.config with flags := some s.ctx.flags } ∧
    (prepare s).env.fe.irqEnable = s.env.fe.irqEnable ||| txrxIrqs := by
  by_cases hn : s.timing.nrtDisabled = true <;> by_cases hd : s.timing.fdtListen = 0#32 <;>
    simp [prepare, hn, hd, calls_frontEnd, putSetting]

/-- The calls with which an exchange begins, in terms of the state in which it is asked for (R111, R112). -/
theorem beginExchange_env (c : Ctx) (s : State) :
    (beginExchange c s).env.trace = s.env.trace ++
      [.feGetIrq txrxIrqs (polled txrxIrqs s), .feIrqEnable txrxIrqs, .feConfig (.flags c.flags),
        if (startTiming s c.fwt).nrtDisabled then .feTimerStop .nrt
          else .feTimerStart .nrt (startTiming s c.fwt).nrtValue,
        if s.timing.fdtListen = 0 then .feTimerStop .mrt else .feTimerStart .mrt (startTiming s c.fwt).mrtValue] ∧
    (beginExchange c s).env.fe.config = { s.env.fe.config with flags := some c.flags } ∧
    (beginExchange c s).env.fe.irqEnable = s.env.fe.irqEnable ||| txrxIrqs := by
  have hpoll : polled txrxIrqs (computeTimers (loadExchange c s)) = polled txrxIrqs s := by
    simp [polled, pendingIn, atCall]
  rw [show (beginExchange c s).env = (prepare (computeTimers (loadExchange c s))).env from rfl]
  have htrace := prepare_trace (computeTimers (loadExchange c s))
  have hfe := prepare_frontEnd (computeTimers (loadExchange c s))
  rw [computeTimers_loadExchange, hpoll] at htrace
  simp only [computeTimers_fields, loadExchange_fields, loadExchange_written] at htrace hfe
  exact ⟨htrace, hfe⟩

/-- Settles O28: what the checks let pass, an exchange is begun on (`beginExchange_eq`), with the calls of `Prepare`. -/
theorem startTransceiveCompletes : Obligations.StartTransceiveCompletes := by
  intro s tx txLen rx rxLen flags fwt htop hi hone htx hrx hfield
  let c := loadedCtx tx txLen rx rxLen flags fwt
  have hc : c = ⟨if txLen = 0 then 0 else tx, txLen, rx, rxLen, flags, fwt, none, false⟩ := by
    by_cases hl : txLen = 0#16 <;> by_cases ht : tx = 0#32 <;> simp [c, loadedCtx, nullAddr, hl, ht]
  have habs : c.txAbsent = true ↔ ¬ (tx ≠ 0 ∧ txLen ≠ 0) := by
    rw [loadedCtx_txAbsent, txBuffer_absent_iff]
  have herr : startError tx txLen rx rxLen s = none := by
    rw [startError_legal htop hi ⟨hone, htx, hrx⟩, if_neg]
    rintro ⟨hp, hm, hf⟩
    exact hfield.elim hp (by simp [hm, hf])
  obtain ⟨htrace, hconfig, hirq⟩ := beginExchange_env c s
  refine ⟨(beginExchange c s).env, ?_, ?_, hconfig, hirq⟩
  · simp only [exec, execStartTransceive, herr, finish]
    rw [show loadedCtx tx txLen rx rxLen flags fwt = c from rfl, beginExchange_eq, ← hc]
    have hstart : (if c.txAbsent = true then TxrxState.rxIdle else .txIdle) =
        if tx ≠ 0 ∧ txLen ≠ 0 then .txIdle else .rxIdle := by rw [if_congr habs rfl rfl, ite_not]
    rw [hstart]
    rfl
  · rw [htrace]
    have hn : (startTiming s fwt).nrtDisabled = decide (fwt = 0xFFFFFFFF) := rfl
    simp only [c, loadedCtx, hn, decide_eq_true_eq]

/-! ## The synchronous primitives refused (R122, R123) -/

section
variable {s : State}

/-- What both primitives ask of the state (R122, R123). -/
def syncReady (s : State) : Prop :=
  s.topState ∉ [TopState.notInit, .init] ∧ s.txrxState = .idle ∧ s.mode = .pollNfcA

/-- The checks both primitives begin with, before those of their operands. -/
theorem syncChecks_unready (h : ¬ syncReady s) (rest : Option Status) :
    (if below s.topState .modeSet = true ∨ s.txrxState ≠ .idle then some Status.wrongState
      else if s.mode ≠ .pollNfcA then some .wrongState else rest) = some .wrongState := by
  by_cases h1 : below s.topState .modeSet = true ∨ s.txrxState ≠ .idle
  · rw [if_pos h1]
  · have hm : s.mode ≠ .pollNfcA := fun hm => by
      rw [below_modeSet_iff, not_or, not_not] at h1
      exact h ⟨h1.1, h1.2, hm⟩
    rw [if_neg h1, if_pos hm]

theorem syncChecks_ready (h : syncReady s) (rest : Option Status) :
    (if below s.topState .modeSet = true ∨ s.txrxState ≠ .idle then some Status.wrongState
      else if s.mode ≠ .pollNfcA then some .wrongState else rest) = rest := by
  obtain ⟨htop, hi, hm⟩ := h
  rw [if_neg (not_or.2 ⟨fun hb => htop ((below_modeSet_iff _).1 hb), not_not.2 hi⟩), if_neg (not_not.2 hm)]

theorem shortFrameError_ready (h : syncReady s) (rx : Word) (rxLen : Len) : shortFrameError rx rxLen s =
    if inBounds s.params rx rxLen.toNat = false then some .param
    else if s.fieldOn = false then some .wrongState else none := syncChecks_ready h _

theorem anticollisionError_ready (h : syncReady s) (b : Word) (n : Byte) (k : BitVec 3) : anticollisionError b n k s =
    if b = 0 ∨ s.params.bufSize < b.toNat + n.toNat + 6 ∨ n = 0 ∧ k = 0 then some .param else none := by
  refine (syncChecks_ready h _).trans ?_
  rw [← ite_or]
  exact if_congr or_assoc rfl rfl

end

theorem exec_shortFrame_of_error {s : State} {rx : Word} {rxLen : Len} {e : Status}
    (h : shortFrameError rx rxLen s = some e) (c : BitVec 7) (fwt : Time) :
    exec (.shortFrameTransceive c rx rxLen fwt) s = .next { s with result := e } := by
  simp only [exec, execShortFrameTransceive, h, finish]

theorem exec_anticollision_of_error {s : State} {b : Word} {n : Byte} {k : BitVec 3} {e : Status}
    (h : anticollisionError b n k s = some e) (fwt : Time) :
    exec (.anticollisionTransceive b n k fwt) s = .next { s with result := e } := by
  simp only [exec, execAnticollisionTransceive, h, finish]

/-- Settles O56: the checks in the order of R122 and R123. -/
theorem synchronousPrimitivesReject : Obligations.SynchronousPrimitivesReject := by
  intro s c rx rxLen fwt b n k ready
  refine ⟨fun h => ⟨?_, ?_⟩, fun h hb => ?_, fun h hb hf => ?_, fun h hb => ?_⟩
  · exact exec_shortFrame_of_error (syncChecks_unready h _) c fwt
  · exact exec_anticollision_of_error (syncChecks_unready h _) fwt
  · exact exec_shortFrame_of_error (by rw [shortFrameError_ready h, if_pos hb]) c fwt
  · exact exec_shortFrame_of_error (by rw [shortFrameError_ready h, if_neg (by simp [hb]), if_pos hf]) c fwt
  · exact exec_anticollision_of_error (by rw [anticollisionError_ready h, if_pos hb]) fwt

end Sys2Proof.Machine

/-! # The hooks of an exchange (R118, R119)

`PRE_TXRX` and `POST_TXRX` are events of the trace like the Chip-Driver calls, but no call is one of them. So the two counts
change only where a rule emits a hook: once past the gates of the first transmit attempt, once in a receive-only `RX_IDLE`,
and once in Cleanup. -/

namespace Sys2Proof.Machine

/-! ## The counts -/

/-- How often `PRE_TXRX` and `POST_TXRX` stand in the trace. -/
def hooks (s : State) : Nat × Nat := (preHooks s.env.trace, postHooks s.env.trace)

theorem hooks_of_trace {s t : State} {l : List Event} (h : t.env.trace = s.env.trace ++ l) (hpre : .preTxRx ∉ l)
    (hpost : .postTxRx ∉ l) : hooks t = hooks s := by
  simp [hooks, preHooks, postHooks, h, List.count_eq_zero_of_not_mem hpre, List.count_eq_zero_of_not_mem hpost]

theorem hooks_emit_preTxRx (s : State) : hooks (emit .preTxRx s) = ((hooks s).1 + 1, (hooks s).2) := by
  simp [hooks, preHooks, postHooks]

@[simp] theorem hooks_calls (s : State) :
    (∀ c, hooks (feCmd c s) = hooks s) ∧ (∀ c, hooks (feConfig c s) = hooks s) ∧
    (∀ i, hooks (applyAnalogConfig i s) = hooks s) ∧ (∀ m, hooks (feIrqEnable m s) = hooks s) ∧
    (∀ m, hooks (feIrqDisable m s) = hooks s) ∧ (∀ m, hooks (feGetIrq m s).2 = hooks s) ∧
    (∀ m, hooks (feDiscardIrq m s) = hooks s) ∧ (∀ t v, hooks (feTimerStart t v s) = hooks s) ∧
    (∀ t, hooks (feTimerStop t s) = hooks s) ∧ (∀ t, hooks (feTimerCheck t s).2 = hooks s) ∧
    (∀ t, hooks (swExpired t s).2 = hooks s) ∧ hooks (feCollisionPos s).2 = hooks s ∧
    hooks (feDetectedBitRate s).2 = hooks s ∧ ∀ c, hooks (feMeasure c s).2 = hooks s := by
  simp [hooks, preHooks, postHooks, feTimerCheck, swExpired, feCollisionPos, feDetectedBitRate, feMeasure]

@[simp] theorem hooks_bookkeeping (s : State) :
    (∀ t, hooks (swDisarm t s) = hooks s) ∧ (∀ t d, hooks (swArm t d s) = hooks s) ∧
    hooks (cacheInvalidate s) = hooks s ∧ hooks (txAfterHandOver s) = hooks s := by
  simp [hooks, txAfterHandOver]

@[simp] theorem hooks_fifoStatus (s : State) : hooks (fifoStatus s) = hooks s := by
  unfold fifoStatus
  split
  · rfl
  · simp [hooks, preHooks, postHooks]

@[simp] theorem hooks_cleanup (s : State) : hooks (cleanup s) = ((hooks s).1, (hooks s).2 + 1) := by
  simp [hooks, preHooks, postHooks, cleanupEvents]

@[simp] theorem hooks_endExchange (e : Status) (s : State) : hooks (endExchange e s) = ((hooks s).1, (hooks s).2 + 1) :=
  hooks_cleanup s

theorem feFifoRead_hooks (n : Nat) (s : State) : Answers (fun r => hooks r.2 = hooks s) (feFifoRead n s) := by
  intro r h
  rcases feFifoRead_spec h with ⟨-, rfl⟩ | ⟨-, -, -, hr⟩
  · rfl
  · simp [hr, hooks, preHooks, postHooks]

theorem feFifoWrite_hooks (bytes : List Byte) (s : State) : Answers (fun t => hooks t = hooks s) (feFifoWrite bytes s) := by
  intro t h
  rcases feFifoWrite_spec h with ⟨-, rfl⟩ | ⟨-, -, rfl⟩
  · rfl
  · simp [hooks, preHooks, postHooks]

theorem bufWrite_hooks (a : Nat) (bytes : List Byte) (s : State) :
    Answers (fun t => hooks t = hooks s) (bufWrite a bytes s) := by
  intro t h
  obtain ⟨-, rfl⟩ := bufWrite_spec h
  rfl

/-! ## Past the first transmit attempt -/

/-- The states before the first transmit attempt (R131 to R133) in which a step can rest. -/
def atGate (t : TxrxState) : Bool := t = .txIdle ∨ t = .txWaitGt ∨ t = .txWaitFdt

/-- What a step answers that began with the counts `h` and is not held up before the first transmit attempt: `POST_TXRX` is
counted once more exactly if the exchange has ended. -/
structure Counts (h : Nat × Nat) (t : State) : Prop where
  hooks : hooks t = if t.txrxState = .idle then (h.1, h.2 + 1) else h
  past : atGate t.txrxState = false

section
variable {h : Nat × Nat} {s : State}

theorem counts_endExchange (hs : hooks s = h) (e : Status) : Counts h (endExchange e s) := ⟨by simp [hs], by simp [atGate]⟩

/-- A step that leaves the exchange running. -/
theorem counts_running (hs : hooks s = h) {x : TxrxState} (hx : s.txrxState = x) (hi : x ≠ .idle) (hg : atGate x = false) :
    Counts h s := by
  subst hx
  exact ⟨by rw [hs, if_neg hi], hg⟩

/-! ## The tx-phase -/

theorem txFailWith_counts (hs : hooks s = h) (e : Status) : Answers (Counts h) (txFailWith e s) :=
  .ok (counts_endExchange (by exact hs) _)

theorem txDone_counts (hs : hooks s = h) : Answers (Counts h) (txDone s) := by
  unfold txDone
  split
  · exact .ok (counts_endExchange hs _)
  · exact .ok (counts_running (x := .rxIdle) hs rfl (by decide) (by decide))

theorem txWaitTxe_counts (hs : hooks s = h) (hx : s.txrxState = .txWaitTxe) : Answers (Counts h) (txWaitTxe s) := by
  have hp : hooks (feGetIrq (irqWL ||| irqTXE) s).2 = h := by simpa using hs
  unfold txWaitTxe
  dsimp only
  split
  · exact txDone_counts hp
  · exact .ok (counts_running hp (x := .txWaitTxe) (by simpa using hx) (by decide) (by decide))

theorem txHandOver_hooks (k : Nat) (s : State) : Answers (fun t => hooks t = hooks s) (txHandOver k s) := by
  unfold txHandOver
  refine (answers_true _).bind fun bytes _ => (feFifoWrite_hooks bytes s).bind fun t ht => ?_
  exact (answers_true _).bind fun w _ => .ok ht

theorem counts_txAfterHandOver (hs : hooks s = h) : Counts h (txAfterHandOver s) := by
  by_cases hb : s.fifo.bytesWritten.toNat < s.fifo.bytesTotal.toNat
  · exact counts_running (x := .txWaitWl) (by simpa using hs) (if_pos hb) (by decide) (by decide)
  · exact counts_running (x := .txWaitTxe) (by simpa using hs) (if_neg hb) (by decide) (by decide)

theorem txReloadFifo_counts (hs : hooks s = h) : Answers (Counts h) (txReloadFifo s) :=
  (txHandOver_hooks _ s).bind fun _ ht => .ok (counts_txAfterHandOver (ht.trans hs))

theorem txWaitWl_counts (hs : hooks s = h) (hx : s.txrxState = .txWaitWl) : Answers (Counts h) (txWaitWl s) := by
  have hp : hooks (feGetIrq (irqWL ||| irqTXE) s).2 = h := by simpa using hs
  unfold txWaitWl
  dsimp only
  split
  · exact .ok (counts_running hp (x := .txWaitWl) (by simpa using hx) (by decide) (by decide))
  · split
    · exact txReloadFifo_counts hp
    · exact txFailWith_counts hp _

theorem txFire_counts (hs : hooks s = h) (total n : Nat) (c : Bool) : Answers (Counts h) (txFire total n c s) := by
  unfold txFire
  refine (answers_true _).bind fun l _ => (txHandOver_hooks _ _).bind fun t ht => .ok (counts_txAfterHandOver ?_)
  rw [(hooks_calls t).1, ht, (hooks_calls _).2.1]
  exact hs

theorem txTransmitNfcv_counts (hs : hooks s = h) : Answers (Counts h) (txTransmitNfcv s) := by
  unfold txTransmitNfcv
  refine (answers_true _).bind fun payload _ => ?_
  dsimp only
  split
  · exact txFailWith_counts hs _
  · refine Answers.bind (P := fun t => hooks t = h) ?_ fun t ht => txFire_counts ht _ _ _
    intro t ht
    obtain ⟨-, rfl⟩ := scratchWrite_spec ht
    exact hs

/-- The first transmit attempt emits `PRE_TXRX` (R119, R134). -/
theorem txTransmit_counts (s : State) : Answers (Counts ((hooks s).1 + 1, (hooks s).2)) (txTransmit s) := by
  have hp : hooks (feCmd .clearFifo (emit .preTxRx s)) = ((hooks s).1 + 1, (hooks s).2) := by
    simp [hooks_emit_preTxRx]
  unfold txTransmit
  dsimp only
  split
  · exact txTransmitNfcv_counts hp
  · exact txFire_counts hp _ _ _

/-- What a step from before the first transmit attempt answers: it is held up, or it is past the attempt. -/
def CountsFromGate (h : Nat × Nat) (t : State) : Prop :=
  (t.txrxState = .txWaitGt ∨ t.txrxState = .txWaitFdt) ∧ hooks t = h ∨ Counts (h.1 + 1, h.2) t

theorem txTransmit_countsFromGate (hs : hooks s = h) : Answers (CountsFromGate h) (txTransmit s) :=
  (txTransmit_counts s).mono fun _ ht => .inr (by rwa [hs] at ht)

theorem txWaitFdt_counts (hs : hooks s = h) (hx : s.txrxState = .txWaitFdt) :
    Answers (CountsFromGate h) (txWaitFdt s) := by
  have hp : hooks (feTimerCheck .gpt s).2 = h := by simpa using hs
  unfold txWaitFdt
  dsimp only
  split
  · exact txTransmit_countsFromGate hs
  · split
    · exact .ok (.inl ⟨.inr (by simpa using hx), hp⟩)
    · exact txTransmit_countsFromGate hp

theorem txWaitGt_counts (hs : hooks s = h) (hx : s.txrxState = .txWaitGt) : Answers (CountsFromGate h) (txWaitGt s) := by
  have hq : hooks (swExpired .gt s).2 = h := by simpa using hs
  unfold txWaitGt
  dsimp only
  split
  · split
    · exact txWaitFdt_counts (s := { swDisarm .gt (swExpired .gt s).2 with txrxState := .txWaitFdt }) hq rfl
    · exact .ok (.inl ⟨.inl (by simpa using hx), hq⟩)
  · exact txWaitFdt_counts (s := { swDisarm .gt s with txrxState := .txWaitFdt }) hs rfl

/-! ## The rx-phase -/

theorem rxFail_counts (hs : hooks s = h) : Answers (Counts h) (rxFail s) := .ok (counts_endExchange hs _)

theorem rxDone_counts (hs : hooks s = h) : Answers (Counts h) (rxDone s) := .ok (counts_endExchange hs _)

theorem rxFailWith_counts (hs : hooks s = h) (e : Status) : Answers (Counts h) (rxFailWith e s) :=
  (answers_true _).bind fun _ _ => rxFail_counts (by exact hs)

theorem rxWaitEof_counts (hs : hooks s = h) (hx : s.txrxState = .rxWaitEof) : Answers (Counts h) (rxWaitEof s) := by
  have hp : hooks (feGetIrq irqEOF s).2 = h := by simpa using hs
  unfold rxWaitEof
  dsimp only
  split
  · exact rxDone_counts (by exact hs)
  · split
    · exact rxDone_counts (by exact hp)
    · exact .ok (counts_running hp (x := .rxWaitEof) (by simpa using hx) (by decide) (by decide))

theorem rxDeliver_hooks (i : Nat) (bytes : List Byte) (s : State) :
    Answers (fun t => hooks t = hooks s) (rxDeliver i bytes s) :=
  (rxDeliver_env i bytes s).mono fun t ht => by simp [hooks, ht]

theorem rxCopy_hooks (k : Nat) (s : State) : Answers (fun t => hooks t = hooks s) (rxCopy k s) := by
  unfold rxCopy
  refine (feFifoRead_hooks k s).bind fun r hr => (rxDeliver_hooks _ r.1 r.2).bind fun t ht => ?_
  exact (answers_true _).bind fun w _ => .ok (ht.trans hr)

theorem nfcvDecodeStep_hooks (s : State) : Answers (fun t => hooks t = hooks s) (nfcvDecodeStep s) :=
  (nfcvDecodeStep_env s).mono fun t ht => by simp [hooks, ht]

theorem rxAfterData_counts (hs : hooks s = h) : Answers (Counts h) (rxAfterData s) := by
  unfold rxAfterData
  split
  · exact rxFail_counts (by exact hs)
  · split
    · exact rxWaitEof_counts (s := { s with txrxState := .rxWaitEof }) hs rfl
    · exact rxDone_counts (by exact hs)

theorem rxReadData_counts (hs : hooks s = h) : Answers (Counts h) (rxReadData s) := by
  unfold rxReadData
  refine (rxCopy_hooks _ _).bind fun t ht => (answers_true _).bind fun total _ => (answers_true _).bind fun len _ => ?_
  have ht' : hooks t = h := (ht.trans (hooks_fifoStatus s)).trans hs
  dsimp only
  split
  · exact (nfcvDecodeStep_hooks _).bind fun u hu => rxAfterData_counts (hu.trans ht')
  · exact rxAfterData_counts (by exact ht')

theorem rxShortReply_counts (hs : hooks s = h) : Answers (Counts h) (rxShortReply s) := by
  unfold rxShortReply
  refine (feFifoRead_hooks _ s).bind fun r hr => (rxDeliver_hooks _ r.1 r.2).bind fun t ht => ?_
  exact rxFail_counts (by exact (ht.trans hr).trans hs)

theorem counts_discardAndRearm (hs : hooks s = h) : Counts h (discardAndRearm s) :=
  counts_running (x := .rxWaitRxs)
    ((hooks_of_trace (l := [.feCmd .clearFifo, .feCmd .unmaskRx]) (by simp [discardAndRearm]) (by decide) (by decide)).trans hs)
    (by simp) (by decide) (by decide)

theorem rxOnVerdict_counts (hs : hooks s = h) (v : Verdict) : Answers (Counts h) (rxOnVerdict v s) := by
  cases v with
  | nfcaIncomplete => exact rxShortReply_counts hs
  | noError => exact rxReadData_counts (by exact hs)
  | error e =>
    unfold rxOnVerdict
    dsimp only
    split
    · exact .ok (counts_discardAndRearm hs)
    · exact rxReadData_counts (by exact hs)

theorem rxErrCheck_counts (hs : hooks s = h) : Answers (Counts h) (rxErrCheck s) :=
  rxOnVerdict_counts (by simpa using hs) _

theorem rxBeyondCapacity_counts (hs : hooks s = h) : Answers (Counts h) (rxBeyondCapacity s) := by
  unfold rxBeyondCapacity
  split
  · exact (nfcvDecodeStep_hooks _).bind fun u hu => rxAfterData_counts (hu.trans hs)
  · exact rxFailWith_counts hs _

theorem rxReadFifo_counts (hs : hooks s = h) : Answers (Counts h) (rxReadFifo s) := by
  unfold rxReadFifo
  refine (answers_true _).bind fun total _ => (rxCopy_hooks _ _).bind fun t ht => ?_
  have ht' : hooks t = h := ht.trans ((by simp : hooks (fifoStatus (cacheInvalidate s)) = hooks s).trans hs)
  split
  · exact rxBeyondCapacity_counts ht'
  · exact .ok (counts_running (x := .rxWaitRxe) ht' rfl (by decide) (by decide))

theorem rxWaitRxe_counts (hs : hooks s = h) (hx : s.txrxState = .rxWaitRxe) : Answers (Counts h) (rxWaitRxe s) := by
  unfold rxWaitRxe
  dsimp only
  generalize irqRXE ||| irqWL ||| eofIfActive s.mode = m
  obtain ⟨henv, hux, -⟩ := rememberEof_spec (feGetIrq m s)
  generalize (if has (feGetIrq m s).1 irqEOF then { (feGetIrq m s).2 with eofSeen := true } else (feGetIrq m s).2) = u
    at henv hux ⊢
  have hu : hooks u = h := by
    rw [hooks, henv]
    exact ((hooks_calls s).2.2.2.2.2.1 m).trans hs
  split
  · exact rxErrCheck_counts (by exact hu)
  · split
    · exact rxFailWith_counts hu _
    · split
      · exact rxReadFifo_counts (by exact hu)
      · have hq : hooks (swExpired .rxeGuard u).2 = h := by simpa using hu
        split
        · exact rxFailWith_counts hq _
        · exact .ok (counts_running hq (x := .rxWaitRxe) (by simpa [hux] using hx) (by decide) (by decide))

theorem rxWaitRxs_counts (hs : hooks s = h) (hx : s.txrxState = .rxWaitRxs) : Answers (Counts h) (rxWaitRxs s) := by
  have hp : ∀ m, hooks (feGetIrq m s).2 = h := fun m => by simpa using hs
  unfold rxWaitRxs
  dsimp only
  generalize irqRXS ||| irqNRE ||| eofIfActive s.mode = m
  split
  · exact .ok (counts_running (hp m) (x := .rxWaitRxs) (by simpa using hx) (by decide) (by decide))
  · split
    · exact rxWaitRxe_counts (by simpa [hooks] using hp m) rfl
    · split
      · exact rxFailWith_counts (hp m) _
      · exact rxFailWith_counts (hp m) _

theorem rxWaitEon_counts (hs : hooks s = h) (hx : s.txrxState = .rxWaitEon) : Answers (Counts h) (rxWaitEon s) := by
  unfold rxWaitEon
  dsimp only
  generalize irqEON ||| irqNRE = m
  have hp : hooks (feGetIrq m s).2 = h := by simpa using hs
  have hq : hooks (swExpired .apFwt (feGetIrq m s).2).2 = h := by simpa using hs
  split
  · exact .ok (counts_running (x := .rxWaitRxs) hp rfl (by decide) (by decide))
  · split
    · exact rxFailWith_counts hp _
    · split
      · split
        · exact rxFailWith_counts hq _
        · exact .ok (counts_running hq (x := .rxWaitEon) (by simpa using hx) (by decide) (by decide))
      · exact .ok (counts_running hp (x := .rxWaitEon) (by simpa using hx) (by decide) (by decide))

end

@[simp] theorem hooks_rxIdleTimers (s : State) : hooks (rxIdleTimers s) = hooks s := by
  unfold rxIdleTimers
  split
  · split <;> simp
  · split <;> simp

/-- `RX_IDLE` emits `PRE_TXRX` for an exchange that only receives (R119, R153). -/
theorem hooks_rxIdleReset (s : State) :
    hooks (rxIdleReset s) = ((hooks s).1 + (if s.ctx.txAbsent = true then 1 else 0), (hooks s).2) := by
  have hemit : hooks (rxIdleReset s) = hooks (if s.ctx.txAbsent then emit .preTxRx s else s) := rfl
  rw [hemit]
  split
  · exact hooks_emit_preTxRx s
  · rfl

theorem rxIdle_counts (s : State) :
    Answers (Counts ((hooks s).1 + (if s.ctx.txAbsent = true then 1 else 0), (hooks s).2)) (rxIdle s) := by
  have hu : hooks (if (rxIdleReset s).ctx.txAbsent then feCmd .unmaskRx (feCmd .clearFifo (rxIdleReset s))
      else rxIdleReset s) = hooks (rxIdleReset s) := by
    split
    · simp
    · rfl
  unfold rxIdle
  dsimp only
  generalize (if (rxIdleReset s).ctx.txAbsent then feCmd .unmaskRx (feCmd .clearFifo (rxIdleReset s))
    else rxIdleReset s) = u at hu ⊢
  have hx : hooks (rxIdleTimers u) = _ := (hooks_rxIdleTimers u).trans (hu.trans (hooks_rxIdleReset s))
  by_cases ha : isActive (rxIdleTimers u).mode = true
  · exact .ok (counts_running (x := .rxWaitEon) hx (if_pos ha) (by decide) (by decide))
  · exact .ok (counts_running (x := .rxWaitRxs) hx (if_neg ha) (by decide) (by decide))

/-! ## A WORKER step of an exchange -/

/-- A step from `s` to `t` goes past the first transmit attempt, or past `RX_IDLE` without a tx buffer (R119). -/
abbrev passesFirstAttempt (s t : State) : Prop :=
  (s.txrxState ∈ [TxrxState.txIdle, .txWaitGt, .txWaitFdt, .txTransmit] ∧
      t.txrxState ∉ [TxrxState.txIdle, .txWaitGt, .txWaitFdt]) ∨
    (s.txrxState = .rxIdle ∧ s.ctx.txAbsent = true)

/-- The hooks a step of an exchange emits on its way from `s` to `t`. -/
structure EmitsHooks (s t : State) : Prop where
  pre : (hooks t).1 = (hooks s).1 + if passesFirstAttempt s t then 1 else 0
  post : (hooks t).2 = (hooks s).2 + if t.txrxState = .idle then 1 else 0

theorem EmitsHooks.of_counts {s t : State} {n : Nat} (h : Counts ((hooks s).1 + n, (hooks s).2) t)
    (hn : n = if passesFirstAttempt s t then 1 else 0) : EmitsHooks s t := by
  constructor
  · rw [h.hooks, ← hn]
    split <;> rfl
  · rw [h.hooks]
    split <;> rfl

/-- A step from a state past the first transmit attempt emits no `PRE_TXRX`. -/
theorem emitsHooks_past {s : State} {r : Run} {x : TxrxState} (hx : s.txrxState = x) (h : Answers (Counts (hooks s)) r)
    (hp : x ∉ [TxrxState.txIdle, .txWaitGt, .txWaitFdt, .txTransmit, .rxIdle] := by decide) : Answers (EmitsHooks s) r := by
  subst hx
  refine h.mono fun t ht => EmitsHooks.of_counts (n := 0) ht (if_neg ?_).symm
  rintro (⟨hs, -⟩ | ⟨hs, -⟩)
  · simp only [List.mem_cons, not_or] at hs hp
    tauto
  · exact hp (by simp [hs])

theorem emitsHooks_gate {s : State} {r : Run} (hx : s.txrxState ∈ [TxrxState.txIdle, .txWaitGt, .txWaitFdt])
    (h : Answers (CountsFromGate (hooks s)) r) : Answers (EmitsHooks s) r := by
  have hs : s.txrxState ∈ [TxrxState.txIdle, .txWaitGt, .txWaitFdt, .txTransmit] ∧ s.txrxState ≠ .rxIdle := by
    simp only [List.mem_cons, List.not_mem_nil, or_false] at hx
    rcases hx with hx | hx | hx <;> simp [hx]
  intro t ht
  rcases h t ht with ⟨hg, hc⟩ | hc
  · have hn : ¬ passesFirstAttempt s t := by
      rintro (⟨-, ht⟩ | ⟨ht, -⟩)
      · rcases hg with hg | hg <;> simp [hg] at ht
      · exact hs.2 ht
    have hi : t.txrxState ≠ .idle := by rcases hg with hg | hg <;> simp [hg]
    exact ⟨by rw [hc, if_neg hn, Nat.add_zero], by rw [hc, if_neg hi, Nat.add_zero]⟩
  · have hp : t.txrxState ∉ [TxrxState.txIdle, .txWaitGt, .txWaitFdt] := by simpa [atGate] using hc.past
    exact EmitsHooks.of_counts (n := 1) hc (if_pos (.inl ⟨hs.1, hp⟩)).symm

/-- What a WORKER step of an exchange emits (R118, R119). -/
theorem txrxStep_emitsHooks {s : State} (hs : s.txrxState ≠ .idle) : Answers (EmitsHooks s) (txrxStep s) := by
  unfold txrxStep
  split
  · next hx => exact absurd hx hs
  · next hx => exact emitsHooks_gate (by simp [hx]) (txWaitGt_counts (s := { s with txrxState := .txWaitGt }) rfl rfl)
  · next hx => exact emitsHooks_gate (by simp [hx]) (txWaitGt_counts rfl hx)
  · next hx => exact emitsHooks_gate (by simp [hx]) (txWaitFdt_counts rfl hx)
  · next hx =>
    refine (txTransmit_counts s).mono fun t ht => EmitsHooks.of_counts ht (if_pos (.inl ⟨by simp [hx], ?_⟩)).symm
    simpa [atGate] using ht.past
  · next hx => exact emitsHooks_past hx (txWaitWl_counts rfl hx)
  · next hx => exact emitsHooks_past hx (txReloadFifo_counts rfl)
  · next hx => exact emitsHooks_past hx (txWaitTxe_counts rfl hx)
  · next hx => exact emitsHooks_past hx (txDone_counts rfl)
  · next hx => exact emitsHooks_past hx (.ok (counts_endExchange rfl _))
  · next hx =>
    exact (rxIdle_counts s).mono fun t ht => EmitsHooks.of_counts ht (by simp [passesFirstAttempt, hx])
  · next hx => exact emitsHooks_past hx (rxWaitEon_counts rfl hx)
  · next hx => exact emitsHooks_past hx (rxWaitRxs_counts rfl hx)
  · next hx => exact emitsHooks_past hx (rxWaitRxe_counts rfl hx)
  · next hx => exact emitsHooks_past hx (rxReadFifo_counts rfl)
  · next hx => exact emitsHooks_past hx (rxErrCheck_counts rfl)
  · next hx => exact emitsHooks_past hx (rxReadData_counts rfl)
  · next hx => exact emitsHooks_past hx (rxWaitEof_counts rfl hx)
  · next hx => exact emitsHooks_past hx (rxDone_counts rfl)
  · next hx => exact emitsHooks_past hx (rxFail_counts rfl)

/-- Settles O19: WORKER's hooks are those of the step it takes. -/
theorem preHookBeforeTransmitOrReceiveOnly : Obligations.PreHookBeforeTransmitOrReceiveOnly := by
  intro s t htop h
  obtain ⟨u, hu, rfl⟩ := worker_next h
  simp only [workerStep, htop] at hu
  by_cases hi : s.txrxState = .idle
  · rw [txrxStep_of_idle hi] at hu
    cases hu
    simp [hi]
  · exact (txrxStep_emitsHooks hi u hu).pre

/-! ## WORKER outside an exchange -/

theorem listenGoodFrame_hooks (s : State) : Answers (fun t => hooks t = hooks s) (listenGoodFrame s) := by
  unfold listenGoodFrame
  refine (feFifoRead_hooks _ _).bind fun r hr => (bufWrite_hooks _ _ r.2).bind fun t ht => ?_
  refine (answers_true _).bind fun l _ => .ok ?_
  calc hooks _ = hooks t := (hooks_calls { t with lm := { t.lm with rxLen := l } }).1 .clearFifo
    _ = hooks r.2 := ht
    _ = hooks s := hr.trans (by simp)

theorem listenBitRate_hooks (i : Word) (s : State) : hooks (listenBitRate i s) = hooks s := by
  unfold listenBitRate
  split
  · exact (hooks_calls s).2.2.2.2.2.2.2.2.2.2.2.2.1
  · rfl

theorem lmIdle_hooks (s : State) : Answers (fun t => hooks t = hooks s) (lmIdle s) := by
  unfold lmIdle
  split
  · exact .ok rfl
  · dsimp only
    generalize irqNFCT ||| irqRXE ||| irqEOF ||| irqPAR ||| irqCRC ||| irqERR1 = m
    have hu := listenBitRate_hooks (feGetIrq m s).1 (feGetIrq m s).2
    rw [(hooks_calls s).2.2.2.2.2.1] at hu
    generalize listenBitRate (feGetIrq m s).1 (feGetIrq m s).2 = u at hu ⊢
    split
    · unfold listenFrame
      split
      · exact .ok (by simpa [listenBadFrame] using hu)
      · exact (listenGoodFrame_hooks u).mono fun _ ht => ht.trans hu
    · split <;> exact .ok hu

theorem listenStep_hooks (s : State) : Answers (fun t => hooks t = hooks s) (listenStep s) := by
  unfold listenStep
  split
  · refine .ok ?_
    split
    · exact (hooks_calls s).2.2.2.2.2.1 irqEON
    · exact (hooks_calls s).2.2.2.2.2.1 irqEON
  · exact lmIdle_hooks s
  all_goals exact .ok rfl

theorem wakeUpStep_hooks (s : State) : Answers (fun t => hooks t = hooks s) (wakeUpStep s) := by
  unfold wakeUpStep
  split
  · refine .ok ?_
    split
    · exact (hooks_calls s).2.2.2.2.2.1 (wakeMask s.wu)
    · exact (hooks_calls s).2.2.2.2.2.1 (wakeMask s.wu)
  all_goals exact .ok rfl

/-! ## Every operation -/

/-- `POST_TXRX` is emitted once if the exchange ends between `s` and `t`, and otherwise not (R118, R120). -/
def PostHookAtEnd (s t : State) : Prop :=
  postHooks t.env.trace = postHooks s.env.trace + if running s = true ∧ running t = false then 1 else 0

/-- An operation that emits no hook ends no exchange. -/
theorem postHookAtEnd_of_runs {s t : State} (hh : postHooks t.env.trace = postHooks s.env.trace)
    (hr : running s = true → running t = true) : PostHookAtEnd s t := by
  rw [PostHookAtEnd, hh, if_neg, Nat.add_zero]
  rintro ⟨hs, ht⟩
  exact Bool.false_ne_true (ht.symm.trans (hr hs))

theorem postHookAtEnd_of_same {s t : State} (hh : postHooks t.env.trace = postHooks s.env.trace)
    (hx : t.txrxState = s.txrxState) : PostHookAtEnd s t :=
  postHookAtEnd_of_runs hh fun hs => by rwa [running, hx]

theorem worker_postHookAtEnd {s t : State} (h : exec .worker s = .next t) : PostHookAtEnd s t := by
  obtain ⟨u, hu, rfl⟩ := worker_next h
  show PostHookAtEnd s u
  have same (hh : hooks u = hooks s) (hx : u.txrxState = s.txrxState) : PostHookAtEnd s u :=
    postHookAtEnd_of_same (congrArg Prod.snd hh) hx
  unfold workerStep at hu
  split at hu
  · by_cases hi : s.txrxState = .idle
    · rw [txrxStep_of_idle hi] at hu
      cases hu
      exact same rfl rfl
    · have hpost : postHooks u.env.trace = postHooks s.env.trace + _ := (txrxStep_emitsHooks hi u hu).post
      simpa [PostHookAtEnd, running, hi] using hpost
  · exact same (listenStep_hooks s u hu) (congrArg State.txrxState (listenStep_frame s u hu) :)
  · obtain ⟨w, v, hw⟩ := wakeUpStep_next hu
    exact same (wakeUpStep_hooks s u hu) (by rw [hw])
  all_goals cases hu; exact same rfl rfl

/-- The spin of a synchronous primitive runs its exchange to the end, with one `POST_TXRX` (R120, R122, R123). -/
theorem spinExchange_postHooks (n : Nat) {s : State} (hs : s.txrxState ≠ .idle) :
    Answers (fun t => postHooks t.env.trace = postHooks s.env.trace + 1) (spinExchange n s) := by
  induction n generalizing s with
  | zero =>
    rw [spinExchange, if_neg hs]
    rintro t ⟨⟩
  | succ n ih =>
    rw [spinExchange_succ hs]
    refine (txrxStep_emitsHooks hs).bind fun t ht => ?_
    have hpost : postHooks t.env.trace = postHooks s.env.trace + _ := ht.post
    by_cases hi : t.txrxState = .idle
    · rw [if_pos hi] at hpost
      rw [spinExchange_of_idle hi]
      exact .ok hpost
    · rw [if_neg hi] at hpost
      exact (ih hi).mono fun u hu => hu.trans (by rw [hpost])

theorem spinCollisionAvoidance_postHooks (n : Nat) (s : State) :
    Answers (fun r => postHooks r.2.env.trace = postHooks s.env.trace) (spinCollisionAvoidance n s) := by
  induction n generalizing s with
  | zero => rintro r ⟨⟩
  | succ n ih =>
    have hp : postHooks (feGetIrq (irqCAC ||| irqCAT) s).2.env.trace = postHooks s.env.trace := by simp [postHooks]
    unfold spinCollisionAvoidance
    dsimp only
    split
    · exact (ih _).mono fun r hr => hr.trans hp
    · exact .ok hp

theorem beginExchange_postHooks (c : Ctx) (s : State) :
    postHooks (beginExchange c s).env.trace = postHooks s.env.trace := by
  rw [(beginExchange_env c s).1]
  split_ifs <;> simp [postHooks]

theorem applyBitrate_postHooks (tx rx : BitRate) (s : State) :
    postHooks (applyBitrate tx rx s).env.trace = postHooks s.env.trace := by
  unfold applyBitrate
  dsimp only
  split <;> simp [postHooks]

theorem startGuardTime_trace (s : State) : (startGuardTime s).env.trace = s.env.trace := by
  unfold startGuardTime
  split <;> simp

theorem fieldOnAndStartGt_postHooks {s t : State} (h : exec .fieldOnAndStartGt s = .next t) :
    postHooks t.env.trace = postHooks s.env.trace := by
  have hreq : postHooks (fieldOnRequest s).env.trace = postHooks s.env.trace := by simp [fieldOnRequest, postHooks]
  simp only [exec, execFieldOnAndStartGt] at h
  split at h
  · cases h; rfl
  · split at h
    · cases h
      exact congrArg postHooks (startGuardTime_trace s)
    · unfold fieldOnProcedure at h
      dsimp only at h
      split at h
      · cases h
      · next r hr =>
        have hspin := (spinCollisionAvoidance_postHooks _ _ r hr).trans hreq
        split at h <;> cases h
        · simpa [postHooks] using hspin
        · simpa [postHooks, startGuardTime_trace] using hspin

theorem measuredChannel_postHooks (ch : MeasureChannel) (c : Channel) (s : State) :
    postHooks (measuredChannel ch c s).2.env.trace = postHooks s.env.trace := by
  unfold measuredChannel
  split
  · simp [feMeasure, postHooks]
  · rfl

theorem wakeupContext_postHooks (a p c : Channel) (s : State) :
    postHooks (wakeupContext a p c s).env.trace = postHooks s.env.trace :=
  (measuredChannel_postHooks .pha p _).trans (measuredChannel_postHooks .amp a s)

/-- Every operation but the two synchronous primitives. -/
theorem exec_postHookAtEnd {i : Instr} {s t : State} (h : exec i s = .next t)
    (hi : opcode i ∉ [(0x0D : Word), 0x0E]) : PostHookAtEnd s t := by
  cases i with
  | initialise =>
    cases h
    by_cases hx : s.txrxState = .idle <;>
      simp [PostHookAtEnd, postHooks, running, cleanupEvents, initFrontEnd, initialValues, hx]
  | setMode m tx rx =>
    rcases setMode_next h with ⟨e, rfl⟩ | hp
    · exact postHookAtEnd_of_same rfl rfl
    · rcases performSetBitrate_next hp with ⟨e, rfl⟩ | rfl
      · exact postHookAtEnd_of_same (by simp [postHooks]) (by simp)
      · exact postHookAtEnd_of_same ((applyBitrate_postHooks _ _ _).trans (by simp [postHooks])) (by simp)
  | setBitrate tx rx =>
    rcases performSetBitrate_next h with ⟨e, rfl⟩ | rfl
    · exact postHookAtEnd_of_same rfl rfl
    · exact postHookAtEnd_of_same (applyBitrate_postHooks _ _ _) (by simp)
  | setErrorHandling p => cases h; exact postHookAtEnd_of_same (by simp [postHooks]) (by simp)
  | fieldOnAndStartGt =>
    refine postHookAtEnd_of_same (fieldOnAndStartGt_postHooks h) ?_
    rcases fieldOnAndStartGt_next h with ⟨v, e, rfl⟩ | rfl | ⟨v, rfl⟩ <;> simp
  | fieldOff =>
    cases h
    by_cases hx : s.txrxState = .idle <;> simp [PostHookAtEnd, postHooks, running, cleanupEvents, hx]
  | startTransceive tx txLen rx rxLen fl fwt =>
    obtain ⟨e, rfl | rfl⟩ := startTransceive_next h
    · exact postHookAtEnd_of_same rfl rfl
    · refine postHookAtEnd_of_runs (beginExchange_postHooks (loadedCtx tx txLen rx rxLen fl fwt) s) fun _ => ?_
      rw [running, beginExchange_eq]
      dsimp only
      split <;> rfl
  | worker => exact worker_postHookAtEnd h
  | shortFrameTransceive | anticollisionTransceive => simp [opcode] at hi
  | listenStart m rx rxLen =>
    simp only [exec, execListenStart] at h
    split at h <;> cases h
    · exact postHookAtEnd_of_same rfl rfl
    · exact postHookAtEnd_of_same (by simp [postHooks]) (by simp)
  | listenStop =>
    cases h
    by_cases htop : s.topState = .listen
    · exact postHookAtEnd_of_same (by simp [postHooks, htop]) (by simp [htop])
    · exact postHookAtEnd_of_same (by simp [htop]) (by simp [htop])
  | wakeupStart a p c =>
    simp only [exec, execWakeupStart] at h
    split at h <;> cases h
    · exact postHookAtEnd_of_same rfl rfl
    · refine postHookAtEnd_of_same (Eq.trans ?_ (wakeupContext_postHooks a p c s)) ?_
      · simp [wakeupConfigure, postHooks]
      · obtain ⟨w, v, hc⟩ := wakeupContext_writes a p c s
        simp [wakeupConfigure, hc]
  | wakeupStop =>
    cases h
    by_cases htop : s.topState = .wakeUp
    · exact postHookAtEnd_of_same (by simp [postHooks, htop]) (by simp [htop])
    · exact postHookAtEnd_of_same (by simp [htop]) (by simp [htop])
  | _ => cases h; exact postHookAtEnd_of_same rfl rfl

/-- What a synchronous primitive answers: it is turned away, or a whole exchange has run (R122, R123). -/
def RunsOneExchange (s t : State) : Prop :=
  (t = { s with result := t.result } ∧ t.result ∈ [Status.wrongState, .param]) ∨
    (running t = false ∧ postHooks t.env.trace = postHooks s.env.trace + 1)

theorem shortFrameError_mem {rx : Word} {rxLen : Len} {s : State} {e : Status} (h : shortFrameError rx rxLen s = some e) :
    e ∈ [Status.wrongState, .param] := by
  unfold shortFrameError at h
  split_ifs at h <;> cases h <;> decide

theorem anticollisionError_mem {b : Word} {n : Byte} {k : BitVec 3} {s : State} {e : Status}
    (h : anticollisionError b n k s = some e) : e ∈ [Status.wrongState, .param] := by
  unfold anticollisionError at h
  split_ifs at h <;> cases h <;> decide

/-- An exchange begun with `c` has not ended before its spin. -/
theorem beginExchange_running (c : Ctx) (s : State) : (beginExchange c s).txrxState ≠ .idle := by
  simp only [beginExchange_written]
  split <;> decide

/-- The spin from `u` to the end `v` of its exchange, with calls before and after it that emit no hook. -/
theorem runsOneExchange_of_spin {s u v t : State} {n : Nat} (hu : u.txrxState ≠ .idle)
    (hpost : postHooks u.env.trace = postHooks s.env.trace) (hv : spinExchange n u = .ok v) (hx : t.txrxState = v.txrxState)
    (ht : postHooks t.env.trace = postHooks v.env.trace) : RunsOneExchange s t := by
  have hend := spinExchange_idle n u v hv
  refine .inr ⟨by simp [running, hx, hend], ?_⟩
  rw [ht, spinExchange_postHooks n hu v hv, hpost]

theorem shortFrameTransceive_runsOneExchange {x : BitVec 7} {rx : Word} {rxLen : Len} {fwt : Time} {s t : State}
    (h : exec (.shortFrameTransceive x rx rxLen fwt) s = .next t) : RunsOneExchange s t := by
  simp only [exec, execShortFrameTransceive] at h
  split at h
  · next e he =>
    cases h
    exact .inl ⟨rfl, shortFrameError_mem he⟩
  · obtain ⟨v, hv, ht⟩ := andThen_next h
    cases ht
    have hrun := beginExchange_running (shortFrameCtx x rx rxLen fwt) s
    have hpost := beginExchange_postHooks (shortFrameCtx x rx rxLen fwt) s
    exact runsOneExchange_of_spin (by simpa [shortFrameStart] using hrun)
      (Eq.trans (by simp [shortFrameStart, postHooks]) hpost) hv (by simp) (by simp [postHooks])

theorem readCollisionPos_postHooks (s : State) :
    postHooks (readCollisionPos s).env.trace = postHooks s.env.trace := by
  unfold readCollisionPos
  split
  · simp [feCollisionPos, postHooks]
  · rfl

theorem anticollisionTransceive_runsOneExchange {b : Word} {n : Byte} {k : BitVec 3} {fwt : Time} {s t : State}
    (h : exec (.anticollisionTransceive b n k fwt) s = .next t) : RunsOneExchange s t := by
  simp only [exec, execAnticollisionTransceive] at h
  split at h
  · next e he =>
    cases h
    exact .inl ⟨rfl, anticollisionError_mem he⟩
  · obtain ⟨v, hv, ht⟩ := andThen_next h
    cases ht
    have hpost := beginExchange_postHooks (anticollisionCtx b n k fwt) (feConfig (.antcl true) s)
    exact runsOneExchange_of_spin (beginExchange_running _ _) (hpost.trans (by simp [postHooks])) hv (by simp)
      ((readCollisionPos_postHooks _).trans (by simp [postHooks]))

/-- Settles O18: an exchange ends in Cleanup, whichever operation ends it; the spin of a primitive ends the exchange it
started. -/
theorem cleanupRunsOncePerExchange : Obligations.CleanupRunsOncePerExchange := by
  refine fun i s t h => ⟨exec_postHookAtEnd h, fun hi => ?_⟩
  cases i with
  | shortFrameTransceive x rx rxLen fwt => exact shortFrameTransceive_runsOneExchange h
  | anticollisionTransceive b n k fwt => exact anticollisionTransceive_runsOneExchange h
  | _ => simp [opcode] at hi

end Sys2Proof.Machine

/-! # A whole exchange of a synchronous primitive (R122, R123)

The exchange is followed phase by phase along the script of the environment: the calls that set it up, the transmission, its
end, and the reception. After each phase `Reaches` says what the next one needs to know of the environment. -/

namespace Sys2Proof.Machine

/-! ## The environment between two phases -/

/-- From `v` to `w` the trace has grown, and what the front end would report of a frame is as it was. -/
structure Keeps (v w : Env) : Prop where
  trace : v.trace <+: w.trace
  incompleteBits : w.fe.incompleteBits = v.fe.incompleteBits
  missingParity : w.fe.missingParity = v.fe.missingParity
  collisionBytes : w.fe.collisionBytes = v.fe.collisionBytes
  collisionBits : w.fe.collisionBits = v.fe.collisionBits

theorem Keeps.refl (v : Env) : Keeps v v := ⟨⟨[], List.append_nil _⟩, rfl, rfl, rfl, rfl⟩

theorem Keeps.trans {u v w : Env} (h : Keeps u v) (h' : Keeps v w) : Keeps u w :=
  ⟨h.trace.trans h'.trace, h'.incompleteBits.trans h.incompleteBits, h'.missingParity.trans h.missingParity,
    h'.collisionBytes.trans h.collisionBytes, h'.collisionBits.trans h.collisionBits⟩

/-- From `v` the environment has come to `w`: `rest` of the script is left and the FIFO holds `fifo`; the flags of an exchange
are enabled, and `p` are those of them that are pending. -/
structure Reaches (v : Env) (rest : List (List EnvEvent)) (fifo : List Byte) (p : Word) (w : Env) : Prop
    extends Keeps v w where
  script : w.script = rest
  fifo : w.fe.fifo = fifo
  pending : w.fe.irqPending &&& txrxIrqs = p
  enabled : w.fe.irqEnable &&& txrxIrqs = txrxIrqs

theorem Reaches.from {u v w : Env} {r : List (List EnvEvent)} {f : List Byte} {p : Word} (h' : Reaches v r f p w)
    (h : Keeps u v) : Reaches u r f p w := { h' with toKeeps := h.trans h'.toKeeps }

theorem Reaches.here {v w : Env} {r : List (List EnvEvent)} {f : List Byte} {p : Word} (h : Reaches v r f p w) :
    Reaches w r f p w := { h with toKeeps := .refl w }

/-- In an idle turn the front end stays as it is. -/
theorem atCall_fe_of_idle {s : State} (h : s.env.script.head? = some []) : (atCall s).env.fe = s.env.fe := by
  obtain ⟨rest, hr⟩ := List.head?_eq_some_iff.1 h
  rw [atCall_idleTurn hr]

theorem and_not_and_self (p m : Word) : (p &&& ~~~m) &&& m = 0 := by
  ext i
  simp

theorem or_and_self (e m : Word) : (e ||| m) &&& m = m := by
  ext i
  simp only [BitVec.getElem_and, BitVec.getElem_or]
  grind

/-- The calls of `Prepare` take five turns and leave the flags of an exchange enabled, none of them pending (R111). -/
theorem prepare_reaches {s : State} {rest : List (List EnvEvent)} (hs : s.env.script = idleTurns 5 ++ rest) :
    Reaches s.env rest s.env.fe.fifo 0 (prepare s).env := by
  have hscript : s.env.script = [] :: [] :: [] :: [] :: [] :: rest := hs
  by_cases hn : s.timing.nrtDisabled = true <;> by_cases hd : s.timing.fdtListen = 0#32 <;>
    refine ⟨⟨?_, ?_, ?_, ?_, ?_⟩, ?_, ?_, ?_, ?_⟩ <;>
    simp [prepare, hn, hd, calls_frontEnd, atCall_fe_of_idle, hscript, or_and_self, and_not_and_self]

/-- The set-up of an exchange takes five turns and leaves its flags enabled, none of them pending (R110, R111). -/
theorem beginExchange_reaches {s : State} {rest : List (List EnvEvent)} (hs : s.env.script = idleTurns 5 ++ rest) (c : Ctx) :
    Reaches s.env rest s.env.fe.fifo 0 (beginExchange c s).env := by
  have hu : (computeTimers (loadExchange c s)).env = s.env := by simp
  have h := prepare_reaches (s := computeTimers (loadExchange c s)) (by rw [hu, hs])
  rwa [hu] at h

theorem feConfig_fe_of_idle {s : State} (h : s.env.script.head? = some []) (c : FeSetting) :
    (feConfig c s).env.fe = { s.env.fe with config := putSetting c s.env.fe.config } := by
  rw [(calls_frontEnd s).2.1, atCall_fe_of_idle h]

theorem feConfig_keeps {s : State} (h : s.env.script.head? = some []) (c : FeSetting) : Keeps s.env (feConfig c s).env := by
  have hfe := feConfig_fe_of_idle h c
  exact ⟨by simp, by rw [hfe], by rw [hfe], by rw [hfe], by rw [hfe]⟩

/-- One more `FeConfig` in an idle turn. -/
theorem Reaches.feConfig {v : Env} {s : State} {rest : List (List EnvEvent)} {fifo : List Byte} {p : Word}
    (h : Reaches v ([] :: rest) fifo p s.env) (c : FeSetting) : Reaches v rest fifo p (feConfig c s).env := by
  have hidle : s.env.script.head? = some [] := by simp [h.script]
  have hfe := feConfig_fe_of_idle hidle c
  exact ⟨h.toKeeps.trans (feConfig_keeps hidle c), by simp [h.script], by rw [hfe, h.fifo], by rw [hfe, h.pending],
    by rw [hfe, h.enabled]⟩

/-! ## The transmission -/

theorem ok_bind {α β : Type} (a : α) (k : α → Except Fault β) : (Except.ok a >>= k) = k a := rfl

theorem toLen_of_lt {n : Nat} (h : n < 65536) : toLen n = .ok (BitVec.ofNat 16 n) := if_pos h

theorem toLen_toNat (n : Len) : toLen n.toNat = .ok n := by
  rw [toLen_of_lt n.isLt]
  simp

theorem feFifoWrite_of_room {bytes : List Byte} {s : State} (hne : bytes ≠ [])
    (h : (atCall s).env.fe.fifo.length + bytes.length ≤ s.params.fifoDepth) : feFifoWrite bytes s =
      .ok (emit (.feFifoWrite bytes) (withFe (fun f => { f with fifo := f.fifo ++ bytes }) (atCall s))) := by
  simp [feFifoWrite, hne, h]

/-- A hand-over of bytes for which the FIFO has room (R134, R136). -/
theorem txHandOver_of_room {s : State} {bytes : List Byte} {w : Len} (hne : bytes ≠ [])
    (hsrc : txSource s.fifo.bytesWritten.toNat bytes.length s = .ok bytes)
    (hroom : (atCall s).env.fe.fifo.length + bytes.length ≤ s.params.fifoDepth)
    (hw : s.fifo.bytesWritten.toNat + bytes.length = w.toNat) : txHandOver bytes.length s =
      .ok { emit (.feFifoWrite bytes) (withFe (fun f => { f with fifo := f.fifo ++ bytes }) (atCall s)) with
        fifo := { s.fifo with bytesWritten := w } } := by
  rw [txHandOver, hsrc, ok_bind, feFifoWrite_of_room hne hroom, ok_bind]
  show (toLen (s.fifo.bytesWritten.toNat + bytes.length) >>= _) = _
  rw [hw, toLen_toNat, ok_bind]
  rfl

/-- `TX_TRANSMIT` of a frame that fits the FIFO (R134): `bytes` are handed over without CRC, in four turns. -/
theorem txTransmit_reaches {s : State} {rest : List (List EnvEvent)} {bytes : List Byte} {p : Word} {n : Len}
    (hs : s.env.script = idleTurns 4 ++ rest) (hm : s.mode ≠ .pollNfcV) (hcrc : crcTxManual s.ctx.flags = true)
    (hne : bytes ≠ []) (hn : n.toNat = bytes.length) (hlen : ceil8 s.ctx.txBufLen.toNat = bytes.length)
    (hd : bytes.length ≤ s.params.fifoDepth) (hsrc : txSource 0 bytes.length s = .ok bytes)
    (hp : s.env.fe.irqPending &&& txrxIrqs = p) (he : s.env.fe.irqEnable &&& txrxIrqs = txrxIrqs) :
    ∃ v : Env, txTransmit s = .ok { s with
        txrxState := .txWaitTxe, fifo := ⟨n, n, s.params.fifoTxRefill⟩, env := v } ∧
      Reaches s.env rest bytes p v ∧
      v.trace = s.env.trace ++ [.preTxRx, .feCmd .clearFifo, .feConfig (.txLengthBits s.ctx.txBufLen.toNat),
        .feFifoWrite bytes, .feCmd .txWithoutCrc] := by
  have hscript : s.env.script = [] :: [] :: [] :: [] :: rest := hs
  let u := feConfig (.txLengthBits s.ctx.txBufLen.toNat)
    { feCmd .clearFifo (emit .preTxRx s) with fifo := ⟨n, 0, s.params.fifoTxRefill⟩ }
  have hufe : (atCall u).env.fe.fifo = [] := by
    simp [u, calls_frontEnd, atCall_fe_of_idle, hscript, commandEffect]
  have husrc : txSource 0 bytes.length u = .ok bytes := by
    rw [← hsrc]
    simp [u, txSource, scratchRead, bufRead]
  let w := feCmd .txWithoutCrc { emit (.feFifoWrite bytes)
    (withFe (fun f => { f with fifo := f.fifo ++ bytes }) (atCall u)) with fifo := ⟨n, n, s.params.fifoTxRefill⟩ }
  have hfire : txTransmit s = .ok { w with txrxState := .txWaitTxe } := by
    have hmode : (feCmd .clearFifo (emit .preTxRx s)).mode ≠ .pollNfcV := by simpa using hm
    have hover := txHandOver_of_room (s := u) (w := n) hne (by simpa [u] using husrc)
      (by rw [hufe]; simpa [u] using hd) (by simp [u, hn])
    have hmin : min n.toNat u.params.fifoDepth = bytes.length := by
      rw [hn]
      exact min_eq_left (by simpa [u] using hd)
    unfold txTransmit
    dsimp only
    rw [if_neg hmode]
    have hbytes : ceil8 (feCmd .clearFifo (emit .preTxRx s)).ctx.txBufLen.toNat = n.toNat := by simpa [hn] using hlen
    rw [hbytes, txFire, toLen_toNat]
    show (txHandOver (min n.toNat u.params.fifoDepth) u >>= _) = _
    rw [hmin, hover, ok_bind]
    simp [w, u, txAfterHandOver, hcrc]
  refine ⟨w.env, ?_, ?_, ?_⟩
  · rw [hfire]
    simp [w, u]
  · refine ⟨⟨?_, ?_, ?_, ?_, ?_⟩, ?_, ?_, ?_, ?_⟩ <;> simp [w, u, calls_frontEnd, atCall_fe_of_idle, hscript, commandEffect, hp, he]
  · simp [w, u]

/-- The gates before the first transmit attempt with no guard time running and no FDT-Poll set (R131 to R133). -/
theorem txrxStep_ungated {s : State} (hx : s.txrxState = .txIdle) (hgt : s.sw.gt = false) (hf : s.timing.fdtPoll = 0) :
    txrxStep s = txTransmit { s with txrxState := .txTransmit } := by
  have hsw : (swDisarm .gt { s with txrxState := .txWaitGt }) = { s with txrxState := .txWaitGt } := by
    rw [swDisarm, setArmed, ← hgt]
  have hpoll : ∀ b : Bool, (b || s.timing.fdtPoll == 0) = true := by simp [hf]
  simp only [txrxStep, hx, txIdle, txWaitGt, hgt, Bool.false_eq_true, if_false, hsw, txWaitFdt, hpoll, if_true]

/-! ## A poll -/

/-- The turn before the next call leaves `fifo` in the FIFO and raises the flags `g`. -/
def TurnBrings (s : State) (fifo : List Byte) (g : Word) : Prop :=
  (atCall s).env.fe = raiseFlags g { s.env.fe with fifo := fifo }

theorem turnBrings_nothing {s : State} (h : s.env.script = []) : TurnBrings s s.env.fe.fifo 0 := by
  simp [TurnBrings, atCall_quiet h, raiseFlags]

theorem turnBrings_raise {s : State} {g : Word} {rest : List (List EnvEvent)} (h : s.env.script = [.raise g] :: rest) :
    TurnBrings s s.env.fe.fifo g := by
  simp [TurnBrings, atCall, envTurn, h, applyEvents, applyEvent]

theorem turnBrings_drain {s : State} {n : Nat} {g : Word} {rest : List (List EnvEvent)}
    (h : s.env.script = [.drain n, .raise g] :: rest) : TurnBrings s (s.env.fe.fifo.drop n) g := by
  simp [TurnBrings, atCall, envTurn, h, applyEvents, applyEvent]

/-- Bytes for which an empty FIFO has room all enter it. -/
theorem turnBrings_receive {s : State} {bytes : List Byte} {g : Word} {rest : List (List EnvEvent)}
    (h : s.env.script = [.receive bytes, .raise g] :: rest) (he : s.env.fe.fifo = [])
    (hd : bytes.length ≤ s.params.fifoDepth) : TurnBrings s bytes g := by
  simp [TurnBrings, atCall, envTurn, h, applyEvents, applyEvent, receiveBytes, he, List.take_of_length_le hd]

/-- Of the flags `t`, all enabled, those pending after a turn are those pending before and those raised. -/
theorem raised_within {pend g en a t p : Word} (hp : pend &&& t = p) (he : en &&& t = t) (ha : a &&& t = t) :
    (pend ||| (g &&& en &&& a)) &&& t = p ||| (g &&& t) := by
  calc (pend ||| (g &&& en &&& a)) &&& t
      = (pend &&& t) ||| (g &&& (en &&& t) &&& (a &&& t)) := by
        ext i
        simp only [BitVec.getElem_and, BitVec.getElem_or]
        grind
    _ = p ||| (g &&& t) := by rw [hp, he, ha, BitVec.and_assoc, BitVec.and_self]

/-- A poll of flags of the exchange: its answer, and what it leaves pending (R56, R225). -/
theorem poll_reaches {v : Env} {s : State} {script : List (List EnvEvent)} {fifo fifo' : List Byte} {p g m : Word}
    (h : Reaches v script fifo p s.env) (ht : TurnBrings s fifo' g) (hm : txrxIrqs &&& m = m) :
    (feGetIrq m s).1 = (p ||| (g &&& txrxIrqs)) &&& m ∧
    Reaches v script.tail fifo' ((p ||| (g &&& txrxIrqs)) &&& ~~~m) (feGetIrq m s).2.env := by
  have hq : (s.env.fe.irqPending ||| (g &&& s.env.fe.irqEnable &&& irqAll)) &&& txrxIrqs = p ||| (g &&& txrxIrqs) :=
    raised_within h.pending h.enabled (by decide)
  have hpend : (atCall s).env.fe.irqPending = s.env.fe.irqPending ||| (g &&& s.env.fe.irqEnable &&& irqAll) := by
    rw [ht]
    rfl
  have hfe : (feGetIrq m s).2.env.fe =
      { (atCall s).env.fe with irqPending := (atCall s).env.fe.irqPending &&& ~~~m } := (feGetIrq_env m s).2.2
  refine ⟨?_, ?_⟩
  · rw [(feGetIrq_spec m s).1, pendingIn, hpend, ← hq, BitVec.and_assoc (_ ||| _) txrxIrqs m, hm]
  · refine ⟨h.toKeeps.trans ⟨by simp, ?_, ?_, ?_, ?_⟩, by simp [h.script], ?_, ?_, ?_⟩
    · rw [hfe, ht]; rfl
    · rw [hfe, ht]; rfl
    · rw [hfe, ht]; rfl
    · rw [hfe, ht]; rfl
    · rw [hfe, ht]; rfl
    · rw [hfe, ← hq, ← hpend]
      ext i
      simp only [BitVec.getElem_and]
      grind
    · rw [hfe]
      simpa using h.enabled

/-! ## The end of the transmission and the start of the reception -/

/-- The transmission ends, and a reception is to follow (R137, R138). -/
theorem txWaitTxe_reaches {v : Env} {s : State} {script : List (List EnvEvent)} {fifo fifo' : List Byte}
    (hx : s.txrxState = .txWaitTxe) (hrx : s.ctx.rxBuf ≠ nullAddr) (h : Reaches v script fifo 0 s.env)
    (ht : TurnBrings s fifo' irqTXE) :
    ∃ w, txrxStep s = .ok { s with txrxState := .rxIdle, env := w } ∧ Reaches v script.tail fifo' 0 w := by
  obtain ⟨ha, hr⟩ := poll_reaches h ht (m := irqWL ||| irqTXE) (by decide)
  refine ⟨_, ?_, hr⟩
  have hflag : has (feGetIrq (irqWL ||| irqTXE) s).1 irqTXE = true := by
    rw [ha]
    decide
  simp only [txrxStep, hx, txWaitTxe, hflag, if_true, txDone]
  rw [if_neg (by simpa using hrx)]
  rfl

/-- The reception starts, in passive communication and with no FDT-Poll set, without a call (R153). -/
theorem rxIdle_quietly {s : State} (hx : s.txrxState = .rxIdle) (htx : s.ctx.txAbsent = false)
    (hm : isActive s.mode = false) (hf : s.timing.fdtPoll = 0) : txrxStep s = .ok { s with
      txrxState := .rxWaitRxs, fifo := ⟨0, 0, s.params.fifoRxWl⟩, eofSeen := false
      cache := { s.cache with valid := false } } := by
  have hreset : rxIdleReset s = cacheInvalidate { s with fifo := ⟨0, 0, s.params.fifoRxWl⟩, eofSeen := false } := by
    simp only [rxIdleReset, htx, Bool.false_eq_true, if_false]
  simp [txrxStep, hx, rxIdle, rxIdleTimers, hreset, htx, hm, hf]

/-- The exchange of a synchronous primitive once it is set up: it will send the frame `sent`, which fits the FIFO, at once and
without CRC, and keep the CRC of the response. -/
structure ReadyToSend (s : State) (sent : List Byte) : Prop where
  txrxState : s.txrxState = .txIdle
  status : s.status = .busy
  mode : s.mode = .pollNfcA
  guardTime : s.sw.gt = false
  fdtPoll : s.timing.fdtPoll = 0
  crcTx : crcTxManual s.ctx.flags = true
  crcRx : crcRxKeep s.ctx.flags = true
  source : txSource 0 sent.length s = .ok sent
  length : ceil8 s.ctx.txBufLen.toNat = sent.length
  nonempty : sent ≠ []
  fits : sent.length ≤ s.params.fifoDepth
  present : s.ctx.txAbsent = false
  destination : s.ctx.rxBuf ≠ nullAddr

/-- The state in which such an exchange waits for the response (R153). -/
def awaiting (s : State) (w : Env) : State :=
  { s with
    txrxState := .rxWaitRxs, fifo := ⟨0, 0, s.params.fifoRxWl⟩, eofSeen := false
    cache := { s.cache with valid := false }, env := w }

/-- The whole transmission: three steps of the spin, to the wait for the response. -/
theorem spin_transmits {v : Env} {s : State} {turn : List EnvEvent} {rest : List (List EnvEvent)} {sent fifo' fifo₀ : List Byte}
    (k : Nat) (hs : ReadyToSend s sent) (h : Reaches v (idleTurns 4 ++ turn :: rest) fifo₀ 0 s.env)
    (ht : ∀ u : State, u.env.script = turn :: rest → u.env.fe.fifo = sent → TurnBrings u fifo' irqTXE) :
    ∃ w, spinExchange (k + 3) s = spinExchange k (awaiting s w) ∧ Reaches v rest fifo' 0 w ∧
      .feConfig (.txLengthBits s.ctx.txBufLen.toNat) ∈ w.trace ∧ .feFifoWrite sent ∈ w.trace ∧
      .feCmd .txWithoutCrc ∈ w.trace := by
  have hn : (BitVec.ofNat 16 sent.length).toNat = sent.length := by
    have hlt := s.ctx.txBufLen.isLt
    have hlen := hs.length
    rw [ceil8] at hlen
    exact Nat.mod_eq_of_lt (by omega)
  obtain ⟨w1, h1, hr1, htrace⟩ : ∃ v1 : Env, txTransmit { s with txrxState := .txTransmit } = .ok { s with
        txrxState := .txWaitTxe, fifo := ⟨BitVec.ofNat 16 sent.length, BitVec.ofNat 16 sent.length, s.params.fifoTxRefill⟩
        env := v1 } ∧
      Reaches s.env (turn :: rest) sent 0 v1 ∧
      v1.trace = s.env.trace ++ [.preTxRx, .feCmd .clearFifo, .feConfig (.txLengthBits s.ctx.txBufLen.toNat),
        .feFifoWrite sent, .feCmd .txWithoutCrc] :=
    txTransmit_reaches (s := { s with txrxState := .txTransmit }) h.script (by simp [hs.mode]) hs.crcTx hs.nonempty hn
      hs.length hs.fits (by simpa [txSource, scratchRead, bufRead] using hs.source) h.pending h.enabled
  let u : State := { s with
    txrxState := .txWaitTxe, fifo := ⟨BitVec.ofNat 16 sent.length, BitVec.ofNat 16 sent.length, s.params.fifoTxRefill⟩
    env := w1 }
  obtain ⟨w2, h2, hr2⟩ := txWaitTxe_reaches (s := u) rfl hs.destination hr1.here (ht u hr1.script hr1.fifo)
  have h3 := rxIdle_quietly (s := { u with txrxState := .rxIdle, env := w2 }) rfl hs.present (by simp [u, hs.mode, isActive])
    hs.fdtPoll
  refine ⟨w2, ?_, hr2.from (h.toKeeps.trans hr1.toKeeps), ?_⟩
  · rw [spinExchange_succ (by simp [hs.txrxState]), txrxStep_ungated hs.txrxState hs.guardTime hs.fdtPoll, h1, ok_bind]
    show spinExchange (k + 2) u = _
    rw [spinExchange_succ (by simp [u]), h2, ok_bind, spinExchange_succ (by simp), h3, ok_bind]
    rfl
  · have hmem := fun e he => hr2.trace.subset (a := e) (htrace ▸ List.mem_append_right s.env.trace he)
    exact ⟨hmem _ (by simp), hmem _ (by simp), hmem _ (by simp)⟩

/-! ## The reception -/

/-- Arming a software timer is outside what `Reaches` says. -/
theorem Reaches.swArm {v : Env} {s : State} {r : List (List EnvEvent)} {f : List Byte} {p : Word}
    (h : Reaches v r f p s.env) (t : SwTimer) (d : Nat) : Reaches v r f p (swArm t d s).env := by
  obtain ⟨htrace, hscript, hfe⟩ := setSwClock_keeps t ⟨d, false⟩ s.env
  rw [swArm_env]
  refine ⟨⟨?_, ?_, ?_, ?_, ?_⟩, ?_, ?_, ?_, ?_⟩
  · rw [htrace]; exact h.trace
  · rw [hfe]; exact h.incompleteBits
  · rw [hfe]; exact h.missingParity
  · rw [hfe]; exact h.collisionBytes
  · rw [hfe]; exact h.collisionBits
  · rw [hscript]; exact h.script
  · rw [hfe]; exact h.fifo
  · rw [hfe]; exact h.pending
  · rw [hfe]; exact h.enabled

theorem Reaches.emit {v : Env} {s : State} {r : List (List EnvEvent)} {f : List Byte} {p : Word}
    (h : Reaches v r f p s.env) (e : Event) : Reaches v r f p (emit e s).env :=
  { h with trace := h.trace.trans ⟨_, rfl⟩ }

section
variable {v : Env} {s : State} {script : List (List EnvEvent)} {fifo fifo' : List Byte}

/-- A response starts (R155): the guard is armed, and the wait for its end begins in the same step. -/
theorem rxWaitRxs_started (hm : s.mode = .pollNfcA) (h : Reaches v script fifo 0 s.env) (ht : TurnBrings s fifo' irqRXS) :
    ∃ w, rxWaitRxs s = rxWaitRxe { s with
        txrxState := .rxWaitRxe, eofSeen := false, sw := { s.sw with rxeGuard := true }, env := w } ∧
      Reaches v script.tail fifo' 0 w := by
  obtain ⟨ha, hr⟩ := poll_reaches h ht (m := irqRXS ||| irqNRE ||| eofIfActive s.mode) (by rw [hm]; decide)
  have hanswer : (feGetIrq (irqRXS ||| irqNRE ||| eofIfActive s.mode) s).1 = irqRXS := by
    rw [ha, hm]
    decide
  rw [show (0 ||| (irqRXS &&& txrxIrqs)) &&& ~~~(irqRXS ||| irqNRE ||| eofIfActive s.mode) = 0 by rw [hm]; decide] at hr
  refine ⟨_, ?_, hr.swArm .rxeGuard Config.rxeGuardTout⟩
  have hne : irqRXS ≠ 0 := by decide
  have hrxs : has irqRXS irqRXS = true := by decide
  have heof : has irqRXS irqEOF = false := by decide
  simp only [rxWaitRxs, hanswer, if_neg hne, hrxs, if_true, heof]
  simp

/-- Nobody answers (R155): the exchange ends with `Timeout`, and with the length 0 where nothing was copied (R169). -/
theorem rxWaitRxs_timeout (hm : s.mode = .pollNfcA) (h : Reaches v script fifo 0 s.env) (ht : TurnBrings s fifo' irqNRE)
    (hw : s.fifo.bytesWritten = 0) : ∃ w, rxWaitRxs s = .ok { s with
      txrxState := .idle, status := .timeout, rxRcvdLen := 0, sw := { s.sw with rxeGuard := false, apFwt := false }
      env := w } := by
  obtain ⟨ha, -⟩ := poll_reaches h ht (m := irqRXS ||| irqNRE ||| eofIfActive s.mode) (by rw [hm]; decide)
  have hanswer : (feGetIrq (irqRXS ||| irqNRE ||| eofIfActive s.mode) s).1 = irqNRE := by
    rw [ha, hm]
    decide
  have hne : irqNRE ≠ 0 := by decide
  have hrxs : has irqNRE irqRXS = false := by decide
  have heof : has irqNRE irqEOF = false := by decide
  simp only [rxWaitRxs, hanswer, if_neg hne, hrxs, heof, Bool.false_eq_true, if_false]
  generalize irqRXS ||| irqNRE ||| eofIfActive s.mode = m
  have hlen : toLen (8 * (feGetIrq m s).2.fifo.bytesWritten.toNat) = .ok 0 := by simp [hw]; rfl
  rw [rxFailWith, hlen, ok_bind]
  exact ⟨(endExchange .timeout { (feGetIrq m s).2 with status := .timeout, rxRcvdLen := 0, txrxState := .rxFail }).env,
    by simp [rxFail, endExchange]⟩

/-- The flags the front end raises at the end of a frame without or with a collision, beside `RXE` (R163). -/
def frameError (col : Bool) : Word := if col then irqCOL else 0

/-- The frame ends (R157). -/
theorem rxWaitRxe_ended {col : Bool} (hm : s.mode = .pollNfcA) (h : Reaches v script fifo 0 s.env)
    (ht : TurnBrings s fifo' (if col then irqRXE ||| irqCOL else irqRXE)) :
    ∃ w, rxWaitRxe s = rxErrCheck { s with
        txrxState := .rxErrCheck, sw := { s.sw with rxeGuard := false }, env := w } ∧
      Reaches v script.tail fifo' (frameError col) w := by
  obtain ⟨ha, hr⟩ := poll_reaches h ht (m := irqRXE ||| irqWL ||| eofIfActive s.mode) (by rw [hm]; decide)
  have hanswer : (feGetIrq (irqRXE ||| irqWL ||| eofIfActive s.mode) s).1 = irqRXE := by
    rw [ha, hm]
    cases col <;> decide
  have hleft : (0 ||| ((if col then irqRXE ||| irqCOL else irqRXE) &&& txrxIrqs)) &&&
      ~~~(irqRXE ||| irqWL ||| eofIfActive s.mode) = frameError col := by
    rw [hm]
    cases col <;> decide
  rw [hleft] at hr
  refine ⟨_, ?_, hr⟩
  have hrxe : has irqRXE irqRXE = true := by decide
  have heof : has irqRXE irqEOF = false := by decide
  simp only [rxWaitRxe, hanswer, heof, Bool.false_eq_true, if_false, hrxe, if_true]
  simp

/-- The classification of a whole frame that came in without an error but for a collision (R158). -/
theorem classify_frameError (policy : Policy) (mode : Mode) (total n : Nat) (col : Bool) :
    classify policy mode total (frameError col &&& errIrqs) n 0 false =
      if col then .error .rfCollision else .noError := by
  have herr1 : has (frameError col &&& errIrqs) irqERR1 = false := by cases col <;> decide
  have herr2 : has (frameError col &&& errIrqs) irqERR2 = false := by cases col <;> decide
  have hpar : has (frameError col &&& errIrqs) irqPAR = false := by cases col <;> decide
  have hcrc : has (frameError col &&& errIrqs) irqCRC = false := by cases col <;> decide
  have hcol : has (frameError col &&& errIrqs) irqCOL = col := by cases col <;> decide
  simp [classify, nfcaShortReply, herr1, herr2, hpar, hcrc, hcol]

/-- The error check of such a frame, with nothing left in the script (R159): the collision is recorded, and the frame is
delivered all the same. -/
theorem rxErrCheck_delivers {col : Bool} (h : Reaches v [] fifo (frameError col) s.env) (hib : v.fe.incompleteBits = 0)
    (hmp : v.fe.missingParity = false) (hpol : col = true → s.policy = .policyNone) :
    ∃ w, rxErrCheck s = rxReadData { s with
        txrxState := .rxReadData, status := if col then .rfCollision else s.status
        cache := ⟨true, fifo.length, 0, false⟩, env := w } ∧
      Reaches v [] fifo 0 w := by
  let u := (feGetIrq errIrqs (cacheInvalidate s)).2
  obtain ⟨ha, hr⟩ := poll_reaches (s := cacheInvalidate s) h (turnBrings_nothing h.script) (m := errIrqs) (by decide)
  rw [show (cacheInvalidate s).env.fe.fifo = fifo from h.fifo] at hr
  rw [show (frameError col ||| (0 &&& txrxIrqs)) &&& ~~~errIrqs = 0 by cases col <;> decide] at hr
  rw [show frameError col ||| (0 &&& txrxIrqs) = frameError col by cases col <;> decide] at ha
  have hu : Reaches v [] fifo 0 u.env := hr
  have hstatus : fifoStatus u = { emit (.feFifoStatus fifo.length 0 false) u with cache := ⟨true, fifo.length, 0, false⟩ } := by
    have hval : u.cache.valid = false := by simp [u]
    rw [fifoStatus, hval, if_neg Bool.false_ne_true]
    simp only [atCall_quiet hu.script, hu.fifo, hu.incompleteBits, hu.missingParity, hib, hmp]
  refine ⟨_, ?_, hu.emit (.feFifoStatus fifo.length 0 false)⟩
  have hcheck : rxErrCheck s =
      rxOnVerdict (classify (fifoStatus u).policy (fifoStatus u).mode (fifoStatus u).fifo.bytesTotal.toNat
        (feGetIrq errIrqs (cacheInvalidate s)).1 (fifoStatus u).cache.numBytes (fifoStatus u).cache.incompleteBits
        (fifoStatus u).cache.missingParity) (fifoStatus u) := rfl
  rw [hcheck, ha, hstatus]
  dsimp only
  rw [classify_frameError]
  cases col with
  | false => simp [rxOnVerdict, u]
  | true =>
    have hkeep : (Policy.policyNone == .policyEMVCo) = false := rfl
    simp [rxOnVerdict, u, emdDiscard, hpol rfl, hkeep]

/-- The bytes a reception delivers: the first is merged into what the buffer holds after a split byte (R123). -/
def delivered (s : State) (bytes : List Byte) : List Byte :=
  if s.ctx.splitByte then mergeFirst (readByte s.buf s.ctx.rxBuf.toNat) bytes else bytes

@[simp] theorem delivered_length (s : State) (bytes : List Byte) : (delivered s bytes).length = bytes.length := by
  unfold delivered
  split <;> simp

/-- The first drain of a frame to BUF empties the FIFO (R151, R162). -/
theorem rxCopy_all {n : Len} {p : Word} (h : Reaches v [] fifo p s.env) (hn : n.toNat = fifo.length) (hne : fifo ≠ [])
    (hm : s.mode = .pollNfcA) (hw : s.fifo.bytesWritten = 0)
    (hb : bufAccessOk s.params s.ctx.rxBuf.toNat fifo.length = true) :
    ∃ w, rxCopy fifo.length s = .ok { s with
        fifo := { s.fifo with bytesWritten := n }, buf := writeBytes s.buf s.ctx.rxBuf.toNat (delivered s fifo), env := w } ∧
      Reaches v [] [] p w := by
  let u := emit (.feFifoRead fifo) (withFe (fun f => { f with fifo := f.fifo.drop fifo.length }) s)
  have hread : feFifoRead fifo.length s = .ok (fifo, u) := by
    have hlen : fifo.length ≠ 0 := by simpa using hne
    simp only [feFifoRead, if_neg hlen, atCall_quiet h.script, h.fifo, le_refl, if_true, List.take_length, u]
  have hdeliver : rxDeliver 0 fifo u = .ok { u with buf := writeBytes s.buf s.ctx.rxBuf.toNat (delivered s fifo) } := by
    have hmode : u.mode ≠ .pollNfcV := by simp [u, hm]
    rw [rxDeliver, if_neg hmode, rxBufWrite]
    have hbytes : (if u.ctx.splitByte && (0 : Nat) == 0 then mergeFirst (readByte u.buf (u.ctx.rxBuf.toNat + 0)) fifo
        else fifo) = delivered s fifo := by simp [u, delivered]
    rw [hbytes, bufWrite, delivered_length, if_pos (by simpa [u] using hb)]
    simp [u]
  have hu : Reaches v [] [] p u.env := by
    refine ⟨⟨?_, ?_, ?_, ?_, ?_⟩, ?_, ?_, ?_, ?_⟩
    · simpa [u] using h.trace.trans ⟨_, rfl⟩
    · simpa [u] using h.incompleteBits
    · simpa [u] using h.missingParity
    · simpa [u] using h.collisionBytes
    · simpa [u] using h.collisionBits
    · simpa [u] using h.script
    · simp [u, h.fifo]
    · simpa [u] using h.pending
    · simpa [u] using h.enabled
  have hwu : u.fifo.bytesWritten.toNat = 0 := by simp [u, hw]
  refine ⟨u.env, ?_, hu⟩
  rw [rxCopy, hread, ok_bind]
  dsimp only
  rw [hwu, hdeliver, ok_bind]
  dsimp only
  rw [hwu, Nat.zero_add, ← hn, toLen_toNat, ok_bind]
  simp [u]

/-- Cleanup, with nothing left in the script, is outside what `Keeps` says. -/
theorem Reaches.endExchange {p : Word} (h : Reaches v [] fifo p s.env) (e : Status) :
    Keeps v (endExchange e s).env ∧ (endExchange e s).env.script = [] := by
  have henv : (Machine.endExchange e s).env = (cleanup s).env := rfl
  have hfe : (cleanup s).env.fe = (feIrqDisable txrxIrqs (Machine.feConfig (.flags 0) s)).env.fe := by
    simp [cleanup]
  have hscript : (Machine.endExchange e s).env.script = [] := by rw [henv]; simp [cleanup, h.script]
  refine ⟨h.toKeeps.trans ⟨by simp, ?_, ?_, ?_, ?_⟩, hscript⟩ <;>
    rw [henv, hfe] <;> simp [calls_frontEnd, atCall_quiet, h.script]

/-- The state in which an exchange has ended (R118). -/
theorem endExchange_eq (e : Status) (s : State) (x : TxrxState) : endExchange e { s with txrxState := x } = { s with
    txrxState := .idle, status := e, sw := { s.sw with rxeGuard := false, apFwt := false }
    env := (endExchange .none s).env } := by
  simp only [Machine.endExchange, cleanup_fields, cleanup_sw]
  rfl

/-- The edge out of `RX_READ_DATA` in passive communication (R162): the exchange ends with the recorded status. -/
theorem rxAfterData_passive (hm : isActive s.mode = false) : rxAfterData s = .ok { s with
    txrxState := .idle, status := if s.status = .busy then .none else s.status
    sw := { s.sw with rxeGuard := false, apFwt := false }, env := (endExchange .none s).env } := by
  by_cases hb : s.status = .busy
  · rw [rxAfterData, if_neg (not_not.2 hb), if_neg (by simp [hm]), rxDone, endExchange_eq, if_pos hb]
  · rw [rxAfterData, if_pos hb, rxFail, endExchange_eq, if_neg hb]

/-- A frame is delivered whole, with its CRC kept, and the exchange ends (R162, R163, R166, R167). -/
theorem rxReadData_ends {n l : Len} {p : Word} (h : Reaches v [] fifo p s.env) (hn : n.toNat = fifo.length)
    (hl : l.toNat = 8 * fifo.length) (hne : fifo ≠ []) (hm : s.mode = .pollNfcA) (hkeep : crcRxKeep s.ctx.flags = true)
    (hc : s.cache = ⟨true, fifo.length, 0, false⟩) (hf : s.fifo = ⟨0, 0, s.params.fifoRxWl⟩)
    (hcap : fifo.length ≤ ceil8 s.ctx.rxBufLen.toNat)
    (hb : bufAccessOk s.params s.ctx.rxBuf.toNat fifo.length = true) :
    ∃ w, rxReadData s = .ok { s with
        txrxState := .idle, status := if s.status = .busy then .none else s.status, fifo := ⟨n, n, s.params.fifoRxWl⟩
        rxRcvdLen := l, sw := { s.sw with rxeGuard := false, apFwt := false }
        buf := writeBytes s.buf s.ctx.rxBuf.toNat (delivered s fifo), env := w } ∧
      Keeps v w ∧ w.script = [] := by
  have hstatus : fifoStatus s = s := by rw [fifoStatus, hc]; rfl
  obtain ⟨w, hcopy, hr⟩ := rxCopy_all h hn hne hm (by rw [hf]) hb
  let t : State := { s with
    fifo := ⟨0, n, s.params.fifoRxWl⟩, buf := writeBytes s.buf s.ctx.rxBuf.toNat (delivered s fifo), env := w }
  have ht : rxCopy fifo.length s = .ok t := by rw [hcopy, hf]
  have hl0 : s.fifo.bytesTotal.toNat + s.cache.numBytes = fifo.length := by simp [hf, hc]
  have hcap' : fifo.length ≤ rxCap s := by simpa [rxCap, hm] using hcap
  have hrep : reportedBytes s fifo.length = fifo.length := by simp [reportedBytes, hkeep]
  have hmode : t.mode ≠ .pollNfcV := by simp [t, hm]
  have hbits : reportedBits t fifo.length = .ok l := by
    have hlen : bitLen fifo.length 0 = l.toNat := by simp [bitLen, hl]
    rw [reportedBits, if_neg hmode, ← toLen_toNat, ← hlen]
    simp [t, hc]
  have hcount : min fifo.length (rxCap s) - s.fifo.bytesWritten.toNat = fifo.length := by
    rw [min_eq_left hcap', hf]
    rfl
  have htotal : toLen fifo.length = .ok n := by rw [← toLen_toNat, hn]
  have hroom : ¬ (rxCap t < fifo.length ∧ t.status = .busy) := fun hlt => absurd hlt.1 (not_lt.2 hcap')
  let u : State := { t with fifo := ⟨n, n, s.params.fifoRxWl⟩, rxRcvdLen := l }
  obtain ⟨hkeeps, hscript⟩ := Reaches.endExchange (s := u) hr .none
  refine ⟨(endExchange .none u).env, ?_, hkeeps, hscript⟩
  unfold rxReadData
  rw [hstatus]
  dsimp only
  rw [hl0, hrep, hcount, ht, ok_bind, htotal, ok_bind, hbits, ok_bind, if_neg hmode, if_neg hroom, ok_bind]
  exact rxAfterData_passive (s := u) (by simp [u, t, hm, isActive])

/-- The whole reception (R155, R157, R159, R162): one step of the spin ends the exchange. -/
theorem rxWaitRxs_answered {bytes : List Byte} {col : Bool} {n l : Len} (hm : s.mode = .pollNfcA)
    (hf : s.fifo = ⟨0, 0, s.params.fifoRxWl⟩) (hb : s.status = .busy) (hkeep : crcRxKeep s.ctx.flags = true)
    (h : Reaches v [[.receive bytes, .raise irqRXS], [.raise (if col then irqRXE ||| irqCOL else irqRXE)]] [] 0 s.env)
    (hib : v.fe.incompleteBits = 0) (hmp : v.fe.missingParity = false) (hpol : col = true → s.policy = .policyNone)
    (hn : n.toNat = bytes.length) (hl : l.toNat = 8 * bytes.length) (hne : bytes ≠ [])
    (hd : bytes.length ≤ s.params.fifoDepth) (hcap : bytes.length ≤ ceil8 s.ctx.rxBufLen.toNat)
    (hacc : bufAccessOk s.params s.ctx.rxBuf.toNat bytes.length = true) :
    ∃ w, rxWaitRxs s = .ok { s with
        txrxState := .idle, status := if col then .rfCollision else .none, eofSeen := false
        fifo := ⟨n, n, s.params.fifoRxWl⟩, cache := ⟨true, bytes.length, 0, false⟩, rxRcvdLen := l
        sw := { s.sw with rxeGuard := false, apFwt := false }
        buf := writeBytes s.buf s.ctx.rxBuf.toNat (delivered s bytes), env := w } ∧
      Keeps v w ∧ w.script = [] := by
  obtain ⟨w1, h1, hr1⟩ := rxWaitRxs_started hm h (turnBrings_receive h.script h.fifo hd)
  let s1 : State := { s with
    txrxState := .rxWaitRxe, eofSeen := false, sw := { s.sw with rxeGuard := true }, env := w1 }
  have ht1 : TurnBrings s1 bytes (if col then irqRXE ||| irqCOL else irqRXE) := by
    have ht := turnBrings_raise (s := s1) hr1.script
    rwa [show s1.env.fe.fifo = bytes from hr1.fifo] at ht
  obtain ⟨w2, h2, hr2⟩ := rxWaitRxe_ended (s := s1) hm hr1 ht1
  obtain ⟨w3, h3, hr3⟩ := rxErrCheck_delivers
    (s := { s1 with txrxState := .rxErrCheck, sw := { s1.sw with rxeGuard := false }, env := w2 }) hr2 hib hmp hpol
  obtain ⟨w4, h4, hkeeps, hscript⟩ := rxReadData_ends (n := n) (l := l)
    (s := { s1 with
      txrxState := .rxReadData, status := if col then .rfCollision else s.status, sw := { s1.sw with rxeGuard := false }
      cache := ⟨true, bytes.length, 0, false⟩, env := w3 }) hr3 hn hl hne hm hkeep rfl hf hcap hacc
  refine ⟨w4, ?_, hkeeps, hscript⟩
  rw [h1, h2, h3, h4]
  cases col <;> simp [s1, hb, delivered]

end

/-- A whole exchange of a synchronous primitive whose frame is answered (R122, R123): the spin ends, and the response lies in
the rx buffer. -/
theorem spin_answered {v : Env} {s : State} {sent bytes fifo₀ : List Byte} {col : Bool} {n l : Len} (hs : ReadyToSend s sent)
    (h : Reaches v (idleTurns 4 ++ [[.drain sent.length, .raise irqTXE], [.receive bytes, .raise irqRXS],
      [.raise (if col then irqRXE ||| irqCOL else irqRXE)]]) fifo₀ 0 s.env)
    (hib : v.fe.incompleteBits = 0) (hmp : v.fe.missingParity = false) (hpol : col = true → s.policy = .policyNone)
    (hn : n.toNat = bytes.length) (hl : l.toNat = 8 * bytes.length) (hne : bytes ≠ [])
    (hd : bytes.length ≤ s.params.fifoDepth) (hcap : bytes.length ≤ ceil8 s.ctx.rxBufLen.toNat)
    (hacc : bufAccessOk s.params s.ctx.rxBuf.toNat bytes.length = true) :
    ∃ w, spinExchange (spinSteps s) s = .ok { s with
        txrxState := .idle, status := if col then .rfCollision else .none, eofSeen := false
        fifo := ⟨n, n, s.params.fifoRxWl⟩, cache := ⟨true, bytes.length, 0, false⟩, rxRcvdLen := l
        sw := { s.sw with rxeGuard := false, apFwt := false }
        buf := writeBytes s.buf s.ctx.rxBuf.toNat (delivered s bytes), env := w } ∧
      Keeps v w ∧ w.script = [] ∧ .feConfig (.txLengthBits s.ctx.txBufLen.toNat) ∈ w.trace ∧ .feFifoWrite sent ∈ w.trace ∧
      .feCmd .txWithoutCrc ∈ w.trace := by
  obtain ⟨w1, h1, hr1, hlen, hwrite, hcmd⟩ := spin_transmits (s.env.script.length + 61) hs h
    (fifo' := []) fun u hu hfifo => by simpa [hfifo] using turnBrings_drain hu
  obtain ⟨w2, h2, hkeeps, hscript⟩ := rxWaitRxs_answered (s := awaiting s w1) (n := n) (l := l) hs.mode rfl hs.status hs.crcRx
    hr1.here (hr1.incompleteBits.trans hib) (hr1.missingParity.trans hmp) hpol hn hl hne hd hcap hacc
  have hmem := fun e he => hkeeps.trace.subset (a := e) he
  refine ⟨w2, ?_, hr1.toKeeps.trans hkeeps, hscript, hmem _ hlen, hmem _ hwrite, hmem _ hcmd⟩
  show spinExchange (s.env.script.length + 61 + 3) s = _
  rw [h1, spinExchange_succ (by simp [awaiting])]
  show (rxWaitRxs (awaiting s w1) >>= _) = _
  rw [h2, ok_bind, spinExchange_of_idle rfl]
  rfl

end Sys2Proof.Machine

/-! # The two synchronous primitives (R122, R123) -/

namespace Sys2Proof.Machine

/-! ## What the buffers hold -/

theorem storedAt_writeBytes {m : Memory} (h : m.wf = true) (a : Nat) (bytes : List Byte) :
    storedAt m (writeBytes m a bytes) a bytes := by
  intro x
  split
  · next hx =>
    obtain ⟨i, rfl⟩ := Nat.exists_eq_add_of_le hx.1
    have hi : i < bytes.length := by omega
    rw [readByte_writeBytes_inside h a bytes hi, Nat.add_sub_cancel_left, List.getD_eq_getElem _ _ hi]
  · next hx => exact readByte_writeBytes_outside h a bytes (by omega)

theorem bufAccessOk_of_le {p : Params} {a n : Nat} (h0 : a ≠ 0) (hle : a + n ≤ p.bufSize) : bufAccessOk p a n = true := by
  simp only [bufAccessOk, Bool.or_eq_true, Bool.and_eq_true, decide_eq_true_eq]
  exact .inr ⟨Nat.pos_of_ne_zero h0, hle⟩

/-- Bytes that fit a buffer in bounds are accessible (R51). -/
theorem bufAccessOk_of_inBounds {p : Params} {a : Word} {bits n : Nat} (h : inBounds p a bits = true) (hn : n ≤ ceil8 bits) :
    bufAccessOk p a.toNat n = true := by
  obtain ⟨h0, hle⟩ := ceil8_le h
  exact bufAccessOk_of_le h0 (by omega)

/-! ## The state an exchange starts in -/

/-- The state in which an exchange with something to send starts, with `w` the environment its set-up leaves (R110, R111). -/
def begun (c : Ctx) (w : Env) (s : State) : State :=
  { s with
    ctx := c, status := .busy, topState := .txRx, fifo := ⟨0, 0, 0⟩, cache := { s.cache with valid := false }
    eofSeen := false, rxRcvdLen := 0, sw := { s.sw with rxeGuard := false, apFwt := false }
    timing := startTiming s c.fwt, txrxState := .txIdle, env := w }

theorem beginExchange_begun {c : Ctx} (h : c.txAbsent = false) (s : State) :
    beginExchange c s = begun c (beginExchange c s).env s := by
  rw [beginExchange_eq, h]
  rfl

/-! ## The state it ends in -/

/-- The state in which an exchange ends whose frame was answered with `bytes`, `n` of them and `l` bits (R123, R162). -/
def answered (c : Ctx) (bytes : List Byte) (n l : Len) (col : Bool) (w : Env) (s : State) : State :=
  { s with
    ctx := c, status := if col then .rfCollision else .none, topState := .txRx, fifo := ⟨n, n, s.params.fifoRxWl⟩
    cache := ⟨true, bytes.length, 0, false⟩, eofSeen := false, rxRcvdLen := l
    sw := { s.sw with rxeGuard := false, apFwt := false }, timing := startTiming s c.fwt, txrxState := .idle
    buf := writeBytes s.buf c.rxBuf.toNat (delivered { s with ctx := c } bytes), env := w }

/-- The state in which an exchange ends that nobody answered (R155, R169). -/
def unanswered (c : Ctx) (w : Env) (s : State) : State :=
  { begun c w s with txrxState := .idle, status := .timeout, fifo := ⟨0, 0, s.params.fifoRxWl⟩ }

section
variable {s : State} {c : Ctx} {u w : Env} {sent fifo₀ : List Byte}

theorem spin_begun {bytes : List Byte} {col : Bool} {n l : Len} (hs : ReadyToSend (begun c w s) sent)
    (h : Reaches u (idleTurns 4 ++ [[.drain sent.length, .raise irqTXE], [.receive bytes, .raise irqRXS],
      [.raise (if col then irqRXE ||| irqCOL else irqRXE)]]) fifo₀ 0 w)
    (hib : u.fe.incompleteBits = 0) (hmp : u.fe.missingParity = false) (hpol : col = true → s.policy = .policyNone)
    (hn : n.toNat = bytes.length) (hl : l.toNat = 8 * bytes.length) (hne : bytes ≠ [])
    (hd : bytes.length ≤ s.params.fifoDepth) (hcap : bytes.length ≤ ceil8 c.rxBufLen.toNat)
    (hacc : bufAccessOk s.params c.rxBuf.toNat bytes.length = true) :
    ∃ v, spinExchange (spinSteps (begun c w s)) (begun c w s) = .ok (answered c bytes n l col v s) ∧
      Keeps u v ∧ v.script = [] ∧ .feConfig (.txLengthBits c.txBufLen.toNat) ∈ v.trace ∧ .feFifoWrite sent ∈ v.trace ∧
      .feCmd .txWithoutCrc ∈ v.trace :=
  spin_answered hs h hib hmp hpol hn hl hne hd hcap hacc

theorem spin_unanswered (hs : ReadyToSend (begun c w s) sent)
    (h : Reaches u (idleTurns 4 ++ [[.raise irqTXE], [.raise irqNRE]]) fifo₀ 0 w) :
    ∃ v, spinExchange (spinSteps (begun c w s)) (begun c w s) = .ok (unanswered c v s) := by
  obtain ⟨w1, h1, hr1, -⟩ := spin_transmits (w.script.length + 61) hs h (fifo' := sent) fun t ht hfifo => by
    simpa [hfifo] using turnBrings_raise ht
  obtain ⟨w2, h2⟩ := rxWaitRxs_timeout (s := awaiting (begun c w s) w1) hs.mode hr1.here (turnBrings_raise hr1.script) rfl
  refine ⟨w2, ?_⟩
  show spinExchange (w.script.length + 61 + 3) (begun c w s) = _
  rw [h1, spinExchange_succ (by simp [awaiting])]
  show (rxWaitRxs (awaiting _ w1) >>= _) = _
  rw [h2, ok_bind, spinExchange_of_idle rfl]
  rfl

end

section
variable {s : State} {c : BitVec 7} {rx : Word} {rxLen : Len} {fwt : Time}

/-- The set-up of a short-frame exchange takes seven turns (R122). -/
theorem shortFrameStart_begun {rest : List (List EnvEvent)} (hs : s.env.script = idleTurns 7 ++ rest) :
    ∃ w, shortFrameStart (shortFrameCtx c rx rxLen fwt) s = begun (shortFrameCtx c rx rxLen fwt) w s ∧
      Reaches s.env rest s.env.fe.fifo 0 w := by
  have hreach := ((beginExchange_reaches (rest := [] :: [] :: rest) hs (shortFrameCtx c rx rxLen fwt)).feConfig
    (.antcl true)).feConfig (.shortFrame true)
  refine ⟨_, ?_, hreach⟩
  rw [shortFrameStart, beginExchange_begun (by simp [Ctx.txAbsent, shortFrameCtx])]
  rfl

theorem shortFrame_ready (w : Env) (hd : 1 ≤ s.params.fifoDepth) (hm : s.mode = .pollNfcA)
    (hrx : inBounds s.params rx rxLen.toNat = true) (hgt : s.sw.gt = false) (hf : s.timing.fdtPoll = 0) :
    ReadyToSend (begun (shortFrameCtx c rx rxLen fwt) w s) [c.setWidth 8] where
  txrxState := rfl
  status := rfl
  mode := hm
  guardTime := hgt
  fdtPoll := hf
  crcTx := show crcTxManual crcManualKeep = true by decide
  crcRx := show crcRxKeep crcManualKeep = true by decide
  source := by simp [txSource, begun, shortFrameCtx, hm]
  length := by simp [begun, shortFrameCtx, ceil8]
  nonempty := by simp
  fits := hd
  present := by simp [Ctx.txAbsent, begun, shortFrameCtx]
  destination := fun h0 => (ceil8_le hrx).1 (congrArg BitVec.toNat h0)

/-! ## SHORT_FRAME_TRANSCEIVE -/

/-- A short frame that the checks let pass: the set-up, the spin, and the way back (R122). -/
theorem exec_shortFrame_of_spin {u t : State} (hready : syncReady s) (hrx : inBounds s.params rx rxLen.toNat = true)
    (hfield : s.fieldOn = true) (hstart : shortFrameStart (shortFrameCtx c rx rxLen fwt) s = u)
    (hspin : spinExchange (spinSteps u) u = .ok t) : exec (.shortFrameTransceive c rx rxLen fwt) s =
      finish t.status { feConfig (.shortFrame false) (feConfig (.antcl false) t) with ret0 := t.rxRcvdLen.setWidth 32 } := by
  have herr : shortFrameError rx rxLen s = none := by
    rw [shortFrameError_ready hready, if_neg (by simp [hrx]), if_neg (by simp [hfield])]
  simp only [exec, execShortFrameTransceive, herr, hstart, hspin, andThen, feConfig_fields]

/-- The configuration a short frame leaves (R122). -/
theorem shortFrameEnd_config (t : State) :
    (feConfig (.shortFrame false) (feConfig (.antcl false) t)).env.fe.config.antcl = some false ∧
    (feConfig (.shortFrame false) (feConfig (.antcl false) t)).env.fe.config.shortFrame = some false := by
  simp [calls_frontEnd, putSetting]

end

/-- A primitive that was not turned away ran one exchange, with one `POST_TXRX` (R119). -/
theorem RunsOneExchange.postHooks_succ {s t : State} (h : RunsOneExchange s t) (ht : t.result ∉ [Status.wrongState, .param]) :
    postHooks t.env.trace = postHooks s.env.trace + 1 :=
  (h.resolve_left fun hturned => ht hturned.2).2

/-- Settles O55: the set-up, then `spin_answered`, or `spin_transmits` and nobody answering. -/
theorem shortFrameCompletes : Obligations.ShortFrameCompletes := by
  refine ⟨?_, ?_⟩
  · intro s c rx rxLen fwt bytes hdepth htop hi hm hfield hrx hgt hf hwf h1 hd hcap hlt hib hmp hscript
    obtain ⟨w, hstart, hreach⟩ := shortFrameStart_begun (c := c) (rx := rx) (rxLen := rxLen) (fwt := fwt)
      (rest := idleTurns 4 ++ [[.drain 1, .raise irqTXE], [.receive bytes, .raise irqRXS], [.raise irqRXE]]) hscript
    have hn : (BitVec.ofNat 16 bytes.length).toNat = bytes.length := Nat.mod_eq_of_lt (by omega)
    have hl : (BitVec.ofNat 16 (8 * bytes.length)).toNat = 8 * bytes.length := Nat.mod_eq_of_lt hlt
    obtain ⟨v, hspin, -, -, hlen, hwrite, hcmd⟩ := spin_begun (col := false)
      (shortFrame_ready w hdepth hm hrx hgt hf) hreach hib hmp (by simp) hn hl
      (List.ne_nil_of_length_pos h1) hd hcap (bufAccessOk_of_inBounds hrx hcap)
    have hexec := exec_shortFrame_of_spin ⟨htop, hi, hm⟩ hrx hfield hstart hspin
    have hpost := (shortFrameTransceive_runsOneExchange hexec).postHooks_succ (by simp [answered])
    obtain ⟨hantcl, hshort⟩ := shortFrameEnd_config (answered (shortFrameCtx c rx rxLen fwt) bytes
      (BitVec.ofNat 16 bytes.length) (BitVec.ofNat 16 (8 * bytes.length)) false v s)
    refine ⟨_, _, _, _, hn, hl, storedAt_writeBytes hwf rx.toNat bytes, ?_, ?_, ?_, ?_, hantcl, hshort, hpost⟩
    · rw [hexec, hi]
      rfl
    · simp [answered, hwrite]
    · simp [answered, hcmd]
    · simpa [answered, shortFrameCtx] using hlen
  · intro s c rx rxLen fwt hdepth htop hi hm hfield hrx hgt hf hscript
    obtain ⟨w, hstart, hreach⟩ := shortFrameStart_begun (c := c) (rx := rx) (rxLen := rxLen) (fwt := fwt)
      (rest := idleTurns 4 ++ [[.raise irqTXE], [.raise irqNRE]]) hscript
    obtain ⟨v, hspin⟩ := spin_unanswered (shortFrame_ready (c := c) (fwt := fwt) w hdepth hm hrx hgt hf) hreach
    refine ⟨(feConfig (.shortFrame false) (feConfig (.antcl false)
      (unanswered (shortFrameCtx c rx rxLen fwt) v s))).env, ?_⟩
    rw [exec_shortFrame_of_spin ⟨htop, hi, hm⟩ hrx hfield hstart hspin, hi]
    rfl

/-! ## ANTICOLLISION_TRANSCEIVE -/

theorem ceil8_bytes_and_bits (n : Nat) (k : BitVec 3) : ceil8 (8 * n + k.toNat) = n + if k = 0 then 0 else 1 := by
  have hk := k.isLt
  have hzero : k = 0 ↔ k.toNat = 0 := BitVec.toNat_inj.symm
  rw [if_congr hzero rfl rfl, ceil8]
  split <;> omega

theorem mergeFirst_of_ne_nil {bytes : List Byte} (h : bytes ≠ []) (old : Byte) :
    mergeFirst old bytes = (bytes.headD 0 ||| old) :: bytes.tail := by
  cases bytes with
  | nil => exact absurd rfl h
  | cons b bs => rfl

section
variable {s : State} {b : Word} {n : Byte} {k : BitVec 3} {fwt : Time}

/-- The context of an anticollision exchange (R123), up to the length it sends. -/
theorem anticollisionCtx_eq (b : Word) (n : Byte) (k : BitVec 3) (fwt : Time) : ∃ tl : Len,
    tl.toNat = 8 * n.toNat + k.toNat ∧
    anticollisionCtx b n k fwt = ⟨b, tl, b + n.setWidth 32, 40, 0b00011, fwt, none, k != 0⟩ := by
  refine ⟨(anticollisionCtx b n k fwt).txBufLen, toNat_anticollision_txBufLen b n k fwt, ?_⟩
  have hrx : BitVec.ofNat 32 (b.toNat + n.toNat) = b + n.setWidth 32 := by
    apply BitVec.eq_of_toNat_eq
    simp
  simp only [anticollisionCtx, hrx]
  rfl

theorem anticollisionCtx_present (hb : b ≠ 0) : (anticollisionCtx b n k fwt).txAbsent = false := by
  simpa [Ctx.txAbsent, anticollisionCtx, nullAddr] using hb

/-- The set-up of an anticollision exchange takes six turns (R123). -/
theorem anticollisionStart_begun {rest : List (List EnvEvent)} (hb : b ≠ 0) (hs : s.env.script = idleTurns 6 ++ rest) :
    ∃ w fifo, beginExchange (anticollisionCtx b n k fwt) (feConfig (.antcl true) s) =
        begun (anticollisionCtx b n k fwt) w s ∧ Reaches s.env rest fifo 0 w := by
  have hidle : s.env.script.head? = some [] := by rw [hs]; rfl
  have hscript : (feConfig (.antcl true) s).env.script = idleTurns 5 ++ rest := by
    simp [hs]
    rfl
  have hreach := beginExchange_reaches hscript (anticollisionCtx b n k fwt)
  refine ⟨_, _, ?_, hreach.from (feConfig_keeps hidle _)⟩
  rw [beginExchange_begun (anticollisionCtx_present hb)]
  rfl

theorem anticollision_ready {sent : Nat} (w : Env) (hm : s.mode = .pollNfcA) (hb : b ≠ 0)
    (hroom : b.toNat + n.toNat + 6 ≤ s.params.bufSize) (hsize : s.params.bufSize ≤ 2 ^ 32) (hx : n ≠ 0 ∨ k ≠ 0)
    (hgt : s.sw.gt = false) (hf : s.timing.fdtPoll = 0) (hsent : sent = n.toNat + if k = 0 then 0 else 1)
    (hd : sent ≤ s.params.fifoDepth) :
    ReadyToSend (begun (anticollisionCtx b n k fwt) w s) (readBytes s.buf b.toNat sent) where
  txrxState := rfl
  status := rfl
  mode := hm
  guardTime := hgt
  fdtPoll := hf
  crcTx := show crcTxManual crcManualKeep = true by decide
  crcRx := show crcRxKeep crcManualKeep = true by decide
  source := by
    have hle : sent ≤ n.toNat + 1 := by rw [hsent]; split <;> omega
    have hacc : bufAccessOk s.params b.toNat sent = true := bufAccessOk_of_le (BitVec.toNat_inj.not.2 hb) (by omega)
    simp [txSource, begun, anticollisionCtx, hm, bufRead, hacc]
  length := by
    rw [readBytes_length, hsent, ← ceil8_bytes_and_bits, ← toNat_anticollision_txBufLen b n k fwt]
    rfl
  nonempty := by
    apply List.ne_nil_of_length_pos
    rw [readBytes_length, hsent]
    split
    · next hk =>
      have hn : n.toNat ≠ 0 := fun h0 => hx.elim (fun hn => hn (BitVec.eq_of_toNat_eq h0)) fun hk' => hk' hk
      omega
    · omega
  fits := by simpa [begun] using hd
  present := anticollisionCtx_present hb
  destination := fun h0 => by
    have hrx := (anticollisionCtx_rxBuf (b := b) (n := n) (k := k) (fwt := fwt) (by omega)).1
    have hnull : (anticollisionCtx b n k fwt).rxBuf.toNat = 0 := congrArg BitVec.toNat h0
    exact hb (BitVec.eq_of_toNat_eq (show b.toNat = 0 by omega))

/-- What an anticollision exchange delivers (R123). -/
theorem delivered_anticollision {bytes : List Byte} (hb : b.toNat + n.toNat < 2 ^ 32) (hne : bytes ≠ []) :
    delivered { s with ctx := anticollisionCtx b n k fwt } bytes =
      if k = 0 then bytes else (bytes.headD 0 ||| readByte s.buf (b.toNat + n.toNat)) :: bytes.tail := by
  have hsplit : (anticollisionCtx b n k fwt).splitByte = true ↔ k ≠ 0 := by simp [anticollisionCtx]
  rw [delivered, mergeFirst_of_ne_nil hne, (anticollisionCtx_rxBuf hb).1, if_congr hsplit rfl rfl, ite_not]

theorem setWidth_append_byte (x : BitVec 3) (y : Byte) : (x ++ y).setWidth 32 = 0#21 ++ x ++ y := by
  apply BitVec.eq_of_toNat_eq
  rw [BitVec.toNat_setWidth_of_le (by decide)]
  show (x ++ y : BitVec (3 + 8)).toNat = (0#21 ++ x ++ y : BitVec (21 + 3 + 8)).toNat
  simp only [BitVec.toNat_append]
  simp

/-- The way back from the spin: the anticollision mode ends, and the position of a collision is read where one was seen
(R123). -/
theorem readCollisionPos_quiet (h : s.env.script = []) (a : Word) : ∃ v : Env,
    readCollisionPos { feConfig (.antcl false) s with ret0 := a } = { s with
      ret0 := a, env := v
      ret1 := if s.status = .rfCollision then 0#21 ++ s.env.fe.collisionBits ++ s.env.fe.collisionBytes else s.ret1 } ∧
    v.fe.config.antcl = some false ∧ s.env.trace <+: v.trace := by
  by_cases hc : s.status = .rfCollision
  · refine ⟨(feCollisionPos (feConfig (.antcl false) s)).2.env, ?_, ?_, ?_⟩
    · simp [readCollisionPos, hc, feCollisionPos, setWidth_append_byte, calls_frontEnd, atCall_quiet, h]
      rfl
    · simp [feCollisionPos, calls_frontEnd, atCall_quiet, h, putSetting]
    · simp [feCollisionPos, calls_frontEnd, atCall_quiet, h]
  · refine ⟨(feConfig (.antcl false) s).env, ?_, ?_, ?_⟩
    · simp [readCollisionPos, hc]
    · simp [calls_frontEnd, putSetting]
    · simp

/-- An anticollision exchange that the checks let pass and that ends with the script: the set-up, the spin, and the way back
(R123). -/
theorem exec_anticollision_of_spin {u t : State} (hready : syncReady s) (hb : b ≠ 0)
    (hroom : b.toNat + n.toNat + 6 ≤ s.params.bufSize) (hx : n ≠ 0 ∨ k ≠ 0)
    (hstart : beginExchange (anticollisionCtx b n k fwt) (feConfig (.antcl true) s) = u)
    (hspin : spinExchange (spinSteps u) u = .ok t) (ht : t.env.script = []) : ∃ v : Env,
    exec (.anticollisionTransceive b n k fwt) s = .next { t with
      ret0 := t.rxRcvdLen.setWidth 32, env := v, result := t.status
      ret1 := if t.status = .rfCollision then 0#21 ++ t.env.fe.collisionBits ++ t.env.fe.collisionBytes else t.ret1 } ∧
    v.fe.config.antcl = some false ∧ t.env.trace <+: v.trace := by
  have herr : anticollisionError b n k s = none := by
    rw [anticollisionError_ready hready, if_neg]
    rintro (h0 | hlt | ⟨hn, hk⟩)
    · exact hb h0
    · omega
    · exact hx.elim (· hn) (· hk)
  obtain ⟨v, hback, hrest⟩ := readCollisionPos_quiet ht ((feConfig (.antcl false) t).rxRcvdLen.setWidth 32)
  refine ⟨v, ?_, hrest⟩
  simp only [exec, execAnticollisionTransceive, herr, hstart, hspin, andThen]
  rw [hback]
  rfl

end

/-- Settles O57: the set-up, `spin_answered`, and the position of the collision. -/
theorem anticollisionCompletes : Obligations.AnticollisionCompletes := by
  intro s b n k fwt bytes col sent hsize htop hi hm hb hroom hx hgt hf hpol hwf h1 h5 hd hib hmp hsent hds hscript
  have hn : (BitVec.ofNat 16 bytes.length).toNat = bytes.length := Nat.mod_eq_of_lt (by omega)
  have hl : (BitVec.ofNat 16 (8 * bytes.length)).toNat = 8 * bytes.length := Nat.mod_eq_of_lt (by omega)
  have hne : bytes ≠ [] := List.ne_nil_of_length_pos h1
  have hroom32 : b.toNat + n.toNat < 2 ^ 32 := by omega
  obtain ⟨hrx, hcap⟩ := anticollisionCtx_rxBuf (k := k) (fwt := fwt) hroom32
  have hpos : b.toNat ≠ 0 := BitVec.toNat_inj.not.2 hb
  have hacc : bufAccessOk s.params (anticollisionCtx b n k fwt).rxBuf.toNat bytes.length = true := by
    rw [hrx]
    exact bufAccessOk_of_le (by omega) (by omega)
  obtain ⟨w, fifo, hstart, hreach⟩ := anticollisionStart_begun (n := n) (k := k) (fwt := fwt) hb
    (rest := idleTurns 4 ++ [[.drain sent, .raise irqTXE], [.receive bytes, .raise irqRXS],
      [.raise (if col then irqRXE ||| irqCOL else irqRXE)]]) hscript
  obtain ⟨v, hspin, hkeeps, hquiet, -, hwrite, -⟩ := spin_begun
    (anticollision_ready (fwt := fwt) w hm hb hroom hsize hx hgt hf hsent hds)
    (by rwa [readBytes_length]) hib hmp (fun _ => hpol) hn hl hne hd (by rwa [hcap]) hacc
  obtain ⟨v', hexec, hantcl, htrace⟩ := exec_anticollision_of_spin ⟨htop, hi, hm⟩ hb hroom hx hstart hspin hquiet
  have hpost := (anticollisionTransceive_runsOneExchange hexec).postHooks_succ (by cases col <;> simp [answered])
  obtain ⟨tl, htl, hctx⟩ := anticollisionCtx_eq b n k fwt
  refine ⟨v', writeBytes s.buf (b.toNat + n.toNat) _, _, _, tl, hn, hl, htl, storedAt_writeBytes hwf _ _, ?_,
    htrace.subset hwrite, hantcl, hpost⟩
  rw [hexec, hi, ← hkeeps.collisionBits, ← hkeeps.collisionBytes, ← delivered_anticollision hroom32 hne, ← hrx, ← hctx]
  cases col <;> rfl

end Sys2Proof.Machine

/-! # The transmission, WORKER by WORKER (`42_tx_submachine.md` R131 to R139)

What holds a transmission back, what starts it, and how it ends: one rule per state of the TX sub-machine, each with the state
it answers and the calls it makes, for every script of the environment. -/

namespace Sys2Proof.Machine

/-! ## WORKER in an exchange -/

theorem exec_worker_txRx {s : State} (h : s.topState = .txRx) : exec .worker s = andThen (txrxStep s) (finish .none) := by
  simp only [exec, execWorker, workerStep, h]

theorem exec_worker_of_step {s t : State} (h : s.topState = .txRx) (ht : txrxStep s = .ok t) :
    exec .worker s = .next { t with result := .none } := by
  rw [exec_worker_txRx h, ht]
  rfl

theorem exec_worker_of_fault {s : State} {f : Fault} (h : s.topState = .txRx) (hf : txrxStep s = .error f) :
    exec .worker s = .fault f := by
  rw [exec_worker_txRx h, hf]
  rfl

/-! ## Parts of a step -/

/-- A poll of which no flag was pending leaves the pending flags as it finds them (R56). -/
theorem feGetIrq_pending_of_none {m : Word} {s : State} (h : polled m s = 0) :
    (feGetIrq m s).2.env.fe.irqPending = (atCall s).env.fe.irqPending := by
  have hnone : (atCall s).env.fe.irqPending &&& m = 0 := h
  rw [(feGetIrq_spec m s).2.1]
  calc (atCall s).env.fe.irqPending &&& ~~~m
      = (atCall s).env.fe.irqPending &&& ~~~m ||| (atCall s).env.fe.irqPending &&& m := by rw [hnone]; simp
    _ = (atCall s).env.fe.irqPending := by
      ext i
      simp only [BitVec.getElem_and, BitVec.getElem_or, BitVec.getElem_not]
      grind

/-- What a call finds depends on the environment and the parameters alone. -/
theorem atCall_env_congr {s t : State} (henv : s.env = t.env) (hparams : s.params = t.params) :
    (atCall s).env = (atCall t).env := by
  rw [atCall, atCall, henv, hparams]

theorem endExchange_ends (e : Status) (s : State) : endExchange e s = { s with
    status := e, txrxState := .idle, sw := { s.sw with rxeGuard := false, apFwt := false }
    env := (endExchange .none s).env } := endExchange_eq e s s.txrxState

/-- A failure of the tx-phase ends the exchange with its status, through one Cleanup (R130, R139). -/
theorem txFailWith_ends (e : Status) (s : State) : ∃ v : Env,
    txFailWith e s = .ok { s with
      status := e, txrxState := .idle, sw := { s.sw with rxeGuard := false, apFwt := false }, env := v } ∧
    v.trace = s.env.trace ++ cleanupEvents :=
  ⟨(endExchange .none s).env, congrArg Except.ok (endExchange_ends e { s with status := e, txrxState := .txFail }),
    endExchange_trace _ _⟩

/-! ## The gates (R131 to R133) -/

/-- Only `swExpire` of the guard timer changes its clock among the steps of the environment. -/
theorem applyEvent_swGt {d : Nat} {e : EnvEvent} (he : e ≠ .swExpire .gt) (v : Env) : (applyEvent d e v).swGt = v.swGt := by
  cases e with
  | swExpire t =>
    cases t with
    | gt => exact absurd rfl he
    | rxeGuard => rfl
    | apFwt => rfl
  | setMeasured ch x => cases ch <;> rfl
  | _ => rfl

theorem applyEvents_swGt {d : Nat} {es : List EnvEvent} (h : .swExpire .gt ∉ es) (v : Env) :
    (applyEvents d es v).swGt = v.swGt := by
  induction es generalizing v with
  | nil => rfl
  | cons e es ih =>
    rw [List.mem_cons, not_or] at h
    exact (ih h.2 _).trans (applyEvent_swGt (Ne.symm h.1) v)

/-- A turn in which the guard time does not expire leaves its clock as it is. -/
theorem atCall_swGt {s : State} (h : ∀ es ∈ s.env.script.head?, .swExpire .gt ∉ es) :
    (atCall s).env.swGt = s.env.swGt := by
  unfold atCall envTurn
  dsimp only
  split
  · rfl
  · next es rest hs => exact applyEvents_swGt (h es (by rw [hs]; rfl)) _

/-- While the guard time lasts, a step only asks the platform timer. -/
theorem txrxStep_guarded {s : State} (hx : s.txrxState ∈ [TxrxState.txIdle, .txWaitGt]) (hg : s.sw.gt = true)
    (he : (atCall s).env.swGt.expired = false) : txrxStep s = .ok { atCall s with txrxState := .txWaitGt } := by
  have hwait (u : State) (hu : u.env = s.env ∧ u.params = s.params ∧ u.sw = s.sw) : txWaitGt u = .ok (atCall u) := by
    obtain ⟨henv, hparams, hsw⟩ := hu
    have hexp : (swExpired .gt u).1 = false := by
      rw [← he, ← atCall_env_congr henv hparams]
      rfl
    rw [txWaitGt, if_pos (by rw [hsw, hg])]
    exact if_neg (by simp [hexp])
  simp only [List.mem_cons, List.not_mem_nil, or_false] at hx
  rcases hx with hx | hx
  · simp only [txrxStep, hx, txIdle]
    exact hwait _ ⟨rfl, rfl, rfl⟩
  · simp only [txrxStep, hx]
    rw [hwait s ⟨rfl, rfl, rfl⟩, ← hx]
    rfl

/-- However many WORKERs are issued while the guard time lasts, they only ask the platform timer. -/
theorem workers_guarded (n : Nat) {s : State} (htop : s.topState = .txRx) (hx : s.txrxState ∈ [TxrxState.txIdle, .txWaitGt])
    (hg : s.sw.gt = true) (he : s.env.swGt.expired = false) (hs : ∀ es ∈ s.env.script.take n, EnvEvent.swExpire .gt ∉ es) :
    ∃ v : Env, workers n s = some { s with
        txrxState := if n = 0 then s.txrxState else .txWaitGt, env := v, result := if n = 0 then s.result else .none } ∧
      v.trace = s.env.trace ∧ v.script = s.env.script.drop n ∧ v.swGt = s.env.swGt := by
  induction n generalizing s with
  | zero => exact ⟨s.env, rfl, rfl, rfl, rfl⟩
  | succ n ih =>
    have hclock : (atCall s).env.swGt = s.env.swGt := atCall_swGt fun es hes => hs es <| by
      obtain ⟨rest, hrest⟩ := List.head?_eq_some_iff.1 hes
      simp [hrest]
    have hstep := exec_worker_of_step htop (txrxStep_guarded hx hg (by rw [hclock, he]))
    obtain ⟨v, hv, htrace, hscript, hswGt⟩ := ih (s := { atCall s with txrxState := .txWaitGt, result := .none }) htop
      (by simp) hg (by rw [← he, ← hclock]) fun es hes => hs es <| by
        have htail : es ∈ (s.env.script.take (n + 1)).tail := by
          rw [List.tail_take_eq_take_tail]
          simpa using hes
        exact List.mem_of_mem_tail htail
    refine ⟨v, ?_, by simpa using htrace, by simpa using hscript, hswGt.trans hclock⟩
    rw [workers, hstep]
    simpa using hv

/-- The state in which the frame delay is asked for, once the guard time is over (R132). -/
def pastGuard (s : State) : State :=
  { (if asksGuard s then atCall s else s) with txrxState := .txWaitFdt, sw := swPastGuard s }

theorem pastGuard_eq (s : State) :
    pastGuard s = { s with txrxState := .txWaitFdt, sw := swPastGuard s, env := (pastGuard s).env } := by
  unfold pastGuard
  split <;> rfl

theorem pastGuard_trace (s : State) : (pastGuard s).env.trace = s.env.trace := by
  unfold pastGuard
  split <;> simp

theorem delayAnswer_eq (s : State) : delayAnswer s = (feTimerCheck .gpt (pastGuard s)).1 := by
  unfold delayAnswer pastGuard
  split <;> rfl

theorem txWaitGt_pastGuard {s : State} (hx : s.txrxState = .txIdle ∨ s.txrxState = .txWaitGt) (hg : guardOver s) :
    txWaitGt { s with txrxState := .txWaitGt } = txWaitFdt (pastGuard s) := by
  have hsw : swPastGuard s = { s.sw with gt := false } := if_pos hx
  cases hgt : s.sw.gt with
  | true =>
    have ha : asksGuard s = true := by simp [asksGuard, hx, hgt]
    have hexp : (swExpired .gt { s with txrxState := .txWaitGt }).1 = true := hg ha
    rw [txWaitGt, if_pos hgt]
    simp only [hexp, if_true, pastGuard, ha, hsw]
    rfl
  | false =>
    have ha : asksGuard s = false := by simp [asksGuard, hgt]
    rw [txWaitGt, if_neg (by simp [hgt])]
    simp only [pastGuard, ha, hsw]
    rfl

/-- Once the guard time is over, or with none to wait for, a step goes on to `TX_WAIT_FDT` (R131, R132). -/
theorem txrxStep_pastGuard {s : State} (hx : s.txrxState ∈ [TxrxState.txIdle, .txWaitGt, .txWaitFdt]) (hg : guardOver s) :
    txrxStep s = txWaitFdt (pastGuard s) := by
  simp only [List.mem_cons, List.not_mem_nil, or_false] at hx
  rcases hx with hx | hx | hx
  · rw [← txWaitGt_pastGuard (.inl hx) hg]
    simp only [txrxStep, hx, txIdle]
  · rw [← txWaitGt_pastGuard (.inr hx) hg]
    simp only [txrxStep, hx]
    rw [← hx]
  · have hp : pastGuard s = s := by simp [pastGuard, asksGuard, swPastGuard, hx]; rw [← hx]
    simp only [txrxStep, hx, hp]

/-- `TX_WAIT_FDT` waits while GPT runs (R133). -/
theorem txWaitFdt_running {s : State} (ha : isActive s.mode = false) (hf : s.timing.fdtPoll ≠ 0)
    (hr : (feTimerCheck .gpt s).1 = .running) : txWaitFdt s = .ok (feTimerCheck .gpt s).2 := by
  have hasks : (isActive s.mode || s.timing.fdtPoll == 0) = false := by simpa [ha] using hf
  rw [txWaitFdt, hasks]
  exact if_pos hr

/-- Settles O32: by induction on the number of WORKERs for the guard time, and the one question for GPT. -/
theorem guardTimeAndFrameDelayGateTransmission : Obligations.GuardTimeAndFrameDelayGateTransmission := by
  refine ⟨fun n s htop hx hg he hs => workers_guarded n htop hx hg he hs, fun s htop hx hg ha hr => ?_⟩
  rw [delayAnswer_eq] at hr
  simp only [asksDelay, Bool.and_eq_true, Bool.not_eq_true', bne_iff_ne] at ha
  obtain ⟨⟨-, hactive⟩, hpoll⟩ := ha
  have hp := pastGuard_eq s
  have hwait : txWaitFdt (pastGuard s) = .ok (feTimerCheck .gpt (pastGuard s)).2 :=
    txWaitFdt_running (by rw [hp]; exact hactive) (by rw [hp]; exact hpoll) hr
  refine ⟨(feTimerCheck .gpt (pastGuard s)).2.env, ?_, ?_⟩
  · rw [exec_worker_of_step htop ((txrxStep_pastGuard hx hg).trans hwait)]
    rw [hp]
    rfl
  · have htrace : (feTimerCheck .gpt (pastGuard s)).2.env.trace =
        (pastGuard s).env.trace ++ [.feTimerCheck .gpt (feTimerCheck .gpt (pastGuard s)).1] := by simp [feTimerCheck]
    rw [htrace, hr, pastGuard_trace]

/-! ## Handing bytes over (R134, R136) -/

/-- What a hand-over leaves in the trace: writing nothing is no call (R56). -/
def writeEvents (bytes : List Byte) : List Event := if bytes = [] then [] else [.feFifoWrite bytes]

/-- A hand-over for which the FIFO has room. -/
theorem txHandOver_hands {s : State} {bytes : List Byte} {w : Len}
    (hsrc : txSource s.fifo.bytesWritten.toNat bytes.length s = .ok bytes)
    (hroom : bytes ≠ [] → (atCall s).env.fe.fifo.length + bytes.length ≤ s.params.fifoDepth)
    (hw : s.fifo.bytesWritten.toNat + bytes.length = w.toNat) : ∃ v : Env,
    txHandOver bytes.length s = .ok { s with fifo := { s.fifo with bytesWritten := w }, env := v } ∧
    v.trace = s.env.trace ++ writeEvents bytes := by
  by_cases hne : bytes = []
  · subst hne
    refine ⟨s.env, ?_, (List.append_nil _).symm⟩
    rw [txHandOver, hsrc, ok_bind, feFifoWrite, if_pos rfl, ok_bind, hw, toLen_toNat]
    rfl
  · have hover := txHandOver_of_room hne hsrc (hroom hne) hw
    generalize ht : emit (.feFifoWrite bytes) (withFe (fun f => { f with fifo := f.fifo ++ bytes }) (atCall s)) = t at hover
    have heq : t = { s with env := t.env } := by subst ht; rfl
    refine ⟨t.env, ?_, by simp [← ht, writeEvents, hne]⟩
    rw [hover, heq]

/-- A hand-over for which the FIFO has no room (R56, U6). -/
theorem txHandOver_overflows {s : State} {bytes : List Byte} (hne : bytes ≠ [])
    (hsrc : txSource s.fifo.bytesWritten.toNat bytes.length s = .ok bytes)
    (hroom : s.params.fifoDepth < (atCall s).env.fe.fifo.length + bytes.length) :
    txHandOver bytes.length s = .error .fifoOverflow := by
  have hfull : ¬ (atCall s).env.fe.fifo.length + bytes.length ≤ (atCall s).params.fifoDepth := not_le.2 hroom
  rw [txHandOver, hsrc, ok_bind, feFifoWrite, if_neg hne]
  dsimp only
  rw [if_neg hfull]
  rfl

/-- The bytes `[i, i + n)` of the source of a transmission, outside the internal byte of R122 (R134). -/
def sourceBytes (s : State) (i n : Nat) : List Byte :=
  if s.mode = .pollNfcV then readBytes s.nfcvScratch i n else readBytes s.buf (s.ctx.txBuf.toNat + i) n

@[simp] theorem sourceBytes_length (s : State) (i n : Nat) : (sourceBytes s i n).length = n := by
  unfold sourceBytes
  split <;> simp

/-- A source that lies in memory whole: the scratch buffer, or a frame in BUF (R51, R134). -/
def sourceInMemory (s : State) : Prop :=
  s.mode = .pollNfcV ∨ s.ctx.sfByte = none ∧ inBounds s.params s.ctx.txBuf s.ctx.txBufLen.toNat = true

/-- Within its length such a source is read. -/
theorem txSource_reads {s : State} {i n : Nat} (h : sourceInMemory s) (hle : i + n ≤ txSourceLen s) :
    txSource i n s = .ok (sourceBytes s i n) := by
  unfold txSource sourceBytes
  unfold txSourceLen at hle
  by_cases hm : s.mode = .pollNfcV
  · simp only [if_pos hm] at hle ⊢
    exact if_pos hle
  · obtain ⟨hsf, hin⟩ := h.resolve_left hm
    obtain ⟨h0, hend⟩ := ceil8_le hin
    simp only [if_neg hm] at hle ⊢
    simp only [hsf]
    exact if_pos (bufAccessOk_of_le (by omega) (by omega))

theorem exists_len {n : Nat} (h : n < 65536) : ∃ l : Len, l.toNat = n :=
  ⟨BitVec.ofNat 16 n, (BitVec.toNat_ofNat n 16).trans (Nat.mod_eq_of_lt h)⟩

/-! ## Loading the FIFO (R134) -/

/-- The FIFO is empty, and nothing comes into it while the script lasts. -/
structure StaysEmpty (s : State) : Prop where
  empty : s.env.fe.fifo = []
  noReceive : noReceive s

theorem noReceive.of_drop {s t : State} {n : Nat} (h : noReceive s) (ht : t.env.script = s.env.script.drop n) :
    noReceive t := by
  unfold noReceive
  rw [ht]
  exact fun es hes => h es (List.mem_of_mem_drop hes)

theorem noReceive.of_tail {s t : State} (h : noReceive s) (ht : t.env.script = s.env.script.tail) : noReceive t :=
  h.of_drop (ht.trans List.drop_one.symm)

/-- Only `receive` fills an empty FIFO among the steps of the environment. -/
theorem applyEvent_fifo_empty {d : Nat} {e : EnvEvent} {v : Env} (he : ∀ bytes, e ≠ .receive bytes) (h : v.fe.fifo = []) :
    (applyEvent d e v).fe.fifo = [] := by
  cases e with
  | receive bytes => exact absurd rfl (he bytes)
  | drain n => simp [applyEvent, h]
  | timerRun t => simp only [applyEvent, moveHwClock]; split <;> simp [h]
  | timerExpire t => simp only [applyEvent, moveHwClock]; split <;> simp [h]
  | swExpire t => simp [applyEvent, h]
  | setMeasured ch x => cases ch <;> exact h
  | _ => exact h

theorem applyEvents_fifo_empty {d : Nat} {es : List EnvEvent} {v : Env} (he : ∀ e ∈ es, ∀ bytes, e ≠ .receive bytes)
    (h : v.fe.fifo = []) : (applyEvents d es v).fe.fifo = [] := by
  induction es generalizing v with
  | nil => exact h
  | cons e es ih =>
    exact ih (fun e' he' => he e' (List.mem_cons_of_mem _ he')) (applyEvent_fifo_empty (he e List.mem_cons_self) h)

theorem StaysEmpty.atCall {s : State} (h : StaysEmpty s) : StaysEmpty (atCall s) := by
  refine ⟨?_, h.noReceive.of_tail (by simp)⟩
  unfold Machine.atCall envTurn
  dsimp only
  split
  · exact h.empty
  · next es rest hs => exact applyEvents_fifo_empty (h.noReceive es (by rw [hs]; exact List.mem_cons_self)) h.empty

theorem feConfig_eq (c : FeSetting) (s : State) : feConfig c s = { s with env := (feConfig c s).env } := rfl

theorem feCmd_eq (c : FeCommand) (s : State) : feCmd c s = { s with env := (feCmd c s).env } := rfl

/-- `FeConfig` brings nothing into the FIFO. -/
theorem StaysEmpty.feConfig {s : State} (h : StaysEmpty s) (c : FeSetting) : StaysEmpty (feConfig c s) :=
  ⟨by rw [(calls_frontEnd s).2.1]; exact h.atCall.empty, h.noReceive.of_tail (by simp)⟩

/-- The end of `TX_TRANSMIT`: the first bytes of the source are handed over, as many as the FIFO holds, and the transmit
command is fired. -/
theorem txFire_loads {s : State} {total k : Len} {bytes : List Byte} (lengthBits : Nat) (crcAuto : Bool)
    (hempty : StaysEmpty s) (hk : k.toNat = bytes.length) (hlen : bytes.length = min total.toNat s.params.fifoDepth)
    (hsrc : txSource 0 bytes.length s = .ok bytes) : ∃ v : Env,
    txFire total.toNat lengthBits crcAuto s = .ok { s with
      fifo := ⟨total, k, s.params.fifoTxRefill⟩, env := v
      txrxState := if s.params.fifoDepth < total.toNat then .txWaitWl else .txWaitTxe } ∧
    v.trace = s.env.trace ++ [.feConfig (.txLengthBits lengthBits)] ++ writeEvents bytes ++
      [.feCmd (if crcAuto then .txWithCrc else .txWithoutCrc)] := by
  let u : State := { s with fifo := ⟨total, 0, s.params.fifoTxRefill⟩ }
  have hempty' := StaysEmpty.feConfig (s := u) ⟨hempty.empty, hempty.noReceive⟩ (.txLengthBits lengthBits)
  have htrace' := ((calls_env u).2.1 (.txLengthBits lengthBits)).1
  have hconfig := feConfig_eq (.txLengthBits lengthBits) u
  generalize (feConfig (.txLengthBits lengthBits) u).env = w at hconfig htrace'
  rw [hconfig] at hempty'
  obtain ⟨v, hv, htrace⟩ := txHandOver_hands (s := { u with env := w }) (w := k) hsrc
    (fun _ => by
      rw [hempty'.atCall.empty, List.length_nil, Nat.zero_add, hlen]
      exact min_le_right _ _)
    ((Nat.zero_add _).trans hk.symm)
  let t : State := { s with fifo := ⟨total, k, s.params.fifoTxRefill⟩, env := v }
  have hleft : k.toNat < total.toNat ↔ s.params.fifoDepth < total.toNat := by omega
  refine ⟨(feCmd (if crcAuto then .txWithCrc else .txWithoutCrc) t).env, ?_, ?_⟩
  · rw [txFire, toLen_toNat, ok_bind]
    show (txHandOver (min total.toNat s.params.fifoDepth) (feConfig (.txLengthBits lengthBits) u) >>= _) = _
    rw [← hlen, hconfig, hv, ok_bind]
    show Except.ok (txAfterHandOver (feCmd (if crcAuto then .txWithCrc else .txWithoutCrc) t)) = _
    rw [feCmd_eq, txAfterHandOver]
    simp only [← hleft]
    rfl
  · rw [((calls_env t).1 _).1, htrace, htrace']

/-- What `TX_TRANSMIT` begins with leaves of the environment: the hook, and an empty FIFO (R119, R134). -/
def clearedEnv (s : State) : Env := (feCmd .clearFifo (emit .preTxRx s)).env

theorem clearedEnv_eq (s : State) : feCmd .clearFifo (emit .preTxRx s) = { s with env := clearedEnv s } := by
  rw [feCmd_eq]
  rfl

theorem clearedEnv_trace (s : State) : (clearedEnv s).trace = s.env.trace ++ [.preTxRx, .feCmd .clearFifo] := by
  simp [clearedEnv]

theorem staysEmpty_cleared {s : State} (h : noReceive s) : StaysEmpty { s with env := clearedEnv s } := by
  rw [← clearedEnv_eq]
  exact ⟨by rw [(calls_frontEnd _).1]; rfl, h.of_tail (by simp)⟩

theorem txTransmit_nfcv {s : State} (h : s.mode = .pollNfcV) :
    txTransmit s = txTransmitNfcv { s with env := clearedEnv s } := by
  unfold txTransmit
  rw [clearedEnv_eq]
  exact if_pos h

theorem txTransmit_other {s : State} (h : s.mode ≠ .pollNfcV) : txTransmit s =
    txFire (ceil8 s.ctx.txBufLen.toNat) s.ctx.txBufLen.toNat (!crcTxManual s.ctx.flags) { s with env := clearedEnv s } := by
  unfold txTransmit
  rw [clearedEnv_eq]
  exact if_neg h

/-- The transmit command by the option bit for a CRC made by the host (R76, R134). -/
theorem txCommand_eq (flags : BitVec 5) : (if !crcTxManual flags then FeCommand.txWithCrc else .txWithoutCrc) =
    if flags.getLsbD 0 then .txWithoutCrc else .txWithCrc := by
  rw [crcTxManual]
  cases flags.getLsbD 0 <;> rfl

/-- `TX_TRANSMIT` of a frame in BUF (R134). -/
theorem txTransmit_loads {s : State} (hm : s.mode ≠ .pollNfcV) (hsf : s.ctx.sfByte = none)
    (hin : inBounds s.params s.ctx.txBuf s.ctx.txBufLen.toNat = true) (hl : s.ctx.txBufLen ≠ 0)
    (hd : 1 ≤ s.params.fifoDepth) (hr : noReceive s) :
    ∃ (v : Env) (total k : Len), total.toNat = ceil8 s.ctx.txBufLen.toNat ∧ k.toNat = min total.toNat s.params.fifoDepth ∧
      txTransmit s = .ok { s with
        fifo := ⟨total, k, s.params.fifoTxRefill⟩, env := v
        txrxState := if s.params.fifoDepth < total.toNat then .txWaitWl else .txWaitTxe } ∧
      v.trace = s.env.trace ++ [.preTxRx, .feCmd .clearFifo, .feConfig (.txLengthBits s.ctx.txBufLen.toNat),
        .feFifoWrite (readBytes s.buf s.ctx.txBuf.toNat k.toNat),
        .feCmd (if s.ctx.flags.getLsbD 0 then .txWithoutCrc else .txWithCrc)] := by
  have hpos : s.ctx.txBufLen.toNat ≠ 0 := fun h => hl (BitVec.toNat_inj.1 h)
  have hlt := s.ctx.txBufLen.isLt
  obtain ⟨total, htotal⟩ : ∃ n : Len, n.toNat = ceil8 s.ctx.txBufLen.toNat := exists_len (by rw [ceil8]; omega)
  obtain ⟨k, hk⟩ : ∃ n : Len, n.toNat = min total.toNat s.params.fifoDepth := exists_len (by omega)
  let u : State := { s with env := clearedEnv s }
  let bytes := sourceBytes u 0 k.toNat
  have hlen : bytes.length = k.toNat := sourceBytes_length u 0 k.toNat
  have hbytes : bytes = readBytes s.buf s.ctx.txBuf.toNat k.toNat := if_neg hm
  have hne : bytes ≠ [] := fun h => by
    rw [h, List.length_nil, hk, htotal, ceil8] at hlen
    omega
  have hsrclen : txSourceLen u = ceil8 s.ctx.txBufLen.toNat := if_neg hm
  have hread : txSource 0 bytes.length u = .ok bytes := by
    rw [hlen]
    exact txSource_reads (.inr ⟨hsf, hin⟩) (by omega)
  obtain ⟨v, hv, htrace⟩ := txFire_loads (total := total) s.ctx.txBufLen.toNat (!crcTxManual s.ctx.flags)
    (staysEmpty_cleared hr) hlen.symm (hlen.trans hk) hread
  refine ⟨v, total, k, htotal, hk, ?_, ?_⟩
  · rw [txTransmit_other hm, ← htotal]
    exact hv
  · rw [htrace, show u.env.trace = _ from clearedEnv_trace s, writeEvents, if_neg hne, hbytes, txCommand_eq]
    simp only [List.append_assoc]
    rfl

/-- Settles O33: past the gates a step is the step of `TX_TRANSMIT`. -/
theorem transmitLoadsTheFifo : Obligations.TransmitLoadsTheFifo := by
  intro s htop hx hg hd hm hsf hin hl hdepth hr
  obtain ⟨v, hstep, hgate, n, hscript⟩ := txrxStep_past_gates hx hg hd
  obtain ⟨w, total, k, htotal, hk, hload, htrace⟩ := txTransmit_loads
    (s := { s with txrxState := .txTransmit, sw := swPastGuard s, env := v }) hm hsf hin hl hdepth (hr.of_drop hscript)
  refine ⟨w, total, k, htotal, hk, exec_worker_of_step htop (hstep.trans hload), ?_⟩
  rw [htrace, hgate]

/-! ## NFC-V (R134) -/

/-- The sub-bit-coded stream of the payload of an exchange (R134). -/
def nfcvStream (s : State) : List Byte :=
  Config.nfcvEncode (readBytes s.buf s.ctx.txBuf.toNat (ceil8 s.ctx.txBufLen.toNat)) s.ctx.txBufLen.toNat s.ctx.flags

section
variable {s : State} (hin : inBounds s.params s.ctx.txBuf s.ctx.txBufLen.toNat = true)
include hin

theorem txPayload_reads :
    txPayload s = .ok (readBytes s.buf s.ctx.txBuf.toNat (ceil8 s.ctx.txBufLen.toNat)) :=
  if_pos (bufAccessOk_of_inBounds hin le_rfl)

theorem txTransmitNfcv_noMem (hlen : s.params.nfcvScratchSize < (nfcvStream s).length) :
    txTransmitNfcv s = txFailWith .noMem s := by
  rw [txTransmitNfcv, txPayload_reads hin, ok_bind]
  exact if_pos hlen

theorem txTransmitNfcv_fires (hlen : (nfcvStream s).length ≤ s.params.nfcvScratchSize) : txTransmitNfcv s =
    txFire (nfcvStream s).length (8 * (nfcvStream s).length) false
      { s with nfcvScratch := writeBytes s.nfcvScratch 0 (nfcvStream s) } := by
  have hwrite : scratchWrite 0 (nfcvStream s) s =
      .ok { s with nfcvScratch := writeBytes s.nfcvScratch 0 (nfcvStream s) } := if_pos (by omega)
  rw [txTransmitNfcv, txPayload_reads hin, ok_bind]
  refine (if_neg (not_lt.2 hlen)).trans ?_
  show (scratchWrite 0 (nfcvStream s) s >>= _) = _
  rw [hwrite, ok_bind]
  rfl

end

theorem txFire_overflows {total : Nat} (h : 65536 ≤ total) (lengthBits : Nat) (crcAuto : Bool) (s : State) :
    txFire total lengthBits crcAuto s = .error .counterOverflow := by
  rw [txFire, toLen, if_neg (not_lt.2 h)]
  rfl

/-- The first bytes of what was just written to a memory read back. -/
theorem readBytes_writeBytes {m : Memory} (h : m.wf = true) (a : Nat) {bytes : List Byte} {n : Nat} (hn : n ≤ bytes.length) :
    readBytes (writeBytes m a bytes) a n = bytes.take n := by
  refine List.ext_getElem (by simp [hn]) fun i hi _ => ?_
  rw [readBytes_length] at hi
  rw [readBytes_getElem, readByte_writeBytes_inside h a bytes (by omega), List.getElem_take]

/-- The calls of a transmission of the stream, `k` bytes of it at first (R134). -/
def nfcvEvents (stream : List Byte) (k : Len) : List Event :=
  [.feConfig (.txLengthBits (8 * stream.length))] ++ (if k = 0 then [] else [.feFifoWrite (stream.take k.toNat)]) ++
    [.feCmd .txWithoutCrc]

/-- The load of a stream that fits the scratch buffer and the counters. -/
theorem txFire_nfcv {s : State} {stream : List Byte} (hm : s.mode = .pollNfcV) (hwf : s.nfcvScratch.wf = true)
    (hempty : StaysEmpty s) (hsize : stream.length ≤ s.params.nfcvScratchSize) (hlt : stream.length < 65536) :
    ∃ (v : Env) (k : Len), k.toNat = min stream.length s.params.fifoDepth ∧
      txFire stream.length (8 * stream.length) false { s with nfcvScratch := writeBytes s.nfcvScratch 0 stream } = .ok { s with
        fifo := ⟨BitVec.ofNat 16 stream.length, k, s.params.fifoTxRefill⟩
        nfcvScratch := writeBytes s.nfcvScratch 0 stream, env := v
        txrxState := if s.params.fifoDepth < stream.length then .txWaitWl else .txWaitTxe } ∧
      v.trace = s.env.trace ++ nfcvEvents stream k := by
  obtain ⟨k, hk⟩ : ∃ n : Len, n.toNat = min stream.length s.params.fifoDepth := exists_len (by omega)
  let u : State := { s with nfcvScratch := writeBytes s.nfcvScratch 0 stream }
  have htotal : (BitVec.ofNat 16 stream.length).toNat = stream.length :=
    (BitVec.toNat_ofNat _ _).trans (Nat.mod_eq_of_lt hlt)
  have hlen : (stream.take k.toNat).length = k.toNat := by
    rw [List.length_take]
    omega
  have hnil : stream.take k.toNat = [] ↔ k = 0 := by
    rw [← List.length_eq_zero_iff, hlen, ← BitVec.toNat_inj]
    rfl
  have hread : txSource 0 (stream.take k.toNat).length u = .ok (stream.take k.toNat) := by
    have hsrclen : txSourceLen u = s.params.nfcvScratchSize := if_pos hm
    have hbytes : sourceBytes u 0 k.toNat = stream.take k.toNat :=
      (if_pos hm).trans (readBytes_writeBytes hwf 0 (by omega))
    rw [hlen, ← hbytes]
    exact txSource_reads (.inl hm) (by omega)
  obtain ⟨v, hv, htrace⟩ := txFire_loads (s := u) (total := BitVec.ofNat 16 stream.length) (8 * stream.length) false
    ⟨hempty.empty, hempty.noReceive⟩ hlen.symm (by rw [hlen, hk, htotal]) hread
  rw [htotal] at hv
  refine ⟨v, k, hk, hv, ?_⟩
  rw [htrace, writeEvents, nfcvEvents]
  simp only [hnil, List.append_assoc]
  rfl

/-- Settles O34: past the gates a step is the step of `TX_TRANSMIT`, and its stream is too long for the scratch buffer, too
long for a counter, or loaded. -/
theorem nfcvTransmitsTheEncodedStream : Obligations.NfcvTransmitsTheEncodedStream := by
  rintro s stream htop hx hg hd hm hwf hin hr hstream
  obtain ⟨v, hstep, hgate, n, hscript⟩ := txrxStep_past_gates hx hg hd
  let t : State := { s with txrxState := .txTransmit, sw := swPastGuard s, env := v }
  let u : State := { t with env := clearedEnv t }
  have hempty : StaysEmpty u := staysEmpty_cleared (hr.of_drop hscript)
  have htransmit : txrxStep s = txTransmitNfcv u := hstep.trans (txTransmit_nfcv hm)
  have hu : nfcvStream u = stream := hstream.symm
  have htrace : u.env.trace = s.env.trace ++ gateEvents s ++ [.preTxRx, .feCmd .clearFifo] := by
    rw [← hgate]
    exact clearedEnv_trace t
  have hstored := storedAt_writeBytes hwf 0 stream
  by_cases hsize : s.params.nfcvScratchSize < stream.length
  · obtain ⟨w, hw, hend⟩ := txFailWith_ends .noMem u
    have hfail := txTransmitNfcv_noMem (s := u) hin (by rw [hu]; exact hsize)
    refine ⟨w, BitVec.ofNat 16 (min stream.length s.params.fifoDepth), writeBytes s.nfcvScratch 0 stream, ?_, fun hlt => ?_,
      hstored, ?_⟩
    · rw [if_pos hsize]
      exact exec_worker_of_step htop (htransmit.trans (hfail.trans hw))
    · rw [BitVec.toNat_ofNat]
      omega
    · rw [if_pos hsize, hend, htrace]
  · have hfire := txTransmitNfcv_fires (s := u) hin (by rw [hu]; exact not_lt.1 hsize)
    rw [hu] at hfire
    by_cases hlt : stream.length < 65536
    · obtain ⟨w, k, hk, hload, hevents⟩ := txFire_nfcv (s := u) hm hwf hempty (not_lt.1 hsize) hlt
      refine ⟨w, k, _, ?_, fun _ => hk, hstored, ?_⟩
      · rw [if_neg hsize, if_pos hlt]
        exact exec_worker_of_step htop (htransmit.trans (hfire.trans hload))
      · rw [if_neg hsize, hevents, htrace]
        rfl
    · have hover := txFire_overflows (not_lt.1 hlt) (8 * stream.length) false
        { u with nfcvScratch := writeBytes u.nfcvScratch 0 stream }
      refine ⟨{ u.env with trace := u.env.trace ++ nfcvEvents stream 0 }, 0, _, ?_, fun h => absurd h hlt, hstored, ?_⟩
      · rw [if_neg hsize, if_neg hlt]
        exact exec_worker_of_fault htop (htransmit.trans (hfire.trans hover))
      · rw [if_neg hsize, htrace]
        rfl

/-! ## The watermark (R135, R136) -/

theorem txrxStep_txWaitWl {s : State} (hx : s.txrxState = .txWaitWl) : txrxStep s = txWaitWl s := by
  simp only [txrxStep, hx]

theorem txWaitWl_waiting {s : State} (h : polled (irqWL ||| irqTXE) s = 0) :
    txWaitWl s = .ok { s with env := (feGetIrq (irqWL ||| irqTXE) s).2.env } := if_pos h

/-- `TXE` before the payload was all written (R135). -/
theorem txWaitWl_fails {s : State} (h : has (polled (irqWL ||| irqTXE) s) irqTXE = true) :
    txWaitWl s = txFailWith .io { s with env := (feGetIrq (irqWL ||| irqTXE) s).2.env } := by
  have hne : ¬ (feGetIrq (irqWL ||| irqTXE) s).1 = 0 := fun h0 => by
    rw [show polled (irqWL ||| irqTXE) s = 0 from h0] at h
    simp [has] at h
  have hwl : ¬ (has (feGetIrq (irqWL ||| irqTXE) s).1 irqWL && !has (feGetIrq (irqWL ||| irqTXE) s).1 irqTXE) = true := by
    rw [show has (feGetIrq (irqWL ||| irqTXE) s).1 irqTXE = true from h]
    simp
  exact (if_neg hne).trans (if_neg hwl)

theorem txWaitWl_reloads {s : State} (h : polled (irqWL ||| irqTXE) s = irqWL) : txWaitWl s =
    txReloadFifo { s with txrxState := .txReloadFifo, env := (feGetIrq (irqWL ||| irqTXE) s).2.env } := by
  have hpoll : (feGetIrq (irqWL ||| irqTXE) s).1 = irqWL := h
  unfold txWaitWl
  dsimp only
  rw [hpoll, if_neg (by decide), if_pos (by decide)]
  simp only [feGetIrq_fields]

/-- The number of bytes a reload hands over (R136). -/
def reloadCount (s : State) : Nat :=
  min (s.fifo.bytesTotal.toNat - s.fifo.bytesWritten.toNat) s.fifo.expectedWaterLevel.toNat

/-- The bytes a reload hands over, where the source lies in memory (R136). -/
def reloadBytes (s : State) : List Byte := sourceBytes s s.fifo.bytesWritten.toNat (reloadCount s)

@[simp] theorem reloadBytes_length (s : State) : (reloadBytes s).length = reloadCount s := sourceBytes_length _ _ _

theorem reloadBytes_ne_nil {s : State} (hleft : s.fifo.bytesWritten.toNat < s.fifo.bytesTotal.toNat)
    (hlevel : s.fifo.expectedWaterLevel ≠ 0) : reloadBytes s ≠ [] := by
  have hpos : s.fifo.expectedWaterLevel.toNat ≠ 0 := fun h => hlevel (BitVec.toNat_inj.1 h)
  rw [ne_eq, ← List.length_eq_zero_iff, reloadBytes_length, reloadCount]
  omega

theorem txReloadFifo_eq (s : State) :
    txReloadFifo s = (txHandOver (reloadBytes s).length s >>= fun t => .ok (txAfterHandOver t)) := by
  rw [reloadBytes_length]
  rfl

section
variable {s : State} (hsrc : sourceInMemory s) (htotal : s.fifo.bytesTotal.toNat ≤ txSourceLen s)
  (hleft : s.fifo.bytesWritten.toNat < s.fifo.bytesTotal.toNat)
include hsrc htotal hleft

theorem txSource_reloadBytes : txSource s.fifo.bytesWritten.toNat (reloadBytes s).length s = .ok (reloadBytes s) := by
  rw [reloadBytes_length]
  exact txSource_reads hsrc (by rw [reloadCount]; omega)

/-- A reload for which the FIFO has room (R136). -/
theorem txReloadFifo_hands (hroom : (atCall s).env.fe.fifo.length + reloadCount s ≤ s.params.fifoDepth) :
    ∃ (v : Env) (w : Len), w.toNat = s.fifo.bytesWritten.toNat + reloadCount s ∧
      txReloadFifo s = .ok { s with
        fifo := { s.fifo with bytesWritten := w }, env := v
        txrxState := if w.toNat < s.fifo.bytesTotal.toNat then .txWaitWl else .txWaitTxe } ∧
      v.trace = s.env.trace ++ writeEvents (reloadBytes s) := by
  rw [← reloadBytes_length] at hroom ⊢
  obtain ⟨w, hw⟩ : ∃ w : Len, w.toNat = s.fifo.bytesWritten.toNat + (reloadBytes s).length := by
    have hlt := s.fifo.bytesTotal.isLt
    exact exists_len (by rw [reloadBytes_length, reloadCount]; omega)
  obtain ⟨v, hv, htrace⟩ := txHandOver_hands (txSource_reloadBytes hsrc htotal hleft) (fun _ => hroom) hw.symm
  refine ⟨v, w, hw, ?_, htrace⟩
  rw [txReloadFifo_eq, hv, ok_bind]
  rfl

/-- A reload for which it has none (U6). -/
theorem txReloadFifo_overflows (hlevel : s.fifo.expectedWaterLevel ≠ 0)
    (hroom : s.params.fifoDepth < (atCall s).env.fe.fifo.length + reloadCount s) :
    txReloadFifo s = .error .fifoOverflow := by
  rw [← reloadBytes_length] at hroom
  rw [txReloadFifo_eq, txHandOver_overflows (reloadBytes_ne_nil hleft hlevel) (txSource_reloadBytes hsrc htotal hleft) hroom]
  rfl

end

/-- Settles O35: the poll of `TX_WAIT_WL`, and a reload with and without room for it. -/
theorem watermarkWaitsReloadsOrFails : Obligations.WatermarkWaitsReloadsOrFails := by
  refine ⟨fun s htop hx => ⟨fun h0 => ?_, fun htxe => ?_⟩, ?_⟩
  · refine ⟨(feGetIrq (irqWL ||| irqTXE) s).2.env,
      exec_worker_of_step htop ((txrxStep_txWaitWl hx).trans (txWaitWl_waiting h0)), ?_, feGetIrq_pending_of_none h0⟩
    rw [← h0]
    exact (feGetIrq_spec _ s).2.2.1
  · obtain ⟨v, hfail, hv⟩ := txFailWith_ends .io { s with env := (feGetIrq (irqWL ||| irqTXE) s).2.env }
    exact ⟨v, exec_worker_of_step htop ((txrxStep_txWaitWl hx).trans ((txWaitWl_fails htxe).trans hfail)),
      hv.trans (congrArg (· ++ cleanupEvents) (feGetIrq_spec _ s).2.2.1)⟩
  · intro s k htop hx hsrc htotal hleft hlevel hpoll hk room
    let u : State := { s with txrxState := .txReloadFifo, env := (feGetIrq (irqWL ||| irqTXE) s).2.env }
    have hstep : txrxStep s = txReloadFifo u := (txrxStep_txWaitWl hx).trans (txWaitWl_reloads hpoll)
    have hcount : reloadCount u = k := hk.symm
    have hroom : room = s.params.fifoDepth - (atCall u).env.fe.fifo.length := by
      rw [atCall_env_congr (s := u) (t := (feGetIrq (irqWL ||| irqTXE) s).2) rfl rfl]
    have hk0 : k ≠ 0 := by
      have hlen := List.length_pos_iff.2 (reloadBytes_ne_nil (s := u) hleft hlevel)
      rw [reloadBytes_length] at hlen
      omega
    refine ⟨fun hle => ?_, fun hlt => ?_⟩
    · obtain ⟨v, w, hw, hv, htrace⟩ := txReloadFifo_hands (s := u) hsrc htotal hleft
        (show _ ≤ s.params.fifoDepth by omega)
      refine ⟨v, w, by rw [hw, hcount], exec_worker_of_step htop (hstep.trans hv), ?_⟩
      have hpolled : u.env.trace = s.env.trace ++ [.feGetIrq (irqWL ||| irqTXE) irqWL] :=
        (feGetIrq_spec _ s).2.2.1.trans (congrArg (fun i => s.env.trace ++ [.feGetIrq (irqWL ||| irqTXE) i]) hpoll)
      rw [htrace, hpolled, writeEvents, if_neg (reloadBytes_ne_nil (s := u) hleft hlevel), List.append_assoc,
        reloadBytes, hcount]
      rfl
    · exact exec_worker_of_fault htop (hstep.trans (txReloadFifo_overflows (s := u) hsrc htotal hleft hlevel
        (show s.params.fifoDepth < _ by omega)))

/-! ## The end of a transmission (R137, R138) -/

theorem txrxStep_txWaitTxe {s : State} (hx : s.txrxState = .txWaitTxe) : txrxStep s = txWaitTxe s := by
  simp only [txrxStep, hx]

/-- `TX_WAIT_TXE` ignores a lone `WL` (R137). -/
theorem txWaitTxe_waiting {s : State} (h : has (polled (irqWL ||| irqTXE) s) irqTXE = false) :
    txWaitTxe s = .ok { s with env := (feGetIrq (irqWL ||| irqTXE) s).2.env } := if_neg (Bool.eq_false_iff.1 h)

theorem txWaitTxe_ended {s : State} (h : has (polled (irqWL ||| irqTXE) s) irqTXE = true) :
    txWaitTxe s = txDone { s with txrxState := .txDone, env := (feGetIrq (irqWL ||| irqTXE) s).2.env } := by
  have hpoll : has (feGetIrq (irqWL ||| irqTXE) s).1 irqTXE = true := h
  simp only [txWaitTxe, hpoll, if_true, feGetIrq_fields]

/-- `TX_DONE` without a receive buffer (R138). -/
theorem txDone_completes {s : State} (h : s.ctx.rxBuf = 0) : ∃ v : Env,
    txDone s = .ok { s with
      status := .none, txrxState := .idle, sw := { s.sw with rxeGuard := false, apFwt := false }, env := v } ∧
    v.trace = s.env.trace ++ cleanupEvents :=
  ⟨_, (if_pos h).trans (congrArg Except.ok (endExchange_ends .none s)), endExchange_trace .none s⟩

/-- `TX_DONE` with a receive buffer (R138). -/
theorem txDone_goesOn {s : State} (h : s.ctx.rxBuf ≠ 0) : txDone s = .ok { s with txrxState := .rxIdle } := if_neg h

/-- Settles O36: the poll of `TX_WAIT_TXE`, and the two ways out of `TX_DONE`. -/
theorem transmitEndCompletesOrReceives : Obligations.TransmitEndCompletesOrReceives := by
  rintro s i htop hx rfl
  obtain ⟨-, hpending, htrace, -⟩ := feGetIrq_spec (irqWL ||| irqTXE) s
  have hstep := txrxStep_txWaitTxe hx
  refine ⟨fun hi => ?_, fun hi hrx => ?_, fun hi hrx => ?_⟩
  · exact ⟨(feGetIrq (irqWL ||| irqTXE) s).2.env, exec_worker_of_step htop (hstep.trans (txWaitTxe_waiting hi)), htrace⟩
  · obtain ⟨v, hdone, hv⟩ := txDone_completes
      (s := { s with txrxState := .txDone, env := (feGetIrq (irqWL ||| irqTXE) s).2.env }) hrx
    exact ⟨v, exec_worker_of_step htop (hstep.trans ((txWaitTxe_ended hi).trans hdone)),
      hv.trans (congrArg (· ++ cleanupEvents) htrace)⟩
  · exact ⟨_, exec_worker_of_step htop (hstep.trans ((txWaitTxe_ended hi).trans (txDone_goesOn hrx))), htrace, hpending⟩

end Sys2Proof.Machine

/-! # The reception, WORKER by WORKER (`43_rx_submachine.md` R153 to R169)

One rule per state of the RX sub-machine: the state it answers or the state it goes on in, and the calls it makes. The rules
of the waits hold for every script of the environment; from the end of a frame or a watermark on, where bytes are drained, they
are about a front end that takes no step during the operation (`quietEnv`, R58). -/

namespace Sys2Proof.Machine

/-! ## The error check (R158, R181) -/

theorem nfcaShortReply_iff (policy : Policy) (mode : Mode) (total : Nat) (e : Word) (n : Nat) (ib : BitVec 3) :
    nfcaShortReply policy mode total e n ib = true ↔
      policy = .policyNone ∧ mode = .pollNfcA ∧ (has e irqPAR = true ∨ has e irqCRC = true) ∧ ib ≠ 0 ∧ n = 1 ∧ total = 0 := by
  simp only [nfcaShortReply, Bool.and_eq_true, Bool.or_eq_true, beq_iff_eq, bne_iff_ne, and_assoc]

/-- No flag of a set is pending where none of a larger set is. -/
theorem has_eq_false_of_and {e m f : Word} (h : e &&& m = 0) (hf : m &&& f = f) : has e f = false := by
  rw [has, ← hf, ← BitVec.and_assoc, h]
  simp

/-- Settles O42: the branches of the classifier, one after the other. -/
theorem errorCheckPriority : Obligations.ErrorCheckPriority := by
  intro policy mode total n e ib mp short soft r
  have hr : r = if has e irqERR1 then .error .framing else if short then .nfcaIncomplete
      else if soft then .error .framing else if has e irqPAR then .error .parity else if has e irqCRC then .error .crc
      else if has e irqCOL then .error .rfCollision else if ib ≠ 0 then .error .incompleteByte
      else if mp then .error .framing else .noError := by
    simp only [r, classify, nfcaShortReply_iff, Bool.and_eq_true, beq_iff_eq, bne_iff_ne, short, soft]
  have hclear (h : e &&& (irqPAR ||| irqCRC ||| irqCOL) = 0) :
      has e irqPAR = false ∧ has e irqCRC = false ∧ has e irqCOL = false :=
    ⟨has_eq_false_of_and h (by decide), has_eq_false_of_and h (by decide), has_eq_false_of_and h (by decide)⟩
  rw [hr]
  refine ⟨fun h => by simp [h], fun h hs => by simp [h, hs], fun h hs =>
    ⟨fun hf => by simp [h, hs, hf], fun hf hp => by simp [h, hs, hf, hp], fun hf hp hc => by simp [h, hs, hf, hp, hc],
      fun hf hp hc hl => by simp [h, hs, hf, hp, hc, hl], fun hf h0 hib => ?_, fun hf h0 hib hmp => ?_,
      fun hf h0 hib hmp => ?_⟩⟩
  all_goals
    obtain ⟨hp, hc, hl⟩ := hclear h0
    simp only [h, hs, hf, hp, hc, hl, hib, Bool.false_eq_true, if_false]
  · exact if_pos hib
  · simp [hmp]
  · simp [hmp]

/-! ## Polls and questions -/

/-- A poll answers what is pending, and nothing of the block changes but its environment (R56). -/
theorem feGetIrq_eq (m : Word) (s : State) : feGetIrq m s = (polled m s, { s with env := (feGetIrq m s).2.env }) := rfl

theorem feGetIrq_trace (m : Word) (s : State) :
    (feGetIrq m s).2.env.trace = s.env.trace ++ [.feGetIrq m (polled m s)] := (feGetIrq_spec m s).2.2.1

theorem swExpired_eq (t : SwTimer) (s : State) :
    swExpired t s = ((swClock t (atCall s).env).expired, { s with env := (atCall s).env }) := rfl

/-- What a poll for one flag answers. -/
theorem polled_of_has {s : State} {k : Nat} (h : has (polled (BitVec.twoPow 32 k) s) (BitVec.twoPow 32 k) = true) :
    polled (BitVec.twoPow 32 k) s = BitVec.twoPow 32 k := by
  rw [has_twoPow] at h
  have hand : polled (BitVec.twoPow 32 k) s &&& BitVec.twoPow 32 k = polled (BitVec.twoPow 32 k) s := by
    rw [polled, pendingIn, BitVec.and_assoc, BitVec.and_self]
  rw [← hand, BitVec.and_twoPow, h]
  rfl

theorem polled_of_not_has {s : State} {f : Word} (h : has (polled f s) f = false) : polled f s = 0 := by
  have hand : polled f s &&& f = polled f s := by rw [polled, pendingIn, BitVec.and_assoc, BitVec.and_self]
  rw [← hand]
  simpa [has] using h

/-! ## How a reception ends (R166, R167, R169) -/

theorem toLen_eq {n : Nat} {l : Len} (h : l.toNat = n) : toLen n = .ok l := by rw [← h, toLen_toNat]

/-- What an exchange ends with does not depend on the status and the state it had before. -/
theorem endExchange_of_tags (e x : Status) (y : TxrxState) (s : State) :
    endExchange e { s with status := x, txrxState := y } = endExchange e s := rfl

/-- A failed reception ends with its status, through one Cleanup, and reports the bits of the bytes it copied. -/
theorem rxFailWith_ends (e : Status) {s : State} {l : Len} (hl : l.toNat = 8 * s.fifo.bytesWritten.toNat) :
    rxFailWith e s = .ok (endExchange e { s with rxRcvdLen := l }) := by
  rw [rxFailWith, toLen_eq hl, ok_bind, rxFail]
  exact congrArg Except.ok (endExchange_of_tags e e .rxFail { s with rxRcvdLen := l })

/-- WORKER where the step ends the exchange: the status is recorded, the reception timers are disarmed. -/
theorem exec_worker_of_end {s t : State} {e : Status} (htop : s.topState = .txRx) (h : txrxStep s = .ok (endExchange e t)) :
    exec .worker s = .next { t with
      status := e, txrxState := .idle, sw := { t.sw with rxeGuard := false, apFwt := false }
      env := (endExchange .none t).env, result := .none } := by
  rw [exec_worker_of_step htop h, endExchange_ends]

/-! ## `RX_WAIT_EOF` (R165) -/

theorem txrxStep_rxWaitEof {s : State} (hx : s.txrxState = .rxWaitEof) : txrxStep s = rxWaitEof s := by
  simp only [txrxStep, hx]

theorem rxWaitEof_seen {s : State} (h : s.eofSeen = true) : rxWaitEof s = .ok (endExchange .none s) := if_pos h

theorem rxWaitEof_ended {s : State} (hseen : s.eofSeen = false) (h : has (polled irqEOF s) irqEOF = true) :
    rxWaitEof s = .ok (endExchange .none { s with env := (feGetIrq irqEOF s).2.env }) := by
  rw [rxWaitEof, if_neg (Bool.eq_false_iff.1 hseen), feGetIrq_eq]
  dsimp only
  rw [if_pos h]
  rfl

theorem rxWaitEof_waiting {s : State} (hseen : s.eofSeen = false) (h : has (polled irqEOF s) irqEOF = false) :
    rxWaitEof s = .ok { s with env := (feGetIrq irqEOF s).2.env } :=
  (if_neg (Bool.eq_false_iff.1 hseen)).trans (if_neg (Bool.eq_false_iff.1 h))

/-- Settles O47: an `EOF` seen before needs no poll; else the poll decides. -/
theorem frameEndWaitsForFieldOff : Obligations.FrameEndWaitsForFieldOff := by
  intro s htop hx
  have hstep := txrxStep_rxWaitEof hx
  refine ⟨fun h => ?_, fun hseen hnone => ?_⟩
  · by_cases hseen : s.eofSeen = true
    · exact ⟨_, exec_worker_of_end htop (hstep.trans (rxWaitEof_seen hseen)), by simp [hseen]⟩
    · have heof : has (polled irqEOF s) irqEOF = true := h.resolve_left hseen
      have hanswer : polled irqEOF s = irqEOF := polled_of_has (k := 11) heof
      have hend := exec_worker_of_end htop (hstep.trans (rxWaitEof_ended (Bool.eq_false_iff.2 hseen) heof))
      refine ⟨_, hend, ?_⟩
      rw [endExchange_trace, feGetIrq_trace, hanswer, if_neg hseen]
  · have hwait := exec_worker_of_step htop (hstep.trans (rxWaitEof_waiting hseen hnone))
    exact ⟨_, hwait, by rw [feGetIrq_trace, polled_of_not_has hnone]⟩

/-! ## `RX_IDLE` (R153) -/

/-- The calls at the start of a receive-only exchange: the hook, and the receiver enabled on an empty FIFO (R119, R153). -/
def receiverEvents (c : Ctx) : List Event :=
  if c.txBuf = 0 ∧ c.sfByte = none then [.preTxRx, .feCmd .clearFifo, .feCmd .unmaskRx] else []

theorem txAbsent_iff (c : Ctx) : c.txAbsent = true ↔ c.txBuf = 0 ∧ c.sfByte = none := by
  simp [Ctx.txAbsent, nullAddr]

/-- `RX_IDLE` before it starts a timer. -/
def receiverReady (s : State) : State :=
  if s.ctx.txAbsent then feCmd .unmaskRx (feCmd .clearFifo (rxIdleReset s)) else rxIdleReset s

theorem rxIdleReset_eq (s : State) : rxIdleReset s = { s with
    fifo := ⟨0, 0, s.params.fifoRxWl⟩, cache := { s.cache with valid := false }, eofSeen := false
    env := if s.ctx.txAbsent then logEvent .preTxRx s.env else s.env } := by
  unfold rxIdleReset
  cases s.ctx.txAbsent <;> rfl

theorem receiverReady_eq (s : State) : ∃ v : Env, receiverReady s = { s with
      fifo := ⟨0, 0, s.params.fifoRxWl⟩, cache := { s.cache with valid := false }, eofSeen := false, env := v } ∧
    v.trace = s.env.trace ++ receiverEvents s.ctx := by
  refine ⟨(receiverReady s).env, ?_, ?_⟩ <;>
    simp only [receiverReady, receiverEvents, rxIdleReset_eq, ← txAbsent_iff] <;>
    by_cases h : s.ctx.txAbsent = true
  · rw [if_pos h, if_pos h, feCmd_eq .unmaskRx, feCmd_eq .clearFifo]
  · rw [if_neg h, if_neg h]
  · simp [h, logEvent]
  · simp [h]

theorem rxIdle_eq (s : State) : rxIdle s = .ok { rxIdleTimers (receiverReady s) with
    txrxState := if isActive s.mode then .rxWaitEon else .rxWaitRxs } := by
  unfold rxIdle receiverReady
  simp only [rxIdleReset_fields]
  split <;> simp

/-- Settles O37: the reset, then the one timer of the communication mode, if it is to be started. -/
theorem receptionStarts : Obligations.ReceptionStarts := by
  intro s htop hx
  have hstep : txrxStep s = rxIdle s := by simp only [txrxStep, hx]
  obtain ⟨w, hready, htrace⟩ := receiverReady_eq s
  rw [exec_worker_of_step htop (hstep.trans (rxIdle_eq s)), hready]
  unfold receiverEvents at htrace
  cases ha : isActive s.mode with
  | true =>
    cases hn : s.timing.nrtDisabled with
    | true => simp [rxIdleTimers, ha, hn, htrace]
    | false =>
      refine ⟨setSwClock .apFwt ⟨swTicks s.timing.nrtValue, false⟩ w, ?_⟩
      simp [rxIdleTimers, ha, hn, htrace, setSwClock]
  | false =>
    by_cases hf : s.timing.fdtPoll = 0#32
    · simp [rxIdleTimers, ha, hf, htrace]
    · simp [rxIdleTimers, ha, hf, htrace, calls_frontEnd, setHwClock]

/-! ## How a waiting state fails (R169) -/

theorem exec_worker_of_fail {s u : State} {e : Status} (htop : s.topState = .txRx) (h : txrxStep s = rxFailWith e u)
    (hlt : 8 * u.fifo.bytesWritten.toNat < 65536) : ∃ (v : Env) (l : Len), l.toNat = 8 * u.fifo.bytesWritten.toNat ∧
      exec .worker s = .next { u with
        status := e, rxRcvdLen := l, txrxState := .idle, sw := { u.sw with rxeGuard := false, apFwt := false }
        env := v, result := .none } ∧
      v.trace = u.env.trace ++ cleanupEvents := by
  obtain ⟨l, hl⟩ := exists_len hlt
  exact ⟨_, l, hl, exec_worker_of_end htop (h.trans (rxFailWith_ends e hl)), endExchange_trace _ _⟩

/-! ## `RX_WAIT_EON` (R154) -/

theorem txrxStep_rxWaitEon {s : State} (hx : s.txrxState = .rxWaitEon) : txrxStep s = rxWaitEon s := by
  simp only [txrxStep, hx]

theorem rxWaitEon_eq {s u : State} {i : Word} (hi : i = polled (irqEON ||| irqNRE) s)
    (hu : u = { s with env := (feGetIrq (irqEON ||| irqNRE) s).2.env }) : rxWaitEon s =
      if has i irqEON then .ok { u with txrxState := .rxWaitRxs }
      else if has i irqNRE then rxFailWith .timeout u
      else if s.sw.apFwt ∧ (atCall u).env.swApFwt.expired then rxFailWith .timeout { u with env := (atCall u).env }
      else .ok { u with env := if s.sw.apFwt then (atCall u).env else u.env } := by
  subst hi hu
  rw [rxWaitEon, feGetIrq_eq]
  dsimp only [swExpired_eq, swClock]
  cases s.sw.apFwt <;> simp

/-- Settles O38: `EON` first, then `NRE`, then the question for the software timer where it is armed. -/
theorem externalFieldOnBeforeTimeout : Obligations.ExternalFieldOnBeforeTimeout := by
  intro s i htop hx hi hlt late
  let u : State := { s with env := (feGetIrq (irqEON ||| irqNRE) s).2.env }
  have hstep := (txrxStep_rxWaitEon hx).trans (rxWaitEon_eq (u := u) hi rfl)
  have htrace : u.env.trace = s.env.trace ++ [.feGetIrq (irqEON ||| irqNRE) i] := by rw [hi]; exact feGetIrq_trace _ _
  have hlate : late ↔ s.sw.apFwt = true ∧ (atCall u).env.swApFwt.expired = true := Iff.rfl
  refine ⟨fun heon => ?_, fun heon hfail => ?_, fun h0 hnot => ?_⟩
  · rw [if_pos heon] at hstep
    exact ⟨_, exec_worker_of_step htop hstep, htrace⟩
  · rw [if_neg (Bool.eq_false_iff.1 heon)] at hstep
    by_cases hnre : has i irqNRE = true
    · rw [if_pos hnre] at hstep
      obtain ⟨v, l, hl, hexec, hv⟩ := exec_worker_of_fail htop hstep hlt
      exact ⟨v, l, hl, hexec, by rw [hv, htrace]⟩
    · rw [if_neg hnre, if_pos (hlate.1 (hfail.resolve_left hnre))] at hstep
      obtain ⟨v, l, hl, hexec, hv⟩ := exec_worker_of_fail htop hstep hlt
      exact ⟨v, l, hl, hexec, by rw [hv, ← htrace]; simp⟩
  · have hnone (f : Word) : ¬ has i f = true := by simp [h0]
    rw [if_neg (hnone _), if_neg (hnone _), if_neg (mt hlate.2 hnot)] at hstep
    have hwait := exec_worker_of_step htop hstep
    refine ⟨_, hwait, ?_⟩
    rw [← h0, ← htrace]
    split <;> simp

/-! ## `RX_WAIT_RXE` (R157) -/

theorem txrxStep_rxWaitRxe {s : State} (hx : s.txrxState = .rxWaitRxe) : txrxStep s = rxWaitRxe s := by
  simp only [txrxStep, hx]

/-- What a poll of `m` leaves, where `EOF` is remembered (R157). -/
def rememberEof (m : Word) (s : State) : State :=
  { s with eofSeen := s.eofSeen || has (polled m s) irqEOF, env := (feGetIrq m s).2.env }

/-- A poll after which no `EOF` is known leaves the block as it is. -/
theorem rememberEof_of_none {m : Word} {s : State} (h : (rememberEof m s).eofSeen = false) :
    rememberEof m s = { s with env := (feGetIrq m s).2.env } := by
  have hor : (s.eofSeen || has (polled m s) irqEOF) = s.eofSeen := by
    rw [(Bool.or_eq_false_iff.1 h).1, (Bool.or_eq_false_iff.1 h).2]
    rfl
  rw [rememberEof, hor]

theorem rxWaitRxe_eq {s : State} {m : Word} (hm : m = irqRXE ||| irqWL ||| eofIfActive s.mode) : rxWaitRxe s =
      let u := rememberEof m s
      if has (polled m s) irqRXE then rxErrCheck { swDisarm .rxeGuard u with txrxState := .rxErrCheck }
      else if u.eofSeen then rxFailWith .linkLoss u
      else if has (polled m s) irqWL then rxReadFifo { u with txrxState := .rxReadFifo }
      else if (atCall u).env.swRxeGuard.expired then rxFailWith .framing { u with env := (atCall u).env }
      else .ok { u with env := (atCall u).env } := by
  have hpoll : (if has (polled m s) irqEOF then { (feGetIrq m s).2 with eofSeen := true } else (feGetIrq m s).2) =
      rememberEof m s := by
    rw [feGetIrq_eq, rememberEof]
    cases has (polled m s) irqEOF <;> simp
  rw [← hpoll, hm]
  rfl

section
variable {s : State} {m : Word} (hm : m = irqRXE ||| irqWL ||| eofIfActive s.mode)
include hm

theorem rxWaitRxe_ends (h : has (polled m s) irqRXE = true) :
    rxWaitRxe s = rxErrCheck { swDisarm .rxeGuard (rememberEof m s) with txrxState := .rxErrCheck } :=
  (rxWaitRxe_eq hm).trans (if_pos h)

variable (hrxe : has (polled m s) irqRXE = false)
include hrxe

theorem rxWaitRxe_linkLoss (hseen : (rememberEof m s).eofSeen = true) :
    rxWaitRxe s = rxFailWith .linkLoss (rememberEof m s) :=
  (rxWaitRxe_eq hm).trans ((if_neg (Bool.eq_false_iff.1 hrxe)).trans (if_pos hseen))

variable (hseen : (rememberEof m s).eofSeen = false)
include hseen

theorem rxWaitRxe_drains (hwl : has (polled m s) irqWL = true) :
    rxWaitRxe s = rxReadFifo { rememberEof m s with txrxState := .rxReadFifo } :=
  (rxWaitRxe_eq hm).trans ((if_neg (Bool.eq_false_iff.1 hrxe)).trans ((if_neg (Bool.eq_false_iff.1 hseen)).trans
    (if_pos hwl)))

/-- With nothing polled the guard decides. -/
theorem rxWaitRxe_guard (hwl : has (polled m s) irqWL = false) : rxWaitRxe s =
    if (atCall (rememberEof m s)).env.swRxeGuard.expired then
      rxFailWith .framing { rememberEof m s with env := (atCall (rememberEof m s)).env }
    else .ok { rememberEof m s with env := (atCall (rememberEof m s)).env } :=
  (rxWaitRxe_eq hm).trans ((if_neg (Bool.eq_false_iff.1 hrxe)).trans ((if_neg (Bool.eq_false_iff.1 hseen)).trans
    (if_neg (Bool.eq_false_iff.1 hwl))))

end

/-- Settles O40: the field first, then the watermark, then the guard. -/
theorem endOfFrameLinkLossOrGuard : Obligations.EndOfFrameLinkLossOrGuard := by
  rintro s m i htop hx hm rfl hrxe hlt seen late
  have htrace : (rememberEof m s).env.trace = s.env.trace ++ [.feGetIrq m (polled m s)] := feGetIrq_trace _ _
  have hstep := txrxStep_rxWaitRxe hx
  refine ⟨fun h => ?_, fun hseen hwl hnot => ?_⟩
  · by_cases hseen : seen = true
    · obtain ⟨v, l, hl, hexec, hv⟩ := exec_worker_of_fail htop (hstep.trans (rxWaitRxe_linkLoss hm hrxe hseen)) hlt
      rw [if_pos hseen]
      exact ⟨v, l, hl, hexec, by rw [hv, htrace]⟩
    · obtain ⟨hwl, hguard⟩ := h.resolve_left hseen
      have hfail := (rxWaitRxe_guard hm hrxe (Bool.eq_false_iff.2 hseen) hwl).trans (if_pos hguard)
      obtain ⟨v, l, hl, hexec, hv⟩ := exec_worker_of_fail htop (hstep.trans hfail) hlt
      rw [if_neg hseen]
      exact ⟨v, l, hl, hexec, by simp [hv, htrace]⟩
  · have hwait := exec_worker_of_step htop
      (hstep.trans ((rxWaitRxe_guard hm hrxe hseen hwl).trans (if_neg (Bool.eq_false_iff.1 hnot))))
    rw [rememberEof_of_none hseen] at hwait
    exact ⟨_, hwait, (atCall_env _).1.trans htrace⟩

/-! ## `RX_WAIT_RXS` (R155) -/

theorem txrxStep_rxWaitRxs {s : State} (hx : s.txrxState = .rxWaitRxs) : txrxStep s = rxWaitRxs s := by
  simp only [txrxStep, hx]

/-- The state in which the wait for the end of a frame begins, after the poll of `m` that answered `RXS` (R155). -/
def frameStarted (m : Word) (s : State) : State :=
  { s with
    eofSeen := has (polled m s) irqEOF, sw := { s.sw with rxeGuard := true }, txrxState := .rxWaitRxe
    env := setSwClock .rxeGuard ⟨Config.rxeGuardTout, false⟩ (feGetIrq m s).2.env }

theorem rxWaitRxs_eq {s : State} {m : Word} (hm : m = irqRXS ||| irqNRE ||| eofIfActive s.mode) : rxWaitRxs s =
      let u : State := { s with env := (feGetIrq m s).2.env }
      if polled m s = 0 then .ok u
      else if has (polled m s) irqRXS then rxWaitRxe (frameStarted m s)
      else rxFailWith (if has (polled m s) irqEOF then .linkLoss else .timeout) u := by
  rw [rxWaitRxs, ← hm, feGetIrq_eq]
  unfold frameStarted
  cases has (polled m s) irqEOF <;> rfl

theorem ne_zero_of_has {i f : Word} (h : has i f = true) : i ≠ 0 := by
  rintro rfl
  simp at h

theorem rxWaitRxs_starts {s : State} {m : Word} (hm : m = irqRXS ||| irqNRE ||| eofIfActive s.mode)
    (h : has (polled m s) irqRXS = true) : rxWaitRxs s = rxWaitRxe (frameStarted m s) :=
  (rxWaitRxs_eq hm).trans ((if_neg (ne_zero_of_has h)).trans (if_pos h))

/-- What `RX_WAIT_RXS` does without a start of frame: wait, or fail. -/
theorem rxWaitRxs_unstarted {s : State} {m i : Word} (htop : s.topState = .txRx) (hx : s.txrxState = .rxWaitRxs)
    (hm : m = irqRXS ||| irqNRE ||| eofIfActive s.mode) (hi : i = polled m s) (hrxs : has i irqRXS = false)
    (hlt : 8 * s.fifo.bytesWritten.toNat < 65536) :
    (i = 0 → ∃ v : Env, exec .worker s = .next { s with env := v, result := .none } ∧
      v.trace = s.env.trace ++ [.feGetIrq m 0]) ∧
    (i ≠ 0 → ∃ (v : Env) (l : Len), l.toNat = 8 * s.fifo.bytesWritten.toNat ∧ exec .worker s = .next { s with
        status := if has i irqEOF then .linkLoss else .timeout, rxRcvdLen := l, txrxState := .idle
        sw := { s.sw with rxeGuard := false, apFwt := false }, env := v, result := .none } ∧
      v.trace = s.env.trace ++ [.feGetIrq m i] ++ cleanupEvents) := by
  have hstep := (txrxStep_rxWaitRxs hx).trans (rxWaitRxs_eq hm)
  have htrace := feGetIrq_trace m s
  rw [← hi] at hstep htrace
  refine ⟨fun h0 => ?_, fun hne => ?_⟩
  · have hwait := exec_worker_of_step htop (hstep.trans (if_pos h0))
    exact ⟨_, hwait, by rw [htrace, h0]⟩
  · have hfail := hstep.trans ((if_neg hne).trans (if_neg (Bool.eq_false_iff.1 hrxs)))
    obtain ⟨v, l, hl, hexec, hv⟩ := exec_worker_of_fail htop hfail hlt
    exact ⟨v, l, hl, hexec, by rw [hv, htrace]⟩

theorem has_and (i m f : Word) : has (i &&& m) f = has i (m &&& f) := by rw [has, has, BitVec.and_assoc]

/-- A flag of the mask is polled where it is pending. -/
theorem has_polled {m f : Word} (hf : m &&& f = f) (s : State) : has (polled m s) f = has (atCall s).env.fe.irqPending f := by
  rw [polled, pendingIn, has_and, hf]

/-- What was polled and cleared is not pending in the next poll; what was not pending is not either. -/
theorem and_cleared {p m a x : Word} (ha : p &&& a = 0) (hx : m &&& x = x) : (p &&& ~~~m) &&& (a ||| x) = 0 := by
  ext i hi
  have ha' : (p &&& a)[i] = false := by simp [ha]
  have hx' : (m &&& x)[i] = x[i] := by rw [hx]
  simp only [BitVec.getElem_and, BitVec.getElem_or, BitVec.getElem_not] at *
  grind

/-- The poll for the field covers exactly the modes in which it matters. -/
theorem has_eof_of_poll {md : Mode} {p a : Word} (ha : a &&& irqEOF = 0) :
    has (p &&& (a ||| eofIfActive md)) irqEOF = (p &&& eofIfActive md != 0) := by
  have hand : (a ||| eofIfActive md) &&& irqEOF = eofIfActive md := by
    have hdistrib : (a ||| eofIfActive md) &&& irqEOF = a &&& irqEOF ||| eofIfActive md &&& irqEOF := by
      ext i
      simp only [BitVec.getElem_and, BitVec.getElem_or]
      grind
    rw [hdistrib, ha, eofIfActive]
    split <;> decide
  rw [has_and, hand, has]

/-- Where a start of frame is polled, WORKER is WORKER from `RX_WAIT_RXE`. -/
theorem exec_worker_frameStarted {s : State} {m : Word} (htop : s.topState = .txRx) (hx : s.txrxState = .rxWaitRxs)
    (hm : m = irqRXS ||| irqNRE ||| eofIfActive s.mode) (h : has (polled m s) irqRXS = true) :
    exec .worker s = exec .worker (frameStarted m s) := by
  have htop' : (frameStarted m s).topState = .txRx := htop
  rw [exec_worker_txRx htop, exec_worker_txRx htop', txrxStep_rxWaitRxs hx, txrxStep_rxWaitRxe rfl, rxWaitRxs_starts hm h]

theorem frameStarted_env (m : Word) (s : State) :
    (frameStarted m s).env.swRxeGuard = ⟨10, false⟩ ∧
    (frameStarted m s).env.trace = s.env.trace ++ [.feGetIrq m (polled m s)] ∧
    (frameStarted m s).env.script = s.env.script.tail ∧
    (frameStarted m s).env.fe =
      { (atCall s).env.fe with irqPending := (atCall s).env.fe.irqPending &&& ~~~m } := by
  refine ⟨rfl, feGetIrq_trace m s, ?_, ?_⟩ <;> simp [frameStarted]

section
variable {s : State} {m m' p x : Word} (hscript : s.env.script.tail = []) (hp : p = (atCall s).env.fe.irqPending)
  (hrest : p &&& (irqRXE ||| irqWL) = 0) (hx : x = eofIfActive s.mode) (hm : m = irqRXS ||| irqNRE ||| x)
  (hm' : m' = irqRXE ||| irqWL ||| x)
include hscript hp hrest hx hm hm'

/-- With nothing but the start of a frame pending, and a quiet front end, the poll for its end finds nothing. -/
theorem polled_frameStarted : polled m' (frameStarted m s) = 0 := by
  obtain ⟨-, -, hquiet, hfe⟩ := frameStarted_env m s
  have hover : m &&& x = x := by
    rw [hm, hx, eofIfActive]
    split <;> decide
  rw [polled, atCall_quiet (hquiet.trans hscript), pendingIn, hfe, hm', ← hp]
  exact and_cleared hrest hover

/-- What the step does with that: it waits, or the field went off with the start of the frame. -/
theorem rxWaitRxe_frameStarted : ∃ w : Env,
    (let u : State := { s with
      eofSeen := p &&& x != 0, sw := { s.sw with rxeGuard := true }, txrxState := .rxWaitRxe, env := w }
    rxWaitRxe (frameStarted m s) = if p &&& x = 0 then .ok u else rxFailWith .linkLoss u) ∧
    w.swRxeGuard = ⟨10, false⟩ ∧ w.trace = s.env.trace ++ [.feGetIrq m (p &&& m), .feGetIrq m' 0] := by
  have hnone := polled_frameStarted hscript hp hrest hx hm hm'
  obtain ⟨hclock, htrace, hquiet, -⟩ := frameStarted_env m s
  rw [hscript] at hquiet
  have hlast : has (polled m' (frameStarted m s)) irqEOF = false := by simp [hnone]
  have heof : (rememberEof m' (frameStarted m s)).eofSeen = (p &&& x != 0) := by
    have hfirst : polled m s = p &&& (irqRXS ||| irqNRE ||| eofIfActive s.mode) := by rw [polled, pendingIn, ← hp, hm, hx]
    show (has (polled m s) irqEOF || has (polled m' (frameStarted m s)) irqEOF) = _
    rw [hlast, Bool.or_false, hfirst, hx]
    exact has_eof_of_poll (by decide)
  have hmask : m' = irqRXE ||| irqWL ||| eofIfActive (frameStarted m s).mode := hm'.trans (congrArg _ hx)
  have hrxe : has (polled m' (frameStarted m s)) irqRXE = false := by simp [hnone]
  have hclock' : (rememberEof m' (frameStarted m s)).env.swRxeGuard = ⟨10, false⟩ := by
    simp [rememberEof, feGetIrq_quiet hquiet, hclock]
  have hquiet' : (rememberEof m' (frameStarted m s)).env.script = [] := by simp [rememberEof, hquiet]
  refine ⟨(rememberEof m' (frameStarted m s)).env, ?_, hclock', ?_⟩
  · dsimp only
    rw [← heof]
    split
    · next hx0 =>
      have hseen : (rememberEof m' (frameStarted m s)).eofSeen = false := by rw [heof, hx0]; rfl
      rw [rxWaitRxe_guard hmask hrxe hseen (by simp [hnone]), atCall_quiet hquiet', hclock']
      rfl
    · next hx0 => exact rxWaitRxe_linkLoss hmask hrxe (by rw [heof]; simpa using hx0)
  · rw [rememberEof, feGetIrq_trace, htrace, hnone, polled, pendingIn, ← hp]
    simp

end

/-- Settles O39: without a start of frame a wait or a failure; with one the step of `RX_WAIT_RXE`, whose poll finds nothing
where nothing else was pending. -/
theorem startOfFrameTimeoutOrLinkLoss : Obligations.StartOfFrameTimeoutOrLinkLoss := by
  refine ⟨fun s m i htop hx hm hi => ⟨fun hrxs hlt => rxWaitRxs_unstarted htop hx hm hi hrxs hlt, fun hrxs => ?_⟩, ?_⟩
  · subst hi
    exact ⟨(frameStarted m s).env, exec_worker_frameStarted htop hx hm hrxs, frameStarted_env m s⟩
  · intro s p m x htop hx hscript hp hrxs hrest hlt hxm hm
    have hm' : m = irqRXS ||| irqNRE ||| eofIfActive s.mode := hm.trans (congrArg _ hxm)
    have hcovers : m &&& irqRXS = irqRXS := by
      rw [hm', eofIfActive]
      split <;> decide
    have hstart := exec_worker_frameStarted htop hx hm' (by rw [has_polled hcovers, ← hp, hrxs])
    obtain ⟨w, hstep, hclock, htrace⟩ := rxWaitRxe_frameStarted hscript hp hrest hxm hm rfl
    refine ⟨fun hx0 => ?_, fun hx0 => ?_⟩
    · have hwait := exec_worker_of_step (s := frameStarted m s) htop ((txrxStep_rxWaitRxe rfl).trans (hstep.trans (if_pos hx0)))
      rw [hx0] at hwait
      exact ⟨w, hstart.trans hwait, hclock, htrace⟩
    · have hseen : (p &&& x != 0) = true := by simpa using hx0
      obtain ⟨v, l, hl, hexec, hv⟩ := exec_worker_of_fail (s := frameStarted m s) htop
        ((txrxStep_rxWaitRxe rfl).trans (hstep.trans (if_neg hx0))) hlt
      rw [hseen] at hexec
      exact ⟨v, l, hl, hstart.trans hexec, by rw [hv, htrace]⟩

end Sys2Proof.Machine

/-! # The bytes of a reception (`43_rx_submachine.md` R156 to R164), with a quiet front end

With nothing left in the script a call finds the environment as the last one left it, so what a step does to it can be written
out: `Env.after` is the environment after the calls of a step, with their events and with the front end they leave. -/

namespace Sys2Proof.Machine

/-! ## Calls to a quiet front end -/

/-- The environment after calls to a front end that takes no step of its own: their events, and the front end they leave. -/
def Env.after (v : Env) (events : List Event) (f : FrontEnd) : Env := { v with fe := f, trace := v.trace ++ events }

@[simp] theorem Env.after_fields (v : Env) (events : List Event) (f : FrontEnd) :
    (v.after events f).trace = v.trace ++ events ∧ (v.after events f).fe = f ∧ (v.after events f).script = v.script :=
  ⟨rfl, rfl, rfl⟩

@[simp] theorem Env.after_after (v : Env) (l l' : List Event) (f f' : FrontEnd) :
    (v.after l f).after l' f' = v.after (l ++ l') f' := by
  simp [Env.after]

/-- What a front end holds, as `FeFifoStatus` reports it (R19). -/
def statusOf (f : FrontEnd) : Cache := ⟨true, f.fifo.length, f.incompleteBits, f.missingParity⟩

def statusEvent (f : FrontEnd) : Event := .feFifoStatus f.fifo.length f.incompleteBits f.missingParity

/-- What `FeFifoRead(k)` leaves in the trace: reading nothing is no call (R56). -/
def readEvents (k : Nat) (f : FrontEnd) : List Event := if k = 0 then [] else [.feFifoRead (f.fifo.take k)]

/-- The state once `k` bytes were taken out of the FIFO (R56). -/
def drained (k : Nat) (s : State) : State :=
  { s with env := s.env.after (readEvents k s.env.fe) { s.env.fe with fifo := s.env.fe.fifo.drop k } }

section
variable {s : State} (hq : quietEnv s)
include hq

theorem feGetIrq_after (m : Word) : feGetIrq m s = (s.env.fe.irqPending &&& m, { s with
    env := s.env.after [.feGetIrq m (s.env.fe.irqPending &&& m)]
      { s.env.fe with irqPending := s.env.fe.irqPending &&& ~~~m } }) := feGetIrq_quiet hq m

theorem fifoStatus_after (hc : s.cache.valid = false) : fifoStatus s = { s with
    cache := statusOf s.env.fe, env := s.env.after [statusEvent s.env.fe] s.env.fe } := by
  rw [fifoStatus, hc, if_neg Bool.false_ne_true, atCall_quiet hq]
  rfl

theorem feFifoRead_after {k : Nat} (hk : k ≤ s.env.fe.fifo.length) :
    feFifoRead k s = .ok (s.env.fe.fifo.take k, drained k s) := by
  unfold feFifoRead drained readEvents
  split
  · next h0 =>
    subst h0
    simp [Env.after]
  · rw [atCall_quiet hq]
    exact if_pos hk

/-- Cleanup leaves the FIFO as it is. -/
theorem endExchange_fifo (e : Status) : (endExchange e s).env.fe.fifo = s.env.fe.fifo := by
  have henv : (endExchange e s).env = (cleanup s).env := rfl
  have hcalls : (cleanup s).env.fe = (feIrqDisable txrxIrqs (feConfig (.flags 0) s)).env.fe := by simp [cleanup]
  have hscript : s.env.script = [] := hq
  rw [henv, hcalls]
  simp [calls_frontEnd, atCall_quiet, hscript]

end

/-! ## Copying (R151, R156, R162) -/

/-- Bytes copied into BUF: whole bytes, within a receive buffer in bounds (R51, R151). -/
structure DrainsToBuf (s : State) : Prop where
  mode : s.mode ≠ .pollNfcV
  inBounds : inBounds s.params s.ctx.rxBuf s.ctx.rxBufLen.toNat = true
  wholeBytes : s.ctx.splitByte = false

theorem rxCap_buf {s : State} (h : s.mode ≠ .pollNfcV) : rxCap s = ceil8 s.ctx.rxBufLen.toNat := if_neg h

theorem rxCap_scratch {s : State} (h : s.mode = .pollNfcV) : rxCap s = s.params.nfcvScratchSize := if_pos h

theorem rxDeliver_buf {s : State} (h : DrainsToBuf s) {i : Nat} {bytes : List Byte} (hfit : i + bytes.length ≤ rxCap s) :
    rxDeliver i bytes s = .ok { s with buf := writeBytes s.buf (s.ctx.rxBuf.toNat + i) bytes } := by
  obtain ⟨h0, hend⟩ := ceil8_le h.inBounds
  rw [rxCap_buf h.mode] at hfit
  have hok : bufAccessOk s.params (s.ctx.rxBuf.toNat + i) bytes.length = true := bufAccessOk_of_le (by omega) (by omega)
  rw [rxDeliver, if_neg h.mode, rxBufWrite, h.wholeBytes]
  exact if_pos hok

theorem rxDeliver_scratch {s : State} (h : s.mode = .pollNfcV) {i : Nat} {bytes : List Byte}
    (hfit : i + bytes.length ≤ rxCap s) :
    rxDeliver i bytes s = .ok { s with nfcvScratch := writeBytes s.nfcvScratch i bytes } := by
  rw [rxCap_scratch h] at hfit
  rw [rxDeliver, if_pos h]
  exact if_pos hfit

theorem rxCopy_of_deliver {s t : State} {k : Nat} (hq : quietEnv s) (hk : k ≤ s.env.fe.fifo.length)
    (h : rxDeliver s.fifo.bytesWritten.toNat (s.env.fe.fifo.take k) (drained k s) = .ok t) : rxCopy k s =
      (toLen (t.fifo.bytesWritten.toNat + k) >>= fun w => .ok { t with fifo := { t.fifo with bytesWritten := w } }) := by
  rw [rxCopy, feFifoRead_after hq hk, ok_bind]
  show (rxDeliver s.fifo.bytesWritten.toNat (s.env.fe.fifo.take k) (drained k s) >>= _) = _
  rw [h, ok_bind]

section
variable {s : State} {k : Nat} (hq : quietEnv s) (hk : k ≤ s.env.fe.fifo.length)
  (hfit : s.fifo.bytesWritten.toNat + k ≤ rxCap s)
include hq hk hfit

theorem rxCopy_buf (h : DrainsToBuf s) {w : Len} (hw : w.toNat = s.fifo.bytesWritten.toNat + k) :
    rxCopy k s = .ok { drained k s with
      buf := writeBytes s.buf (s.ctx.rxBuf.toNat + s.fifo.bytesWritten.toNat) (s.env.fe.fifo.take k)
      fifo := { s.fifo with bytesWritten := w } } := by
  have hlen : (s.env.fe.fifo.take k).length = k := List.length_take_of_le hk
  rw [rxCopy_of_deliver hq hk (rxDeliver_buf (s := drained k s) ⟨h.mode, h.inBounds, h.wholeBytes⟩ (by rwa [hlen]))]
  show (toLen (s.fifo.bytesWritten.toNat + k) >>= _) = _
  rw [toLen_eq hw]
  rfl

/-- For NFC-V the counter may not hold the sum (R64(e), U7). -/
theorem rxCopy_scratch (h : s.mode = .pollNfcV) : rxCopy k s =
    (toLen (s.fifo.bytesWritten.toNat + k) >>= fun w => .ok { drained k s with
      nfcvScratch := writeBytes s.nfcvScratch s.fifo.bytesWritten.toNat (s.env.fe.fifo.take k)
      fifo := { s.fifo with bytesWritten := w } }) := by
  have hlen : (s.env.fe.fifo.take k).length = k := List.length_take_of_le hk
  exact rxCopy_of_deliver hq hk (rxDeliver_scratch (s := drained k s) h (by rwa [hlen]))

end

/-! ## The end of a frame (R157, R159) -/

/-- A poll leaves the flags outside its mask pending. -/
theorem and_not_and {p m e : Word} (h : m &&& e = 0) : (p &&& ~~~m) &&& e = p &&& e := by
  ext i hi
  have hbit : (m &&& e)[i] = false := by simp [h]
  simp only [BitVec.getElem_and, BitVec.getElem_not] at *
  grind

/-- The state in which the frame has been checked: the poll of `m` that answered `RXE` and the poll for its errors are made,
and the FIFO status is read. -/
def frameChecked (m : Word) (s : State) : State :=
  { s with
    txrxState := .rxErrCheck, eofSeen := s.eofSeen || has (s.env.fe.irqPending &&& m) irqEOF
    sw := { s.sw with rxeGuard := false }, cache := statusOf s.env.fe
    env := s.env.after
      [.feGetIrq m (s.env.fe.irqPending &&& m), .feGetIrq errIrqs (s.env.fe.irqPending &&& errIrqs), statusEvent s.env.fe]
      { s.env.fe with irqPending := s.env.fe.irqPending &&& ~~~m &&& ~~~errIrqs } }

/-- The verdict on the frame whose flags are pending and whose bytes are in the FIFO (R158). -/
def frameVerdict (s : State) : Verdict :=
  classify s.policy s.mode s.fifo.bytesTotal.toNat (s.env.fe.irqPending &&& errIrqs) s.env.fe.fifo.length
    s.env.fe.incompleteBits s.env.fe.missingParity

theorem rxErrCheck_after {s : State} (hq : quietEnv s) : rxErrCheck s = rxOnVerdict (frameVerdict s) { s with
    cache := statusOf s.env.fe
    env := s.env.after [.feGetIrq errIrqs (s.env.fe.irqPending &&& errIrqs), statusEvent s.env.fe]
      { s.env.fe with irqPending := s.env.fe.irqPending &&& ~~~errIrqs } } := by
  have hq' : quietEnv (cacheInvalidate s) := hq
  rw [rxErrCheck, feGetIrq_after hq']
  dsimp only
  rw [fifoStatus_after (by simpa [quietEnv] using hq) (by simp)]
  simp only [Env.after_after]
  rfl

/-- With `RXE` pending, `RX_WAIT_RXE` goes on to the verdict on the frame. -/
theorem rxWaitRxe_checks {s : State} {m : Word} (hq : quietEnv s) (hm : m = irqRXE ||| irqWL ||| eofIfActive s.mode)
    (hrxe : has s.env.fe.irqPending irqRXE = true) :
    rxWaitRxe s = rxOnVerdict (frameVerdict s) (frameChecked m s) := by
  have hcovers : m &&& irqRXE = irqRXE := by
    rw [hm, eofIfActive]
    split <;> decide
  have hdisjoint : m &&& errIrqs = 0 := by
    rw [hm, eofIfActive]
    split <;> decide
  have hpoll : polled m s = s.env.fe.irqPending &&& m := by rw [polled, atCall_quiet hq, pendingIn]
  have hverdict := and_not_and (p := s.env.fe.irqPending) hdisjoint
  rw [rxWaitRxe_ends hm (by rw [hpoll, has_and, hcovers, hrxe]), rememberEof, hpoll, feGetIrq_after hq,
    rxErrCheck_after (by simpa [quietEnv] using hq)]
  simp only [frameVerdict, swDisarm_env, Env.after_fields, Env.after_after, hverdict]
  rfl

/-- In passive communication `EOF` is not polled. -/
theorem passive_mask {mode : Mode} (hm : isActive mode = false) : irqRXE ||| irqWL = irqRXE ||| irqWL ||| eofIfActive mode := by
  rw [eofIfActive, hm]
  rfl

theorem rxWaitRxe_checks_passive {s : State} (hq : quietEnv s) (hm : isActive s.mode = false)
    (hrxe : has s.env.fe.irqPending irqRXE = true) :
    rxWaitRxe s = rxOnVerdict (frameVerdict s) { frameChecked (irqRXE ||| irqWL) s with eofSeen := s.eofSeen } := by
  have heof : has (s.env.fe.irqPending &&& (irqRXE ||| irqWL)) irqEOF = false := by
    rw [has_and, show (irqRXE ||| irqWL) &&& irqEOF = 0 by decide]
    simp [has]
  rw [rxWaitRxe_checks hq (passive_mask hm) hrxe, frameChecked, heof, Bool.or_false]

/-- The status with which the bytes of a frame are read (R159). -/
def recorded (v : Verdict) (st : Status) : Status :=
  match v with
  | .error e => e
  | .noError | .nfcaIncomplete => st

theorem emdDiscard_false {policy : Policy} {total n : Nat} (e : Status)
    (h : policy = .policyEMVCo → Config.emdThreshold ≤ total + n) : emdDiscard policy total e n = false := by
  cases policy with
  | policyNone => rfl
  | policyEMVCo => simp [emdDiscard, h rfl]

/-- A frame that is neither a short reply nor discarded is read (R159, R182). -/
theorem rxOnVerdict_reads {v : Verdict} {s : State} (hv : v ≠ .nfcaIncomplete) (hd : ∀ e, v = .error e →
    s.policy = .policyEMVCo → Config.emdThreshold ≤ s.fifo.bytesTotal.toNat + s.cache.numBytes) :
    rxOnVerdict v s = rxReadData { s with status := recorded v s.status, txrxState := .rxReadData } := by
  cases v with
  | noError => rfl
  | nfcaIncomplete => exact absurd rfl hv
  | error e =>
    rw [rxOnVerdict, emdDiscard_false e (hd e rfl)]
    rfl

/-! ## `RX_READ_DATA` (R162) -/

section
variable {s : State} {total lrep k : Nat} (hq : quietEnv s) (hcache : s.cache = statusOf s.env.fe)
  (htotal : total = s.fifo.bytesTotal.toNat + s.env.fe.fifo.length) (hrep : lrep = reportedBytes s total)
  (hk : k = min lrep (rxCap s) - s.fifo.bytesWritten.toNat)
include hcache htotal hrep hk

theorem rxReadData_eq : rxReadData s = (rxCopy k s >>= fun t => toLen total >>= fun n => reportedBits t lrep >>= fun len =>
    let u : State := { t with
      fifo := { t.fifo with bytesTotal := n }
      status := if rxCap t < lrep ∧ t.status = .busy then .noMem else t.status
      rxRcvdLen := len }
    if t.mode = .pollNfcV then nfcvDecodeStep u >>= rxAfterData else rxAfterData u) := by
  have hstatus : fifoStatus s = s := by
    rw [fifoStatus, hcache]
    rfl
  have hnum : s.cache.numBytes = s.env.fe.fifo.length := by rw [hcache]; rfl
  rw [hk, hrep, htotal, ← hnum, rxReadData, hstatus]
  rfl

/-- A frame that goes to BUF is delivered up to the capacity, and its length recorded (R162, R163). -/
theorem rxReadData_buf {n w l : Len} {st : Status} (hq : quietEnv s) (h : DrainsToBuf s)
    (hcount : s.fifo.bytesWritten = s.fifo.bytesTotal) (hle : s.fifo.bytesWritten.toNat ≤ rxCap s) (hn : n.toNat = total) (hw : w.toNat = s.fifo.bytesWritten.toNat + k)
    (hl : l.toNat = bitLen lrep s.env.fe.incompleteBits)
    (hst : (if rxCap s < lrep ∧ s.status = .busy then .noMem else s.status) = st) :
    rxReadData s = rxAfterData { drained k s with
      buf := writeBytes s.buf (s.ctx.rxBuf.toNat + s.fifo.bytesWritten.toNat) (s.env.fe.fifo.take k)
      fifo := { s.fifo with bytesTotal := n, bytesWritten := w }
      status := st, rxRcvdLen := l } := by
  subst hst
  have hreple : lrep ≤ total := hrep ▸ reported_le s total
  rw [← hcount] at htotal
  have hbits : s.cache.incompleteBits = s.env.fe.incompleteBits := by rw [hcache]; rfl
  rw [rxReadData_eq hcache (hcount ▸ htotal) hrep hk, rxCopy_buf hq (by omega) (by omega) h hw, ok_bind, toLen_eq hn, ok_bind]
  dsimp only [reportedBits, drained]
  rw [if_neg h.mode, hbits, toLen_eq hl, ok_bind]
  exact if_neg h.mode

end

/-! ## The edge out of `RX_READ_DATA` (R162, R165) -/

theorem rxAfterData_fails {s : State} (h : s.status ≠ .busy) : rxAfterData s = .ok (endExchange s.status s) := by
  rw [rxAfterData, if_pos h]
  rfl

theorem rxAfterData_done {s : State} (h : s.status = .busy) (hm : isActive s.mode = false) :
    rxAfterData s = .ok (endExchange .none s) := by
  rw [rxAfterData, if_neg (not_not.2 h), if_neg (Bool.eq_false_iff.1 hm)]
  rfl

theorem rxAfterData_waits {s : State} (h : s.status = .busy) (hm : isActive s.mode = true) :
    rxAfterData s = rxWaitEof { s with txrxState := .rxWaitEof } := by
  rw [rxAfterData, if_neg (not_not.2 h), if_pos hm]

/-- `RX_WAIT_EOF` with no `EOF` pending and none to come. -/
theorem rxWaitEof_after {s : State} (hq : quietEnv s) (hpending : s.env.fe.irqPending &&& irqEOF = 0) : rxWaitEof s =
    if s.eofSeen = false then .ok { s with
      env := s.env.after [.feGetIrq irqEOF 0] { s.env.fe with irqPending := s.env.fe.irqPending &&& ~~~irqEOF } }
    else .ok (endExchange .none s) := by
  have hnone : polled irqEOF s = 0 := by rw [polled, atCall_quiet hq, pendingIn, hpending]
  split
  · next hseen => rw [rxWaitEof_waiting hseen (by simp [hnone]), feGetIrq_after hq, hpending]
  · next hseen => exact rxWaitEof_seen (by simpa using hseen)

/-- The exchange ends with `outcome`, or a success waits for the field to go off, where nothing says that it has. -/
theorem rxAfterData_outcome {s : State} {outcome : Status} (hq : quietEnv s) (hbusy : outcome ≠ .busy)
    (hstatus : s.status = if outcome = .none then .busy else outcome)
    (hpending : isActive s.mode = true → s.env.fe.irqPending &&& irqEOF = 0) : rxAfterData s =
      if isActive s.mode = true ∧ outcome = .none ∧ s.eofSeen = false then .ok { s with
        txrxState := .rxWaitEof
        env := s.env.after [.feGetIrq irqEOF 0] { s.env.fe with irqPending := s.env.fe.irqPending &&& ~~~irqEOF } }
      else .ok (endExchange outcome s) := by
  by_cases hout : outcome = .none
  · rw [if_pos hout] at hstatus
    by_cases hm : isActive s.mode = true
    · rw [rxAfterData_waits hstatus hm, rxWaitEof_after (s := { s with txrxState := .rxWaitEof }) hq (hpending hm), hout]
      simp only [hm, true_and]
      rfl
    · rw [rxAfterData_done hstatus (Bool.eq_false_iff.2 hm), if_neg fun h => hm h.1, hout]
  · rw [if_neg hout] at hstatus
    rw [rxAfterData_fails (by rw [hstatus]; exact hbusy), hstatus, if_neg fun h => hout h.2.1]

/-! ## A frame delivered to BUF -/

/-- The outcome of a frame that is read: its first error, `NoMem` beyond the capacity, or success (R158, R162). -/
def frameOutcome (v : Verdict) (cap lrep : Nat) : Status :=
  match v with
  | .error x => x
  | .noError | .nfcaIncomplete => if cap < lrep then .noMem else .none

/-- The status recorded after the capacity check says the outcome; success is `Busy` still (R162). -/
theorem recorded_outcome {v : Verdict} {cap lrep : Nat} (hv : ∀ x, v = .error x → x ≠ .busy ∧ x ≠ .none) :
    (if cap < lrep ∧ recorded v .busy = .busy then .noMem else recorded v .busy) =
      if frameOutcome v cap lrep = .none then .busy else frameOutcome v cap lrep := by
  cases v with
  | error x =>
    obtain ⟨hbusy, hnone⟩ := hv x rfl
    simp [recorded, frameOutcome, hbusy, hnone]
  | _ => by_cases h : cap < lrep <;> simp [recorded, frameOutcome, h]

theorem classify_error {policy : Policy} {mode : Mode} {total n : Nat} {e : Word} {ib : BitVec 3} {mp : Bool} {x : Status}
    (h : classify policy mode total e n ib mp = .error x) : x ≠ .busy ∧ x ≠ .none := by
  refine ⟨classify_ne h, ?_⟩
  rintro rfl
  unfold classify at h
  repeat' split at h
  all_goals cases h

theorem frameOutcome_ne_busy {v : Verdict} (cap lrep : Nat) (hv : ∀ x, v = .error x → x ≠ .busy ∧ x ≠ .none) :
    frameOutcome v cap lrep ≠ .busy := by
  cases v with
  | error x => exact (hv x rfl).1
  | _ => by_cases h : cap < lrep <;> simp [frameOutcome, h]

/-- What is reported of a frame in BUF: its CRC only where it is kept (R162, R64(c)). -/
theorem reportedBytes_buf {s : State} (h : s.mode ≠ .pollNfcV) (l : Nat) :
    reportedBytes s l = if s.ctx.flags.getLsbD 1 = false ∧ 2 < l then l - 2 else l := by
  by_cases hf : s.ctx.flags.getLsbD 1 = false <;> by_cases hl : 2 < l <;>
    simp [reportedBytes, strip, crcRxKeep, Config.crcLen, h, hl]

/-- The bit length of a frame (R163). -/
theorem bitLen_eq (lrep : Nat) (ib : BitVec 3) :
    bitLen lrep ib = if ib = 0 ∨ lrep = 0 then 8 * lrep else 8 * lrep - (8 - ib.toNat) := by
  unfold bitLen
  by_cases h0 : ib = 0 <;> by_cases hl : lrep = 0 <;> simp [h0, hl, Nat.pos_iff_ne_zero]

theorem bitLen_le (lrep : Nat) (ib : BitVec 3) : bitLen lrep ib ≤ 8 * lrep := by
  unfold bitLen
  split <;> omega

/-- A flag that was polled is not pending after it. -/
theorem not_pending_of_polled {p m e x : Word} (h : m &&& x = x) : p &&& ~~~m &&& ~~~e &&& x = 0 := by
  ext i hi
  have hbit : (m &&& x)[i] = x[i] := by rw [h]
  simp only [BitVec.getElem_and, BitVec.getElem_not] at *
  grind

/-- Settles O43: the frame is checked, delivered up to the capacity, and the exchange ends with its outcome or waits. -/
theorem frameIsDeliveredAndReported : Obligations.FrameIsDeliveredAndReported := by
  intro s e m p n total lrep cap k verdict outcome gone htop hx hmode hq hwf hin hsplit hbusy hm hp hrxe he hn hverdict hv
    hdiscard htotal hcap hcount hle hlt hrep hk hout hgone waits
  subst hp he hn hgone
  have herror : ∀ x, verdict = .error x → x ≠ .busy ∧ x ≠ .none := fun x hx => classify_error (hverdict.symm.trans hx)
  have houtcome : outcome = frameOutcome verdict cap lrep := by
    rw [hout]
    cases verdict <;> rfl
  let r : State := { frameChecked m s with status := recorded verdict .busy, txrxState := .rxReadData }
  have hread : txrxStep s = rxReadData r := by
    have hframe : verdict = frameVerdict s := hverdict
    rw [txrxStep_rxWaitRxe hx, rxWaitRxe_checks hq hm hrxe, ← hframe, rxOnVerdict_reads hv]
    · show rxReadData { frameChecked m s with status := recorded verdict s.status, txrxState := .rxReadData } = _
      rw [hbusy]
    · exact hdiscard
  have hcapr : rxCap r = cap := (rxCap_buf hmode).trans hcap.symm
  have hreported : lrep = reportedBytes r total := hrep.trans (reportedBytes_buf hmode total).symm
  have hreple := reported_le r total
  have hbits := bitLen_le lrep s.env.fe.incompleteBits
  obtain ⟨nt, hnt⟩ : ∃ n : Len, n.toNat = total := exists_len (by omega)
  obtain ⟨w, hw⟩ : ∃ w : Len, w.toNat = s.fifo.bytesWritten.toNat + k := exists_len (by omega)
  obtain ⟨l, hl⟩ : ∃ l : Len, l.toNat = bitLen lrep s.env.fe.incompleteBits := exists_len (by omega)
  let u : State := { drained k r with
    buf := writeBytes s.buf (s.ctx.rxBuf.toNat + s.fifo.bytesWritten.toNat) (s.env.fe.fifo.take k)
    fifo := { s.fifo with bytesTotal := nt, bytesWritten := w }
    status := if outcome = .none then .busy else outcome, rxRcvdLen := l }
  have hdrain : rxReadData r = rxAfterData u := rxReadData_buf (s := r) rfl htotal hreported (by rw [hcapr]; exact hk) hq
    ⟨hmode, hin, hsplit⟩ hcount (by rw [hcapr]; exact hle) hnt hw hl
    (by rw [hcapr, houtcome]; exact recorded_outcome herror)
  have hend : rxAfterData u = _ := rxAfterData_outcome (s := u) (outcome := outcome) hq
    (by rw [houtcome]; exact frameOutcome_ne_busy cap lrep herror) rfl fun ha => not_pending_of_polled (by
      rw [hm, if_pos (by exact ha)]
      decide)
  have htrace : u.env.trace = s.env.trace ++
      [.feGetIrq m (s.env.fe.irqPending &&& m), .feGetIrq errIrqs (s.env.fe.irqPending &&& errIrqs), statusEvent s.env.fe] ++
      readEvents k s.env.fe := rfl
  have hstored := storedAt_writeBytes hwf (s.ctx.rxBuf.toNat + s.fifo.bytesWritten.toNat) (s.env.fe.fifo.take k)
  have htotal' : nt = BitVec.ofNat 16 total := by rw [← hnt]; simp
  have hstep := hread.trans (hdrain.trans hend)
  have hwaits : waits ↔ isActive u.mode = true ∧ outcome = .none ∧ u.eofSeen = false := Iff.rfl
  by_cases hw' : waits
  · rw [if_pos (hwaits.1 hw')] at hstep
    have hexec := exec_worker_of_step htop hstep
    simp only [if_pos hw']
    refine ⟨u.env.after [.feGetIrq irqEOF 0] { u.env.fe with irqPending := u.env.fe.irqPending &&& ~~~irqEOF }, u.buf, w, l,
      hw, hl.trans (bitLen_eq _ _), hstored, hexec.trans ?_, ?_, rfl⟩
    · rw [show u.status = .busy from if_pos hw'.2.1, ← htotal']
      rfl
    · rw [(Env.after_fields _ _ _).1, htrace]
      rfl
  · rw [if_neg (mt hwaits.2 hw')] at hstep
    have hexec := exec_worker_of_end htop hstep
    simp only [if_neg hw']
    refine ⟨(endExchange .none u).env, u.buf, w, l, hw, hl.trans (bitLen_eq _ _), hstored, hexec.trans ?_, ?_, ?_⟩
    · rw [← htotal']
      rfl
    · rw [endExchange_trace, htrace]
      rfl
    · exact endExchange_fifo (s := u) hq .none

/-! ## The NFC-A short reply (R160) -/

/-- The byte of a short reply is delivered where there is room for it, and the exchange ends. -/
theorem rxShortReply_after {s : State} {k : Nat} {n : Len} (hq : quietEnv s) (h : DrainsToBuf s) (hk : k = min 1 (rxCap s))
    (hn : n.toNat = k) (hone : 1 ≤ s.env.fe.fifo.length) : rxShortReply s = .ok (endExchange .incompleteByte { drained k s with
      buf := writeBytes s.buf s.ctx.rxBuf.toNat (s.env.fe.fifo.take k)
      fifo := { s.fifo with bytesTotal := 1, bytesWritten := n }, rxRcvdLen := s.cache.incompleteBits.setWidth 16 }) := by
  have hlen : (s.env.fe.fifo.take k).length = k := List.length_take_of_le (by omega)
  have hdeliver := rxDeliver_buf (s := drained k s) ⟨h.mode, h.inBounds, h.wholeBytes⟩ (i := 0)
    (bytes := s.env.fe.fifo.take k) (by rw [hlen, hk]; show 0 + _ ≤ rxCap s; omega)
  have hn' : BitVec.ofNat 16 k = n := by rw [← hn]; simp
  rw [rxShortReply, ← hk, feFifoRead_after hq (by omega), ok_bind]
  dsimp only
  rw [hdeliver, ok_bind, hn']
  rfl

theorem has_or (i a b : Word) : has i (a ||| b) = (has i a || has i b) := by
  rw [Bool.eq_iff_iff, Bool.or_eq_true]
  simp only [has, bne_iff_ne, ne_eq, BitVec.and_or_distrib_left, ← not_and_or]
  exact not_congr BitVec.or_eq_zero_iff

theorem classify_shortReply {policy : Policy} {mode : Mode} {total n : Nat} {e : Word} {ib : BitVec 3} {mp : Bool}
    (herr : has e irqERR1 = false) (h : nfcaShortReply policy mode total e n ib = true) :
    classify policy mode total e n ib mp = .nfcaIncomplete := by
  rw [classify, herr, if_neg Bool.false_ne_true, if_pos h]

/-- One byte fits a buffer that is not empty. -/
theorem min_one_ceil8 (n : Len) : min 1 (ceil8 n.toNat) = if n = 0 then 0 else 1 := by
  have hzero : n = 0 ↔ n.toNat = 0 := ⟨fun h => by rw [h]; rfl, fun h => BitVec.eq_of_toNat_eq h⟩
  unfold ceil8
  by_cases h : n.toNat = 0
  · rw [if_pos (hzero.2 h)]
    omega
  · rw [if_neg (mt hzero.1 h)]
    omega

/-- Settles O44: the flags make it a short reply, which is delivered as far as the buffer goes. -/
theorem shortReplyBecomesIncompleteByte : Obligations.ShortReplyBecomesIncompleteByte := by
  intro s b p htop hx hmode hpol hq hwf hin hsplit hp hrxe herr hflag hfifo hib htotal hwritten
  subst hp
  have hdrain : s.mode ≠ .pollNfcV := by rw [hmode]; decide
  have hshort : frameVerdict s = .nfcaIncomplete := by
    have hcovers : errIrqs &&& irqERR1 = irqERR1 ∧ errIrqs &&& irqPAR = irqPAR ∧ errIrqs &&& irqCRC = irqCRC := by decide
    refine classify_shortReply (by rw [has_and, hcovers.1, herr])
      ((nfcaShortReply_iff _ _ _ _ _ _).2 ⟨hpol, hmode, ?_, hib, by rw [hfifo]; rfl, by rw [htotal]; rfl⟩)
    rw [has_and, has_and, hcovers.2.1, hcovers.2.2, ← Bool.or_eq_true, ← has_or, hflag]
  let c : State := { frameChecked (irqRXE ||| irqWL) s with eofSeen := s.eofSeen }
  let k := if s.ctx.rxBufLen = 0 then 0 else 1
  have hk : k = min 1 (rxCap c) := (min_one_ceil8 _).symm.trans (congrArg (min 1) (rxCap_buf (s := c) hdrain).symm)
  let n : Len := if s.ctx.rxBufLen = 0 then 0 else 1
  have hn : n.toNat = k := by
    dsimp only [n, k]
    split <;> rfl
  let t : State := { drained k c with
      buf := writeBytes s.buf s.ctx.rxBuf.toNat (s.env.fe.fifo.take k)
      fifo := { s.fifo with bytesTotal := 1, bytesWritten := n }, rxRcvdLen := s.env.fe.incompleteBits.setWidth 16 }
  have hstep : txrxStep s = .ok (endExchange .incompleteByte t) := by
    rw [txrxStep_rxWaitRxe hx, rxWaitRxe_checks_passive hq (by rw [hmode]; rfl) hrxe, hshort]
    exact rxShortReply_after (s := c) hq ⟨hdrain, hin, hsplit⟩ hk hn (by simp [c, frameChecked, hfifo])
  refine ⟨(endExchange .none t).env, t.buf, s.env.fe.incompleteBits.setWidth 16, BitVec.toNat_setWidth_of_le (by decide), ?_,
    (exec_worker_of_end htop hstep).trans ?_, ?_⟩
  · have hbytes : (if s.ctx.rxBufLen = 0 then [] else [b]) = s.env.fe.fifo.take k := by
      rw [hfifo]
      dsimp only [k]
      split <;> rfl
    rw [hbytes]
    exact storedAt_writeBytes hwf _ _
  · have hcache : c.cache = ⟨true, 1, s.env.fe.incompleteBits, s.env.fe.missingParity⟩ := by
      show statusOf s.env.fe = _
      rw [statusOf, hfifo]
      rfl
    rw [← hcache]
    rfl
  · have htrace : t.env.trace = s.env.trace ++ [.feGetIrq (irqRXE ||| irqWL) (s.env.fe.irqPending &&& (irqRXE ||| irqWL)),
        .feGetIrq errIrqs (s.env.fe.irqPending &&& errIrqs), statusEvent s.env.fe] ++ readEvents k s.env.fe := rfl
    rw [endExchange_trace, htrace, readEvents]
    split <;> simp [postHooks, statusEvent, cleanupEvents]

end Sys2Proof.Machine

/-! # Watermark drains and NFC-V (`43_rx_submachine.md` R156, R164), with a quiet front end -/

namespace Sys2Proof.Machine

/-! ## A watermark drain (R156) -/

/-- The state in which a drain has counted the bytes present, after the poll of `m` that answered `WL` alone (R156). -/
def counted (m : Word) (total : Len) (s : State) : State :=
  { s with
    txrxState := .rxReadFifo, cache := statusOf s.env.fe, fifo := { s.fifo with bytesTotal := total }
    env := s.env.after [.feGetIrq m irqWL, statusEvent s.env.fe]
      { s.env.fe with irqPending := s.env.fe.irqPending &&& ~~~m } }

theorem rxReadFifo_after {s : State} {total : Len} {k : Nat} (hq : quietEnv s)
    (htotal : total.toNat = s.fifo.bytesTotal.toNat + s.env.fe.fifo.length)
    (hk : k = min s.env.fe.fifo.length (rxCap s - s.fifo.bytesWritten.toNat)) : rxReadFifo s =
      (rxCopy k { s with
          cache := statusOf s.env.fe, fifo := { s.fifo with bytesTotal := total }
          env := s.env.after [statusEvent s.env.fe] s.env.fe } >>= fun t =>
        if rxCap t < total.toNat then rxBeyondCapacity t else .ok { t with txrxState := .rxWaitRxe }) := by
  have hstatus : fifoStatus (cacheInvalidate s) = { s with
      cache := statusOf s.env.fe, env := s.env.after [statusEvent s.env.fe] s.env.fe } :=
    fifoStatus_after (s := cacheInvalidate s) hq rfl
  have hnum : (statusOf s.env.fe).numBytes = s.env.fe.fifo.length := rfl
  rw [rxReadFifo, hstatus]
  dsimp only
  rw [hnum, toLen_eq htotal, ok_bind, hk]
  rfl

/-- On `WL` alone, with the field still on, `RX_WAIT_RXE` drains the FIFO. -/
theorem rxWaitRxe_watermark {s : State} {m : Word} {total : Len} {k : Nat} (hq : quietEnv s)
    (hm : m = irqRXE ||| irqWL ||| eofIfActive s.mode) (hi : s.env.fe.irqPending &&& m = irqWL) (hseen : s.eofSeen = false)
    (htotal : total.toNat = s.fifo.bytesTotal.toNat + s.env.fe.fifo.length)
    (hk : k = min s.env.fe.fifo.length (rxCap s - s.fifo.bytesWritten.toNat)) : rxWaitRxe s =
      (rxCopy k (counted m total s) >>= fun t =>
        if rxCap t < total.toNat then rxBeyondCapacity t else .ok { t with txrxState := .rxWaitRxe }) := by
  let p : State := { s with
    txrxState := .rxReadFifo
    env := s.env.after [.feGetIrq m irqWL] { s.env.fe with irqPending := s.env.fe.irqPending &&& ~~~m } }
  have hpoll : polled m s = irqWL := by rw [polled, atCall_quiet hq, pendingIn, hi]
  have hnone : (rememberEof m s).eofSeen = false := by
    rw [rememberEof, hpoll, hseen]
    show (false || has irqWL irqEOF) = false
    decide
  rw [rxWaitRxe_drains hm (by rw [hpoll]; decide) hnone (by rw [hpoll]; decide), rememberEof_of_none hnone,
    feGetIrq_after hq, hi]
  refine (rxReadFifo_after (s := p) hq htotal hk).trans ?_
  rw [Env.after_after]
  rfl

/-- Settles O41: the bytes are counted, copied as far as the buffer goes, and the reception goes on or fails. -/
theorem partialDrainCopiesUpToCapacity : Obligations.PartialDrainCopiesUpToCapacity := by
  intro s n k cap i htop hx hmode hq hwf hin hsplit hseen hi hwl hn hcap hle hcount htotal hbits hk
  subst hn
  obtain ⟨total, ht⟩ : ∃ t : Len, t.toNat = s.fifo.bytesTotal.toNat + s.env.fe.fifo.length := exists_len htotal
  obtain ⟨w, hw⟩ : ∃ w : Len, w.toNat = s.fifo.bytesWritten.toNat + k := exists_len (by omega)
  obtain ⟨l, hl⟩ : ∃ l : Len, l.toNat = 8 * w.toNat := exists_len (by omega)
  generalize hm : irqRXE ||| irqWL ||| (if isActive s.mode then irqEOF else 0) = m at hi
  let c : State := counted m total s
  have hcaps : rxCap s = cap := (rxCap_buf hmode).trans hcap.symm
  let u : State := { drained k c with
    buf := writeBytes s.buf (s.ctx.rxBuf.toNat + s.fifo.bytesWritten.toNat) (s.env.fe.fifo.take k)
    fifo := { s.fifo with bytesTotal := total, bytesWritten := w } }
  have hcopy : rxCopy k c = .ok u := rxCopy_buf (s := c) hq (show k ≤ s.env.fe.fifo.length by omega)
    (show s.fifo.bytesWritten.toNat + k ≤ rxCap s by omega) ⟨hmode, hin, hsplit⟩ hw
  have hstep : txrxStep s = if cap < total.toNat then rxFailWith .noMem u else .ok { u with txrxState := .rxWaitRxe } := by
    have hbeyond : rxBeyondCapacity u = rxFailWith .noMem u := if_neg hmode
    rw [txrxStep_rxWaitRxe hx, rxWaitRxe_watermark (k := k) hq hm.symm (hi.symm.trans hwl) hseen ht
      (by rw [hcaps]; exact hk), hcopy, ok_bind, hbeyond, show rxCap u = cap from hcaps]
  have hstored := storedAt_writeBytes hwf (s.ctx.rxBuf.toNat + s.fifo.bytesWritten.toNat) (s.env.fe.fifo.take k)
  by_cases hroom : total.toNat ≤ cap
  · rw [if_neg (not_lt.2 hroom), hx.symm] at hstep
    refine ⟨u.env, u.buf, total, w, l, ht, hw, hl, hstored, rfl, ?_⟩
    rw [if_pos hroom, exec_worker_of_step htop hstep]
    rfl
  · rw [if_pos (not_le.1 hroom), rxFailWith_ends .noMem (s := u) hl] at hstep
    refine ⟨(endExchange .none { u with rxRcvdLen := l }).env, u.buf, total, w, l, ht, hw, hl, hstored,
      endExchange_fifo (s := { u with rxRcvdLen := l }) hq .none, ?_⟩
    rw [if_neg hroom, exec_worker_of_end htop hstep]
    rfl

/-! ## The NFC-V decode (R164) -/

/-- What a decode gives: as many bytes as the receive buffer holds at most, and an outcome (log entry 16). -/
theorem nfcvDecode_within (raw : List Byte) (keepCrc : Bool) (capacity : Nat) :
    (nfcvDecode raw keepCrc capacity).bytes.length ≤ capacity ∧ (nfcvDecode raw keepCrc capacity).status ≠ .busy := by
  refine ⟨List.length_take_le _ _, ?_⟩
  dsimp only [nfcvDecode]
  split
  · decide
  · assumption

/-- The bytes up to the end of what was just written: the old ones before it, then what was written. -/
theorem readBytes_writeBytes_append {m : Memory} (h : m.wf = true) (w : Nat) (bytes : List Byte) :
    readBytes (writeBytes m w bytes) 0 (w + bytes.length) = readBytes m 0 w ++ bytes := by
  refine List.ext_getElem (by simp) fun i hi _ => ?_
  rw [readBytes_length] at hi
  rw [readBytes_getElem, Nat.zero_add]
  by_cases hlt : i < w
  · rw [List.getElem_append_left (by simpa using hlt), readBytes_getElem, Nat.zero_add,
      readByte_writeBytes_outside h w bytes (.inl hlt)]
  · obtain ⟨j, rfl⟩ := Nat.exists_eq_add_of_le (not_lt.1 hlt)
    rw [readByte_writeBytes_inside h w bytes (by omega), List.getElem_append_right (by simp)]
    simp

theorem toLen_overflow {n : Nat} (h : 65536 ≤ n) : toLen n = .error .counterOverflow := if_neg (not_lt.2 h)

/-- The decode and the edge after it: the exchange ends with the status of the decode, whatever was recorded before. -/
theorem nfcvDecodeStep_ends {s : State} {raw : List Byte} {d : NfcvDecoded} (hm : s.mode = .pollNfcV)
    (hin : inBounds s.params s.ctx.rxBuf s.ctx.rxBufLen.toNat = true)
    (hfit : s.fifo.bytesWritten.toNat ≤ s.params.nfcvScratchSize)
    (hraw : raw = readBytes s.nfcvScratch 0 s.fifo.bytesWritten.toNat)
    (hd : d = nfcvDecode raw (s.ctx.flags.getLsbD 1) (ceil8 s.ctx.rxBufLen.toNat)) :
    (nfcvDecodeStep s >>= rxAfterData) =
      if d.bits < 65536 then .ok (endExchange d.status { s with
        buf := writeBytes s.buf s.ctx.rxBuf.toNat d.bytes, rxRcvdLen := BitVec.ofNat 16 d.bits })
      else .error .counterOverflow := by
  have hread : scratchRead 0 s.fifo.bytesWritten.toNat s = .ok raw := by
    rw [hraw]
    exact if_pos (by omega)
  obtain ⟨hlen, hbusy⟩ := nfcvDecode_within raw (s.ctx.flags.getLsbD 1) (ceil8 s.ctx.rxBufLen.toNat)
  rw [← hd] at hlen hbusy
  have hwrite : bufWrite s.ctx.rxBuf.toNat d.bytes s = .ok { s with buf := writeBytes s.buf s.ctx.rxBuf.toNat d.bytes } :=
    if_pos (bufAccessOk_of_inBounds hin hlen)
  rw [nfcvDecodeStep, hread, ok_bind]
  dsimp only [crcRxKeep]
  rw [← hd, hwrite, ok_bind]
  by_cases hbits : d.bits < 65536
  · rw [toLen_of_lt hbits, ok_bind, ok_bind, if_pos hbits]
    by_cases hnone : d.status = .none
    · rw [if_pos hnone, hnone]
      exact rxAfterData_done rfl (by rw [hm]; rfl)
    · rw [if_neg hnone]
      exact rxAfterData_fails hbusy
  · rw [toLen_overflow (not_lt.1 hbits), if_neg hbits]
    rfl

theorem toNat_ofNat_len {n : Nat} (h : n < 65536) : (BitVec.ofNat 16 n).toNat = n :=
  (BitVec.toNat_ofNat n 16).trans (Nat.mod_eq_of_lt h)

/-- The state in which `k` more bytes of the raw response are copied to the scratch buffer and `total` are counted. -/
def scratchFilled (k total : Nat) (s : State) : State :=
  { drained k s with
    nfcvScratch := writeBytes s.nfcvScratch s.fifo.bytesWritten.toNat (s.env.fe.fifo.take k)
    fifo := { s.fifo with
      bytesTotal := BitVec.ofNat 16 total, bytesWritten := BitVec.ofNat 16 (s.fifo.bytesWritten.toNat + k) } }

section
variable {s : State} {total k : Nat} {raw : List Byte} {d : NfcvDecoded} (hm : s.mode = .pollNfcV)
  (hin : inBounds s.params s.ctx.rxBuf s.ctx.rxBufLen.toNat = true) (hwf : s.nfcvScratch.wf = true)
  (hk : k ≤ s.env.fe.fifo.length) (hfit : s.fifo.bytesWritten.toNat + k ≤ s.params.nfcvScratchSize)
  (hraw : raw = readBytes s.nfcvScratch 0 s.fifo.bytesWritten.toNat ++ s.env.fe.fifo.take k)
  (hd : d = nfcvDecode raw (s.ctx.flags.getLsbD 1) (ceil8 s.ctx.rxBufLen.toNat))
include hm hin hwf hk hfit hraw hd

/-- The decode of a raw response in the scratch buffer, whatever the reception recorded of it. -/
theorem nfcvDecodeStep_scratchFilled (hlt : s.fifo.bytesWritten.toNat + k < 65536) (st : Status) (l : Len) :
    (nfcvDecodeStep { scratchFilled k total s with status := st, rxRcvdLen := l } >>= rxAfterData) =
      if d.bits < 65536 then .ok (endExchange d.status { scratchFilled k total s with
        buf := writeBytes s.buf s.ctx.rxBuf.toNat d.bytes, rxRcvdLen := BitVec.ofNat 16 d.bits })
      else .error .counterOverflow := by
  let u : State := { scratchFilled k total s with status := st, rxRcvdLen := l }
  have hw : u.fifo.bytesWritten.toNat = s.fifo.bytesWritten.toNat + k := toNat_ofNat_len hlt
  have hraw' : raw = readBytes u.nfcvScratch 0 u.fifo.bytesWritten.toNat := by
    have hlen : (s.env.fe.fifo.take k).length = k := List.length_take_of_le hk
    have happend := readBytes_writeBytes_append hwf s.fifo.bytesWritten.toNat (s.env.fe.fifo.take k)
    rw [hlen] at happend
    rw [hw, hraw]
    exact happend.symm
  exact nfcvDecodeStep_ends (s := u) hm hin (by rw [hw]; exact hfit) hraw' hd

/-- `RX_READ_DATA` for NFC-V (R162, R164): the rest of the raw response is copied, and its decode ends the exchange. -/
theorem rxReadData_nfcv (hq : quietEnv s) (hcache : s.cache = statusOf s.env.fe)
    (htotal : total = s.fifo.bytesTotal.toNat + s.env.fe.fifo.length)
    (hrest : k = min total s.params.nfcvScratchSize - s.fifo.bytesWritten.toNat)
    (hle : s.fifo.bytesWritten.toNat + k ≤ total) : rxReadData s =
      if total < 65536 ∧ d.bits < 65536 then .ok (endExchange d.status { scratchFilled k total s with
        buf := writeBytes s.buf s.ctx.rxBuf.toNat d.bytes, rxRcvdLen := BitVec.ofNat 16 d.bits })
      else .error .counterOverflow := by
  have hcap := rxCap_scratch hm
  have hrep : total = reportedBytes s total := by simp [reportedBytes, hm]
  rw [← hcap] at hrest hfit
  rw [rxReadData_eq hcache htotal hrep hrest, rxCopy_scratch hq hk hfit hm]
  by_cases hlt : total < 65536
  · have hlt' : s.fifo.bytesWritten.toNat + k < 65536 := by omega
    rw [toLen_of_lt hlt', ok_bind, ok_bind, toLen_of_lt hlt, ok_bind]
    have hdecode := nfcvDecodeStep_scratchFilled (total := total) hm hin hwf hk (hcap ▸ hfit) hraw hd hlt'
      (if rxCap s < total ∧ s.status = .busy then .noMem else s.status) s.rxRcvdLen
    have hand : (total < 65536 ∧ d.bits < 65536) = (d.bits < 65536) := by simp [hlt]
    simp only [hand, ← hdecode]
    dsimp only [reportedBits, drained]
    rw [if_pos hm, ok_bind]
    exact if_pos hm
  · rw [if_neg fun h => hlt h.1]
    by_cases hlt' : s.fifo.bytesWritten.toNat + k < 65536
    · rw [toLen_of_lt hlt', ok_bind, ok_bind, toLen_overflow (not_lt.1 hlt)]
      rfl
    · rw [toLen_overflow (not_lt.1 hlt')]
      rfl

end

/-- Only a mode of NFC-A has short replies (R181). -/
theorem frameVerdict_ne_incomplete {s : State} (h : s.mode ≠ .pollNfcA) : frameVerdict s ≠ .nfcaIncomplete := by
  have hshort (e : Word) (n : Nat) (ib : BitVec 3) : ¬ nfcaShortReply s.policy s.mode s.fifo.bytesTotal.toNat e n ib = true :=
    fun hs => h ((nfcaShortReply_iff _ _ _ _ _ _).1 hs).2.1
  rw [frameVerdict, classify, if_neg (hshort _ _ _)]
  repeat' split
  all_goals exact fun h => by cases h

/-- Settles O46: the rest of the response is copied, and the status of its decode replaces the one recorded. -/
theorem nfcvDecodeOverridesTheStatus : Obligations.NfcvDecodeOverridesTheStatus := by
  intro s e p n w k total cap raw d htop hx hmode hq hwf hscratch hin hp hrxe he hn hw hcount hle htotal hk hdiscard hcap hraw hd
  subst hp he hn hw hcap
  obtain ⟨hlen, hbusy⟩ := nfcvDecode_within raw (s.ctx.flags.getLsbD 1) (ceil8 s.ctx.rxBufLen.toNat)
  rw [show nfcvDecode raw (s.ctx.flags.getLsbD 1) (ceil8 s.ctx.rxBufLen.toNat) = d from hd.symm] at hlen hbusy
  let r : State := { frameChecked (irqRXE ||| irqWL) s with
    eofSeen := s.eofSeen, status := recorded (frameVerdict s) s.status, txrxState := .rxReadData }
  have hdiscard' : ∀ x, frameVerdict s = .error x → s.policy = .policyEMVCo →
      Config.emdThreshold ≤ s.fifo.bytesTotal.toNat + s.env.fe.fifo.length := by
    rw [frameVerdict, hcount, ← htotal]
    exact hdiscard
  have hread : txrxStep s = rxReadData r := by
    rw [txrxStep_rxWaitRxe hx, rxWaitRxe_checks_passive hq (by rw [hmode]; rfl) hrxe,
      rxOnVerdict_reads (frameVerdict_ne_incomplete (by rw [hmode]; decide)) hdiscard']
    rfl
  let t : State := { scratchFilled k total r with
    buf := writeBytes s.buf s.ctx.rxBuf.toNat d.bytes, rxRcvdLen := BitVec.ofNat 16 d.bits }
  have hend := rxReadData_nfcv (s := r) (total := total) (k := k) hmode hin hscratch
    (show k ≤ s.env.fe.fifo.length by omega) (show s.fifo.bytesWritten.toNat + k ≤ s.params.nfcvScratchSize by omega) hraw hd hq
    rfl (hcount ▸ htotal) hk (show s.fifo.bytesWritten.toNat + k ≤ total by omega)
  have htrace : t.env.trace = s.env.trace ++
      [.feGetIrq (irqRXE ||| irqWL) (s.env.fe.irqPending &&& (irqRXE ||| irqWL)),
        .feGetIrq errIrqs (s.env.fe.irqPending &&& errIrqs), statusEvent s.env.fe] ++ readEvents k s.env.fe := rfl
  refine ⟨hlen, hbusy, (endExchange .none t).env, t.buf, t.nfcvScratch, storedAt_writeBytes hwf _ _,
    storedAt_writeBytes hscratch _ _, ?_, by rw [endExchange_trace, htrace]; rfl⟩
  by_cases hlt : total < 65536 ∧ d.bits < 65536
  · rw [if_pos hlt] at hend ⊢
    exact exec_worker_of_end htop (hread.trans hend)
  · rw [if_neg hlt] at hend ⊢
    exact exec_worker_of_fault htop (hread.trans hend)

/-- Settles O59: a response within the scratch buffer is waited for, and one beyond it is decoded over `NoMem`. -/
theorem nfcvPartialDrainFillsTheScratchBuffer : Obligations.NfcvPartialDrainFillsTheScratchBuffer := by
  intro s p n w k total cap raw d htop hx hmode hq hwf hscratch hin hseen hp hi hn hw hcount hle htotal hlt hk hcap hraw hd
  subst hp hn hw hcap
  have hmask : irqRXE ||| irqWL = irqRXE ||| irqWL ||| eofIfActive s.mode := passive_mask (by rw [hmode]; rfl)
  let c : State := counted (irqRXE ||| irqWL) (BitVec.ofNat 16 total) s
  let u : State := scratchFilled k total c
  have hcaps : rxCap s = s.params.nfcvScratchSize := rxCap_scratch hmode
  have hkn : k ≤ s.env.fe.fifo.length := by omega
  have hfit : s.fifo.bytesWritten.toNat + k ≤ s.params.nfcvScratchSize := by omega
  have hsum : s.fifo.bytesWritten.toNat + k < 65536 := by omega
  have hcopy : rxCopy k c = .ok u := by
    have h := rxCopy_scratch (s := c) hq hkn (show _ ≤ rxCap s from hcaps ▸ hfit) hmode
    rwa [toLen_of_lt (show c.fifo.bytesWritten.toNat + k < 65536 from hsum)] at h
  have hstep : txrxStep s = if s.params.nfcvScratchSize < total then
      nfcvDecodeStep { u with status := .noMem } >>= rxAfterData else .ok { u with txrxState := .rxWaitRxe } := by
    have hbeyond : rxBeyondCapacity u = (nfcvDecodeStep { u with status := .noMem } >>= rxAfterData) := if_pos hmode
    rw [txrxStep_rxWaitRxe hx, rxWaitRxe_watermark (k := k) hq hmask hi hseen
      ((toNat_ofNat_len hlt).trans (by rw [htotal, hcount])) (by rw [hcaps]; exact hk), hcopy, ok_bind, hbeyond, show rxCap u = _ from hcaps, toNat_ofNat_len hlt]
  have hstored := storedAt_writeBytes hscratch s.fifo.bytesWritten.toNat (s.env.fe.fifo.take k)
  have htrace : u.env.trace = s.env.trace ++ [.feGetIrq (irqRXE ||| irqWL) irqWL, statusEvent s.env.fe] ++
      readEvents k s.env.fe := rfl
  by_cases hroom : total ≤ s.params.nfcvScratchSize
  · rw [if_neg (not_lt.2 hroom), hx.symm] at hstep
    refine ⟨u.env, writeBytes s.buf s.ctx.rxBuf.toNat d.bytes, u.nfcvScratch, storedAt_writeBytes hwf _ _, hstored, rfl, ?_, ?_⟩
    · rw [if_pos hroom, exec_worker_of_step htop hstep]
      rfl
    · rw [if_pos hroom, htrace, List.append_nil]
      rfl
  · let t : State := { u with buf := writeBytes s.buf s.ctx.rxBuf.toNat d.bytes, rxRcvdLen := BitVec.ofNat 16 d.bits }
    have hdecode := nfcvDecodeStep_scratchFilled (s := c) (total := total) hmode hin hscratch hkn hfit hraw hd hsum .noMem
      s.rxRcvdLen
    rw [if_pos (not_le.1 hroom)] at hstep
    replace hstep := hstep.trans hdecode
    refine ⟨(endExchange .none t).env, t.buf, u.nfcvScratch, storedAt_writeBytes hwf _ _, hstored,
      endExchange_fifo (s := t) hq .none, ?_, ?_⟩
    · rw [if_neg hroom]
      by_cases hbits : d.bits < 65536
      · rw [if_pos hbits] at hstep ⊢
        exact exec_worker_of_end htop hstep
      · rw [if_neg hbits] at hstep ⊢
        exact exec_worker_of_fault htop hstep
    · rw [if_neg hroom, endExchange_trace, show t.env.trace = _ from htrace]
      rfl

end Sys2Proof.Machine

/-! # The recovery of the EMVCo policy (`44_error_policy.md` R182, R183), with a quiet front end -/

namespace Sys2Proof.Machine

/-- Every error the classifier gives is of a kind the filter discards (R158, R182). -/
theorem classify_emdKind {policy : Policy} {mode : Mode} {total n : Nat} {e : Word} {ib : BitVec 3} {mp : Bool} {x : Status}
    (h : classify policy mode total e n ib mp = .error x) : emdKind x = true := by
  unfold classify at h
  repeat' split at h
  all_goals cases h
  all_goals rfl

/-- `FeCmd` to a quiet front end: its effect and its event (R237). -/
theorem feCmd_after {s : State} (hq : quietEnv s) (c : FeCommand) :
    feCmd c s = { s with env := s.env.after [.feCmd c] (commandEffect c s.env.fe) } := by
  rw [feCmd, feCall, atCall_quiet hq]
  rfl

/-- The reception starts over on an empty FIFO: two calls, and no Cleanup and no timer start among them (R183). -/
theorem discardAndRearm_after {s : State} (hq : quietEnv s) : discardAndRearm s = { s with
    fifo := { s.fifo with bytesTotal := 0, bytesWritten := 0 }, cache := { s.cache with valid := false }
    sw := { s.sw with rxeGuard := false }, txrxState := .rxWaitRxs
    env := s.env.after [.feCmd .clearFifo, .feCmd .unmaskRx] { s.env.fe with fifo := [] } } := by
  have hclear := feCmd_after hq .clearFifo
  have hunmask := feCmd_after (s := feCmd .clearFifo s) (by rw [hclear]; exact hq) .unmaskRx
  rw [discardAndRearm, hunmask, hclear]
  simp only [Env.after_after]
  rfl

/-- A short erroneous frame is discarded under the EMVCo policy (R182). -/
theorem rxOnVerdict_discards {s : State} {e : Status} (hp : s.policy = .policyEMVCo) (he : emdKind e = true)
    (hshort : s.fifo.bytesTotal.toNat + s.cache.numBytes < Config.emdThreshold) :
    rxOnVerdict (.error e) s = .ok (discardAndRearm s) := by
  have hdiscard : emdDiscard s.policy s.fifo.bytesTotal.toNat e s.cache.numBytes = true := by
    simp [emdDiscard, hp, he, hshort]
  exact if_pos hdiscard

/-- Settles O45: the frame is checked, its verdict is an error the filter discards, and the reception starts over. -/
theorem emvcoDiscardsShortErroneousFrames : Obligations.EmvcoDiscardsShortErroneousFrames := by
  intro s p m n x htop hx hpolicy hq hm hp hrxe hn hshort hverdict
  subst hp hn
  let c : State := frameChecked m s
  have hchecked : txrxStep s = rxOnVerdict (.error x) c := by
    have hframe : frameVerdict s = .error x := hverdict
    rw [txrxStep_rxWaitRxe hx, rxWaitRxe_checks hq hm hrxe, hframe]
  have hdiscarded : rxOnVerdict (.error x) c = .ok (discardAndRearm c) :=
    rxOnVerdict_discards hpolicy (classify_emdKind hverdict) hshort
  have hexec := exec_worker_of_step htop (hchecked.trans hdiscarded)
  rw [discardAndRearm_after (s := c) hq] at hexec
  refine ⟨c.env.after [.feCmd .clearFifo, .feCmd .unmaskRx] { c.env.fe with fifo := [] }, hexec, rfl, rfl, ?_⟩
  exact List.append_assoc _ _ _

end Sys2Proof.Machine

/-! # Listen mode (`45_listen.md`)

Two operations begin alike: LISTEN_START and WAKEUP_START ask of the state that the block is initialised, that no exchange
runs and that the other machine is not current (R192, R206). A Listen step is written out once with its answer to the poll
(`lmPowerOff_eq`, `lmIdle_eq`); what it then does with a frame is written out for a quiet front end. -/

namespace Sys2Proof.Machine

/-! ## LISTEN_START and WAKEUP_START: the state they ask for (R192, R206) -/

section
variable {s : State} {other : TopState}

/-- What both operations ask of the state; `other` is the sibling machine, which must not be current. -/
def siblingReady (other : TopState) (s : State) : Prop := s.topState ∉ [TopState.notInit, other] ∧ s.txrxState = .idle

/-- The checks both operations begin with, before those of their operands. -/
theorem siblingChecks_unready (h : ¬ siblingReady other s) (rest : Option Status) :
    (if below s.topState .init = true then some Status.wrongState
      else if s.txrxState ≠ .idle ∨ s.topState = other then some .wrongState else rest) = some .wrongState := by
  by_cases h1 : below s.topState .init = true
  · rw [if_pos h1]
  · have h2 : s.txrxState ≠ .idle ∨ s.topState = other := by
      rw [below_init_iff] at h1
      by_contra hn
      obtain ⟨hi, hother⟩ := not_or.1 hn
      exact h ⟨by simp [h1, hother], not_not.1 hi⟩
    rw [if_neg h1, if_pos h2]

theorem siblingChecks_ready (h : siblingReady other s) (rest : Option Status) :
    (if below s.topState .init = true then some Status.wrongState
      else if s.txrxState ≠ .idle ∨ s.topState = other then some .wrongState else rest) = rest := by
  obtain ⟨htop, hi⟩ := h
  simp only [List.mem_cons, List.not_mem_nil, or_false, not_or] at htop
  rw [if_neg (by rw [below_init_iff]; exact htop.1), if_neg (not_or.2 ⟨not_not.2 hi, htop.2⟩)]

theorem listenStartError_ready (h : siblingReady .wakeUp s) (mask : BitVec 4) (rx : Word) (rxLen : Len) :
    listenStartError mask rx rxLen s = if mask = 0 then some .param
      else if mask &&& 0b0111 ≠ 0 then some .notSupported
      else if inBounds s.params rx rxLen.toNat then none else some .param := siblingChecks_ready h _

theorem wakeupStartError_ready (h : siblingReady .listen s) (amp pha cap : Channel) :
    wakeupStartError amp pha cap s = if cap.enabled && (amp.enabled || pha.enabled) then some .param
      else if cap.enabled then some .notImplemented
      else if !(amp.enabled || pha.enabled) then some .param else none := by
  rw [Bool.not_or]
  exact siblingChecks_ready h _

end

/-- A passive-listen bit is set (R198). -/
theorem passiveBits_iff (mask : BitVec 4) :
    mask &&& 0b0111 ≠ 0 ↔ mask.getLsbD 0 = true ∨ mask.getLsbD 1 = true ∨ mask.getLsbD 2 = true := by
  revert mask
  decide

theorem exec_listenStart_of_error {s : State} {mask : BitVec 4} {rx : Word} {rxLen : Len} {e : Status}
    (h : listenStartError mask rx rxLen s = some e) :
    exec (.listenStart mask rx rxLen) s = .next { s with result := e } := by
  simp only [exec, execListenStart, h, finish]

theorem exec_wakeupStart_of_error {s : State} {amp pha cap : Channel} {e : Status}
    (h : wakeupStartError amp pha cap s = some e) :
    exec (.wakeupStart amp pha cap) s = .next { s with result := e } := by
  simp only [exec, execWakeupStart, h, finish]

/-- Settles O49: past the checks of the state come those of the operands, in the order of R192 and of R206. -/
theorem listenAndWakeupStartReject : Obligations.ListenAndWakeupStartReject := by
  refine ⟨?_, ?_⟩
  · intro s mask rx rxLen ready
    refine ⟨fun h => ?_, fun h hmask => ?_, fun h hbits => ?_, fun h hmask hb => ?_⟩
    · exact exec_listenStart_of_error (siblingChecks_unready h _)
    · exact exec_listenStart_of_error (by rw [listenStartError_ready h, if_pos hmask])
    · have hpassive : mask &&& 0b0111 ≠ 0 := (passiveBits_iff mask).2 hbits
      have hmask : mask ≠ 0 := by
        rintro rfl
        exact hpassive rfl
      exact exec_listenStart_of_error (by rw [listenStartError_ready h, if_neg hmask, if_pos hpassive])
    · exact exec_listenStart_of_error (by rw [listenStartError_ready h, hmask, hb]; rfl)
  · intro s amp pha cap ready inductive'
    refine ⟨fun h => ?_, fun h hcap (hind : (amp.enabled || pha.enabled) = true) => ?_,
      fun h hcap (hind : (amp.enabled || pha.enabled) = false) => ?_,
      fun h hcap (hind : (amp.enabled || pha.enabled) = false) => ?_⟩
    · exact exec_wakeupStart_of_error (siblingChecks_unready h _)
    all_goals exact exec_wakeupStart_of_error (by rw [wakeupStartError_ready h, hcap, hind]; rfl)

/-! ## LISTEN_START accepted (R192, R227) -/

/-- The three calls of LISTEN_START, once the context is loaded (R192). -/
def listenConfigure (s : State) : State := feConfig (.listenAp2p true) (feIrqEnable lmIrqs (feDiscardIrq lmIrqs s))

theorem listenConfigure_env (s : State) :
    (listenConfigure s).env.trace = s.env.trace ++
      [.feGetIrq lmIrqs (polled lmIrqs s), .feIrqEnable lmIrqs, .feConfig (.listenAp2p true)] ∧
    (listenConfigure s).env.fe.config = { s.env.fe.config with listenAp2p := some true } ∧
    (listenConfigure s).env.fe.irqEnable = s.env.fe.irqEnable ||| lmIrqs := by
  simp [listenConfigure, calls_frontEnd, putSetting, polled]

theorem exec_listenStart_of_accepted {s : State} {mask : BitVec 4} {rx : Word} {rxLen : Len}
    (h : listenStartError mask rx rxLen s = none) : exec (.listenStart mask rx rxLen) s = .next { s with
      lm := ⟨rx, rxLen, 0, .keep, false⟩, lmState := .powerOff, topState := .listen, result := .none
      env := (listenConfigure { s with lm := ⟨rx, rxLen, 0, .keep, false⟩ }).env } := by
  simp [exec, execListenStart, h, finish, listenConfigure]

/-- Settles O48: the checks let the operation pass, and its three calls follow. -/
theorem listenStartCompletes : Obligations.ListenStartCompletes := by
  intro s mask rx rxLen htop hi hmask hb
  have haccepted : listenStartError mask rx rxLen s = none := by
    rw [listenStartError_ready ⟨htop, hi⟩, hmask, hb]
    rfl
  exact ⟨_, exec_listenStart_of_accepted haccepted, listenConfigure_env _⟩

/-! ## LISTEN_STOP, WAKEUP_STOP (R193, R207) -/

/-- The calls of LISTEN_STOP, made where Listen is current (R193). -/
def listenRelease (s : State) : State := feIrqDisable lmIrqs (feConfig (.listenAp2p false) s)

theorem listenRelease_env (s : State) :
    (listenRelease s).env.trace = s.env.trace ++ [.feConfig (.listenAp2p false), .feIrqDisable lmIrqs] ∧
    (listenRelease s).env.fe.config = { s.env.fe.config with listenAp2p := some false } ∧
    (listenRelease s).env.fe.irqEnable = s.env.fe.irqEnable &&& ~~~lmIrqs := by
  simp [listenRelease, calls_frontEnd, putSetting]

theorem exec_listenStop_eq (s : State) : exec .listenStop s = .next { s with
    lmState := .notInit, lm := { s.lm with dataFlag := false, rxLen := 0, bitRate := .keep }
    topState := if s.topState = .listen then .init else s.topState
    env := if s.topState = .listen then (listenRelease s).env else s.env, result := .none } := by
  by_cases htop : s.topState = .listen <;> simp [exec, execListenStop, finish, htop, listenRelease]

/-- The calls of WAKEUP_STOP, made where Wake-Up is current (R207). -/
def wakeupRelease (s : State) : State := feIrqDisable (irqWAM ||| irqWPH ||| irqWCAP) (feConfig (.wakeup none) s)

theorem wakeupRelease_env (s : State) :
    (wakeupRelease s).env.trace =
      s.env.trace ++ [.feConfig (.wakeup none), .feIrqDisable (irqWAM ||| irqWPH ||| irqWCAP)] ∧
    (wakeupRelease s).env.fe.irqEnable = s.env.fe.irqEnable &&& ~~~(irqWAM ||| irqWPH ||| irqWCAP) := by
  simp [wakeupRelease]

theorem exec_wakeupStop_eq (s : State) : exec .wakeupStop s = .next { s with
    wuState := .notInit
    wu := ⟨{ s.wu.amp with enabled := false }, { s.wu.pha with enabled := false }, { s.wu.cap with enabled := false }⟩
    topState := if s.topState = .wakeUp then .init else s.topState
    env := if s.topState = .wakeUp then (wakeupRelease s).env else s.env, result := .none } := by
  by_cases htop : s.topState = .wakeUp <;> simp [exec, execWakeupStop, finish, htop, wakeupRelease]

/-- Settles O50: each operation resets its context, and makes its two calls only where its machine is current. -/
theorem listenAndWakeupStop : Obligations.ListenAndWakeupStop := by
  refine ⟨fun a => ⟨decodeInvertsEncode .listenStop a rfl, decodeInvertsEncode .wakeupStop a rfl⟩,
    fun s => ⟨_, exec_listenStop_eq s, fun htop => if_neg htop, fun htop => ?_⟩,
    fun s => ⟨_, exec_wakeupStop_eq s, fun htop => if_neg htop, fun htop => ?_⟩⟩
  · rw [if_pos htop]
    exact listenRelease_env s
  · rw [if_pos htop]
    exact wakeupRelease_env s

/-! ## WORKER while Listen is current -/

theorem exec_worker_of_listenStep {s t : State} (htop : s.topState = .listen) (h : listenStep s = .ok t) :
    exec .worker s = .next { t with result := .none } := by
  simp only [exec, execWorker, workerStep, htop, h, andThen, finish]

theorem listenStep_powerOff {s : State} (h : s.lmState = .powerOff) : listenStep s = lmPowerOff s := by
  simp only [listenStep, h]

theorem listenStep_idle {s : State} (h : s.lmState = .idle) : listenStep s = lmIdle s := by
  simp only [listenStep, h]

/-- `LM_POWER_OFF`: the poll for the field decides (R195). -/
theorem lmPowerOff_eq (s : State) : lmPowerOff s = .ok { s with
    lmState := if has (polled irqEON s) irqEON then .idle else s.lmState, env := (feGetIrq irqEON s).2.env } := by
  rw [lmPowerOff, feGetIrq_eq]
  by_cases hon : has (polled irqEON s) irqEON = true
  · simp only [if_pos hon]
  · simp only [if_neg hon]

/-- What the poll of `LM_IDLE` asks for (R196). -/
def listenPoll : Word := irqNFCT ||| irqRXE ||| irqEOF ||| irqPAR ||| irqCRC ||| irqERR1

/-- The state in which the poll of `LM_IDLE` is answered and the bit rate it detected is recorded (R196). -/
def listenPolled (s : State) : State := listenBitRate (polled listenPoll s) (feGetIrq listenPoll s).2

/-- `LM_IDLE` with no frame held: a frame, else the loss of the field (R196). -/
theorem lmIdle_eq {s : State} (hd : s.lm.dataFlag = false) : lmIdle s =
    if has (polled listenPoll s) irqRXE then listenFrame (polled listenPoll s) (listenPolled s)
    else .ok { listenPolled s with
      lmState := if has (polled listenPoll s) irqEOF then .powerOff else (listenPolled s).lmState } := by
  rw [lmIdle, hd, if_neg Bool.false_ne_true]
  show (if has (polled listenPoll s) irqRXE = true then listenFrame (polled listenPoll s) (listenPolled s)
    else if has (polled listenPoll s) irqEOF = true then .ok { listenPolled s with lmState := .powerOff }
    else .ok (listenPolled s)) = _
  congr 1
  split <;> rfl

/-- The call that reads a detected bit rate (R196). -/
def bitRateEvents (i : Word) (f : FrontEnd) : List Event :=
  if has i irqNFCT then [.feDetectedBitRate f.detectedBitRate] else []

/-- On `NFCT` one call reads the bit rate, and it is recorded (R196). -/
theorem listenBitRate_spec (i : Word) (s : State) :
    listenBitRate i s = { s with
      lm := { s.lm with bitRate := if has i irqNFCT then (atCall s).env.fe.detectedBitRate else s.lm.bitRate }
      env := (listenBitRate i s).env } ∧
    (listenBitRate i s).env.trace = s.env.trace ++ bitRateEvents i (atCall s).env.fe := by
  by_cases hrate : has i irqNFCT = true <;> simp [listenBitRate, feDetectedBitRate, bitRateEvents, hrate]

/-- Settles O51: the poll decides in both states; in `LM_IDLE` the bit rate is recorded before. -/
theorem listenFollowsTheField : Obligations.ListenFollowsTheField := by
  refine ⟨fun s htop hl => ?_, ?_⟩
  · have hstep := exec_worker_of_listenStep htop ((listenStep_powerOff hl).trans (lmPowerOff_eq s))
    rw [hl] at hstep
    exact ⟨_, hstep, feGetIrq_trace irqEON s⟩
  · rintro s _ _ htop hl hd rfl rfl hrxe
    obtain ⟨hstate, htrace⟩ := listenBitRate_spec (polled listenPoll s) (feGetIrq listenPoll s).2
    have hstep := exec_worker_of_listenStep htop
      ((listenStep_idle hl).trans ((lmIdle_eq hd).trans (if_neg (Bool.eq_false_iff.1 hrxe))))
    refine ⟨(listenPolled s).env, _, rfl, hstep.trans ?_, ?_⟩
    · rw [listenPolled, hstate]
      simp only [feGetIrq_fields, hl]
      rfl
    · rw [listenPolled, htrace, feGetIrq_trace]
      rfl

/-! ## A frame in `LM_IDLE`, with a quiet front end (R197) -/

theorem strip_le (n : Nat) : strip n ≤ n := by
  unfold strip
  split <;> omega

section
variable {s : State} (hq : quietEnv s)
include hq

theorem listenBitRate_after (i : Word) : listenBitRate i s = { s with
    lm := { s.lm with bitRate := if has i irqNFCT then s.env.fe.detectedBitRate else s.lm.bitRate }
    env := s.env.after (bitRateEvents i s.env.fe) s.env.fe } := by
  by_cases hrate : has i irqNFCT = true <;>
    simp [listenBitRate, feDetectedBitRate, atCall_quiet hq, bitRateEvents, hrate, emit, logEvent, Env.after]

/-- A bad frame is dropped by three calls, which clear the FIFO and reset collision avoidance (R197). -/
theorem listenBadFrame_after : listenBadFrame s = { s with
    env := s.env.after [.feCmd .clearFifo, .feCmd .resetCa, .feCmd .unmaskRx] { s.env.fe with fifo := [] } } := by
  have hclear := feCmd_after hq .clearFifo
  have hreset := feCmd_after (s := feCmd .clearFifo s) (by rw [hclear]; exact hq) .resetCa
  have hunmask := feCmd_after (s := feCmd .resetCa (feCmd .clearFifo s)) (by rw [hreset, hclear]; exact hq) .unmaskRx
  rw [listenBadFrame, hunmask, hreset, hclear]
  simp only [Env.after_after]
  rfl

/-- A good frame is stored without its CRC, up to the capacity of the Listen buffer, and held for the host (R197). -/
theorem listenGoodFrame_after {k : Nat} {l : Len} (hb : inBounds s.params s.lm.rxBuf s.lm.rxBufLen.toNat = true)
    (hk : k = min (strip s.env.fe.fifo.length) (ceil8 s.lm.rxBufLen.toNat)) (hl : l.toNat = 8 * k) :
    listenGoodFrame s = .ok { s with
      lm := { s.lm with rxLen := l, dataFlag := true }, cache := statusOf s.env.fe
      buf := writeBytes s.buf s.lm.rxBuf.toNat (s.env.fe.fifo.take k)
      env := s.env.after ([statusEvent s.env.fe] ++ readEvents k s.env.fe ++ [.feCmd .clearFifo])
        { s.env.fe with fifo := [] } } := by
  let u : State := { s with cache := statusOf s.env.fe, env := s.env.after [statusEvent s.env.fe] s.env.fe }
  have hu : fifoStatus (cacheInvalidate s) = u := fifoStatus_after (s := cacheInvalidate s) hq rfl
  have hfit : k ≤ s.env.fe.fifo.length := by
    have hstrip := strip_le s.env.fe.fifo.length
    omega
  have hread : feFifoRead k u = .ok (s.env.fe.fifo.take k, drained k u) := feFifoRead_after (s := u) hq hfit
  have hwrite : bufWrite s.lm.rxBuf.toNat (s.env.fe.fifo.take k) (drained k u) =
      .ok { drained k u with buf := writeBytes s.buf s.lm.rxBuf.toNat (s.env.fe.fifo.take k) } := by
    obtain ⟨h0, hend⟩ := ceil8_le hb
    have hroom : s.lm.rxBuf.toNat + (s.env.fe.fifo.take k).length ≤ s.params.bufSize := by
      rw [List.length_take]
      omega
    exact if_pos (bufAccessOk_of_le h0 hroom)
  rw [listenGoodFrame, hu]
  dsimp only
  rw [show min (strip u.cache.numBytes) (ceil8 u.lm.rxBufLen.toNat) = k from hk.symm, hread, ok_bind]
  show (bufWrite s.lm.rxBuf.toNat (s.env.fe.fifo.take k) (drained k u) >>= _) = _
  rw [hwrite, ok_bind, toLen_eq hl, ok_bind, feCmd_after (by exact hq)]
  simp only [drained, u, Env.after_after]
  rfl

end

/-- Settles O52: the poll and the bit rate come first (`listenPolled`); the frame's error flags then decide whether it is held
or dropped. -/
theorem listenFrameIsHeldOrDropped : Obligations.ListenFrameIsHeldOrDropped := by
  intro s p mask n k br htop hl hd hq hwf hb hmask hp hrxe hn hk hk16 hbr polls
  subst hp hn hbr hmask
  let i : Word := s.env.fe.irqPending &&& listenPoll
  have hi : polled listenPoll s = i := by rw [polled, atCall_quiet hq, pendingIn]
  have hflag {f : Word} (hf : listenPoll &&& f = f) : has i f = has s.env.fe.irqPending f := by rw [has_and, hf]
  let u : State := { s with
    lm := { s.lm with bitRate := if has s.env.fe.irqPending irqNFCT then s.env.fe.detectedBitRate else s.lm.bitRate }
    env := s.env.after polls { s.env.fe with irqPending := s.env.fe.irqPending &&& ~~~listenPoll } }
  have hu : listenPolled s = u := by
    rw [listenPolled, hi, feGetIrq_after hq, listenBitRate_after (by exact hq), bitRateEvents, hflag rfl]
    simp only [Env.after_after]
    rfl
  have hframe : listenStep s = listenFrame i u := by
    rw [listenStep_idle hl, lmIdle_eq hd, hi, hu, if_pos ((hflag rfl).trans hrxe)]
  refine ⟨fun hgood => ?_, fun hbad => ?_⟩
  · have hlen := toNat_ofNat_len hk16
    have hheld := listenGoodFrame_after (s := u) hq hb hk hlen
    have hstep : listenStep s = _ := hframe.trans ((if_neg (Bool.eq_false_iff.1 ((hflag rfl).trans hgood))).trans hheld)
    refine ⟨_, _, _, hlen, storedAt_writeBytes hwf _ _, exec_worker_of_listenStep htop hstep, rfl, ?_⟩
    simp only [Env.after_fields, u, List.append_assoc]
    rfl
  · have hdropped : listenFrame i u = .ok _ :=
      (if_pos ((hflag rfl).trans hbad)).trans (congrArg Except.ok (listenBadFrame_after (s := u) hq))
    refine ⟨_, exec_worker_of_listenStep htop (hframe.trans hdropped), rfl, ?_⟩
    simp only [Env.after_fields, u, List.append_assoc]

end Sys2Proof.Machine

/-! # Wake-Up mode (`46_wakeup.md`)

A Wake-Up step is written out once with its answer to the poll (`wakeUpStep_enabled`). WAKEUP_START is written out in two parts,
for a quiet front end: the context with its measured references, and the four calls that follow. -/

namespace Sys2Proof.Machine

/-! ## WORKER while Wake-Up is current (R208) -/

theorem exec_worker_of_wakeUpStep {s t : State} (htop : s.topState = .wakeUp) (h : wakeUpStep s = .ok t) :
    exec .worker s = .next { t with result := .none } := by
  simp only [exec, execWorker, workerStep, htop, h, andThen, finish]

/-- `WU_ENABLED`: any flag of an enabled channel ends the polling (R208). -/
theorem wakeUpStep_enabled {s : State} (h : s.wuState = .enabled) : wakeUpStep s = .ok { s with
    wuState := if polled (wakeMask s.wu) s = 0 then .enabled else .enabledWoke
    env := (feGetIrq (wakeMask s.wu) s).2.env } := by
  simp only [wakeUpStep, h]
  rw [feGetIrq_eq]
  by_cases hflag : polled (wakeMask s.wu) s = 0
  · simp only [hflag, ne_eq, not_true_eq_false, if_false, if_true, ← h]
  · simp only [hflag, ne_eq, not_false_eq_true, if_true, if_false]

/-- However many WORKERs are issued in `WU_ENABLED_WOKE`, they leave all but `RESULT` as it is (R208). -/
theorem workers_woke (n : Nat) {s : State} (htop : s.topState = .wakeUp) (hw : s.wuState = .enabledWoke) :
    workers n s = some { s with result := if n = 0 then s.result else .none } := by
  induction n generalizing s with
  | zero => rfl
  | succ n ih =>
    have hskip : exec .worker s = .next { s with result := .none } :=
      workerSkipsWithNothingActive s (.inr (.inr (.inr (.inr ⟨htop, by simp [hw]⟩))))
    rw [workers, hskip]
    simpa using ih (s := { s with result := .none }) htop hw

/-- Settles O54: the poll decides in `WU_ENABLED`, and nothing is polled in `WU_ENABLED_WOKE`. -/
theorem wakeupLatchesWoke : Obligations.WakeupLatchesWoke := by
  rintro s _ htop rfl
  exact ⟨fun hw => ⟨_, exec_worker_of_wakeUpStep htop (wakeUpStep_enabled hw), feGetIrq_trace _ s⟩,
    fun hw n => workers_woke n htop hw⟩

/-! ## WAKEUP_START accepted, with a quiet front end (R206) -/

/-- What `FeMeasure(ch)` reads of a front end (R206). -/
def measurement (ch : MeasureChannel) (f : FrontEnd) : Byte :=
  match ch with
  | .amp => f.measuredAmp
  | .pha => f.measuredPha

/-- The reference a channel starts with: measured where it asks for that, else the one supplied (R205, R206). -/
def startReference (ch : MeasureChannel) (c : Channel) (f : FrontEnd) : Byte :=
  if c.enabled = true ∧ c.refAuto = true then measurement ch f else c.reference

/-- The call that measures a channel's reference `r`, where the channel asks for it (R206). -/
def measureEvents (ch : MeasureChannel) (c : Channel) (r : Byte) : List Event :=
  if c.enabled = true ∧ c.refAuto = true then [.feMeasure ch r] else []

section
variable {s : State} (hq : quietEnv s)
include hq

theorem feMeasure_after (ch : MeasureChannel) : feMeasure ch s = (measurement ch s.env.fe,
    { s with env := s.env.after [.feMeasure ch (measurement ch s.env.fe)] s.env.fe }) := by
  cases ch <;> rw [feMeasure.eq_def, atCall_quiet hq] <;> rfl

theorem measuredChannel_after (ch : MeasureChannel) (c : Channel) : measuredChannel ch c s =
    ({ c with reference := startReference ch c s.env.fe },
      { s with env := s.env.after (measureEvents ch c (startReference ch c s.env.fe)) s.env.fe }) := by
  unfold measuredChannel startReference measureEvents
  by_cases hasks : c.enabled = true ∧ c.refAuto = true
  · rw [if_pos (by simpa using hasks), feMeasure_after hq]
    simp only [if_pos hasks]
  · rw [if_neg (by simpa using hasks)]
    simp only [if_neg hasks, Env.after, List.append_nil]

/-- The context is written with its references measured, amplitude first (R206). -/
theorem wakeupContext_after (amp pha cap : Channel) : wakeupContext amp pha cap s = { s with
    wu := ⟨{ amp with reference := startReference .amp amp s.env.fe },
      { pha with reference := startReference .pha pha s.env.fe }, cap⟩
    env := s.env.after (measureEvents .amp amp (startReference .amp amp s.env.fe) ++
      measureEvents .pha pha (startReference .pha pha s.env.fe)) s.env.fe } := by
  rw [wakeupContext, measuredChannel_after hq]
  dsimp only
  rw [measuredChannel_after (by exact hq)]
  simp only [Env.after_after]
  rfl

/-- The four calls that follow the measurements (R206). -/
theorem wakeupConfigure_env :
    (wakeupConfigure s).env.trace = s.env.trace ++ [.feConfig (.txrxEnable false),
      .feConfig (.wakeup (some (s.wu.amp, s.wu.pha))),
      .feGetIrq (wakeMask s.wu) (s.env.fe.irqPending &&& wakeMask s.wu), .feIrqEnable (wakeMask s.wu)] ∧
    (wakeupConfigure s).env.fe.irqEnable = s.env.fe.irqEnable ||| wakeMask s.wu := by
  have hscript : s.env.script = [] := hq
  simp [wakeupConfigure, calls_frontEnd, atCall_quiet, hscript, pendingIn]

end

theorem exec_wakeupStart_of_accepted {s : State} {amp pha cap : Channel} (h : wakeupStartError amp pha cap s = none) :
    exec (.wakeupStart amp pha cap) s = .next { wakeupContext amp pha cap s with
      wuState := .enabled, topState := .wakeUp, fieldOn := false, result := .none
      env := (wakeupConfigure (wakeupContext amp pha cap s)).env } := by
  simp [exec, execWakeupStart, h, finish, wakeupConfigure]

/-- Settles O53: the checks let the operation pass, the references are measured, and four calls follow. -/
theorem wakeupStartCompletes : Obligations.WakeupStartCompletes := by
  rintro s amp pha cap _ _ _ htop hi hcap hind rfl hq rfl rfl
  have hinductive : (amp.enabled || pha.enabled) = true := by simpa using hind
  have haccepted : wakeupStartError amp pha cap s = none := by
    rw [wakeupStartError_ready ⟨htop, hi⟩, hcap, hinductive]
    rfl
  have hcontext := wakeupContext_after hq amp pha cap
  have hexec := exec_wakeupStart_of_accepted haccepted
  rw [hcontext] at hexec
  obtain ⟨htrace, henable⟩ := wakeupConfigure_env (s := wakeupContext amp pha cap s) (by rw [hcontext]; exact hq)
  rw [hcontext] at htrace henable
  refine ⟨_, hexec, htrace.trans ?_, henable⟩
  simp only [Env.after_fields, List.append_assoc]
  rfl

end Sys2Proof.Machine
